-- ==== Sys2Proof/Word.lean ====
section
/-! DEFINITION. The bit vectors the hart is made of, and how wide registers are held.
A register whose width depends on the configuration (WLEN, MXVL, CLEN bits) is held in the widest
member of the family, its unused upper bits zero; the operations of Machine/Params.lean narrow. -/

namespace Sys2Proof

/-- One byte of memory (20_memory.md R100). -/
abbrev Byte := BitVec 8

/-- A 16-bit instruction parcel (20_memory.md R106). -/
abbrev Parcel := BitVec 16

/-- A WLEN-bit value: 8, 16, 32 or 64 bits (00_scope.md R6), upper bits zero. -/
abbrev Word := BitVec 64

/-- An MXVL-bit vector register: up to 512 bits (10_state.md R27), upper bits zero. -/
abbrev VWord := BitVec 512

/-- The bits of one instruction of 2, 4 or 6 bytes, `W` of 30_encoding.md R131; upper bits zero. -/
abbrev InstrBits := BitVec 48

end Sys2Proof
end

