-- ==== Sys2Proof/Syntax.lean ====
section
/-! DEFINITION. The instructions the spec defines: the five rows of spec/opcode_table.json. -/

namespace Sys2Proof

/-- The five instructions the source names (40_event_return_and_system.md R180); it names no operand
of any of them. Everything else OPCODE_MAP may supply is a `Sem` of Config.lean. -/
inductive Instr where
  /-- HLT, halt the hart (R181). -/
  | hlt
  /-- ERET, return from a machine-level event handler (R182). -/
  | eret
  /-- UERET, return from a user-level event handler (R183). -/
  | ueret
  /-- URET, demotion from machine to user mode (R184). -/
  | uret
  /-- The system call instruction (R185); the mnemonic is the spec's own. -/
  | syscall
  deriving DecidableEq, Repr

end Sys2Proof
end

