-- ==== Sys2Proof/Config.lean ====
section
/-! DEFINITION. The configuration of a hart: every parameter the architecture or the spec leaves to the
implementation (00_scope.md R5), as plain data, and the free values (opaque, without a body) for what
no parameter can give. The derived numbers (WLEN, SRFS, ...) are in Machine/Params.lean. -/

namespace Sys2Proof

/-! ### Modules, modes, events -/

/-- The optional modules the source names (00_scope.md R2). -/
inductive Module where
  | vc | vf | hlpr | perfc | frmd | tm | fnc | exc | ioint | ipcint | dalign | user | ctxr | sa
  deriving DecidableEq, Repr

/-- The two privilege levels (60_exceptions.md R252). -/
inductive Mode where
  | machine | user
  deriving DecidableEq, Repr

/-- What an access to main memory does (20_memory.md R118). -/
inductive AccessKind where
  | read | write | fetch
  deriving DecidableEq, Repr

/-- The type of an event (60_exceptions.md R220). -/
inductive EventKind where
  | exception | fault | ioInterrupt | ipcInterrupt
  deriving DecidableEq, Repr

/-- An implementation-specific event, code 370 + slot: 370 to 511 (60_exceptions.md R229, U7). -/
structure CustomEvent where
  slot : Fin 142
  kind : EventKind
  /-- Global priority; none where the implementation gives none. -/
  gp   : Option Nat
  /-- Local priority; none for program order. -/
  lp   : Option Nat
  deriving DecidableEq, Repr

/-- The arithmetic flags (10_state.md R93): signals an instruction raises, never stored. The number is
the base-2 logarithm of the operand size in bytes: `covr 2` is COVR4. -/
inductive Flag where
  | covr (log : Fin 4)
  | cund
  | ovfl (log : Fin 4)
  | unfl (log : Fin 4)
  | div0
  deriving DecidableEq, Repr

/-! ### What helper registers and counters do -/

/-- What a helper register does, by its mode (10_state.md R31). -/
inductive Watch where
  /-- Modes 0 and 255, and 128 to 254 by default: fires nothing (R31, R33, U6). -/
  | nothing
  /-- Modes 1 to 5: an address, for reads, writes and fetches as told. -/
  | address (reads writes fetches : Bool)
  /-- Modes 6 to 10: a range, for reads, writes and fetches as told. -/
  | range (reads writes fetches : Bool)
  /-- Modes 11 to 24: a flag raised at an instruction address. -/
  | flag (f : Flag)
  /-- Modes 25 to 127 (U5). -/
  | reserved
  deriving DecidableEq, Repr

/-- HLPR_CUSTOM_MODE for one mode, 128 + slot: 128 to 254 (10_state.md R31, U6). -/
structure HelperHook where
  slot  : Fin 127
  /-- What it watches, by one of the ways of modes 0 to 24. -/
  watch : Watch
  /-- The custom event it raises; none for the event modes 1 to 24 raise for the same watch. -/
  event : Option (Fin 142) := none
  deriving DecidableEq, Repr

/-- What a performance counter counts, by its mode (10_state.md R42). -/
inductive Counts where
  /-- Mode 0. -/
  | nothing
  /-- Mode 1: every retired instruction. -/
  | instructions
  /-- Mode 2: every instruction that loads. -/
  | loads
  /-- Mode 3: every instruction that stores. -/
  | stores
  /-- Modes 4 and 5: every conditional branch that is taken, or that is not. -/
  | branches (taken : Bool)
  /-- Modes 6 to 15, and 128 to 255 by default: time, cycles, stalls or what the implementation
  counts; the value is a draw (U9, U4). -/
  | time
  /-- Modes 16 to 127 (U3). -/
  | reserved
  deriving DecidableEq, Repr

/-- PERFC_CUSTOM_MODE for one mode, 128 + slot: 128 to 255 (10_state.md R42, U4). -/
structure CounterHook where
  slot   : Fin 128
  counts : Counts
  deriving DecidableEq, Repr

/-- PWRS_EFFECT (10_state.md R90, U10): storage without effect, or an effect of some values, which the
model cannot express and refuses. -/
inductive PowerEffect where
  | storage
  | acts (values : List (BitVec 4))
  deriving DecidableEq, Repr

/-! ### Registers by name -/

/-- The special purpose registers (10_state.md R46 to R76), in the source's order. -/
inductive Spr where
  | pc | sr | vsh | vm1 | vm2 | vm3
  | uepc | uesr | uec | ued | uehp | uet0 | uet1
  | mepc | mesr | mec | med | mehp | met0 | met1
  | pfpa | sgprbu | vgprbu | hlprbu | perfcbu
  | pid | tid | hpid | tptr | wdt
  deriving DecidableEq, Repr

/-- The banks whose registers have a mode beside their value (10_state.md R30, R40). -/
inductive ModeBank where
  | hlprb | perfcb
  deriving DecidableEq, Repr

/-- What a number of SPR_ACCESS reaches (00_scope.md R5: "each special purpose, helper and counter
register"): a special purpose register, the value or the mode of a helper register or counter. -/
inductive NumberedReg where
  | special (r : Spr)
  | value (b : ModeBank) (i : Nat)
  | mode (b : ModeBank) (i : Nat)
  deriving DecidableEq, Repr

/-- The vector mask registers (10_state.md R49 to R51). -/
inductive MaskReg where
  | vm1 | vm2 | vm3
  deriving DecidableEq, Repr

/-! ### Instruction formats and their modifiers -/

/-- The 14 instruction formats (30_encoding.md R130), in the order of the figures:
2RI-B, 3RI-A, 4R-B, 3RI-B, 2R-A, 3R-A, 4R-A, I-A, RI-A, 2RI-A, 2R-B, I-B, RI-B, 2RI-C. -/
inductive Format where
  | twoRIB | threeRIA | fourRB | threeRIB
  | twoRA | threeRA | fourRA | iA | riA | twoRIA
  | twoRB | iB | riB | twoRIC
  deriving DecidableEq, Repr

/-- The fields of the formats. -/
inductive FieldName where
  | op | ra | rb | rc | rd | im | md | vm
  deriving DecidableEq, Repr

/-- The register specifier fields. -/
inductive RegField where
  | ra | rb | rc | rd
  deriving DecidableEq, Repr

/-- The three instruction lengths (30_encoding.md R130). -/
inductive InstrLen where
  | two | four | six
  deriving DecidableEq, Repr

/-- The classes of the md field (30_encoding.md R147 to R155); `ignored` is the class written "-". -/
inductive MdClass where
  | ignored | a | b | c | d | e | f | g | h
  deriving DecidableEq, Repr

/-- The six vector modes of the `vm(6)` modifier (30_encoding.md R156). -/
inductive VmMode where
  | vv | vs | mvv | mvs | imvv | imvs
  deriving DecidableEq, Repr

/-- Which bank a register specifier indexes: fixed by the instruction, chosen by md class C
(30_encoding.md R146, R150), or by `vm(6)`: a scalar in the vector-scalar modes VS, MVS and IMVS, a
vector in the others (R156). -/
inductive Bank where
  | sgprb | vgprb | hlprb | perfcb | byMd | byVm
  deriving DecidableEq, Repr

/-- How a figure's column maps to the bits of a field (30_encoding.md R131, D2). -/
inductive FieldOrder where
  /-- The leftmost column of a field holds its low bit: the default. -/
  | lowLeft
  /-- The leftmost column of a field holds its high bit: the alternative of D2. -/
  | highLeft
  deriving DecidableEq, Repr

/-! ### What OPCODE_MAP gives an instruction to do -/

/-- The instruction groups the source refers to without defining (41_referenced_instruction_groups.md
R201 to R214). -/
inductive InstrGroup where
  | scalarArithmetic | compressed | packing | vectorScalarMove | helperAccess | counterAccess
  | sprAccess | contextSave | fence | ipcGenerate | transaction | multiplyAccumulate | vector
  | loadStoreBranchCall
  deriving DecidableEq, Repr

/-- How much of a vector register an access moves (20_memory.md R104). -/
inductive VectorExtent where
  /-- All of it: MXVL/8 bytes. -/
  | whole
  /-- The active elements of the vector shape, at most MXVL/8 bytes (10_state.md R48). -/
  | shaped
  /-- Its low 2^log bytes. -/
  | part (log : Fin 7)
  deriving DecidableEq, Repr

/-- The width of a data access (20_memory.md R104). -/
inductive AccessSize where
  /-- Scalar data of 1, 2, 4 or 8 bytes. -/
  | bytes (log : Fin 4)
  /-- Scalar data of the size md class B gives. -/
  | byMd
  /-- Of a vector register, up to MXVL/8 bytes, of which a masked store writes those the mask keeps.
  R108 defines "unaligned" for scalar accesses only, so the map gives the alignment: 2^align bytes. -/
  | vector (extent : VectorExtent) (align : Fin 7)
  deriving DecidableEq, Repr

/-- Exact arithmetic on numbers, for what OPCODE_MAP defines (41_referenced_instruction_groups.md
R200). Operands and result are cut to the given number of bits (00_scope.md R7). -/
inductive ArithOp where
  | add | sub | mul
  /-- Unsigned quotient and remainder; by 0 a free value. -/
  | div | rem
  | and | or | xor
  /-- Shifts; by the width or more, every bit is shifted out. -/
  | shl | shr
  /-- Shift right, copying the sign bit. -/
  | sar
  /-- Comparisons: 1 where it holds, else 0. -/
  | eq | ltu | lts
  deriving DecidableEq, Repr

/-- The primitives of 00_scope.md R8, on a stack of numbers: what an instruction that OPCODE_MAP
supplies may be made of (41_referenced_instruction_groups.md R200). Each pops its operands, the top of
the stack first, and pushes its result. -/
inductive Prim where
  /-- Push a constant. -/
  | const (n : Nat)
  /-- Push the assembled immediate, extended and scaled as the row says (30_encoding.md R157). -/
  | imm
  /-- Push the value of the md field. -/
  | md
  /-- Push the value of the vm field. -/
  | vm
  /-- Push the number in a specifier field (30_encoding.md R146: "a special purpose register number"). -/
  | specifier (f : RegField)
  /-- Push 1 in the vector-scalar modes of `vm(6)`, else 0 (30_encoding.md R156). -/
  | scalarForm
  /-- Push a copy of the stack's n-th entry. -/
  | pick (n : Nat)
  /-- Pop an entry. -/
  | drop
  /-- Push the value of the register a specifier names, in its operand's bank. -/
  | readReg (f : RegField)
  /-- Pop a value into the register a specifier names. -/
  | writeReg (f : RegField)
  /-- Pop a register number of a bank, push that register. -/
  | readAt (b : Bank)
  /-- Pop a register number of a bank, then a value into that register. -/
  | writeAt (b : Bank)
  /-- Push the mode of a helper register or counter. -/
  | readMode (f : RegField)
  /-- Pop a mode into a helper register or counter. -/
  | writeMode (f : RegField)
  /-- Pop a register number of a bank, push that register's mode. -/
  | readModeAt (b : ModeBank)
  /-- Pop a register number of a bank, then a mode into that register. -/
  | writeModeAt (b : ModeBank)
  /-- Push a special purpose register (the abstract SPRREAD of R207). -/
  | readSpr (r : Spr)
  /-- Pop a value into a special purpose register (the abstract SPRWRITE of R207). -/
  | writeSpr (r : Spr)
  /-- Pop a register number of SPR_ACCESS, push that register. -/
  | readSprAt
  /-- Pop a register number of SPR_ACCESS, then a value into that register. -/
  | writeSprAt
  /-- Pop an address, push MemRead of it. -/
  | load (size : AccessSize)
  /-- Pop an address, then a value for MemWrite. -/
  | store (size : AccessSize)
  /-- Pop a condition, an address and a value: a load where the condition is not 0, else the value. -/
  | loadIf (size : AccessSize)
  /-- Pop a condition, an address and a value: a store where the condition is not 0 (the context-saving
  instructions of 41_referenced_instruction_groups.md R208 store by usage bits). -/
  | storeIf (size : AccessSize)
  /-- Pop an offset, push CfgRead of n bytes (20_memory.md R103). -/
  | readConfig (n : Nat)
  /-- Pop b, then a, push `a op b` cut to some bits, WLEN of them by default. -/
  | arith (op : ArithOp) (bits : Option Nat := none)
  /-- Pop a condition, b and a, push b where the condition is not 0, else a. -/
  | select
  /-- Pop `arity` operands, push the result of the arithmetic OPCODE_MAP names `id`: a free value. -/
  | compute (id arity : Nat)
  /-- Raise the flags `flags_of` gives for the top `arity` entries (10_state.md R93): free values. -/
  | raiseFlags (id arity : Nat)
  /-- Pop a condition, raise a flag where it is not 0 (10_state.md R93). -/
  | raiseFlag (f : Flag)
  /-- Pop a target into the program counter. -/
  | jump
  /-- Pop a condition, then a target: a conditional branch, taken when the condition is not 0. -/
  | branch
  /-- A fence of the type md class F gives (20_memory.md R111). -/
  | fence
  /-- Raise an implementation-specific synchronous event. -/
  | raiseCustom (slot : Fin 142)
  deriving DecidableEq, Repr

/-- The meaning of a row of OPCODE_MAP. -/
inductive Sem where
  /-- One of the five instructions of 40_event_return_and_system.md. -/
  | core (i : Instr)
  /-- A sequence of primitives, supplied with the map. -/
  | prims (ps : List Prim)
  /-- Known to exist, its meaning not supplied: refused by the group's name. -/
  | group (g : InstrGroup)
  deriving DecidableEq, Repr

/-- A row of OPCODE_MAP: format, op value, md class, operand roles, immediate's extension, and what
the instruction does (30_encoding.md R159, R157). -/
structure OpcodeRow where
  format    : Format
  op        : BitVec 20
  mdClass   : MdClass := .ignored
  /-- The md values the instruction uses (R147: "only utilize some modes"). -/
  mdUsed    : List (BitVec 2) := [0, 1, 2, 3]
  /-- The vm values the instruction uses; none for all (30_encoding.md R161). -/
  vmUsed    : Option (List (BitVec 6)) := none
  /-- The register operands and their banks. -/
  operands  : List (RegField × Bank) := []
  /-- The operands that only address memory: no data of the access fills them (20_memory.md R104). -/
  bases     : List RegField := []
  /-- The mask register its masked forms use. The source does not say how one is picked, and R156 calls
  bits of `vm(6)` a plausible split: here each row has one, and no vm bit picks it (DESIGN CHOICE, log
  40). -/
  maskReg   : Option MaskReg := none
  immSigned : Bool := false
  immShift  : Nat := 0
  /-- The modules the instruction belongs to: without them it is INCI (R161). -/
  modules   : List Module := []
  sem       : Sem
  deriving DecidableEq, Repr

/-- One row of LENGTH_OF: a first parcel that agrees with `value` where `mask` is 1. -/
structure LengthRow where
  mask   : Parcel
  value  : Parcel
  length : InstrLen
  deriving DecidableEq, Repr

/-- LENGTH_OF (30_encoding.md R158), a total function of the first parcel: the first row that matches,
else `otherwise`. -/
structure LengthOf where
  rows      : List LengthRow
  otherwise : InstrLen
  deriving DecidableEq, Repr

/-! ### The other parameters -/

/-- ENDIAN (20_memory.md R105). -/
inductive Endian where
  | little | big
  deriving DecidableEq, Repr

/-- SR_LAYOUT (10_state.md R79): the lowest bit of every field, and the two bits no field uses. -/
structure SrLayout where
  rmd    : Nat := 0
  tnd    : Nat := 2
  cmd    : Nat := 10
  gee    : Nat := 11
  hlpre  : Nat := 12
  perfce : Nat := 16
  cntu   : Nat := 17
  im     : Nat := 19
  pmod   : Nat := 21
  wdte   : Nat := 22
  pwrs   : Nat := 23
  hlts   : Nat := 27
  spare0 : Nat := 30
  spare1 : Nat := 31
  deriving DecidableEq, Repr

/-- What the translation of an address gives (20_memory.md R118). -/
inductive TranslateResult where
  | to (phys : Word)
  | pageFault
  | illegalAddress
  deriving DecidableEq, Repr, Inhabited

/-- One row of a translation given as data: the addresses `lo` to `hi`, for one page table base, mode
and kind of access or for all (none). -/
structure TranslateRow where
  pfpa   : Option Word := none
  mode   : Option Mode := none
  kind   : Option AccessKind := none
  lo     : Nat
  hi     : Nat
  /-- `to p` sends `lo` to `p` and the rest of the range after it. -/
  result : TranslateResult
  deriving DecidableEq, Repr

/-- The parameter `translate` (20_memory.md R118). -/
inductive Translation where
  /-- Every address is its own physical address, without faults. -/
  | identity
  /-- The first matching row; an address no row covers is a page fault. -/
  | table (rows : List TranslateRow)
  /-- Not known: a free value, any result at all. -/
  | unknown
  deriving DecidableEq, Repr

/-- What stands at a physical address (20_memory.md R117). -/
inductive RegionKind where
  | ram | rom
  /-- A device, whose behaviour the spec does not give (20_memory.md R100). -/
  | device
  /-- Nothing. -/
  | hole
  deriving DecidableEq, Repr

/-- One row of the platform's memory map: the physical addresses `base` to `base + size - 1`. -/
structure Region where
  base : Nat
  size : Nat
  kind : RegionKind
  deriving DecidableEq, Repr

/-- How the hart detects that critical state is unsaved (60_exceptions.md R241). -/
inductive CriticalTest where
  /-- The default: the identifier of the level's cause register is not 0. -/
  | causeNonzero
  /-- The conservative alternative: a launch of the level has had no matching return. -/
  | untilReturn
  deriving DecidableEq, Repr

/-- VSH_COUNT: what the count field of VSH holds (10_state.md R48). -/
inductive VshCount where
  | exact | minusOne
  deriving DecidableEq, Repr

/-- The contents of the configuration segment that are not codes of other parameters
(20_memory.md R102). -/
structure Segment where
  hid      : BitVec 16 := 0
  isamod   : BitVec 64 := 0
  isaver   : BitVec 16 := 0
  llscs    : Byte := 0
  cpuid    : BitVec 64 := 0
  cpuvid   : BitVec 64 := 0
  /-- The 128 bytes of CPUNAME; missing ones are 0. -/
  cpuname  : List Byte := []
  ncores   : BitVec 16 := 0
  nthreads : BitVec 16 := 0
  ios      : Byte := 0
  dmamod   : Byte := 0
  dmas     : Byte := 0
  /-- Bytes 256 to 1023, implementation specific; missing ones are 0. -/
  custom   : List Byte := []
  deriving DecidableEq, Repr

/-- Every parameter of 00_scope.md R5, as plain data. -/
structure Config where
  wlenc        : BitVec 2
  mxvlc        : BitVec 3
  clenc        : BitVec 2
  srfsc        : BitVec 2
  vrfsc        : BitVec 2
  hrfsc        : BitVec 2
  crfsc        : BitVec 2
  /-- The set MODULES (R2): membership is all that is read. -/
  modules      : List Module
  segment      : Segment
  endian       : Endian
  fieldOrder   : FieldOrder
  srLayout     : SrLayout
  opcodeMap    : List OpcodeRow
  lengthOf     : LengthOf
  /-- The values of the six `vm(6)` labels (30_encoding.md R156). -/
  vm6          : List (BitVec 6 × VmMode)
  /-- SPR_ACCESS: the numbers of special purpose, helper and counter registers (10_state.md R45;
  41_referenced_instruction_groups.md R205 to R207). -/
  sprNumbers   : List (Nat × NumberedReg)
  resetPc      : Word
  ialign       : Nat
  /-- WDT_TICK: a tick comes every so many clock cycles (60_exceptions.md R256). -/
  wdtTick      : Nat
  /-- EVENT_QUEUE_DEPTH (10_state.md R94). -/
  queueDepth   : Nat
  /-- ASYNC_ORDER: codes of asynchronous events, first taken first (60_exceptions.md R233); a code it leaves
  out comes last (DESIGN CHOICE, log 28). -/
  asyncOrder   : List Nat
  criticalTest : CriticalTest
  translation  : Translation
  vshCount     : VshCount
  /-- VSH_LEGAL: the shapes that are illegal (U13). -/
  vshIllegal   : List (BitVec 8)
  customEvents : List CustomEvent
  /-- HLPR_CUSTOM_MODE (U6): the modes 128 to 254 that do anything. -/
  helperModes  : List HelperHook
  /-- PERFC_CUSTOM_MODE (U4): the modes 128 to 255 that do not count time. -/
  counterModes : List CounterHook
  /-- PWRS_EFFECT (U10). -/
  powerEffect  : PowerEffect
  /-- Where RAM, ROM and devices sit (20_memory.md R117): the first region that covers an address; RAM
  where none does. -/
  memoryMap    : List Region
  deriving DecidableEq, Repr

/-! ### Free values -/

/-- FREE VALUE (10_state.md R97, U12): the byte at an address of main memory that nothing has written
since reset. -/
opaque Config.memoryFree : Nat → Byte

/-- FREE VALUE (41_referenced_instruction_groups.md R200): quotient and remainder by 0, a function of
the operation and the dividend. -/
opaque Config.divideFree : ArithOp → Nat → Nat

/-- FREE VALUE (20_memory.md R118, U28): the translation of an address where the configuration does not
give it: page table base, mode, address and kind to any result. -/
opaque Config.translateFree : Word → Mode → Word → AccessKind → TranslateResult

/-- FREE VALUE (60_exceptions.md R267, U9, U4): the n-th draw of a counter that counts time, cycles or
stalls; the second argument tells the counters apart. -/
opaque Config.counterFree : Nat → Nat → BitVec 64

/-- FREE VALUE (41_referenced_instruction_groups.md R201): the result of the arithmetic OPCODE_MAP names
by a number, a function of its operands. -/
opaque Config.computeFree : Nat → List Nat → Nat

/-- FREE VALUE (10_state.md R93): `flags_of`, the flags that arithmetic raises, a function of its
operands. -/
opaque Config.flagsFree : Nat → List Nat → List Flag

/-! ### The reference configuration -/

/-- The default ASYNC_ORDER: the printed table with lower numbers first and TQE before IOINT_0
(60_exceptions.md R232, R233). -/
def Config.printedOrder : List Nat :=
  85 :: ((List.range 32).map (· + 17) ++ (List.range 32).map (· + 49))

/-- OPCODE_MAP of the reference configuration: the spec gives no opcode, so these are the MODEL's
(DESIGN CHOICE, log 3): format 2R-A, op 1 to 5, no operand. Only the sample words of
`SampleWordsDecode` rest on them. -/
def Config.referenceMap : List OpcodeRow :=
  [ { format := .twoRA, op := 1, sem := .core .hlt },
    { format := .twoRA, op := 2, sem := .core .eret },
    { format := .twoRA, op := 3, sem := .core .ueret },
    { format := .twoRA, op := 4, sem := .core .uret },
    { format := .twoRA, op := 5, sem := .core .syscall } ]

/-- REF32 (92_eei_decisions.md D37) with the open parameters chosen by the model (DESIGN CHOICE,
logs 1 and 3): every instruction 4 bytes long unless op[3:0] is 14 (2 bytes) or 15 (6 bytes),
RESET_PC 0, a watchdog tick every cycle, a queue of 16, translation the identity. -/
def Config.reference : Config where
  wlenc := 2
  mxvlc := 0
  clenc := 2
  srfsc := 2
  vrfsc := 0
  hrfsc := 0
  crfsc := 0
  modules := [.exc, .ioint, .ipcint, .user, .hlpr, .perfc, .dalign]
  segment := {}
  endian := .little
  fieldOrder := .lowLeft
  srLayout := {}
  opcodeMap := Config.referenceMap
  lengthOf := { rows := [⟨0xF, 0xE, .two⟩, ⟨0xF, 0xF, .six⟩], otherwise := .four }
  vm6 := []
  sprNumbers := []
  resetPc := 0
  ialign := 2
  wdtTick := 1
  queueDepth := 16
  asyncOrder := Config.printedOrder
  criticalTest := .causeNonzero
  translation := .identity
  vshCount := .exact
  vshIllegal := []
  customEvents := []
  helperModes := []
  counterModes := []
  powerEffect := .storage
  memoryMap := []

end Sys2Proof
end

