-- ==== Sys2Proof/Machine/Params.lean ====
section
/-! DEFINITION. What the parameters of the configuration mean: widths, bank sizes, narrowing, lengths, the
register ABI and the configuration segment. -/

namespace Sys2Proof

/-- Module m is implemented (`has(m)` of 00_scope.md R8). -/
def Config.has (cfg : Config) (m : Module) : Bool := cfg.modules.contains m

/-- WBYTES, the word length in bytes (00_scope.md R6). -/
def Config.wbytes (cfg : Config) : Nat := 2 ^ cfg.wlenc.toNat

/-- WLEN, the word length in bits (00_scope.md R6). -/
def Config.wlen (cfg : Config) : Nat := 8 * cfg.wbytes

/-- MXVL, the vector length in bits; 0 for the codes without a length (10_state.md R27). -/
def Config.mxvl (cfg : Config) : Nat :=
  match cfg.mxvlc.toNat with
  | 1 => 16
  | 2 => 32
  | 3 => 64
  | 4 => 128
  | 5 => 256
  | 6 => 512
  | _ => 0

/-- CLEN, the counter length in bits (10_state.md R41). -/
def Config.clen (cfg : Config) : Nat := 8 * 2 ^ cfg.clenc.toNat

/-- The number of registers a size code gives; 0 for the reserved code (10_state.md R21). -/
def bankSize (code : BitVec 2) : Nat :=
  match code.toNat with
  | 0 => 8
  | 1 => 16
  | 2 => 32
  | _ => 0

/-- SRFS (10_state.md R21). -/
def Config.srfs (cfg : Config) : Nat := bankSize cfg.srfsc

/-- VRFS; no vector register exists without a vector length (10_state.md R26, R27; DEDUCED, log 10). -/
def Config.vrfs (cfg : Config) : Nat := if cfg.mxvl = 0 then 0 else bankSize cfg.vrfsc

/-- HRFS; the bank exists with the HLPR module (10_state.md R30). -/
def Config.hrfs (cfg : Config) : Nat := if cfg.has .hlpr then bankSize cfg.hrfsc else 0

/-- CRFS; the bank exists with the PERFC module (10_state.md R40). -/
def Config.crfs (cfg : Config) : Nat := if cfg.has .perfc then bankSize cfg.crfsc else 0

/-- A number as a WLEN-bit value: arithmetic is modulo 2^WLEN (00_scope.md R7). -/
def Config.word (cfg : Config) (n : Nat) : Word := BitVec.ofNat 64 (n % 2 ^ cfg.wlen)

/-- A number as an MXVL-bit value. -/
def Config.vword (cfg : Config) (n : Nat) : VWord := BitVec.ofNat 512 (n % 2 ^ cfg.mxvl)

/-- A number as a CLEN-bit value: a counter overflows silently (10_state.md R43). -/
def Config.counter (cfg : Config) (n : Nat) : BitVec 64 := BitVec.ofNat 64 (n % 2 ^ cfg.clen)

/-- A number as an MXVL/8-bit vector mask (10_state.md R49). -/
def Config.vmask (cfg : Config) (n : Nat) : BitVec 64 := BitVec.ofNat 64 (n % 2 ^ (cfg.mxvl / 8))

/-- The length of an instruction in bytes. -/
def InstrLen.bytes : InstrLen → Nat
  | .two => 2
  | .four => 4
  | .six => 6

/-- LENGTH_OF applied to a first parcel (30_encoding.md R158). -/
def LengthOf.apply (l : LengthOf) (p : Parcel) : InstrLen :=
  match l.rows.find? (fun r => p &&& r.mask == r.value &&& r.mask) with
  | some r => r.length
  | none => l.otherwise

/-! ### Register ABI -/

/-- The ABI names of the scalar registers by index, for the largest bank; a smaller bank has the
first SRFS of them (10_state.md R24). -/
def abiNames : List String :=
  ["P0", "P1", "P2", "P3", "S0", "S1", "SP", "RA"]
  ++ ["P4", "P5", "S2", "S3", "S4", "N0", "N1", "FP"]
  ++ ["P6", "P7", "S5", "S6", "S7", "S8", "S9", "S10", "S11", "S12", "S13", "S14", "S15",
      "N2", "N3", "GP"]

/-- The ABI name of `x[i]`, if the bank has it (10_state.md R24). -/
def Config.abiName (cfg : Config) (i : Nat) : Option String :=
  if i < cfg.srfs then abiNames[i]? else none

/-! ### Configuration segment -/

/-- Byte k of an n-byte value in memory order (20_memory.md R105). -/
def byteOf (e : Endian) (n k v : Nat) : Byte :=
  match e with
  | .little => BitVec.ofNat 8 (v / 2 ^ (8 * k))
  | .big => BitVec.ofNat 8 (v / 2 ^ (8 * (n - 1 - k)))

/-- The value of bytes in memory order (20_memory.md R105). -/
def valueOf (e : Endian) (bs : List Byte) : Nat :=
  match e with
  | .little => bs.foldr (fun b acc => b.toNat + 256 * acc) 0
  | .big => bs.foldl (fun acc b => 256 * acc + b.toNat) 0

/-- Byte `o` of the configuration segment (20_memory.md R102, R103). -/
def Config.segmentByte (cfg : Config) (o : Nat) : Byte :=
  let s := cfg.segment
  if o < 2 then byteOf cfg.endian 2 o s.hid.toNat
  else if o < 10 then byteOf cfg.endian 8 (o - 2) s.isamod.toNat
  else if o < 12 then byteOf cfg.endian 2 (o - 10) s.isaver.toNat
  else if o = 12 then cfg.wlenc.setWidth 8
  else if o = 13 then cfg.mxvlc.setWidth 8
  else if o = 14 then cfg.clenc.setWidth 8
  else if o = 15 then cfg.srfsc.setWidth 8
  else if o = 16 then cfg.vrfsc.setWidth 8
  else if o = 17 then cfg.hrfsc.setWidth 8
  else if o = 18 then cfg.crfsc.setWidth 8
  else if o = 19 then s.llscs
  else if o < 28 then byteOf cfg.endian 8 (o - 20) s.cpuid.toNat
  else if o < 36 then byteOf cfg.endian 8 (o - 28) s.cpuvid.toNat
  else if o < 164 then s.cpuname.getD (o - 36) 0
  else if o < 166 then byteOf cfg.endian 2 (o - 164) s.ncores.toNat
  else if o < 168 then byteOf cfg.endian 2 (o - 166) s.nthreads.toNat
  else if o = 168 then s.ios
  else if o = 169 then s.dmamod
  else if o = 170 then s.dmas
  else if o < 256 then 0
  else s.custom.getD (o - 256) 0

/-- `CfgRead(offset, n)` on this hart's private view; none outside the 1024 bytes
(20_memory.md R101, R103). -/
def Config.read (cfg : Config) (o n : Nat) : Option Nat :=
  if o + n ≤ 1024 then
    some (valueOf cfg.endian ((List.range n).map (fun k => cfg.segmentByte (o + k))))
  else none

end Sys2Proof
end

