-- ==== Sys2Proof/Machine/Events.lean ====
section
/-! DEFINITION. The event table (60_exceptions.md R222 to R229): every event's name, code, module, type
and priorities, and what an occurrence carries. -/

namespace Sys2Proof.Machine

/-- The events of the table, by the source's short names. Reserved codes have no name, so none of
them can be raised, queued or delivered (60_exceptions.md R223, U8). -/
inductive EventName where
  | misi | inci | illi
  | ioint (k : Fin 32)
  | ipcint (k : Fin 32)
  | misd | pflt | illa | sysc | tqe
  | covre | cunde | ovfle | unfle | div0e
  | rdt | wrt | ext | rwt | rwet
  /-- COVR1T to DIV0T: the trigger of a flag (R228). -/
  | flagT (f : Flag)
  /-- Code 370 + slot (R229). -/
  | custom (slot : Fin 142)
  deriving DecidableEq, Repr

/-- The event identifier (60_exceptions.md R221). -/
def EventName.code : EventName → BitVec 9
  | .misi => 1
  | .inci => 2
  | .illi => 3
  | .ioint k => BitVec.ofNat 9 (17 + k.val)
  | .ipcint k => BitVec.ofNat 9 (49 + k.val)
  | .misd => 81
  | .pflt => 82
  | .illa => 83
  | .sysc => 84
  | .tqe => 85
  | .covre => 98
  | .cunde => 99
  | .ovfle => 100
  | .unfle => 101
  | .div0e => 102
  | .rdt => 114
  | .wrt => 115
  | .ext => 116
  | .rwt => 117
  | .rwet => 118
  | .flagT (.covr k) => BitVec.ofNat 9 (119 + k.val)
  | .flagT .cund => 123
  | .flagT (.ovfl k) => BitVec.ofNat 9 (124 + k.val)
  | .flagT (.unfl k) => BitVec.ofNat 9 (128 + k.val)
  | .flagT .div0 => 132
  | .custom k => BitVec.ofNat 9 (370 + k.val)

/-- The implementation's row for a custom event (60_exceptions.md R229, U7). -/
def customRow (cfg : Config) (slot : Fin 142) : Option CustomEvent :=
  cfg.customEvents.find? (fun r => r.slot == slot)

/-- The event's type (60_exceptions.md R222 to R228); a custom event the configuration does not list
counts as an exception. -/
def EventName.kind (cfg : Config) : EventName → EventKind
  | .misi | .inci | .illi | .misd | .pflt | .illa | .sysc => .fault
  | .ioint _ => .ioInterrupt
  | .ipcint _ | .tqe => .ipcInterrupt
  | .covre | .cunde | .ovfle | .unfle | .div0e => .exception
  | .rdt | .wrt | .ext | .rwt | .rwet | .flagT _ => .exception
  | .custom c => ((customRow cfg c).map (·.kind)).getD .exception

/-- The module an event belongs to; none for the mandatory and the custom ones. -/
def EventName.module : EventName → Option Module
  | .misi | .inci | .illi => none
  | .ioint _ => some .ioint
  | .ipcint _ => some .ipcint
  | .misd => some .dalign
  | .pflt | .illa | .sysc | .tqe => some .user
  | .covre | .cunde | .ovfle | .unfle | .div0e => some .exc
  | .rdt | .wrt | .ext | .rwt | .rwet | .flagT _ => some .hlpr
  | .custom _ => none

/-- The event exists on this hart: its module is implemented, a custom one is listed
(60_exceptions.md R222 to R229). -/
def EventName.defined (cfg : Config) (n : EventName) : Bool :=
  match n with
  | .custom k => (customRow cfg k).isSome
  | n => (n.module.map cfg.has).getD true

/-- Global priority as printed; a lower number is the higher priority (60_exceptions.md R232). -/
def EventName.gp (cfg : Config) : EventName → Option Nat
  | .misi | .inci | .illi | .misd | .pflt | .illa | .sysc => some 0
  | .ioint _ | .tqe => some 1
  | .ipcint _ => some 2
  | .covre | .cunde | .ovfle | .unfle | .div0e => some 3
  | .rdt | .wrt | .ext | .rwt | .rwet | .flagT _ => some 3
  | .custom c => (customRow cfg c).bind (·.gp)

/-- Local priority as printed; none where the table says program order or, for the helper events,
refers to the order of the registers. -/
def EventName.lp (cfg : Config) : EventName → Option Nat
  | .ioint k => some k.val
  | .ipcint k => some (k.val + 1)
  | .tqe => some 0
  | .custom c => (customRow cfg c).bind (·.lp)
  | _ => none

/-- Promoting types end in machine mode (60_exceptions.md R230). -/
def promoting : EventKind → Bool
  | .exception => false
  | .fault | .ioInterrupt | .ipcInterrupt => true

/-- An occurrence of an event: what goes to the cause and data registers (60_exceptions.md R235). -/
structure Event where
  name  : EventName
  /-- The extra information, bits 15:9 of the cause register. -/
  extra : BitVec 7 := 0
  /-- The event data, where the event has any. -/
  data  : Option Word := none
  deriving DecidableEq, Repr

/-- The event comes before the helper and arithmetic exceptions of the same instruction: every fault,
and a custom exception of a global priority above theirs (60_exceptions.md R232, R233; custom
exceptions: DEDUCED, log 28). -/
def Event.precedes (cfg : Config) (e : Event) : Bool :=
  e.name.kind cfg != .exception || (e.name.gp cfg).any (fun p => decide (p < 3))

/-- The value of the cause register, `extra : id` (60_exceptions.md R235). -/
def Event.cause (e : Event) : BitVec 16 := e.extra ++ e.name.code

/-- The identifier bits of a cause register (10_state.md R54, R61). -/
def causeId (c : BitVec 16) : BitVec 9 := c.extractLsb' 0 9

/-- A helper register that fires: its index and the event (60_exceptions.md R264). -/
structure Trigger where
  index : Nat
  name  : EventName
  deriving DecidableEq, Repr

/-- The event a firing helper register generates: its index is the extra information (R264, R235). R235 says
so of the events 114 to 132; the custom event of a custom mode carries the index too (DESIGN CHOICE, log
27). -/
def Trigger.event (t : Trigger) : Event := { name := t.name, extra := BitVec.ofNat 7 t.index }

end Sys2Proof.Machine
end

