-- ==== Sys2Proof/Decode.lean ====
section
/-! DEFINITION. Instruction encoding (30_encoding.md): the 14 formats as tables of cells, assembling and
taking apart an instruction word, the md classes and vm modifiers, decoding by OPCODE_MAP and
LENGTH_OF, and the encoder of the five instructions. -/

namespace Sys2Proof

/-! ### Formats -/

/-- One cell of a format figure: `width` columns from `start`, holding bits `lo` and up of a field. -/
structure Cell where
  start : Nat
  width : Nat
  field : FieldName
  lo    : Nat
  deriving DecidableEq, Repr

/-- The figures, cell by cell from column 0 (30_encoding.md R132 to R145). -/
def Format.cells : Format → List Cell
  | .twoRIB =>   -- R132
    [⟨0, 4, .op, 0⟩, ⟨4, 5, .ra, 0⟩, ⟨9, 5, .rb, 0⟩, ⟨14, 11, .op, 4⟩, ⟨25, 5, .im, 16⟩,
     ⟨30, 2, .md, 0⟩, ⟨32, 16, .im, 0⟩]
  | .threeRIA => -- R133
    [⟨0, 4, .op, 0⟩, ⟨4, 5, .ra, 0⟩, ⟨9, 5, .rb, 0⟩, ⟨14, 11, .op, 4⟩, ⟨25, 5, .rc, 0⟩,
     ⟨30, 2, .md, 0⟩, ⟨32, 16, .im, 0⟩]
  | .fourRB =>   -- R134
    [⟨0, 4, .op, 0⟩, ⟨4, 5, .ra, 0⟩, ⟨9, 5, .rb, 0⟩, ⟨14, 6, .op, 4⟩, ⟨20, 5, .rd, 0⟩,
     ⟨25, 5, .rc, 0⟩, ⟨30, 2, .md, 0⟩, ⟨32, 2, .vm, 0⟩, ⟨34, 10, .op, 10⟩, ⟨44, 4, .vm, 2⟩]
  | .threeRIB => -- R135
    [⟨0, 4, .op, 0⟩, ⟨4, 5, .ra, 0⟩, ⟨9, 5, .rb, 0⟩, ⟨14, 11, .op, 4⟩, ⟨25, 5, .rc, 0⟩,
     ⟨30, 2, .md, 0⟩, ⟨32, 2, .vm, 0⟩, ⟨34, 14, .im, 0⟩]
  | .twoRA =>    -- R136
    [⟨0, 4, .op, 0⟩, ⟨4, 5, .ra, 0⟩, ⟨9, 5, .rb, 0⟩, ⟨14, 16, .op, 4⟩, ⟨30, 2, .md, 0⟩]
  | .threeRA =>  -- R137
    [⟨0, 4, .op, 0⟩, ⟨4, 5, .ra, 0⟩, ⟨9, 5, .rb, 0⟩, ⟨14, 11, .op, 4⟩, ⟨25, 5, .rc, 0⟩,
     ⟨30, 2, .md, 0⟩]
  | .fourRA =>   -- R138
    [⟨0, 4, .op, 0⟩, ⟨4, 5, .ra, 0⟩, ⟨9, 5, .rb, 0⟩, ⟨14, 6, .op, 4⟩, ⟨20, 5, .rd, 0⟩,
     ⟨25, 5, .rc, 0⟩, ⟨30, 2, .md, 0⟩]
  | .iA =>       -- R139
    [⟨0, 4, .op, 0⟩, ⟨4, 5, .im, 19⟩, ⟨9, 5, .im, 11⟩, ⟨14, 4, .op, 4⟩, ⟨18, 1, .im, 18⟩,
     ⟨19, 11, .im, 0⟩, ⟨30, 2, .im, 16⟩]
  | .riA =>      -- R140
    [⟨0, 4, .op, 0⟩, ⟨4, 5, .ra, 0⟩, ⟨9, 5, .im, 11⟩, ⟨14, 5, .op, 4⟩, ⟨19, 11, .im, 0⟩,
     ⟨30, 2, .md, 0⟩]
  | .twoRIA =>   -- R141
    [⟨0, 4, .op, 0⟩, ⟨4, 5, .ra, 0⟩, ⟨9, 5, .rb, 0⟩, ⟨14, 4, .op, 4⟩, ⟨18, 12, .im, 0⟩,
     ⟨30, 2, .md, 0⟩]
  | .twoRB =>    -- R142
    [⟨0, 4, .op, 0⟩, ⟨4, 2, .md, 0⟩, ⟨6, 3, .ra, 0⟩, ⟨9, 2, .op, 4⟩, ⟨11, 3, .rb, 0⟩,
     ⟨14, 2, .op, 6⟩]
  | .iB =>       -- R143
    [⟨0, 4, .op, 0⟩, ⟨4, 2, .im, 2⟩, ⟨6, 3, .im, 7⟩, ⟨9, 2, .op, 4⟩, ⟨11, 3, .im, 4⟩,
     ⟨14, 2, .im, 0⟩]
  | .riB =>      -- R144
    [⟨0, 4, .op, 0⟩, ⟨4, 2, .im, 2⟩, ⟨6, 3, .ra, 0⟩, ⟨9, 1, .op, 4⟩, ⟨10, 1, .im, 7⟩,
     ⟨11, 3, .im, 4⟩, ⟨14, 2, .im, 0⟩]
  | .twoRIC =>   -- R145
    [⟨0, 4, .op, 0⟩, ⟨4, 2, .im, 2⟩, ⟨6, 3, .ra, 0⟩, ⟨9, 2, .im, 4⟩, ⟨11, 3, .rb, 0⟩,
     ⟨14, 2, .im, 0⟩]

/-- The length of a format's instructions (30_encoding.md R130). -/
def Format.length : Format → InstrLen
  | .twoRIB | .threeRIA | .fourRB | .threeRIB => .six
  | .twoRA | .threeRA | .fourRA | .iA | .riA | .twoRIA => .four
  | .twoRB | .iB | .riB | .twoRIC => .two

/-- The width of a field in a format; 0 where the format has no such field. -/
def Format.fieldWidth (fmt : Format) (f : FieldName) : Nat :=
  ((fmt.cells.filter (fun c => c.field == f)).map (·.width)).sum

/-- The formats with the md field (30_encoding.md R130). -/
def Format.hasMd (fmt : Format) : Bool := fmt.fieldWidth .md != 0

/-- The field bit each column holds, from column 0 (30_encoding.md R131). -/
def Format.columns (order : FieldOrder) (fmt : Format) : List (FieldName × Nat) :=
  fmt.cells.flatMap fun c =>
    (List.range c.width).map fun k =>
      match order with
      | .lowLeft => (c.field, c.lo + k)
      | .highLeft => (c.field, c.lo + (c.width - 1 - k))

/-- The column that holds a bit of a field, if the format has it. -/
def Format.columnOf (order : FieldOrder) (fmt : Format) (f : FieldName) (b : Nat) : Option Nat :=
  (fmt.columns order).findIdx? (fun p => p == (f, b))

/-- The fields of an instruction; those its format lacks are 0. -/
structure Fields where
  op : BitVec 20 := 0
  ra : BitVec 5 := 0
  rb : BitVec 5 := 0
  rc : BitVec 5 := 0
  rd : BitVec 5 := 0
  im : BitVec 24 := 0
  md : BitVec 2 := 0
  vm : BitVec 6 := 0
  deriving DecidableEq, Repr

/-- A field as a number. -/
def Fields.value (fl : Fields) : FieldName → Nat
  | .op => fl.op.toNat
  | .ra => fl.ra.toNat
  | .rb => fl.rb.toNat
  | .rc => fl.rc.toNat
  | .rd => fl.rd.toNat
  | .im => fl.im.toNat
  | .md => fl.md.toNat
  | .vm => fl.vm.toNat

/-- The register specifier fields. -/
def Fields.reg (fl : Fields) : RegField → BitVec 5
  | .ra => fl.ra
  | .rb => fl.rb
  | .rc => fl.rc
  | .rd => fl.rd

/-- Every field fits the format: it is below 2 to the field's width there (0 where there is none). -/
def Fields.fits (fl : Fields) (fmt : Format) : Bool :=
  [FieldName.op, .ra, .rb, .rc, .rd, .im, .md, .vm].all
    (fun f => decide (fl.value f < 2 ^ fmt.fieldWidth f))

/-- The number whose bits are given from bit 0 up. -/
def bitsToNat : List Bool → Nat
  | [] => 0
  | b :: bs => b.toNat + 2 * bitsToNat bs

/-- The instruction word of a format's fields (30_encoding.md R131 to R145). -/
def assemble (order : FieldOrder) (fmt : Format) (fl : Fields) : InstrBits :=
  BitVec.ofNat 48 (bitsToNat ((fmt.columns order).map (fun p => (fl.value p.1).testBit p.2)))

/-- One field of an instruction word, its cells concatenated by their labels (R131, R157). -/
def fieldOf (order : FieldOrder) (fmt : Format) (w : InstrBits) (f : FieldName) : Nat :=
  bitsToNat ((List.range 24).map fun b =>
    match fmt.columnOf order f b with
    | some c => w.getLsbD c
    | none => false)

/-- All fields of an instruction word. -/
def fieldsOf (order : FieldOrder) (fmt : Format) (w : InstrBits) : Fields where
  op := BitVec.ofNat 20 (fieldOf order fmt w .op)
  ra := BitVec.ofNat 5 (fieldOf order fmt w .ra)
  rb := BitVec.ofNat 5 (fieldOf order fmt w .rb)
  rc := BitVec.ofNat 5 (fieldOf order fmt w .rc)
  rd := BitVec.ofNat 5 (fieldOf order fmt w .rd)
  im := BitVec.ofNat 24 (fieldOf order fmt w .im)
  md := BitVec.ofNat 2 (fieldOf order fmt w .md)
  vm := BitVec.ofNat 6 (fieldOf order fmt w .vm)

/-! ### Modifiers -/

/-- The assembler label of an md value in a class (30_encoding.md R148 to R155, R163); none where the
class has no label there. -/
def MdClass.label : MdClass → BitVec 2 → Option String
  | .ignored, _ => none
  | .a, md => [".U", ".S", ".UI", ".SI"][md.toNat]?
  | .b, md => [".L1", ".L2", ".L4", ".L8"][md.toNat]?
  | .c, md => [".SGPRB", ".VGPRB", ".HLPRB", ".PERFCB"][md.toNat]?
  | .d, _ => none
  | .e, md => if md = 1 then some ".MSK" else if md = 2 then some ".IMSK" else none
  | .f, md => [".LD", ".ST", ".LS", ".F"][md.toNat]?
  | .g, md => [".B0", ".B1", ".B2", ".B3"][md.toNat]?
  | .h, md => [".MA", ".NMA", ".MS", ".NMS"][md.toNat]?

/-- The bank an operand's specifier indexes, in an instruction with this md and in a vector-scalar mode
or not (30_encoding.md R150, R156). -/
def Bank.resolve (b : Bank) (md : BitVec 2) (scalar : Bool) : Bank :=
  match b with
  | .byMd =>
    match md.toNat with
    | 0 => .sgprb
    | 1 => .vgprb
    | 2 => .hlprb
    | _ => .perfcb
  | .byVm => if scalar then .sgprb else .vgprb
  | b => b

/-- The number of registers of a bank; 0 where the hart lacks it. -/
def Bank.count (cfg : Config) (md : BitVec 2) (scalar : Bool) (b : Bank) : Nat :=
  match b.resolve md scalar with
  | .sgprb => cfg.srfs
  | .vgprb | .byVm => cfg.vrfs
  | .hlprb => cfg.hrfs
  | .perfcb | .byMd => cfg.crfs

/-- The width of a bank's registers in bytes (10_state.md R21, R26, R30, R40). -/
def Bank.bytes (cfg : Config) : Bank → Nat
  | .sgprb | .hlprb => cfg.wbytes
  | .vgprb | .byVm => cfg.mxvl / 8
  | .perfcb | .byMd => cfg.clen / 8

/-- The bank a specifier of an instruction indexes (30_encoding.md R146, R150, R156). -/
def OpcodeRow.bankOf (row : OpcodeRow) (md : BitVec 2) (scalar : Bool) (f : RegField) : Bank :=
  match row.operands.find? (fun p => p.1 == f) with
  | some p => p.2.resolve md scalar
  | none => .sgprb

/-- Why a recognised encoding is refused: the spec gives it no meaning the configuration supplies. -/
inductive DecodeRefusal where
  /-- md class G with md not 0 (30_encoding.md R154). -/
  | bankWindow
  /-- A `vm(6)` pattern without a value in the configuration (R156). -/
  | vectorMode
  /-- A masked form of an instruction whose mask register is not supplied (R156). -/
  | maskRegister
  /-- md class E and the vm modifier of one word ask for opposite masks (R152, R156, R213). -/
  | maskConflict
  deriving DecidableEq, Repr

/-- Which bytes of a vector destination are written (30_encoding.md R152, R156): all, those whose mask
bit is 1, or (inverted) those whose mask bit is 0. -/
inductive MaskUse where
  | unmasked
  | masked (r : MaskReg) (inverted : Bool)
  deriving DecidableEq, Repr

/-- Whether a vm mode masks, and with the mask inverted (30_encoding.md R156). -/
def VmMode.masking : VmMode → Option Bool
  | .vv | .vs => none
  | .mvv | .mvs => some false
  | .imvv | .imvs => some true

/-- A vm mode takes a scalar operand: VS, MVS, IMVS (30_encoding.md R156). -/
def VmMode.scalar : VmMode → Bool
  | .vs | .mvs | .imvs => true
  | .vv | .mvv | .imvv => false

/-- Masking by md class E or `vm(2)`: 1 is masked, 2 inverted mask (30_encoding.md R152, R156). -/
def maskCode (n : Nat) : Option Bool :=
  match n with
  | 1 => some false
  | 2 => some true
  | _ => none

/-- The vector mode of an instruction of format 4R-B; none in the other formats and for a vm pattern
without a value (30_encoding.md R156). -/
def OpcodeRow.vmMode (row : OpcodeRow) (cfg : Config) (fl : Fields) : Option VmMode :=
  if row.format = .fourRB then (cfg.vm6.find? (fun p => p.1 == fl.vm)).map (·.2) else none

/-- The instruction is in a vector-scalar mode. -/
def OpcodeRow.scalarForm (row : OpcodeRow) (cfg : Config) (fl : Fields) : Bool :=
  (row.vmMode cfg fl).any VmMode.scalar

/-- Every register operand exists in its bank (10_state.md R22, 30_encoding.md R161). -/
def OpcodeRow.operandsLegal (row : OpcodeRow) (cfg : Config) (fl : Fields) : Bool :=
  row.operands.all
    (fun p => decide ((fl.reg p.1).toNat < p.2.count cfg fl.md (row.scalarForm cfg fl)))

/-- Data of the instruction fills or comes from a scalar register: an operand in SGPRB that does not
only address memory (20_memory.md R104, 30_encoding.md R149). -/
def OpcodeRow.scalarData (row : OpcodeRow) (cfg : Config) (fl : Fields) : Bool :=
  row.operands.any
    (fun p => p.2.resolve fl.md (row.scalarForm cfg fl) == .sgprb && !row.bases.contains p.1)

/-- The size of the data of an instruction of class B; 0 for the other classes (30_encoding.md R149). -/
def OpcodeRow.dataSize (row : OpcodeRow) (fl : Fields) : Nat :=
  if row.mdClass = .b then 2 ^ fl.md.toNat else 0

/-- A class B size is within every register operand that does not only address memory (30_encoding.md
R149, R161); of the others `Prim.moves` asks it wherever their value is data. -/
def OpcodeRow.sizeFits (row : OpcodeRow) (cfg : Config) (fl : Fields) : Bool :=
  row.operands.all fun p => row.bases.contains p.1
    || decide (row.dataSize fl ≤ (p.2.resolve fl.md (row.scalarForm cfg fl)).bytes cfg)

/-- The md value is one the instruction uses and the hart supports: a bank the hart has, the fence types of
FNC (30_encoding.md R147 to R153; 00_scope.md R2). R151 gives class D no labelled modes: its md bits are bits
of the immediate, so every md value of it is used, whatever `mdUsed` lists (DESIGN CHOICE, log 48: R147 lets
an instruction use only some modes of its class). -/
def OpcodeRow.mdLegal (row : OpcodeRow) (cfg : Config) (fl : Fields) : Bool :=
  match row.mdClass with
  | .ignored | .d => true
  | .c => row.mdUsed.contains fl.md && decide (0 < Bank.byMd.count cfg fl.md false)
  | .e => row.mdUsed.contains fl.md && fl.md != 3
  | .f => row.mdUsed.contains fl.md && cfg.has .fnc
  | .a | .b | .g | .h => row.mdUsed.contains fl.md

/-- The vm value is one the instruction uses: `vm(2) = 3` has no meaning, and a vector-scalar mode needs
an operand that can be scalar (30_encoding.md R156, R161). -/
def OpcodeRow.vmLegal (row : OpcodeRow) (cfg : Config) (fl : Fields) : Bool :=
  !(row.format == .threeRIB && fl.vm == 3)
    && (row.vmUsed.map (·.contains fl.vm)).getD true
    && (!row.scalarForm cfg fl || row.operands.any (fun p => p.2 == .byVm))

/-- The masking the vm field asks for; or its pattern has no value (30_encoding.md R156). -/
def OpcodeRow.vmMasking (row : OpcodeRow) (cfg : Config) (fl : Fields) :
    Except DecodeRefusal (Option Bool) :=
  match row.format with
  | .fourRB =>
    match row.vmMode cfg fl with
    | none => .error .vectorMode
    | some m => .ok m.masking
  | .threeRIB => .ok (maskCode fl.vm.toNat)
  | _ => .ok none

/-- The masking md class E asks for (30_encoding.md R152). -/
def OpcodeRow.mdMasking (row : OpcodeRow) (fl : Fields) : Option Bool :=
  if row.mdClass = .e then maskCode fl.md.toNat else none

/-- The masking of an instruction, which may have md class E and a vm field both
(41_referenced_instruction_groups.md R213): masked where either asks for it. The spec does not say what
opposite demands mean (DESIGN CHOICE, log 40). -/
def OpcodeRow.masking (row : OpcodeRow) (cfg : Config) (fl : Fields) :
    Except DecodeRefusal (Option Bool) :=
  match row.vmMasking cfg fl, row.mdMasking fl with
  | .error r, _ => .error r
  | .ok v, none => .ok v
  | .ok none, some m => .ok (some m)
  | .ok (some v), some m => if v = m then .ok (some m) else .error .maskConflict

/-- A masked form, by whatever mask, needs VF (10_state.md R49, 30_encoding.md R161). -/
def OpcodeRow.maskLegal (row : OpcodeRow) (cfg : Config) (fl : Fields) : Bool :=
  cfg.has .vf || match row.masking cfg fl with
    | .ok none => true
    | .ok (some _) => false
    | .error .maskConflict => false
    | .error .vectorMode => true
    | .error .bankWindow => true
    | .error .maskRegister => true

/-- The hart supports the instruction as far as its modules and its md and vm values tell, whatever
registers it names (30_encoding.md R161). -/
def OpcodeRow.modesLegal (row : OpcodeRow) (cfg : Config) (fl : Fields) : Bool :=
  row.modules.all cfg.has && row.mdLegal cfg fl && row.vmLegal cfg fl && row.maskLegal cfg fl

/-- The hart can make an access of this size: a fixed scalar size within a scalar operand, a part of a
vector within MXVL/8 bytes (20_memory.md R104, 30_encoding.md R161). -/
def AccessSize.legal (cfg : Config) (scalarData : Bool) : AccessSize → Bool
  | .bytes log => decide (2 ^ log.val ≤ cfg.wbytes) || !scalarData
  | .byMd => true
  | .vector .whole _ | .vector .shaped _ => cfg.mxvl != 0
  | .vector (.part log) _ => decide (2 ^ log.val ≤ cfg.mxvl / 8)

/-- The most bytes an access of this size moves (20_memory.md R104). -/
def AccessSize.widest (cfg : Config) (md : BitVec 2) : AccessSize → Nat
  | .bytes log => 2 ^ log.val
  | .byMd => 2 ^ md.toNat
  | .vector .whole _ | .vector .shaped _ => cfg.mxvl / 8
  | .vector (.part log) _ => 2 ^ log.val

/-- The sizes of the accesses a primitive makes. -/
def Prim.accessSize : Prim → Option AccessSize
  | .load size | .store size | .loadIf size | .storeIf size => some size
  | _ => none

/-- How many entries a primitive takes from the stack, and how many it puts back. -/
def Prim.arity : Prim → Nat × Nat
  | .const _ | .imm | .md | .vm | .specifier _ | .scalarForm | .readReg _ | .readMode _
  | .readSpr _ => (0, 1)
  | .pick n => (n + 1, n + 2)
  | .drop | .writeReg _ | .writeMode _ | .writeSpr _ | .raiseFlag _ | .jump => (1, 0)
  | .readSprAt | .readAt _ | .readModeAt _ | .load _ | .readConfig _ => (1, 1)
  | .writeSprAt | .writeAt _ | .writeModeAt _ | .store _ | .branch => (2, 0)
  | .arith _ _ => (2, 1)
  | .loadIf _ | .select => (3, 1)
  | .storeIf _ => (3, 0)
  | .compute _ n => (n, 1)
  | .raiseFlags _ n => (n, n)
  | .fence | .raiseCustom _ => (0, 0)

/-! ### The immediate and numbered registers -/

/-- The immediate before extension and its width: class D puts the md bits on top (30_encoding.md R151,
R157). R151 lists the formats with an immediate of their own; in a format with md and no im, 2R-A, 3R-A, 4R-A,
2R-B or 4R-B, the two md bits are the whole immediate (DESIGN CHOICE, log 48). -/
def OpcodeRow.rawImmediate (row : OpcodeRow) (fl : Fields) : Nat × Nat :=
  let w := row.format.fieldWidth .im
  if row.mdClass = .d then (fl.md.toNat * 2 ^ w + fl.im.toNat, w + 2) else (fl.im.toNat, w)

/-- The immediate, extended and scaled as the row says, as a WLEN-bit value (30_encoding.md R157). R157
speaks of extension to WLEN only: of an immediate wider than WLEN, such as the 24 bits of format I-A on a
hart with WLEN 8 or 16, the low WLEN bits are kept (DESIGN CHOICE, log 46). -/
def OpcodeRow.immediate (row : OpcodeRow) (cfg : Config) (fl : Fields) : Nat :=
  let (v, w) := row.rawImmediate fl
  let i : Int := if row.immSigned && v.testBit (w - 1) then (v : Int) - 2 ^ w else v
  (i * 2 ^ row.immShift % 2 ^ cfg.wlen).toNat

/-- The bank of registers that have a mode. -/
def ModeBank.bank : ModeBank → Bank
  | .hlprb => .hlprb
  | .perfcb => .perfcb

/-- The register of a number of SPR_ACCESS, if it has one (10_state.md R45). -/
def Config.registerOf (cfg : Config) (n : Nat) : Option NumberedReg :=
  (cfg.sprNumbers.find? (fun p => p.1 == n)).map (·.2)

/-! ### Where data goes

Which loads and registers fill which registers, and which registers a store comes from. -/

/-- What a stack entry comes from. -/
structure DataSource where
  /-- The bytes of its widest load; 0 for none. -/
  loaded : Nat := 0
  /-- The bytes of the widest register it holds; 0 for none. -/
  held   : Nat := 0
  /-- The bytes of the narrowest register it comes from; 0 for none. -/
  least  : Nat := 0
  /-- Something other than constants and the registers that only address memory goes into it. -/
  data   : Bool := false
  /-- The registers among `bases` that go into it. -/
  bases  : List RegField := []
  /-- The number itself, where a constant or a field of the encoding gives it. -/
  number : Option Nat := none
  deriving DecidableEq, Repr

/-- The lesser of two sizes of which 0 is none. -/
def leastSize (a b : Nat) : Nat := if a = 0 then b else if b = 0 then a else min a b

/-- What data computed from several entries comes from. -/
def DataSource.join : List DataSource → DataSource
  | [] => {}
  | e :: es =>
    let r := DataSource.join es
    { loaded := max e.loaded r.loaded, held := max e.held r.held, least := leastSize e.least r.least,
      data := e.data || r.data, bases := e.bases ++ r.bases }

/-- The value of a register of some bytes. -/
def DataSource.ofReg (bytes : Nat) : DataSource := { held := bytes, least := bytes, data := true }

/-- The bytes data of a number of SPR_ACCESS may fill: those of a helper register or counter, and else
WBYTES, or 4 where that is more (DESIGN CHOICE, log 42). -/
def Config.numberedBytes (cfg : Config) (n : Option Nat) : Nat :=
  match n.bind cfg.registerOf with
  | some (.value b _) => b.bank.bytes cfg
  | some (.mode _ _) | some (.special _) | none => max cfg.wbytes 4

/-- What a register read by a number of SPR_ACCESS comes from; a special purpose register and a mode are
not asked. -/
def DataSource.ofNumber (cfg : Config) (n : Option Nat) : DataSource :=
  match n.bind cfg.registerOf with
  | some (.value b _) => .ofReg (b.bank.bytes cfg)
  | some (.mode _ _) | some (.special _) | none => {}

/-- The bank a specifier indexes in an instruction with these fields. -/
def OpcodeRow.fieldBank (row : OpcodeRow) (cfg : Config) (fl : Fields) (f : RegField) : Bank :=
  row.bankOf fl.md (row.scalarForm cfg fl) f

/-- The stack after a primitive, by where its entries come from. Data keeps its size through arithmetic
(DESIGN CHOICE, log 42). A CfgRead is no access of main memory, and R103 does not say what becomes of one of
more bytes than the register it goes to: its value has no size here and is cut to that register, where a
load so wide is INCI (DESIGN CHOICE, log 35). -/
def Prim.carry (cfg : Config) (row : OpcodeRow) (fl : Fields) (st : List DataSource) (p : Prim) :
    List DataSource :=
  let rest := st.drop p.arity.1
  let entry := fun k => st.getD k {}
  match p with
  | .const n => { number := some n } :: st
  | .imm => { number := some (row.immediate cfg fl) } :: st
  | .md => { number := some fl.md.toNat } :: st
  | .vm => { number := some fl.vm.toNat } :: st
  | .specifier f => { number := some (fl.reg f).toNat } :: st
  | .pick n => entry n :: st
  | .readReg f =>
    let r := DataSource.ofReg ((row.fieldBank cfg fl f).bytes cfg)
    (if row.bases.contains f then { r with data := false, bases := [f] } else r) :: rest
  | .readAt b => .ofReg (b.bytes cfg) :: rest
  | .readSprAt => .ofNumber cfg (entry 0).number :: rest
  | .load size => { loaded := size.widest cfg fl.md, data := true } :: rest
  | .loadIf size => .join [entry 2, { loaded := size.widest cfg fl.md, data := true }] :: rest
  | .arith _ _ => .join [entry 0, entry 1] :: rest
  | .select => .join [entry 1, entry 2] :: rest
  | .compute _ n => { DataSource.join (st.take n) with held := 0, data := true } :: rest
  | .raiseFlags _ _ => st
  | p => List.replicate p.arity.2 {} ++ rest

/-- The registers among `bases` in the address of the access a primitive makes. -/
def Prim.addressed (st : List DataSource) : Prim → List RegField
  | .load _ | .store _ => (st.getD 0 {}).bases
  | .loadIf _ | .storeIf _ => (st.getD 1 {}).bases
  | _ => []

/-- The registers among `bases` that address memory in a sequence. -/
def addressing (cfg : Config) (row : OpcodeRow) (fl : Fields) :
    List DataSource → List Prim → List RegField
  | _, [] => []
  | st, p :: ps => p.addressed st ++ addressing cfg row fl (p.carry cfg row fl st) ps

/-- No register the data comes from is narrower than n bytes. -/
def DataSource.wide (e : DataSource) (n : Nat) : Bool := e.least == 0 || decide (n ≤ e.least)

/-- Data of a class B size `n` and an entry's loads may fill a register of some bytes. -/
def DataSource.fills (e : DataSource) (n bytes : Nat) : Bool :=
  decide (e.loaded ≤ bytes) && decide (n ≤ bytes) && e.wide n

/-- A store of some bytes may come from an entry, in an instruction of class B size n. -/
def DataSource.feeds (e : DataSource) (n bytes : Nat) : Bool :=
  (e.held == 0 || decide (bytes ≤ e.held)) && e.wide n

/-- A primitive moves no data wider than the registers it fills or comes from (20_memory.md R104: only
sizes "not above `WBYTES` can fill a scalar register"; 30_encoding.md R149: "A size above `WBYTES` on a
scalar register"; R161). What decides a condition or raises a flag is data too, from whatever register
(DESIGN CHOICE, log 42). `used` are the registers that address memory: the update of one of them by address
arithmetic is no data. -/
def Prim.moves (cfg : Config) (row : OpcodeRow) (fl : Fields) (used : List RegField)
    (st : List DataSource) (p : Prim) : Bool :=
  let n := row.dataSize fl
  let entry := fun k => st.getD k {}
  let special := fun (e : DataSource) bytes => e.fills (if e.data then n else 0) bytes && e.wide n
  match p with
  | .writeReg f =>
    let bytes := (row.fieldBank cfg fl f).bytes cfg
    (row.bases.contains f && used.contains f && (entry 0).bases.contains f && !(entry 0).data)
      || (entry 0).fills n bytes
  | .writeAt b => (entry 1).fills n (b.bytes cfg)
  | .writeMode _ => (entry 0).wide n
  | .writeModeAt _ => (entry 1).wide n
  | .writeSpr _ => special (entry 0) (max cfg.wbytes 4)
  | .writeSprAt => special (entry 1) (cfg.numberedBytes (entry 0).number)
  | .store size => (entry 1).feeds n (size.widest cfg fl.md)
  | .storeIf size => (entry 0).wide n && (entry 2).feeds n (size.widest cfg fl.md)
  | .loadIf _ | .select | .raiseFlag _ => (entry 0).wide n
  | .raiseFlags _ k => (st.take k).all (·.wide n)
  | .jump => decide ((entry 0).loaded ≤ cfg.wbytes)
  | .branch => (entry 0).wide n && decide ((entry 1).loaded ≤ cfg.wbytes)
  | _ => true

/-- No primitive of a sequence moves data wider than its registers, from a stack on. -/
def flowsFrom (cfg : Config) (row : OpcodeRow) (fl : Fields) (used : List RegField) :
    List DataSource → List Prim → Bool
  | _, [] => true
  | st, p :: ps =>
    p.moves cfg row fl used st && flowsFrom cfg row fl used (p.carry cfg row fl st) ps

/-- No primitive of an instruction moves data wider than its registers. -/
def flows (cfg : Config) (row : OpcodeRow) (fl : Fields) (ps : List Prim) : Bool :=
  flowsFrom cfg row fl (addressing cfg row fl [] ps) [] ps

/-- The hart can make every access of the instruction. -/
def OpcodeRow.sizesLegal (row : OpcodeRow) (cfg : Config) (fl : Fields) : Bool :=
  match row.sem with
  | .prims ps =>
    ps.all (fun p => (p.accessSize.map (·.legal cfg (row.scalarData cfg fl))).getD true)
      && flows cfg row fl ps
  | .core _ => true
  | .group _ => true

/-- The hart has the registers the instruction names, and they hold its data (30_encoding.md R161). -/
def OpcodeRow.registersLegal (row : OpcodeRow) (cfg : Config) (fl : Fields) : Bool :=
  row.operandsLegal cfg fl && row.sizeFits cfg fl && row.sizesLegal cfg fl

/-- This hart supports the instruction with these operands; otherwise it is INCI (30_encoding.md
R161), where it is not refused before its registers are looked at (`decode`). -/
def OpcodeRow.supported (row : OpcodeRow) (cfg : Config) (fl : Fields) : Bool :=
  row.modesLegal cfg fl && row.registersLegal cfg fl

/-! ### Decoding -/

/-- A decoded instruction. -/
structure Decoded where
  row    : OpcodeRow
  fields : Fields
  mask   : MaskUse
  /-- A vector-scalar mode of `vm(6)`. -/
  scalar : Bool
  deriving DecidableEq, Repr

/-- What decoding a word gives (30_encoding.md R160, R161). -/
inductive DecodeResult where
  | instr (d : Decoded)
  /-- ILLI: all zeros, all ones, or assigned to nothing. -/
  | illegal
  /-- INCI: defined, with a module or an operand this hart does not support. -/
  | incompatible
  | refused (r : DecodeRefusal)
  deriving DecidableEq, Repr

/-- The row of OPCODE_MAP for a word of a given length (30_encoding.md R159). -/
def Config.rowFor (cfg : Config) (len : InstrLen) (w : InstrBits) : Option OpcodeRow :=
  cfg.opcodeMap.find? fun r =>
    r.format.length == len && fieldOf cfg.fieldOrder r.format w .op == r.op.toNat

/-- All parcels of the instruction are 0x0000, or all are 0xFFFF (30_encoding.md R160). -/
def blankWord (len : InstrLen) (w : InstrBits) : Bool :=
  w.toNat == 0 || w.toNat == 2 ^ (8 * len.bytes) - 1

/-- The mask of an instruction, or why it is refused: the spec gives class G with md not 0 and an
unvalued `vm(6)` pattern no meaning, and no mask register to a masked form the map gives none
(30_encoding.md R154, R156). The mask register of a masked form is the row's one, whatever the vm bits
(DESIGN CHOICE, log 40). -/
def OpcodeRow.maskUse (row : OpcodeRow) (cfg : Config) (fl : Fields) : Except DecodeRefusal MaskUse :=
  if row.mdClass = .g ∧ fl.md ≠ 0 then .error .bankWindow
  else match row.masking cfg fl with
    | .error r => .error r
    | .ok none => .ok .unmasked
    | .ok (some inverted) =>
      match row.maskReg with
      | none => .error .maskRegister
      | some m => .ok (.masked m inverted)

/-- Decode a word of a given length: ILLI for blank and unassigned words, INCI for what the hart does
not support, refusal for what the spec gives no meaning (30_encoding.md R160, R161, R154, R156). Which
comes first for a word that is both unsupported and refused the spec does not say: here INCI where the
modules, the md or the vm value alone tell it, then the refusal, and last INCI for the registers and sizes,
also where a bank is fixed and its index is beyond it, because what the registers of a refused form are is
not known (DESIGN CHOICE, log 31). -/
def decode (cfg : Config) (len : InstrLen) (w : InstrBits) : DecodeResult :=
  if blankWord len w then .illegal
  else match cfg.rowFor len w with
    | none => .illegal
    | some row =>
      let fl := fieldsOf cfg.fieldOrder row.format w
      if !row.modesLegal cfg fl then .incompatible
      else match row.maskUse cfg fl with
        | .error r => .refused r
        | .ok mask =>
          if row.registersLegal cfg fl then .instr ⟨row, fl, mask, row.scalarForm cfg fl⟩
          else .incompatible

/-- The core instruction a decode result stands for. -/
def DecodeResult.core? : DecodeResult → Option Instr
  | .instr d =>
    match d.row.sem with
    | .core i => some i
    | .prims _ => none
    | .group _ => none
  | .illegal => none
  | .incompatible => none
  | .refused _ => none

/-- A parcel from its two bytes in memory order (20_memory.md R106). -/
def parcelOf (e : Endian) (b0 b1 : Byte) : Parcel := BitVec.ofNat 16 (valueOf e [b0, b1])

/-- The instruction word of up to three parcels, the first in the low bits (20_memory.md R106). -/
def wordOf (ps : List Parcel) : InstrBits :=
  BitVec.ofNat 48 (ps.foldr (fun p acc => p.toNat + 65536 * acc) 0)

/-- The parcels of an instruction word. -/
def parcelsOf (len : InstrLen) (w : InstrBits) : List Parcel :=
  (List.range (len.bytes / 2)).map fun j => w.extractLsb' (16 * j) 16

/-- The bytes of an instruction word in memory order: ENDIAN inside each parcel, the first parcel at
the lowest address (20_memory.md R106). -/
def instrBytes (e : Endian) (len : InstrLen) (w : InstrBits) : List Byte :=
  (parcelsOf len w).flatMap fun p => [byteOf e 2 0 p.toNat, byteOf e 2 1 p.toNat]

/-- Whole parcels of a list of bytes. -/
def parcelsOfBytes (e : Endian) : List Byte → List Parcel
  | b0 :: b1 :: bs => parcelOf e b0 b1 :: parcelsOfBytes e bs
  | _ => []

/-- Decode the instruction at the head of a list of bytes, with its length; none if there are fewer
bytes than its length. -/
def decodeBytes (cfg : Config) (bs : List Byte) : Option (InstrLen × DecodeResult) :=
  match parcelsOfBytes cfg.endian bs with
  | [] => none
  | p :: ps =>
    let len := cfg.lengthOf.apply p
    let taken := (p :: ps).take (len.bytes / 2)
    if taken.length = len.bytes / 2 then some (len, decode cfg len (wordOf taken)) else none

/-! ### Encoding -/

/-- The row of OPCODE_MAP of one of the five instructions. -/
def Config.rowOf (cfg : Config) (i : Instr) : Option OpcodeRow :=
  cfg.opcodeMap.find? (fun r => r.sem == .core i)

/-- The word of an instruction: its op value in its format, every other field 0 (R159, R180). -/
def encode (cfg : Config) (i : Instr) : Option (InstrLen × InstrBits) :=
  (cfg.rowOf i).map fun r => (r.format.length, assemble cfg.fieldOrder r.format { op := r.op })

/-- The bytes of an instruction in memory order. -/
def encodeBytes (cfg : Config) (i : Instr) : Option (List Byte) :=
  (encode cfg i).map fun p => instrBytes cfg.endian p.1 p.2

/-- The instruction the decoder reads from a word of the table's numbering under the reference
configuration: the word laid out in memory order as the longest instruction, zeros above `nbits`. -/
def decodeTableWord (nbits w : Nat) : Option Instr :=
  let cfg := Config.reference
  match decodeBytes cfg (instrBytes cfg.endian .six (BitVec.ofNat 48 (w % 2 ^ nbits))) with
  | some (_, r) => r.core?
  | none => none

end Sys2Proof
end

