-- ==== Sys2Proof/WellFormed.lean ====
section
/-! DEFINITION. Which configurations the spec allows, and which instructions a configuration encodes.
A step refuses a configuration that fails a check, by the check's name (93_implementation_defined.md
U1, U2). -/

namespace Sys2Proof

/-- What can be wrong with a configuration. -/
inductive ConfigProblem where
  /-- A size code 0b11 (10_state.md R21, R26, R30, R40; U1). -/
  | reservedSize
  /-- An MXVLC outside the table for this WLENC (10_state.md R27; U2). -/
  | vectorLength
  /-- A parameter of an absent bank that is not 0 (R26, R30, R40, R41: "must be set to zero"). -/
  | unusedParameter
  /-- A vector module without a vector length (10_state.md R26, R27). -/
  | vectorModule
  /-- A module without one it needs: CTXR needs USER (00_scope.md R2). -/
  | moduleDependency
  /-- RESET_PC not a WLEN-bit multiple of IALIGN, or IALIGN 0 (70_reset_and_hazards.md R301). -/
  | resetPc
  /-- A watchdog tick every 0 cycles (60_exceptions.md R256: a "positive number of cycles"). -/
  | watchdogTick
  /-- A number of SPR_ACCESS given to two registers (00_scope.md R5). -/
  | registerNumber
  /-- An event queue without a place (00_scope.md R5: "at least 1"). -/
  | queueDepth
  /-- SR fields that overlap or leave the 32 bits (10_state.md R79). -/
  | srLayout
  /-- Two custom events of one code (60_exceptions.md R229). -/
  | customEvent
  /-- A custom mode of a helper register or counter that is given twice, watches or counts nothing the
  spec knows, or raises an event that is no listed custom exception (10_state.md R31, R42; U4, U6). -/
  | customMode
  /-- A power state with an effect, which the model cannot express (60_exceptions.md R259, U10). -/
  | powerEffect
  /-- A row of OPCODE_MAP that its format cannot hold, or whose primitives are no sequence of the kind
  R200 asks for (30_encoding.md R130 to R156). -/
  | opcodeRow
  /-- Two rows of OPCODE_MAP that a word can match together (30_encoding.md R159). -/
  | opcodeOverlap
  deriving DecidableEq, Repr

/-- The legal pairs of MXVLC and WLENC (10_state.md R27): `2 * WLEN <= MXVL <= 8 * WLEN`, or none. -/
def Config.vectorLengthLegal (cfg : Config) : Bool :=
  cfg.mxvlc == 0
    || (cfg.mxvlc != 7 && decide (2 * cfg.wlen ≤ cfg.mxvl) && decide (cfg.mxvl ≤ 8 * cfg.wlen))

/-- Every bit position SR_LAYOUT assigns. -/
def SrLayout.positions (l : SrLayout) : List Nat :=
  let bits := fun lo n => (List.range n).map (lo + ·)
  bits l.rmd 2 ++ bits l.tnd 8 ++ bits l.cmd 1 ++ bits l.gee 1 ++ bits l.hlpre 4
    ++ bits l.perfce 1 ++ bits l.cntu 2 ++ bits l.im 2 ++ bits l.pmod 1 ++ bits l.wdte 1
    ++ bits l.pwrs 4 ++ bits l.hlts 3 ++ [l.spare0, l.spare1]

/-- No two fields share a bit and every bit is one of 32 (10_state.md R79). -/
def SrLayout.legal (l : SrLayout) : Bool :=
  decide l.positions.Nodup && l.positions.all (fun p => decide (p < 32))

/-- The format has a specifier field. -/
def Format.hasReg (fmt : Format) (f : RegField) : Bool :=
  fmt.fieldWidth (match f with
    | .ra => .ra
    | .rb => .rb
    | .rc => .rc
    | .rd => .rd) != 0

/-- No primitive of a sequence takes an entry the stack does not hold; `n` is its depth before. -/
def stackOk : Nat → List Prim → Bool
  | _, [] => true
  | n, p :: ps => decide (p.arity.1 ≤ n) && stackOk (n - p.arity.1 + p.arity.2) ps

/-- A custom event is listed, and synchronous (60_exceptions.md R229). -/
def Config.customSynchronous (cfg : Config) (slot : Fin 142) : Bool :=
  cfg.customEvents.any fun e => e.slot == slot && (e.kind == .exception || e.kind == .fault)

/-- A primitive means something in an instruction of a row: it names operands and fields the row has, modes
of a bank with modes, sizes and fence types the md class gives, a listed synchronous event. A row of class
"-" ignores the md field, so no primitive of it reads md (30_encoding.md R148). A row of class D has an
immediate in every format with md (R151; DESIGN CHOICE for one without im, log 48). -/
def Prim.fits (cfg : Config) (r : OpcodeRow) : Prim → Bool
  | .readReg f | .writeReg f => r.operands.any (fun p => p.1 == f)
  | .specifier f => r.format.hasReg f
  | .md => r.mdClass != .ignored
  | .imm => r.format.fieldWidth .im != 0 || r.mdClass == .d
  | .vm => r.format.fieldWidth .vm != 0
  | .scalarForm => r.format == .fourRB
  | .readMode f | .writeMode f => r.operands.any fun p => p.1 == f
      && (p.2 == .hlprb || p.2 == .perfcb || (p.2 == .byMd && r.mdUsed.all (fun v => 2 ≤ v.toNat)))
  | .readAt b | .writeAt b => b != .byMd && b != .byVm
  | .load .byMd | .store .byMd | .loadIf .byMd | .storeIf .byMd => r.mdClass == .b
  | .fence => r.mdClass == .f
  | .raiseCustom slot => cfg.customSynchronous slot
  | _ => true

/-- A row of OPCODE_MAP fits its format: the op value its op field, its operands the specifier fields it
has, each once, with the bank md class C or `vm(6)` chooses only where there is one; class G only the
compressed format with md, on scalar registers, and the vector formats, in which md 0 leaves every
specifier its operand's whole bank (DESIGN CHOICE, log 31: R154 gives md 0 a meaning in 2R-B only, R213
none); a compressed row of another class any bank, its 3-bit specifiers registers 0 to 7 of it (DESIGN
CHOICE, log 49: 10_state.md R25 and R202 name `x[k]`, R146 lets the bank depend on the instruction);
primitives that make sense (30_encoding.md R130, R146, R150, R154, R156;
41_referenced_instruction_groups.md R200, R213). -/
def OpcodeRow.fits (cfg : Config) (r : OpcodeRow) : Bool :=
  decide (r.op.toNat < 2 ^ r.format.fieldWidth .op)
    && r.operands.all (fun p => r.format.hasReg p.1 && (p.2 != .byMd || r.mdClass == .c)
        && (p.2 != .byVm || r.format == .fourRB))
    && decide (r.operands.map (·.1)).Nodup
    && (r.mdClass == .ignored || r.format.hasMd)
    && (r.mdClass != .g || r.format == .fourRB || r.format == .threeRIB
      || (r.format == .twoRB && r.operands.all (fun p => p.2 == .sgprb)))
    && match r.sem with
      | .prims ps => stackOk 0 ps && ps.all (Prim.fits cfg r)
      | .core _ => true
      | .group _ => true

/-- No word of one length carries the op values of both rows. -/
def OpcodeRow.disjoint (order : FieldOrder) (a b : OpcodeRow) : Bool :=
  a.format.length != b.format.length
    || (assemble order a.format { op := BitVec.allOnes 20 }
        &&& assemble order b.format { op := BitVec.allOnes 20 }
        &&& (assemble order a.format { op := a.op } ^^^ assemble order b.format { op := b.op }))
      != 0

/-- Every two rows of the map are disjoint. -/
def unambiguous (order : FieldOrder) : List OpcodeRow → Bool
  | [] => true
  | r :: rs => rs.all (r.disjoint order) && unambiguous order rs

/-- A custom mode of a helper register is one of the watches of modes 0 to 24, and its event a listed
custom exception: helper events are exceptions (10_state.md R31, 60_exceptions.md R264; U6). -/
def HelperHook.legal (cfg : Config) (k : HelperHook) : Bool :=
  k.watch != .reserved
    && match k.event with
      | none => true
      | some e => cfg.customEvents.any fun c => c.slot == e && c.kind == .exception

/-- Every check of a configuration, with the problem it reports. -/
def Config.checks (cfg : Config) : List (Bool × ConfigProblem) :=
  [ (cfg.srfsc != 3 && cfg.vrfsc != 3 && cfg.hrfsc != 3 && cfg.crfsc != 3, .reservedSize),
    (cfg.vectorLengthLegal, .vectorLength),
    ((cfg.mxvlc != 0 || cfg.vrfsc == 0) && (cfg.has .hlpr || cfg.hrfsc == 0)
      && (cfg.has .perfc || (cfg.crfsc == 0 && cfg.clenc == 0)), .unusedParameter),
    (!(cfg.has .vc || cfg.has .vf) || cfg.mxvlc != 0, .vectorModule),
    (!cfg.has .ctxr || cfg.has .user, .moduleDependency),
    (decide (0 < cfg.ialign) && decide (cfg.resetPc.toNat < 2 ^ cfg.wlen)
      && decide (cfg.resetPc.toNat % cfg.ialign = 0), .resetPc),
    (decide (0 < cfg.wdtTick), .watchdogTick),
    (decide (cfg.sprNumbers.map (·.1)).Nodup, .registerNumber),
    (decide (0 < cfg.queueDepth), .queueDepth),
    (cfg.srLayout.legal, .srLayout),
    (decide (cfg.customEvents.map (·.slot)).Nodup, .customEvent),
    (decide (cfg.helperModes.map (·.slot)).Nodup && cfg.helperModes.all (·.legal cfg)
      && decide (cfg.counterModes.map (·.slot)).Nodup
      && cfg.counterModes.all (fun k => k.counts != .reserved), .customMode),
    (!cfg.has .sa || cfg.powerEffect == .storage, .powerEffect),
    (cfg.opcodeMap.all (·.fits cfg), .opcodeRow),
    (unambiguous cfg.fieldOrder cfg.opcodeMap, .opcodeOverlap) ]

/-- The first check a configuration fails. -/
def Config.problem (cfg : Config) : Option ConfigProblem :=
  (cfg.checks.find? (fun c => !c.1)).map (·.2)

/-- The configuration passes every check. -/
def Config.legal (cfg : Config) : Bool := cfg.problem.isNone

/-- The instruction has an encoding in this configuration that its decoder must give back: a row
without register operands, modules it lacks or a vector mode, whose word is not blank and whose
first parcel has the row's length. -/
def Instr.wellFormed (cfg : Config) (i : Instr) : Bool :=
  match cfg.rowOf i with
  | none => false
  | some r =>
    let w := assemble cfg.fieldOrder r.format { op := r.op }
    cfg.legal && r.operands.isEmpty && r.supported cfg {} && r.format != .fourRB
      && !blankWord r.format.length w && cfg.lengthOf.apply (w.extractLsb' 0 16) == r.format.length

end Sys2Proof
end

