-- ==== Sys2Proof/Machine/State.lean ====
section
/-! DEFINITION. The state of a hart as plain data, why a step can stop, and the state after reset. -/

namespace Sys2Proof.Machine

/-- The Status Register, field by field (10_state.md R78 to R92): rules name the fields only, and
SR_LAYOUT places them when the register is read or written whole. MESR and UESR hold the same. -/
structure StatusReg where
  /-- RMD, floating-point rounding mode (R80). -/
  rmd    : BitVec 2 := 0
  /-- TND, transaction nesting depth (R81). -/
  tnd    : BitVec 8 := 0
  /-- CMD, consistency mode: 1 is sequential (R82). -/
  cmd    : BitVec 1 := 0
  /-- GEE, global arithmetic exceptions enable (R83). -/
  gee    : BitVec 1 := 0
  /-- HLPRE, helper register enables, one bit for eight registers (R84). -/
  hlpre  : BitVec 4 := 0
  /-- PERFCE, performance counter enable (R85). -/
  perfce : BitVec 1 := 0
  /-- CNTU, time unit of the counters (R86). -/
  cntu   : BitVec 2 := 0
  /-- IM, interrupt mask: bit 0 IO, bit 1 IPC (R88). -/
  im     : BitVec 2 := 0
  /-- PMOD, privilege mode: 1 is user (R87). -/
  pmod   : BitVec 1 := 0
  /-- WDTE, watchdog timer enable (R89). -/
  wdte   : BitVec 1 := 0
  /-- PWRS, power state (R90). -/
  pwrs   : BitVec 4 := 0
  /-- HLTS, halt state (R92). -/
  hlts   : BitVec 3 := 0
  /-- The two bits no field uses (R78, R79). -/
  spare  : BitVec 2 := 0
  deriving DecidableEq, Repr

/-- A helper register (10_state.md R30). -/
structure HelperReg where
  val  : Word := 0
  mode : BitVec 8 := 0
  deriving DecidableEq, Repr

/-- A performance counter (10_state.md R40). -/
structure CounterReg where
  val  : BitVec 64 := 0
  mode : BitVec 8 := 0
  deriving DecidableEq, Repr

/-- One of the two sets of event registers (60_exceptions.md R253): MEPC to MET1 (10_state.md R59 to
R65) or UEPC to UET1 (R52 to R58). -/
structure EventRegs where
  epc : Word := 0
  esr : StatusReg := {}
  ec  : BitVec 16 := 0
  ed  : Word := 0
  ehp : Word := 0
  et0 : Word := 0
  et1 : Word := 0
  /-- The MODEL's own: a launch of this level has had no return since. Read only by the conservative
  test of R241. -/
  inHandler : Bool := false
  deriving DecidableEq, Repr

/-- The usage registers (10_state.md R67 to R71), bit i for register i of the bank. -/
structure UsageRegs where
  sgprb  : BitVec 32 := 0
  vgprb  : BitVec 32 := 0
  hlprb  : BitVec 32 := 0
  perfcb : BitVec 32 := 0
  deriving DecidableEq, Repr

/-- What the world outside the hart does before an instruction boundary. -/
inductive Input where
  /-- IO interrupt k arrives (60_exceptions.md R250). -/
  | io (k : Fin 32)
  /-- IPC interrupt k arrives (R251). -/
  | ipc (k : Fin 32)
  /-- A clock cycle passes; every WDT_TICK of them the watchdog ticks (R256; log 12). -/
  | clockCycle
  /-- An implementation-specific asynchronous event arrives (U7). -/
  | custom (slot : Fin 142)
  /-- Another agent writes a byte of main memory (20_memory.md R121). -/
  | memoryWrite (addr : Word) (b : Byte)
  /-- Another agent writes a byte of main memory while the next instruction runs, after its first
  `after` bytes of data are read or written: no access wider than a byte is atomic (R104). -/
  | memoryWriteDuring (after : Nat) (addr : Word) (b : Byte)
  deriving DecidableEq, Repr

/-- A byte another agent writes at a physical address while an instruction runs (20_memory.md R104). -/
structure Race where
  after : Nat
  addr  : Nat
  byte  : Byte
  deriving DecidableEq, Repr

/-- A hart: every piece of state the spec gives it, its configuration and the coming inputs. -/
structure State where
  /-- The configuration; no step changes it. -/
  cfg    : Config
  /-- SGPRB (10_state.md R21): SRFS registers. -/
  x      : List Word
  /-- VGPRB (R26): VRFS registers. -/
  vr     : List VWord
  /-- HLPRB (R30): HRFS registers. -/
  h      : List HelperReg
  /-- PERFCB (R40): CRFS registers. -/
  c      : List CounterReg
  /-- PC (R46). -/
  pc     : Word
  /-- SR (R47). -/
  sr     : StatusReg
  /-- VSH (R48). -/
  vsh    : BitVec 8
  /-- VM1 (R49). -/
  vm1    : BitVec 64
  /-- VM2 (R50). -/
  vm2    : BitVec 64
  /-- VM3 (R51). -/
  vm3    : BitVec 64
  /-- UEPC to UET1 (R52 to R58). -/
  u      : EventRegs
  /-- MEPC to MET1 (R59 to R65). -/
  m      : EventRegs
  /-- PFPA (R66). -/
  pfpa   : Word
  /-- SGPRBU to PERFCBU (R67 to R71). -/
  usage  : UsageRegs
  /-- PID (R72). -/
  pid    : BitVec 32
  /-- TID (R73). -/
  tid    : BitVec 32
  /-- HPID (R74). -/
  hpid   : BitVec 32
  /-- TPTR (R75). -/
  tptr   : Word
  /-- WDT (R76). -/
  wdt    : BitVec 32
  /-- The event queue, oldest first (R94, 60_exceptions.md R245). -/
  queue  : List Event
  /-- Main memory by physical address (20_memory.md R100), addresses strictly rising; an unlisted byte
  is a free value. -/
  mem    : List Host.Cell
  /-- The locations written since the program was loaded (R115), strictly rising. -/
  dirty  : List Nat
  /-- The MODEL's own: what other agents write while the instruction of this step runs; nothing between
  two steps. -/
  racing : List Race
  /-- The MODEL's own: what happens outside before each coming instruction boundary. -/
  inputs : List (List Input)
  /-- The MODEL's own: the clock cycles since the last watchdog tick (60_exceptions.md R256; log 12). -/
  cycles : Nat
  /-- The MODEL's own: the number of the next free value of a counter. -/
  draws  : Nat
  deriving DecidableEq, Repr

/-- Why the machine stops with no next state although the instruction is defined. -/
inductive Fault where
  /-- A fetch of a location written since load with no fetch fence since (20_memory.md R115, U22).
  Safe: the hardware fetches the old or the new byte. -/
  | staleFetch (addr : Word)
  /-- An unaligned data access on a hart without DALIGN (20_memory.md R108, U14: stuck). Safe: the
  hardware does something the source does not give. -/
  | unalignedData (addr : Word)
  /-- A fetch or a data access of a physical address where the platform has nothing (20_memory.md R117).
  Safe: the spec gives such an access no effect. -/
  | unmapped (addr : Word)
  /-- A data write to read-only memory (20_memory.md R117). Safe: the spec gives it no effect. -/
  | readOnly (addr : Word)
  deriving DecidableEq, Repr

/-- Why a step has no meaning. -/
inductive Refusal where
  /-- An arm of exec without a meaning; none is left. Safe. -/
  | notModelled (mnemonic : String)
  /-- The configuration fails a check (93_implementation_defined.md U1, U2). Safe. -/
  | configuration (p : ConfigProblem)
  /-- SR.HLTS holds 3 to 7 (10_state.md R92, U16). Safe. -/
  | haltState (v : BitVec 3)
  /-- SR.TND is not 0, at a step or when a return that restored it would relaunch an event
  (10_state.md R95, 60_exceptions.md R247, U20). Safe. -/
  | transactional
  /-- An enabled helper register holds a reserved mode (10_state.md R31, U5). Safe. -/
  | helperMode (index : Nat)
  /-- A counter of the enabled bank holds a reserved mode (10_state.md R42, U3). Safe. -/
  | counterMode (index : Nat)
  /-- A synchronous event would have to be queued on a full queue (60_exceptions.md R246, U19). Safe. -/
  | queueOverflow
  /-- Another agent's memory write, or a fence, under relaxed consistency (20_memory.md R110, R111,
  U21). Safe. -/
  | relaxedConsistency
  /-- An encoding the spec gives no meaning until the map supplies one (30_encoding.md R154, R156). Safe. -/
  | encoding (r : DecodeRefusal)
  /-- OPCODE_MAP names a group whose instructions the spec does not define (R200 to R214). Safe. -/
  | undefinedGroup (g : InstrGroup)
  /-- CfgRead outside the configuration segment (20_memory.md R103). Safe. -/
  | segmentRange
  /-- A fetch or a data access of a physical address that belongs to a device, whose behaviour is in
  section 5 (20_memory.md R100, R117). Safe. -/
  | device (addr : Word)
  /-- The queue holds an event that does not exist on this hart (60_exceptions.md R223, U8). Safe. -/
  | undefinedEvent (code : BitVec 9)
  deriving DecidableEq, Repr

/-- The hart right after reset under a configuration (10_state.md R97, 70_reset_and_hazards.md R301).
Registers R97 calls unspecified hold 0 (DESIGN CHOICE, log 2); memory holds free values (log 4); no
input is coming (log 5). -/
def State.resetOf (cfg : Config) : State where
  cfg := cfg
  x := List.replicate cfg.srfs 0
  vr := List.replicate cfg.vrfs 0
  h := List.replicate cfg.hrfs {}
  c := List.replicate cfg.crfs {}
  pc := cfg.resetPc
  sr := { im := if cfg.has .ioint || cfg.has .ipcint then 3 else 0 }
  vsh := 0
  vm1 := 0
  vm2 := 0
  vm3 := 0
  u := {}
  m := {}
  pfpa := 0
  usage := {}
  pid := 0
  tid := 0
  hpid := 0
  tptr := 0
  wdt := 0
  queue := []
  mem := []
  dirty := []
  racing := []
  inputs := []
  cycles := 0
  draws := 0

/-- The hart right after reset under the reference configuration (92_eei_decisions.md D37). -/
def State.reset : State := State.resetOf Config.reference

end Sys2Proof.Machine
end

