-- ==== Sys2Proof/Machine/Status.lean ====
section
/-! DEFINITION. The Status Register: which fields exist, which are privileged, what it looks like as 32
bits, and what the launching sequences do to it (10_state.md R78 to R92). -/

namespace Sys2Proof.Machine

/-- Writes to fields of absent modules and to unused bits are discarded; they hold 0 (10_state.md R78). -/
def StatusReg.present (cfg : Config) (r : StatusReg) : StatusReg where
  rmd := if cfg.has .frmd then r.rmd else 0
  tnd := if cfg.has .tm then r.tnd else 0
  cmd := if cfg.has .fnc then r.cmd else 0
  gee := if cfg.has .exc then r.gee else 0
  hlpre := if cfg.has .hlpr then r.hlpre else 0
  perfce := if cfg.has .perfc then r.perfce else 0
  cntu := if cfg.has .perfc then r.cntu else 0
  im := if cfg.has .ioint || cfg.has .ipcint then r.im else 0
  pmod := if cfg.has .user then r.pmod else 0
  wdte := if cfg.has .user then r.wdte else 0
  pwrs := if cfg.has .sa then r.pwrs else 0
  hlts := r.hlts
  spare := 0

/-- The unprivileged fields of `new`; the privileged ones (IM, PMOD, WDTE, PWRS, HLTS) and the unused
bits keep their value (10_state.md R91). -/
def StatusReg.withUnprivileged (old new : StatusReg) : StatusReg :=
  { old with
    rmd := new.rmd, tnd := new.tnd, cmd := new.cmd, gee := new.gee, hlpre := new.hlpre,
    perfce := new.perfce, cntu := new.cntu }

/-- The privilege level a status word selects (10_state.md R87): user where PMOD is 1 and USER is
implemented. -/
def StatusReg.mode (cfg : Config) (r : StatusReg) : Mode :=
  if cfg.has .user && r.pmod == 1 then .user else .machine

/-- Sequential consistency holds: without FNC, or with CMD 1 (10_state.md R82, 20_memory.md R110). -/
def StatusReg.sequential (cfg : Config) (r : StatusReg) : Bool :=
  !cfg.has .fnc || r.cmd == 1

/-- The rounding mode in force: RMD, or round to nearest even without FRMD (10_state.md R80). -/
def StatusReg.rounding (cfg : Config) (r : StatusReg) : BitVec 2 :=
  if cfg.has .frmd then r.rmd else 0

/-- Step 4 of both launching sequences: GEE, HLPRE and PERFCE to 0 if present (60_exceptions.md R237). -/
def StatusReg.quiet (cfg : Config) (r : StatusReg) : StatusReg :=
  { r with
    gee := if cfg.has .exc then 0 else r.gee
    hlpre := if cfg.has .hlpr then 0 else r.hlpre
    perfce := if cfg.has .perfc then 0 else r.perfce }

/-- Step 4 of the privileged launching sequence (60_exceptions.md R236): machine mode, watchdog off,
interrupts masked. -/
def StatusReg.promoted (cfg : Config) (r : StatusReg) : StatusReg :=
  let q := r.quiet cfg
  { q with
    pmod := if cfg.has .user then 0 else q.pmod
    wdte := if cfg.has .user then 0 else q.wdte
    im := if cfg.has .ioint || cfg.has .ipcint then 3 else q.im }

/-- The 32 bits of a status word (10_state.md R79). -/
def StatusReg.pack (l : SrLayout) (r : StatusReg) : BitVec 32 :=
  (r.rmd.setWidth 32 <<< l.rmd) ||| (r.tnd.setWidth 32 <<< l.tnd)
    ||| (r.cmd.setWidth 32 <<< l.cmd) ||| (r.gee.setWidth 32 <<< l.gee)
    ||| (r.hlpre.setWidth 32 <<< l.hlpre) ||| (r.perfce.setWidth 32 <<< l.perfce)
    ||| (r.cntu.setWidth 32 <<< l.cntu) ||| (r.im.setWidth 32 <<< l.im)
    ||| (r.pmod.setWidth 32 <<< l.pmod) ||| (r.wdte.setWidth 32 <<< l.wdte)
    ||| (r.pwrs.setWidth 32 <<< l.pwrs) ||| (r.hlts.setWidth 32 <<< l.hlts)
    ||| ((r.spare.extractLsb' 0 1).setWidth 32 <<< l.spare0)
    ||| ((r.spare.extractLsb' 1 1).setWidth 32 <<< l.spare1)

/-- The status word of 32 bits (10_state.md R79). -/
def StatusReg.unpack (l : SrLayout) (v : BitVec 32) : StatusReg where
  rmd := v.extractLsb' l.rmd 2
  tnd := v.extractLsb' l.tnd 8
  cmd := v.extractLsb' l.cmd 1
  gee := v.extractLsb' l.gee 1
  hlpre := v.extractLsb' l.hlpre 4
  perfce := v.extractLsb' l.perfce 1
  cntu := v.extractLsb' l.cntu 2
  im := v.extractLsb' l.im 2
  pmod := v.extractLsb' l.pmod 1
  wdte := v.extractLsb' l.wdte 1
  pwrs := v.extractLsb' l.pwrs 4
  hlts := v.extractLsb' l.hlts 3
  spare := v.extractLsb' l.spare1 1 ++ v.extractLsb' l.spare0 1

/-- The current privilege level. -/
def State.mode (s : State) : Mode := s.sr.mode s.cfg

end Sys2Proof.Machine
end

