-- ==== Sys2Proof/Machine/Ops.lean ====
section
/-! DEFINITION. The shared operations of a hart: main memory, translation, the register banks, taking an
event (both launching sequences, the double event), relaunching after a return, the event queue,
counting and halting. -/

namespace Sys2Proof.Machine

/-! ### Main memory -/

/-- Addresses strictly rise: the one form of a memory. -/
abbrev Memory.wf (m : List Host.Cell) : Prop := m.Pairwise (fun a b => a.1 < b.1)

/-- The byte at an address; at an unlisted address a free value, any byte (10_state.md R97, U12;
log 4). -/
def Memory.read : List Host.Cell → Nat → Byte
  | [], k => Config.memoryFree k
  | (a, b) :: rest, k => if k = a then b else Memory.read rest k

/-- Write one byte. -/
def Memory.write : List Host.Cell → Nat → Byte → List Host.Cell
  | [], k, v => [(k, v)]
  | (a, b) :: rest, k, v =>
    if k < a then (k, v) :: (a, b) :: rest
    else if k = a then (k, v) :: rest
    else (a, b) :: Memory.write rest k v

/-- Note an address in a strictly rising list. -/
def noteAddr : List Nat → Nat → List Nat
  | [], k => [k]
  | a :: rest, k => if k < a then k :: a :: rest else if k = a then a :: rest else a :: noteAddr rest k

/-- A byte written to main memory by the hart or another agent: the location is no longer as loaded
(20_memory.md R115). -/
def State.storeByte (s : State) (addr : Nat) (b : Byte) : State :=
  { s with mem := Memory.write s.mem addr b, dirty := noteAddr s.dirty addr }

/-- The writes of other agents land, in order. -/
def State.land (s : State) : List Race → State
  | [] => s
  | r :: rs => State.land (s.storeByte r.addr r.byte) rs

/-- What other agents have written once the instruction has made k byte accesses has landed
(20_memory.md R104). -/
def State.settle (s : State) (k : Nat) : State :=
  { s.land (s.racing.filter (fun r => decide (r.after ≤ k))) with
    racing := s.racing.filter (fun r => decide (k < r.after)) }

/-- All that other agents wrote while the instruction ran has landed. -/
def State.settleAll (s : State) : State := { s.land s.racing with racing := [] }

/-- What stands at a physical address (20_memory.md R117). -/
def State.regionAt (s : State) (p : Nat) : RegionKind :=
  match s.cfg.memoryMap.find? (fun r => decide (r.base ≤ p) && decide (p < r.base + r.size)) with
  | some r => r.kind
  | none => .ram

/-- Byte k of an access at an address, modulo 2^WLEN (00_scope.md R7). -/
def State.addrAt (s : State) (addr : Word) (k : Nat) : Word := s.cfg.word (addr.toNat + k)

/-- The row of a translation table that covers an access. -/
def covers (r : TranslateRow) (pfpa : Word) (mode : Mode) (addr : Word)
    (kind : AccessKind) : Bool :=
  (r.pfpa.isNone || r.pfpa == some pfpa) && (r.mode.isNone || r.mode == some mode)
    && (r.kind.isNone || r.kind == some kind)
    && decide (r.lo ≤ addr.toNat) && decide (addr.toNat ≤ r.hi)

/-- `translate(PFPA, mode, addr, kind)` (20_memory.md R118); the identity without USER. -/
def State.translate (s : State) (addr : Word) (kind : AccessKind) : TranslateResult :=
  if !s.cfg.has .user then .to addr
  else match s.cfg.translation with
    | .identity => .to addr
    | .table rows =>
      match rows.find? (fun r => covers r s.pfpa s.mode addr kind) with
      | none => .pageFault
      | some r =>
        match r.result with
        | .to p => .to (s.cfg.word (p.toNat + (addr.toNat - r.lo)))
        | .pageFault => .pageFault
        | .illegalAddress => .illegalAddress
    | .unknown =>
      match Config.translateFree s.pfpa s.mode addr kind with
      | .to p => .to (s.cfg.word p.toNat)
      | .pageFault => .pageFault
      | .illegalAddress => .illegalAddress

/-! ### Register banks -/

/-- Mark register i of a bank of n registers as written, where the usage registers exist: they have a bit
for each register of the bank (10_state.md R67). -/
def markUsed (cfg : Config) (n : Nat) (u : BitVec 32) (i : Nat) : BitVec 32 :=
  if cfg.has .user && cfg.has .ctxr && decide (i < n) then u ||| BitVec.ofNat 32 (2 ^ i) else u

/-- `x[i] <- v` (00_scope.md R8, 10_state.md R68). -/
def State.writeX (s : State) (i v : Nat) : State :=
  { s with
    x := s.x.set i (s.cfg.word v)
    usage := { s.usage with sgprb := markUsed s.cfg s.cfg.srfs s.usage.sgprb i } }

/-- The bits of a vector register a byte mask covers: mask bit k covers bits 8k+7:8k
(10_state.md R29). -/
def maskBits (m : BitVec 64) (inverted : Bool) : VWord :=
  BitVec.ofNat 512 (bitsToNat ((List.range 512).map fun j => m.getLsbD (j / 8) != inverted))

/-- The mask register's value. -/
def State.maskValue (s : State) : MaskReg → BitVec 64
  | .vm1 => s.vm1
  | .vm2 => s.vm2
  | .vm3 => s.vm3

/-- The new content of a vector register under a mask: the bytes the mask leaves out keep their value
(30_encoding.md R152). -/
def State.masked (s : State) (mask : MaskUse) (old new : VWord) : VWord :=
  match mask with
  | .unmasked => new
  | .masked r inverted =>
    let bits := maskBits (s.maskValue r) inverted
    (new &&& bits) ||| (old &&& ~~~bits)

/-- `vr[i] <- v` under a mask (00_scope.md R8, 10_state.md R69). -/
def State.writeV (s : State) (mask : MaskUse) (i v : Nat) : State :=
  { s with
    vr := s.vr.set i (s.masked mask (s.vr.getD i 0) (s.cfg.vword v))
    usage := { s.usage with vgprb := markUsed s.cfg s.cfg.vrfs s.usage.vgprb i } }

/-- `h[i].val <- v` (10_state.md R30, R70). -/
def State.writeHelperVal (s : State) (i v : Nat) : State :=
  { s with
    h := s.h.set i { s.h.getD i {} with val := s.cfg.word v }
    usage := { s.usage with hlprb := markUsed s.cfg s.cfg.hrfs s.usage.hlprb i } }

/-- `h[i].mode <- v` (10_state.md R30, R70). -/
def State.writeHelperMode (s : State) (i v : Nat) : State :=
  { s with
    h := s.h.set i { s.h.getD i {} with mode := BitVec.ofNat 8 v }
    usage := { s.usage with hlprb := markUsed s.cfg s.cfg.hrfs s.usage.hlprb i } }

/-- `c[i].val <- v` (10_state.md R40, R71). -/
def State.writeCounterVal (s : State) (i v : Nat) : State :=
  { s with
    c := s.c.set i { s.c.getD i {} with val := s.cfg.counter v }
    usage := { s.usage with perfcb := markUsed s.cfg s.cfg.crfs s.usage.perfcb i } }

/-- `c[i].mode <- v` (10_state.md R40, R71). -/
def State.writeCounterMode (s : State) (i v : Nat) : State :=
  { s with
    c := s.c.set i { s.c.getD i {} with mode := BitVec.ofNat 8 v }
    usage := { s.usage with perfcb := markUsed s.cfg s.cfg.crfs s.usage.perfcb i } }

/-! ### Taking an event -/

/-- The event registers of a level. -/
def State.eventRegs (s : State) : Mode → EventRegs
  | .machine => s.m
  | .user => s.u

/-- `critical_unsaved` (60_exceptions.md R241): the default test, or the conservative one. -/
def State.criticalUnsaved (s : State) (l : Mode) : Bool :=
  match s.cfg.criticalTest with
  | .causeNonzero => causeId (s.eventRegs l).ec != 0
  | .untilReturn => (s.eventRegs l).inHandler

/-- Save the critical state in a set of event registers: steps 2, 3, 5 and 6 of both launching
sequences (60_exceptions.md R236, R237). The data register keeps its value without data (R235). -/
def EventRegs.saved (r : EventRegs) (pc : Word) (sr : StatusReg) (cause : BitVec 16)
    (data : Option Word) : EventRegs :=
  { r with epc := pc, esr := sr, ec := cause, ed := data.getD r.ed, inHandler := true }

/-- The privileged launching sequence without the double-event test (60_exceptions.md R236). -/
def State.enterMachine (s : State) (cause : BitVec 16) (data : Option Word) : State :=
  { s with m := s.m.saved s.pc s.sr cause data, sr := s.sr.promoted s.cfg, pc := s.m.ehp }

/-- The unprivileged launching sequence without the double-event test (60_exceptions.md R237). -/
def State.enterUser (s : State) (cause : BitVec 16) (data : Option Word) : State :=
  { s with u := s.u.saved s.pc s.sr cause data, sr := s.sr.quiet s.cfg, pc := s.u.ehp }

/-- Halt with a halt state (10_state.md R92). -/
def State.halt (s : State) (v : BitVec 3) : State := { s with sr := { s.sr with hlts := v } }

/-- `launch_M` (60_exceptions.md R236): a double event halts the hart instead (R240). -/
def State.launchMachine (s : State) (cause : BitVec 16) (data : Option Word) : State :=
  if s.criticalUnsaved .machine then s.halt 2 else s.enterMachine cause data

/-- `launch_U` (60_exceptions.md R237): a double event halts the hart instead (R240). -/
def State.launchUser (s : State) (cause : BitVec 16) (data : Option Word) : State :=
  if s.criticalUnsaved .user then s.halt 2 else s.enterUser cause data

/-- `deliver` (60_exceptions.md R234): promoting events and those taken in machine mode by the
privileged sequence, exceptions in user mode by the unprivileged one. -/
def State.deliver (s : State) (e : Event) : State :=
  if promoting (e.name.kind s.cfg) then s.launchMachine e.cause e.data
  else match s.mode with
    | .user => s.launchUser e.cause e.data
    | .machine => s.launchMachine e.cause e.data

/-- `raise E` where E carries nothing (00_scope.md R8): the instruction has no other effect. -/
def State.raise (s : State) (n : EventName) : Host.Outcome State Fault Refusal :=
  .next (s.deliver { name := n })

/-! ### Returning from an event -/

/-- After ERET: a non-zero identifier in MEC runs the privileged sequence again at once, without the
double-event test (60_exceptions.md R248). -/
def State.relaunchMachine (s : State) : State :=
  if causeId s.m.ec = 0 then s else s.enterMachine s.m.ec none

/-- After UERET and URET: the same with UEC and the unprivileged sequence (60_exceptions.md R248). -/
def State.relaunchUser (s : State) : State :=
  if causeId s.u.ec = 0 then s else s.enterUser s.u.ec none

/-- The privileged returning sequence, `SR <- MESR; PC <- MEPC` (40_event_return_and_system.md R182). -/
def State.returnMachine (s : State) : State :=
  { s with sr := s.m.esr.present s.cfg, pc := s.m.epc, m := { s.m with inHandler := false } }

/-- The unprivileged returning sequence: the unprivileged fields of UESR (R183). -/
def State.returnUser (s : State) : State :=
  { s with
    sr := (s.sr.withUnprivileged s.u.esr).present s.cfg
    pc := s.u.epc
    u := { s.u with inHandler := false } }

/-- The demotion to user mode: all of UESR, then PMOD and WDTE to 1 (R184). -/
def State.demote (s : State) : State :=
  { s with
    sr := { s.u.esr.present s.cfg with pmod := 1, wdte := 1 }
    pc := s.u.epc
    u := { s.u with inHandler := false } }

/-! ### The event queue -/

/-- An event is received: it joins the queue, or is dropped where the queue is full
(60_exceptions.md R245, R246). -/
def State.post (s : State) (e : Event) : State :=
  if s.queue.length < s.cfg.queueDepth then { s with queue := s.queue ++ [e] } else s

/-- A queued event is an interrupt whose class IM does not mask (60_exceptions.md R249). A hart with USER
but neither IOINT nor IPCINT has no IM, and R88 gives no default for it (R78: an absent field's 0 selects
no behaviour): TQE and the custom interrupts of such a hart are never masked (DESIGN CHOICE, log 47). -/
def State.unmasked (s : State) (e : Event) : Bool :=
  match e.name.kind s.cfg with
  | .ioInterrupt => s.sr.im.getLsbD 0 == false
  | .ipcInterrupt => s.sr.im.getLsbD 1 == false
  | .exception => false
  | .fault => false

/-- An event's place in ASYNC_ORDER (60_exceptions.md R233). A list that leaves out
an event is legal: a code it does not list, of the printed table or of a custom interrupt, comes after all
that it lists, whatever its priorities, and the oldest such first; a code listed twice counts by its first
place (DESIGN CHOICE, log 28). -/
def asyncRank (cfg : Config) (e : Event) : Nat := cfg.asyncOrder.idxOf e.name.code.toNat

/-- The first event of the best rank. -/
def bestOf (cfg : Config) : List Event → Option Event
  | [] => none
  | e :: es =>
    match bestOf cfg es with
    | none => some e
    | some b => if asyncRank cfg b < asyncRank cfg e then some b else some e

/-- A queued synchronous event: the further helper events of one instruction (60_exceptions.md R265). -/
def Event.queuedException (cfg : Config) (e : Event) : Bool :=
  match e.name.kind cfg with
  | .exception => true
  | .fault => true
  | .ioInterrupt => false
  | .ipcInterrupt => false

/-- The event taken at an instruction boundary, if any (60_exceptions.md R233, R245): the best unmasked
interrupt, else the oldest queued exception, once the critical state of its level is saved (R265). -/
def State.nextEvent (s : State) : Option Event :=
  match bestOf s.cfg (s.queue.filter s.unmasked) with
  | some e => some e
  | none =>
    if s.criticalUnsaved s.mode then none
    else s.queue.find? (Event.queuedException s.cfg)

/-- Take an event out of the queue and deliver it, at an instruction boundary. PC there is the address
of the next instruction, and that is what the launching sequence saves, also for a queued helper event:
R238 has a synchronous event save the address of the instruction that caused it, R265 has the queued
ones taken later by launching sequences of their own, which save "the current value of the PC"
(R236, R237). The model follows the sequences: inside or after the handler of the first event the PC
saved is that of the boundary (DEDUCED, log 22). -/
def State.takeEvent (s : State) (e : Event) : State :=
  State.deliver { s with queue := s.queue.erase e } e

/-! ### Counting (60_exceptions.md R267) -/

/-- What a completed instruction was, to the counters. -/
structure Retired where
  load   : Bool := false
  store  : Bool := false
  /-- A conditional branch, and whether it was taken. -/
  branch : Option Bool := none
  deriving DecidableEq, Repr

/-- What a counter counts, by its mode (10_state.md R42). -/
def countsOf (cfg : Config) (mode : BitVec 8) : Counts :=
  match mode.toNat with
  | 0 => .nothing
  | 1 => .instructions
  | 2 => .loads
  | 3 => .stores
  | 4 => .branches true
  | 5 => .branches false
  | n =>
    if n < 16 then .time
    else if n < 128 then .reserved
    else
      match cfg.counterModes.find? (fun k => 128 + k.slot.val == n) with
      | some k => k.counts
      | none => .time

/-- A counter that counts this counts this instruction (10_state.md R42). -/
def countsInstr (k : Retired) : Counts → Bool
  | .instructions => true
  | .loads => k.load
  | .stores => k.store
  | .branches taken => k.branch == some taken
  | .nothing | .time | .reserved => false

/-- The counters are enabled (10_state.md R85). -/
def State.counting (s : State) : Bool := s.cfg.has .perfc && s.sr.perfce == 1

/-- One more, silently overflowing (10_state.md R43). -/
def CounterReg.count (r : CounterReg) (cfg : Config) : CounterReg :=
  { r with val := cfg.counter (r.val.toNat + 1) }

/-- The counters after an instruction that began in `s0` and completed in `s`: modes and PERFCE are
those in force when it began (60_exceptions.md R267). Of an instruction that itself writes `c[i].val` of a
counter that counts it, R42 and R267 do not say whether the write or the increment comes last: here the
increment does, so the counter is left with the written value plus one (DESIGN CHOICE, log 41). -/
def State.retire (s0 : State) (k : Retired) (s : State) : State :=
  if s0.counting then
    { s with
      c := List.zipWith
        (fun old new =>
          if countsInstr k (countsOf s0.cfg old.mode) then CounterReg.count new s.cfg else new) s0.c s.c }
  else s

/-- The end of a returning sequence of an instruction that began in `s0`: the relaunch, and the
counters. A relaunch is an event the hart receives (DEDUCED, log 38): where the status just restored is
that of a transaction it is refused (60_exceptions.md R247, U20), whatever halt state was restored with
it. -/
def State.finishReturn (s0 s : State) (l : Mode) : Host.Outcome State Fault Refusal :=
  if s.sr.tnd != 0 && causeId (s.eventRegs l).ec != 0 then .refused .transactional
  else
    match l with
    | .machine => .next (State.retire s0 {} s.relaunchMachine)
    | .user => .next (State.retire s0 {} s.relaunchUser)

/-- The state once the free values before the n-th are drawn. None is drawn twice, also where the
instruction that drew it is cancelled: no two reads of a counter of time are related (60_exceptions.md R267;
93_implementation_defined.md U9; log 6). -/
def State.drawn (s : State) (n : Nat) : State := { s with draws := n }

/-- Time passes: every enabled counter that counts time takes a new free value, at the boundary before the
instruction. So a counter that the instruction writes and takes out of that mode, or whose bank it disables,
keeps the written value: it does not advance between the write and the end of the instruction (DESIGN CHOICE,
log 6: 60_exceptions.md R267 and 70_reset_and_hazards.md R304 do not say). -/
def State.passTime (s : State) : State :=
  if s.counting && s.c.any (fun r => countsOf s.cfg r.mode == .time) then
    { s with
      c := s.c.mapIdx fun i r =>
        if countsOf s.cfg r.mode = .time then
          { r with val := s.cfg.counter (Config.counterFree s.draws i).toNat }
        else r
      draws := s.draws + 1 }
  else s

end Sys2Proof.Machine
end

