-- ==== Sys2Proof/Machine/Return.lean ====
section
/-! DEFINITION. The meanings of the three returning instructions (40_event_return_and_system.md R182 to
R184). -/

namespace Sys2Proof.Machine

/-- ERET (R182): ILLI in user mode; otherwise SR from MESR, PC from MEPC, and the privileged sequence
again if MEC holds an identifier (R248); refused where that would be inside a transaction (R247). -/
def execEret (s : State) : Host.Outcome State Fault Refusal :=
  match s.mode with
  | .user => s.raise .illi
  | .machine => State.finishReturn s s.returnMachine .machine

/-- UERET (R183): INCI without USER; otherwise the unprivileged fields of SR from UESR, PC from UEPC,
and the unprivileged sequence again if UEC holds an identifier (R248); refused
where that would be inside a transaction (R247). -/
def execUeret (s : State) : Host.Outcome State Fault Refusal :=
  if s.cfg.has .user then State.finishReturn s s.returnUser .user else s.raise .inci

/-- URET (R184): ILLI in user mode, INCI without USER; otherwise SR from UESR with PMOD and WDTE 1, PC
from UEPC, and the unprivileged sequence again if UEC holds an identifier (R248); refused
where that would be inside a transaction (R247). -/
def execUret (s : State) : Host.Outcome State Fault Refusal :=
  if s.cfg.has .user then
    match s.mode with
    | .user => s.raise .illi
    | .machine => State.finishReturn s s.demote .user
  else s.raise .inci

end Sys2Proof.Machine
end

