-- ==== Sys2Proof/Machine/System.lean ====
section
/-! DEFINITION. The meanings of HLT and the system call instruction (40_event_return_and_system.md R181,
R185). -/

namespace Sys2Proof.Machine

/-- HLT (R181): ILLI in user mode; otherwise HLTS becomes 1 and PC stays at the instruction. -/
def execHlt (s : State) : Host.Outcome State Fault Refusal :=
  match s.mode with
  | .user => s.raise .illi
  | .machine => .next (State.retire s {} (s.halt 1))

/-- The system call instruction (R185): INCI without USER, otherwise SYSC in either mode. -/
def execSyscall (s : State) : Host.Outcome State Fault Refusal :=
  if s.cfg.has .user then s.raise .sysc else s.raise .inci

end Sys2Proof.Machine
end

