-- ==== Sys2Proof/Machine/Dispatch.lean ====
section
/-! DEFINITION. Every constructor of Instr, and its meaning. -/

namespace Sys2Proof.Machine

def exec (i : Instr) (s : State) : Host.Outcome State Fault Refusal :=
  match i with
  | .hlt => Sys2Proof.Machine.execHlt s
  | .eret => Sys2Proof.Machine.execEret s
  | .ueret => Sys2Proof.Machine.execUeret s
  | .uret => Sys2Proof.Machine.execUret s
  | .syscall => Sys2Proof.Machine.execSyscall s

end Sys2Proof.Machine
end

