-- ==== Sys2Proof/Machine/Triggers.lean ====
section
/-! DEFINITION. Helper registers: which are active, what each mode watches, which fire for an access, a
fetch or a flag, and taking their events in order (60_exceptions.md R260 to R265). -/

namespace Sys2Proof.Machine

/-- The custom mode of a helper register, where the configuration gives it a meaning (U6). -/
def helperHook (cfg : Config) (mode : BitVec 8) : Option HelperHook :=
  cfg.helperModes.find? (fun k => 128 + k.slot.val == mode.toNat)

/-- The operating modes (10_state.md R31). -/
def watchOf (cfg : Config) (mode : BitVec 8) : Watch :=
  match mode.toNat with
  | 0 => .nothing
  | 1 => .address true false false
  | 2 => .address false true false
  | 3 => .address false false true
  | 4 => .address true true false
  | 5 => .address true true true
  | 6 => .range true false false
  | 7 => .range false true false
  | 8 => .range false false true
  | 9 => .range true true false
  | 10 => .range true true true
  | 11 => .flag (.covr 0)
  | 12 => .flag (.covr 1)
  | 13 => .flag (.covr 2)
  | 14 => .flag (.covr 3)
  | 15 => .flag .cund
  | 16 => .flag (.ovfl 0)
  | 17 => .flag (.ovfl 1)
  | 18 => .flag (.ovfl 2)
  | 19 => .flag (.ovfl 3)
  | 20 => .flag (.unfl 0)
  | 21 => .flag (.unfl 1)
  | 22 => .flag (.unfl 2)
  | 23 => .flag (.unfl 3)
  | 24 => .flag .div0
  | n =>
    if n < 128 then .reserved
    else
      match helperHook cfg mode with
      | some k => k.watch
      | none => .nothing

/-- The event of an access watch, by what it watches: RDT, WRT, EXT, RWT, RWET (60_exceptions.md R228).
Only the five combinations of modes 1 to 10 have an event in R228: a custom mode without an event of its
own that watches another one, say reads and fetches, fires RWET here (DESIGN CHOICE, log 27). -/
def accessEvent (reads writes fetches : Bool) : EventName :=
  match reads, writes, fetches with
  | true, false, false => .rdt
  | false, true, false => .wrt
  | false, false, true => .ext
  | true, true, false => .rwt
  | _, _, _ => .rwet

/-- The event of a watch (60_exceptions.md R228). -/
def watchEvent : Watch → Option EventName
  | .nothing => none
  | .address r w x => some (accessEvent r w x)
  | .range r w x => some (accessEvent r w x)
  | .flag f => some (.flagT f)
  | .reserved => none

/-- The event a helper mode fires (60_exceptions.md R228): that of its watch, or the one the
configuration gives a custom mode (U6). -/
def helperEvent (cfg : Config) (mode : BitVec 8) : Option EventName :=
  match (helperHook cfg mode).bind (·.event) with
  | some slot => some (.custom slot)
  | none => watchEvent (watchOf cfg mode)

/-- SR.HLPRE enables helper register i (10_state.md R37, R84). -/
def State.helperEnabled (s : State) (i : Nat) : Bool :=
  s.cfg.has .hlpr && s.sr.hlpre.getLsbD (i / 8)

/-- The end of the range helper register i starts: its successor's value, where that is in mode 255
(10_state.md R32). -/
def State.rangeEnd (s : State) (i : Nat) : Option Word :=
  match s.h[i + 1]? with
  | none => none
  | some r => if r.mode = 255 then some r.val else none

/-- A watch watches an access of a kind. -/
def watchesKind (reads writes fetches : Bool) : AccessKind → Bool
  | .read => reads
  | .write => writes
  | .fetch => fetches

/-- An access of n bytes at a touches the byte at an address (92_eei_decisions.md D14). -/
def State.touches (s : State) (a : Word) (n : Nat) (v : Word) : Bool :=
  (List.range n).any fun k => s.addrAt a k == v

/-- Helper register i, holding r, fires for an access of n bytes at a (60_exceptions.md R260 to R262): an
address watch for a data access that touches the byte at its value (D14), also one that wraps past
2^WLEN (DEDUCED, log 45), and for a fetch that starts there; a range watch for an access not wholly
inside, without wrap-around. -/
def State.firesOn (s : State) (kind : AccessKind) (a : Word) (n i : Nat) (r : HelperReg) : Bool :=
  s.helperEnabled i &&
  match watchOf s.cfg r.mode with
  | .address rd wr fe =>
    watchesKind rd wr fe kind &&
    match kind with
    | .fetch => a == r.val
    | .read => s.touches a n r.val
    | .write => s.touches a n r.val
  | .range rd wr fe =>
    watchesKind rd wr fe kind &&
    match s.rangeEnd i with
    | none => false
    | some hi => !(decide (r.val.toNat ≤ a.toNat) && decide (a.toNat + n ≤ hi.toNat + 1))
  | .nothing => false
  | .flag _ => false
  | .reserved => false

/-- The trigger of helper register i where it fires. -/
def triggerIf (cfg : Config) (fires : Nat → HelperReg → Bool) (p : HelperReg × Nat) :
    Option Trigger :=
  if fires p.2 p.1 then (helperEvent cfg p.1.mode).map (fun e => ⟨p.2, e⟩) else none

/-- Every helper register that fires for an access, by index. -/
def State.accessTriggers (s : State) (kind : AccessKind) (a : Word) (n : Nat) : List Trigger :=
  s.h.zipIdx.filterMap (triggerIf s.cfg (s.firesOn kind a n))

/-- Helper register i, holding r, fires for a flag of the instruction at PC (60_exceptions.md R263). -/
def State.firesOnFlag (s : State) (flags : List Flag) (i : Nat) (r : HelperReg) : Bool :=
  s.helperEnabled i && r.val == s.pc &&
  match watchOf s.cfg r.mode with
  | .flag f => flags.contains f
  | .nothing => false
  | .address _ _ _ => false
  | .range _ _ _ => false
  | .reserved => false

/-- Every helper register that fires for the flags of the instruction at PC, by index. -/
def State.flagTriggers (s : State) (flags : List Flag) : List Trigger :=
  s.h.zipIdx.filterMap (triggerIf s.cfg (s.firesOnFlag flags))

/-- The triggers of one instruction in the order they are taken: by register index, one for a register
(60_exceptions.md R265). -/
def inIndexOrder (n : Nat) (ts : List Trigger) : List Trigger :=
  (List.range n).filterMap fun i => ts.find? (fun t => t.index == i)

/-- The helper events of one instruction: the lowest register's is delivered, the others are queued
(60_exceptions.md R265); none is lost on a full queue, the run is refused (R246, U19). -/
def State.takeTriggers (s : State) (ts : List Trigger) : Host.Outcome State Fault Refusal :=
  match inIndexOrder s.h.length ts with
  | [] => .next s
  | t :: rest =>
    if s.queue.length + rest.length ≤ s.cfg.queueDepth then
      .next (State.deliver { s with queue := s.queue ++ rest.map Trigger.event } t.event)
    else .refused .queueOverflow

/-- An enabled helper register in a reserved mode (U5). -/
def State.reservedHelper (s : State) : Option Nat :=
  (s.h.zipIdx.find? (fun p => s.helperEnabled p.2 && watchOf s.cfg p.1.mode == .reserved)).map (·.2)

/-- A counter of the enabled bank in a reserved mode, 16 to 127 (10_state.md R42, U3). -/
def State.reservedCounter (s : State) : Option Nat :=
  (s.c.zipIdx.find? (fun p => s.counting && countsOf s.cfg p.1.mode == .reserved)).map (·.2)

end Sys2Proof.Machine
end

