-- ==== Sys2Proof/Machine/Flags.lean ====
section
/-! DEFINITION. Arithmetic flags: the exceptions of module EXC, and what an instruction that raises flags
leads to (10_state.md R93, R36; 60_exceptions.md R227, R263, R266). -/

namespace Sys2Proof.Machine

/-- The EXC event of a flag: only the flags of the word length, CUND and DIV0 have one
(60_exceptions.md R227, 90_conflicts.md C3, C19). -/
def excEvent (cfg : Config) : Flag → Option EventName
  | .covr k => if k.val = cfg.wlenc.toNat then some .covre else none
  | .cund => some .cunde
  | .ovfl k => if k.val = cfg.wlenc.toNat then some .ovfle else none
  | .unfl k => if k.val = cfg.wlenc.toNat then some .unfle else none
  | .div0 => some .div0e

/-- The flags with an EXC event, in the order of their codes. -/
def excFlags (cfg : Config) : List Flag :=
  let k : Fin 4 := Fin.ofNat 4 cfg.wlenc.toNat
  [.covr k, .cund, .ovfl k, .unfl k, .div0]

/-- An active helper register holds this instruction's address in the flag's mode: its event overrides
the EXC event (10_state.md R36, 60_exceptions.md R266). R36 and R266 speak of the modes 11 to 24; a
custom mode that watches the flag overrides it here too, whatever event it fires (DESIGN CHOICE, log
27). -/
def State.overridden (s : State) (f : Flag) : Bool := !(s.flagTriggers [f]).isEmpty

/-- The EXC exceptions the flags of an instruction generate: with EXC, GEE 1 and no override
(60_exceptions.md R227). GEE is that of `s`, the state the instruction began in: of an instruction that
writes SR.GEE and raises a flag, R83 does not say which value decides, and R303 gives the written one to
the next instruction only (DESIGN CHOICE, log 36). -/
def State.excEvents (s : State) (flags : List Flag) : List EventName :=
  if s.cfg.has .exc && s.sr.gee == 1 then
    (excFlags s.cfg).filterMap fun f =>
      if flags.contains f && !s.overridden f then excEvent s.cfg f else none
  else []

/-- What the flags of the instruction at PC lead to, after the helper registers `fetched` that fired at
its fetch: the helper events first, else the first EXC exception, else nothing; the instruction is
cancelled by either (60_exceptions.md R233, R243, R266). Helper registers and GEE are those the
instruction began with, whatever it wrote itself (DESIGN CHOICE, log 36). -/
def State.afterFlags (s : State) (fetched : List Trigger) (flags : List Flag) :
    Option (Host.Outcome State Fault Refusal) :=
  match fetched ++ s.flagTriggers flags with
  | t :: ts => some (s.takeTriggers (t :: ts))
  | [] =>
    match s.excEvents flags with
    | n :: _ => some (s.raise n)
    | [] => none

end Sys2Proof.Machine
end

