-- ==== Sys2Proof/Machine/Data.lean ====
section
/-! DEFINITION. Access to main memory by an instruction: alignment, translation, what stands there, helper
triggers, byte order (20_memory.md R105 to R109, R117, R118; 60_exceptions.md R233). -/

namespace Sys2Proof.Machine

/-- Why an instruction does not complete. -/
inductive Stop where
  /-- A synchronous event other than a helper trigger. -/
  | event (e : Event)
  | fault (f : Fault)
  | refused (r : Refusal)
  deriving DecidableEq, Repr

/-- The physical address of one byte of an access: PFLT and ILLA carry the untranslated address
(20_memory.md R118, 60_exceptions.md R226). -/
def State.physical (s : State) (addr : Word) (kind : AccessKind) : Except Stop Word :=
  match s.translate addr kind with
  | .to p => .ok p
  | .pageFault => .error (.event { name := .pflt, data := some addr })
  | .illegalAddress => .error (.event { name := .illa, data := some addr })

/-- The physical addresses of bytes k to k+n-1 of an access, or the first one's fault. -/
def State.physicals (s : State) (addr : Word) (kind : AccessKind) (k : Nat) :
    Nat → Except Stop (List Word)
  | 0 => .ok []
  | n + 1 =>
    match s.physical (s.addrAt addr k) kind with
    | .error e => .error e
    | .ok p =>
      match State.physicals s addr kind (k + 1) n with
      | .error e => .error e
      | .ok ps => .ok (p :: ps)

/-- Why an access of a kind to these physical addresses has no meaning: the first that is no RAM, by what
stands there (20_memory.md R117); a read or a fetch may be from ROM. -/
def State.regionStop (s : State) (kind : AccessKind) : List Word → Option Stop
  | [] => none
  | p :: ps =>
    match s.regionAt p.toNat with
    | .ram => State.regionStop s kind ps
    | .rom =>
      match kind with
      | .write => some (.fault (.readOnly p))
      | .read => State.regionStop s kind ps
      | .fetch => State.regionStop s kind ps
    | .device => some (.refused (.device p))
    | .hole => some (.fault (.unmapped p))

/-- The helper registers that fire for a data access of n bytes that an instruction attempts: they see
the access before it is made, and not where it is misaligned: the alignment is checked first
(20_memory.md R108, R109; 60_exceptions.md R233). An access of no bytes is none. -/
def State.attempt (s : State) (kind : AccessKind) (addr : Word) (n align : Nat) : List Trigger :=
  if n = 0 ∨ addr.toNat % align ≠ 0 then [] else s.accessTriggers kind addr n

/-- The faults of a data access of n bytes with a required alignment, in the order of 60_exceptions.md
R233: alignment (20_memory.md R108), translation (R118); last what stands there (R117). -/
def State.checkData (s : State) (kind : AccessKind) (addr : Word) (n align : Nat) :
    Except Stop (List Word) :=
  if n = 0 then .ok []
  else if addr.toNat % align ≠ 0 then
    if s.cfg.has .dalign then .error (.event { name := .misd }) else .error (.fault (.unalignedData addr))
  else match s.physicals addr kind 0 n with
    | .error e => .error e
    | .ok ps =>
      match s.regionStop kind ps with
      | some e => .error e
      | none => .ok ps

/-- The bytes a load reads at physical addresses, the first after the instruction has made k byte
accesses: what other agents wrote by then is seen, byte by byte (20_memory.md R104). -/
def State.loadBytes (s : State) (k : Nat) : List Word → List Byte
  | [] => []
  | p :: ps => Memory.read (s.settle k).mem p.toNat :: State.loadBytes s (k + 1) ps

/-- Store bytes at physical addresses, the first after the instruction has made k byte accesses; what
other agents wrote by then has landed before (20_memory.md R104). -/
def State.storeBytes (s : State) (k : Nat) : List (Word × Byte) → State
  | [] => s
  | (p, b) :: rest => State.storeBytes ((s.settle k).storeByte p.toNat b) (k + 1) rest

/-- `MemRead(addr, n)` by an instruction that began in `s0` and has made k byte accesses (20_memory.md
R105). -/
def State.memRead (s0 s : State) (k : Nat) (addr : Word) (n align : Nat) : Except Stop Nat :=
  match s0.checkData .read addr n align with
  | .error e => .error e
  | .ok ps => .ok (valueOf s.cfg.endian (s.loadBytes k ps))

/-- The byte of an n-byte value that byte k of its memory order is (20_memory.md R105). -/
def byteIndex (e : Endian) (n k : Nat) : Nat :=
  match e with
  | .little => k
  | .big => n - 1 - k

/-- The bytes of a value that a byte mask keeps, each at its physical address; bit j of the mask is for
byte j of the value, bits 8j+7:8j (20_memory.md R104, R105; 10_state.md R29). -/
def maskedBytes (e : Endian) (ps : List Word) (n v : Nat) (keeps : Nat → Bool) :
    List (Word × Byte) :=
  (ps.zip ((List.range n).map fun k => (k, byteOf e n k v))).filterMap fun q =>
    if keeps (byteIndex e n q.2.1) then some (q.1, q.2.2) else none

/-- `MemWrite(addr, n, v)` by an instruction that began in `s0` and has made k byte accesses; of its
bytes those are written that a mask keeps (20_memory.md R104, R105). -/
def State.memWrite (s0 s : State) (k : Nat) (addr : Word) (n align v : Nat) (keeps : Nat → Bool) :
    Except Stop State :=
  match s0.checkData .write addr n align with
  | .error e => .error e
  | .ok ps => .ok (s.storeBytes k (maskedBytes s.cfg.endian ps n v keeps))

end Sys2Proof.Machine
end

