-- ==== Sys2Proof/Machine/Special.lean ====
section
/-! DEFINITION. Special purpose registers as an instruction reaches them, by name or by a number of
SPR_ACCESS: presence, privilege, reading and writing (10_state.md R45 to R76, R91;
41_referenced_instruction_groups.md R207). -/

namespace Sys2Proof.Machine

/-- The register exists on this hart (10_state.md R45 to R76). The machine event registers always do:
the mandatory faults use them (40_event_return_and_system.md R182). -/
def sprPresent (cfg : Config) : Spr → Bool
  | .pc | .sr => true
  | .vsh => cfg.has .vc
  | .vm1 | .vm2 | .vm3 => cfg.has .vf
  | .uepc | .uesr | .uec | .ued | .uehp | .uet0 | .uet1 => cfg.has .user
  | .mepc | .mesr | .mec | .med | .mehp | .met0 | .met1 => true
  | .pfpa | .pid | .tid | .hpid | .tptr | .wdt => cfg.has .user
  | .sgprbu => cfg.has .user && cfg.has .ctxr
  | .vgprbu => cfg.has .user && cfg.has .ctxr && cfg.mxvl != 0
  | .hlprbu => cfg.has .user && cfg.has .ctxr && cfg.has .hlpr
  | .perfcbu => cfg.has .user && cfg.has .ctxr && cfg.has .perfc

/-- The register is machine mode only (60_exceptions.md R252, 10_state.md R45). -/
def sprPrivileged : Spr → Bool
  | .pc | .sr | .vsh | .vm1 | .vm2 | .vm3 => false
  | .uepc | .uesr | .uec | .ued | .uehp | .uet0 | .uet1 => false
  | .mepc | .mesr | .mec | .med | .mehp | .met0 | .met1 => true
  | .pfpa | .sgprbu | .vgprbu | .hlprbu | .perfcbu => true
  | .pid | .tid | .hpid | .tptr | .wdt => true

/-- The event an access in a mode raises, if any: INCI for a register the hart lacks (R161), ILLI for a
privileged one in user mode (10_state.md R45). -/
def sprDenied (cfg : Config) (mode : Mode) (r : Spr) : Option EventName :=
  if !sprPresent cfg r then some .inci
  else match mode with
    | .user => if sprPrivileged r then some .illi else none
    | .machine => none

/-- The event a write of a value in a mode raises, if any: that of the access, or ILLI for an illegal
vector shape, at the write (10_state.md R48, U13). -/
def sprWriteDenied (cfg : Config) (mode : Mode) (r : Spr) (v : Nat) : Option EventName :=
  match sprDenied cfg mode r with
  | some e => some e
  | none => if r = .vsh ∧ cfg.vshIllegal.contains (BitVec.ofNat 8 v) = true then some .illi else none

/-- The value of a special purpose register. -/
def State.sprValue (s : State) : Spr → Nat
  | .pc => s.pc.toNat
  | .sr => (s.sr.pack s.cfg.srLayout).toNat
  | .vsh => s.vsh.toNat
  | .vm1 => s.vm1.toNat
  | .vm2 => s.vm2.toNat
  | .vm3 => s.vm3.toNat
  | .uepc => s.u.epc.toNat
  | .uesr => (s.u.esr.pack s.cfg.srLayout).toNat
  | .uec => s.u.ec.toNat
  | .ued => s.u.ed.toNat
  | .uehp => s.u.ehp.toNat
  | .uet0 => s.u.et0.toNat
  | .uet1 => s.u.et1.toNat
  | .mepc => s.m.epc.toNat
  | .mesr => (s.m.esr.pack s.cfg.srLayout).toNat
  | .mec => s.m.ec.toNat
  | .med => s.m.ed.toNat
  | .mehp => s.m.ehp.toNat
  | .met0 => s.m.et0.toNat
  | .met1 => s.m.et1.toNat
  | .pfpa => s.pfpa.toNat
  | .sgprbu => s.usage.sgprb.toNat
  | .vgprbu => s.usage.vgprb.toNat
  | .hlprbu => s.usage.hlprb.toNat
  | .perfcbu => s.usage.perfcb.toNat
  | .pid => s.pid.toNat
  | .tid => s.tid.toNat
  | .hpid => s.hpid.toNat
  | .tptr => s.tptr.toNat
  | .wdt => s.wdt.toNat

/-- A write of SR (10_state.md R78, R91): in user mode the privileged fields keep their value, and
absent fields and unused bits stay 0. -/
def StatusReg.written (cfg : Config) (mode : Mode) (old new : StatusReg) : StatusReg :=
  match mode with
  | .machine => new.present cfg
  | .user => (old.withUnprivileged new).present cfg

/-- A write of UESR: semi-privileged, field by field as SR (10_state.md R53); the 32 bits are storage. -/
def StatusReg.stored (mode : Mode) (old new : StatusReg) : StatusReg :=
  match mode with
  | .machine => new
  | .user => old.withUnprivileged new

/-- The state after a permitted write of a special purpose register. PC is written when the instruction
completes, so it is not written here. -/
def State.setSpr (s : State) (mode : Mode) (r : Spr) (v : Nat) : State :=
  let status := StatusReg.unpack s.cfg.srLayout (BitVec.ofNat 32 v)
  match r with
  | .pc => s
  | .sr => { s with sr := s.sr.written s.cfg mode status }
  | .vsh => { s with vsh := BitVec.ofNat 8 v }
  | .vm1 => { s with vm1 := s.cfg.vmask v }
  | .vm2 => { s with vm2 := s.cfg.vmask v }
  | .vm3 => { s with vm3 := s.cfg.vmask v }
  | .uepc => { s with u := { s.u with epc := s.cfg.word v } }
  | .uesr => { s with u := { s.u with esr := s.u.esr.stored mode status } }
  | .uec => { s with u := { s.u with ec := BitVec.ofNat 16 v } }
  | .ued => { s with u := { s.u with ed := s.cfg.word v } }
  | .uehp => { s with u := { s.u with ehp := s.cfg.word v } }
  | .uet0 => { s with u := { s.u with et0 := s.cfg.word v } }
  | .uet1 => { s with u := { s.u with et1 := s.cfg.word v } }
  | .mepc => { s with m := { s.m with epc := s.cfg.word v } }
  | .mesr => { s with m := { s.m with esr := status } }
  | .mec => { s with m := { s.m with ec := BitVec.ofNat 16 v } }
  | .med => { s with m := { s.m with ed := s.cfg.word v } }
  | .mehp => { s with m := { s.m with ehp := s.cfg.word v } }
  | .met0 => { s with m := { s.m with et0 := s.cfg.word v } }
  | .met1 => { s with m := { s.m with et1 := s.cfg.word v } }
  | .pfpa => { s with pfpa := s.cfg.word v }
  | .sgprbu => { s with usage := { s.usage with sgprb := BitVec.ofNat 32 (v % 2 ^ s.cfg.srfs) } }
  | .vgprbu => { s with usage := { s.usage with vgprb := BitVec.ofNat 32 (v % 2 ^ s.cfg.vrfs) } }
  | .hlprbu => { s with usage := { s.usage with hlprb := BitVec.ofNat 32 (v % 2 ^ s.cfg.hrfs) } }
  | .perfcbu => { s with usage := { s.usage with perfcb := BitVec.ofNat 32 (v % 2 ^ s.cfg.crfs) } }
  | .pid => { s with pid := BitVec.ofNat 32 v }
  | .tid => { s with tid := BitVec.ofNat 32 v }
  | .hpid => { s with hpid := BitVec.ofNat 32 v }
  | .tptr => { s with tptr := s.cfg.word v }
  | .wdt => { s with wdt := BitVec.ofNat 32 v }

/-- SPRREAD (41_referenced_instruction_groups.md R207): the value, or the event the access raises. -/
def State.readSpr (s : State) (mode : Mode) (r : Spr) : Except EventName Nat :=
  match sprDenied s.cfg mode r with
  | some e => .error e
  | none => .ok (s.sprValue r)

/-- SPRWRITE (41_referenced_instruction_groups.md R207): the state after, or the event the write
raises. -/
def State.writeSpr (s : State) (mode : Mode) (r : Spr) (v : Nat) : Except EventName State :=
  match sprWriteDenied s.cfg mode r v with
  | some e => .error e
  | none => .ok (s.setSpr mode r v)

/-- The vector shape in force (10_state.md R48): element size in bytes and number of active elements;
without VC the greatest number of WLEN-sized elements. -/
def State.vectorShape (s : State) : Nat × Nat :=
  if s.cfg.has .vc then
    (2 ^ (s.vsh.extractLsb' 6 2).toNat,
      match s.cfg.vshCount with
      | .exact => (s.vsh.extractLsb' 0 6).toNat
      | .minusOne => (s.vsh.extractLsb' 0 6).toNat + 1)
  else (s.cfg.wbytes, s.cfg.mxvl / s.cfg.wlen)

end Sys2Proof.Machine
end

