-- ==== Sys2Proof/Machine/Operands.lean ====
section
/-! DEFINITION. The operand forms of an instruction OPCODE_MAP supplies: register specifiers by bank, the
immediate, access sizes (30_encoding.md R146 to R157, 10_state.md R22 to R41). -/

namespace Sys2Proof.Machine

/-- The bank a specifier of this instruction indexes (30_encoding.md R146, R150, R156). -/
def bankOf (d : Decoded) (f : RegField) : Bank := d.row.bankOf d.fields.md d.scalar f

/-- The value of register i of a bank, read by an instruction that began in `s0`. A counter that counts
time gives a free value while the counters are enabled (60_exceptions.md R267): a new one at every read.
Its mode and PERFCE are those in force when the instruction began: a change of a counter's mode takes
effect for the next instruction (70_reset_and_hazards.md R304; log 36). -/
def State.readBank (s0 s : State) (b : Bank) (i : Nat) : Nat × State :=
  match b with
  | .sgprb => ((s.x.getD i 0).toNat, s)
  | .vgprb | .byVm => ((s.vr.getD i 0).toNat, s)
  | .hlprb => ((s.h.getD i {}).val.toNat, s)
  | .perfcb | .byMd =>
    if s0.counting && countsOf s0.cfg (s0.c.getD i {}).mode == .time then
      ((s.cfg.counter (Config.counterFree s.draws (32 + i)).toNat).toNat,
        s.drawn (s.draws + 1))
    else ((s.c.getD i {}).val.toNat, s)

/-- Write register i of a bank, a vector register under the instruction's mask. A mask bit maps to a
byte of a vector register (10_state.md R29), and R152 speaks of a byte of the destination: the spec does
not say what a masked form does to a destination that is no vector register. Here a scalar, helper or
counter destination ignores the mask and is written whole (DESIGN CHOICE, log 44). -/
def State.writeBank (s : State) (b : Bank) (mask : MaskUse) (i v : Nat) : State :=
  match b with
  | .sgprb => s.writeX i v
  | .vgprb | .byVm => s.writeV mask i v
  | .hlprb => s.writeHelperVal i v
  | .perfcb | .byMd => s.writeCounterVal i v

/-- The number of registers of a bank. -/
def State.bankCount (s : State) (b : Bank) : Nat := b.count s.cfg 0 false

/-- The mode of register i of a helper or counter bank (10_state.md R30, R40); the map names no other
bank here (`Prim.fits`). -/
def State.readBankMode (s : State) (b : Bank) (i : Nat) : Nat :=
  match b with
  | .hlprb => (s.h.getD i {}).mode.toNat
  | .perfcb => (s.c.getD i {}).mode.toNat
  | .sgprb | .vgprb | .byMd | .byVm => 0

/-- Write the mode of register i of a helper or counter bank. -/
def State.writeBankMode (s : State) (b : Bank) (i v : Nat) : State :=
  match b with
  | .hlprb => s.writeHelperMode i v
  | .perfcb => s.writeCounterMode i v
  | .sgprb | .vgprb | .byMd | .byVm => s

/-- The immediate of an instruction as a WLEN-bit value: extended where it is narrower, cut to its low WLEN
bits where it is wider (DESIGN CHOICE, log 46; 30_encoding.md R157). -/
def immediate (cfg : Config) (d : Decoded) : Nat := d.row.immediate cfg d.fields

/-- The number of bytes of an access, and the alignment it requires (20_memory.md R104, R108,
30_encoding.md R149): a scalar access its own size, a vector access what the map says. -/
def State.sizeOf (s : State) (d : Decoded) : AccessSize → Nat × Nat
  | .bytes log => (2 ^ log.val, 2 ^ log.val)
  | .byMd => (2 ^ d.fields.md.toNat, 2 ^ d.fields.md.toNat)
  | .vector .whole align => (s.cfg.mxvl / 8, 2 ^ align.val)
  | .vector .shaped align =>
    (min (s.vectorShape.1 * s.vectorShape.2) (s.cfg.mxvl / 8), 2 ^ align.val)
  | .vector (.part log) align => (2 ^ log.val, 2 ^ align.val)

/-- The bytes of a store the instruction's mask keeps, by their number in the vector register: bit k of
the mask covers its bits 8k+7:8k (10_state.md R29, 30_encoding.md R152); a store of scalar size ignores
the mask (DESIGN CHOICE, log 44). -/
def State.storeKeeps (s : State) (d : Decoded) (size : AccessSize) (k : Nat) : Bool :=
  match size, d.mask with
  | .vector _ _, .masked r inverted => (s.maskValue r).getLsbD k != inverted
  | .vector _ _, .unmasked => true
  | .bytes _, _ => true
  | .byMd, _ => true

/-- A number of some bits read as a signed one. -/
def signedOf (bits n : Nat) : Int := if n.testBit (bits - 1) then (n : Int) - 2 ^ bits else n

/-- Exact arithmetic modulo 2^bits, on operands cut to as many bits (00_scope.md R7;
41_referenced_instruction_groups.md R200). -/
def arith (op : ArithOp) (bits a b : Nat) : Nat :=
  let a := a % 2 ^ bits
  let b := b % 2 ^ bits
  match op with
  | .add => (a + b) % 2 ^ bits
  | .sub => (a + (2 ^ bits - b)) % 2 ^ bits
  | .mul => a * b % 2 ^ bits
  | .div => if b = 0 then Config.divideFree .div a % 2 ^ bits else a / b
  | .rem => if b = 0 then Config.divideFree .rem a % 2 ^ bits else a % b
  | .and => a &&& b
  | .or => a ||| b
  | .xor => a ^^^ b
  | .shl => if bits ≤ b then 0 else a * 2 ^ b % 2 ^ bits
  | .shr => if bits ≤ b then 0 else a / 2 ^ b
  | .sar => (signedOf bits a / 2 ^ min b bits % 2 ^ bits).toNat
  | .eq => if a = b then 1 else 0
  | .ltu => if a < b then 1 else 0
  | .lts => if signedOf bits a < signedOf bits b then 1 else 0

end Sys2Proof.Machine
end

