-- ==== Sys2Proof/Machine/Prims.lean ====
section
/-! DEFINITION. Running an instruction OPCODE_MAP supplies as a sequence of the primitives of 00_scope.md
R8, under the rules every instruction obeys (41_referenced_instruction_groups.md R200): any event
cancels it whole (60_exceptions.md R243). -/

namespace Sys2Proof.Machine

/-- An instruction half run. -/
structure Work where
  /-- The state with the writes so far; PC is still the instruction's. -/
  s       : State
  stack   : List Nat := []
  /-- The program counter the instruction writes. -/
  target  : Option Word := none
  flags   : List Flag := []
  done    : Retired := {}
  /-- The bytes of data read and written so far (20_memory.md R104). -/
  touched : Nat := 0
  /-- The helper registers that fired so far, at the fetch and at data accesses. An instruction that fires
  one is cancelled, and what it still does here tells only whether it meets a fault as well
  (60_exceptions.md R233). -/
  fired   : List Trigger := []
  deriving DecidableEq, Repr

/-- Entry k of the stack. A sequence the configuration check accepts (`stackOk`) has it. -/
def Work.top (w : Work) (k : Nat) : Nat := w.stack.getD k 0

/-- The stack with n entries taken and one put on it. -/
def Work.push (w : Work) (n v : Nat) : Work := { w with stack := v :: w.stack.drop n }

/-- The stack with n entries taken. -/
def Work.pop (w : Work) (n : Nat) : Work := { w with stack := w.stack.drop n }

/-- Raise an event that carries nothing. -/
def stopWith {α : Type} (n : EventName) : Except Stop α := .error (.event { name := n })

/-- Continue with a special purpose register's value, or the event its access raises. -/
def Work.readSpr (w : Work) (mode : Mode) (n : Nat) (r : Spr) : Except Stop Work :=
  match w.s.readSpr mode r with
  | .ok v => .ok (w.push n v)
  | .error e => stopWith e

/-- Write a special purpose register; PC becomes the target. -/
def Work.writeSpr (w : Work) (mode : Mode) (n : Nat) (r : Spr) (v : Nat) : Except Stop Work :=
  match w.s.writeSpr mode r v with
  | .error e => stopWith e
  | .ok s' =>
    .ok { w.pop n with
      s := s', target := if r = .pc then some (w.s.cfg.word v) else w.target }

/-- Go on where a bank has the register of a number, or raise INCI: an operand this hart does not support
(10_state.md R22, 30_encoding.md R161). -/
def inBank (s0 : State) (b : Bank) (i : Nat) (go : Work) : Except Stop Work :=
  if i < s0.bankCount b then .ok go else stopWith .inci

/-- Continue with the value of register i of a bank. -/
def Work.readAt (w : Work) (s0 : State) (b : Bank) (n i : Nat) : Except Stop Work :=
  let r := State.readBank s0 w.s b i
  inBank s0 b i { w.push n r.1 with s := r.2 }

/-- Write register i of a bank. -/
def Work.writeAt (w : Work) (d : Decoded) (s0 : State) (b : Bank) (n i v : Nat) : Except Stop Work :=
  inBank s0 b i { w.pop n with s := w.s.writeBank b d.mask i v }

/-- Continue with the mode of register i of a bank. -/
def Work.readModeAt (w : Work) (s0 : State) (b : ModeBank) (n i : Nat) : Except Stop Work :=
  inBank s0 b.bank i (w.push n (w.s.readBankMode b.bank i))

/-- Write the mode of register i of a bank. -/
def Work.writeModeAt (w : Work) (s0 : State) (b : ModeBank) (n i v : Nat) : Except Stop Work :=
  inBank s0 b.bank i { w.pop n with s := w.s.writeBankMode b.bank i v }

/-- Continue with the register a number of SPR_ACCESS reaches: helper registers and counters are not
privileged (41_referenced_instruction_groups.md R205 to R207). -/
def Work.readNumbered (w : Work) (s0 : State) (n : Nat) : NumberedReg → Except Stop Work
  | .special r => w.readSpr s0.mode n r
  | .value b i => w.readAt s0 b.bank n i
  | .mode b i => w.readModeAt s0 b n i

/-- Write the register a number of SPR_ACCESS reaches. -/
def Work.writeNumbered (w : Work) (d : Decoded) (s0 : State) (n v : Nat) :
    NumberedReg → Except Stop Work
  | .special r => w.writeSpr s0.mode n r v
  | .value b i => w.writeAt d s0 b.bank n i v
  | .mode b i => w.writeModeAt s0 b n i v

/-- Go on with a register of SPR_ACCESS, or raise INCI for a number that has none: an operand this hart
does not support (30_encoding.md R161). -/
def numbered (cfg : Config) (n : Nat) (go : NumberedReg → Except Stop Work) : Except Stop Work :=
  match cfg.registerOf n with
  | none => stopWith .inci
  | some r => go r

/-- A load of the instruction `d` that began in `s0`. R303 has the instruction after a write of VSH see the
new shape: a shaped access of the very instruction that writes VSH has the shape in force when it began
(DESIGN CHOICE, log 36). -/
def Work.load (w : Work) (d : Decoded) (s0 : State) (size : AccessSize) (n a : Nat) :
    Except Stop Work :=
  let width := s0.sizeOf d size
  match s0.memRead w.s w.touched (s0.cfg.word a) width.1 width.2 with
  | .error e => .error e
  | .ok v =>
    .ok { w.push n v with
      done := { w.done with load := true }, touched := w.touched + width.1 }

/-- A store of the instruction `d` that began in `s0`, of the shape in force then (DESIGN CHOICE, log
36). -/
def Work.store (w : Work) (d : Decoded) (s0 : State) (size : AccessSize) (n a v : Nat) :
    Except Stop Work :=
  let width := s0.sizeOf d size
  match s0.memWrite w.s w.touched (s0.cfg.word a) width.1 width.2 v (w.s.storeKeeps d size) with
  | .error e => .error e
  | .ok s' =>
    .ok { w.pop n with
      s := s', done := { w.done with store := true }, touched := w.touched + width.1 }

/-- A fence by md class F (20_memory.md R111, R115): the fetch fence makes earlier stores visible to
fetches; the others order nothing under sequential consistency and are refused under relaxed. CMD is the
one written so far, also by the instruction itself (DESIGN CHOICE, log 36). -/
def Work.fence (w : Work) (md : BitVec 2) : Except Stop Work :=
  if md = 3 then .ok { w with s := { w.s with dirty := [] } }
  else if w.s.sr.sequential w.s.cfg then .ok w
  else .error (.refused .relaxedConsistency)

/-- One primitive of the instruction `d` that began in `s0`. Which instructions are memory loads, memory
stores and conditional branches to the counters (10_state.md R42, 60_exceptions.md R267) is not in the
source: here an instruction counts as a load, a store or a branch where it performs a primitive of that
kind, once however often, and as each of them where it performs several (DESIGN CHOICE, log 41). -/
def runPrim (d : Decoded) (s0 : State) (w : Work) : Prim → Except Stop Work
  | .const n => .ok (w.push 0 n)
  | .imm => .ok (w.push 0 (immediate s0.cfg d))
  | .md => .ok (w.push 0 d.fields.md.toNat)
  | .vm => .ok (w.push 0 d.fields.vm.toNat)
  | .specifier f => .ok (w.push 0 (d.fields.reg f).toNat)
  | .scalarForm => .ok (w.push 0 d.scalar.toNat)
  | .pick n => .ok (w.push 0 (w.top n))
  | .drop => .ok (w.pop 1)
  | .readReg f =>
    let r := State.readBank s0 w.s (bankOf d f) (d.fields.reg f).toNat
    .ok { w.push 0 r.1 with s := r.2 }
  | .writeReg f =>
    .ok { w.pop 1 with s := w.s.writeBank (bankOf d f) d.mask (d.fields.reg f).toNat (w.top 0) }
  | .readAt b => w.readAt s0 b 1 (w.top 0)
  | .writeAt b => w.writeAt d s0 b 2 (w.top 0) (w.top 1)
  | .readMode f => .ok (w.push 0 (w.s.readBankMode (bankOf d f) (d.fields.reg f).toNat))
  | .writeMode f =>
    .ok { w.pop 1 with s := w.s.writeBankMode (bankOf d f) (d.fields.reg f).toNat (w.top 0) }
  | .readModeAt b => w.readModeAt s0 b 1 (w.top 0)
  | .writeModeAt b => w.writeModeAt s0 b 2 (w.top 0) (w.top 1)
  | .readSpr r => w.readSpr s0.mode 0 r
  | .writeSpr r => w.writeSpr s0.mode 1 r (w.top 0)
  | .readSprAt => numbered s0.cfg (w.top 0) (w.readNumbered s0 1)
  | .writeSprAt => numbered s0.cfg (w.top 0) (w.writeNumbered d s0 2 (w.top 1))
  | .load size => w.load d s0 size 1 (w.top 0)
  | .store size => w.store d s0 size 2 (w.top 0) (w.top 1)
  | .loadIf size =>
    if w.top 0 = 0 then .ok (w.push 3 (w.top 2)) else w.load d s0 size 3 (w.top 1)
  | .storeIf size =>
    if w.top 0 = 0 then .ok (w.pop 3) else w.store d s0 size 3 (w.top 1) (w.top 2)
  | .readConfig n =>
    match s0.cfg.read (w.top 0) n with
    | none => .error (.refused .segmentRange)
    | some v => .ok (w.push 1 v)
  | .arith op bits => .ok (w.push 2 (arith op (bits.getD s0.cfg.wlen) (w.top 1) (w.top 0)))
  | .select => .ok (w.push 3 (if w.top 0 = 0 then w.top 2 else w.top 1))
  | .compute id arity => .ok (w.push arity (Config.computeFree id (w.stack.take arity)))
  | .raiseFlags id arity =>
    .ok { w with flags := w.flags ++ Config.flagsFree id (w.stack.take arity) }
  | .raiseFlag f =>
    .ok { w.pop 1 with flags := if w.top 0 = 0 then w.flags else w.flags ++ [f] }
  | .jump => .ok { w.pop 1 with target := some (s0.cfg.word (w.top 0)) }
  | .branch =>
    .ok { w.pop 2 with
      target := if w.top 0 = 0 then w.target else some (s0.cfg.word (w.top 1))
      done := { w.done with branch := some (w.top 0 != 0) } }
  | .fence => w.fence d.fields.md
  | .raiseCustom slot => stopWith (.custom slot)

/-- The helper registers that fire for the data access a primitive attempts (20_memory.md R109). -/
def Work.attempt (w : Work) (d : Decoded) (s0 : State) (p : Prim) : List Trigger :=
  let fires := fun kind size a =>
    let width := s0.sizeOf d size
    s0.attempt kind (s0.cfg.word a) width.1 width.2
  match p with
  | .load size => fires .read size (w.top 0)
  | .store size => fires .write size (w.top 0)
  | .loadIf size => if w.top 0 = 0 then [] else fires .read size (w.top 1)
  | .storeIf size => if w.top 0 = 0 then [] else fires .write size (w.top 1)
  | _ => []

/-- The instruction with the helper registers noted that fire for a primitive. -/
def Work.note (w : Work) (d : Decoded) (s0 : State) (p : Prim) : Work :=
  { w with fired := w.fired ++ w.attempt d s0 p }

/-- The primitives of an instruction, in order, up to the first that stops it; with a stop, the
instruction as it was then, the helper registers that fire for the access it stops at noted. -/
def runPrims (d : Decoded) (s0 : State) : Work → List Prim → Except (Stop × Work) Work
  | w, [] => .ok w
  | w, p :: ps =>
    match runPrim d s0 (w.note d s0 p) p with
    | .error e => .error (e, w.note d s0 p)
    | .ok w' => runPrims d s0 w' ps

/-! ### What decoding can already tell -/

/-- What the encoding alone tells of the stack after a primitive: none for an entry that depends on
registers or memory. -/
def encoded (cfg : Config) (d : Decoded) (st : List (Option Nat)) (p : Prim) : List (Option Nat) :=
  let rest := st.drop p.arity.1
  let entry := fun k => st.getD k none
  match p with
  | .const n => some n :: st
  | .imm => some (immediate cfg d) :: st
  | .md => some d.fields.md.toNat :: st
  | .vm => some d.fields.vm.toNat :: st
  | .specifier f => some (d.fields.reg f).toNat :: st
  | .scalarForm => some d.scalar.toNat :: st
  | .pick n => entry n :: st
  | .arith op bits =>
    (match entry 1, entry 0 with
      | some a, some b => some (arith op (bits.getD cfg.wlen) a b)
      | _, _ => none) :: rest
  | .raiseFlags _ _ => st
  | p => List.replicate p.arity.2 none ++ rest

/-- INCI for an encoded register number a bank does not have. -/
def indexDenied (cfg : Config) (b : Bank) (n : Option Nat) : Option EventName :=
  match n with
  | none => none
  | some i => if i < b.count cfg 0 false then none else some .inci

/-- The event a read or a write of the register of an encoded number raises; `go` says it of the special
purpose registers. -/
def numberDenied (cfg : Config) (n : Option Nat) (go : Spr → Option EventName) : Option EventName :=
  match n with
  | none => none
  | some n =>
    match cfg.registerOf n with
    | none => some .inci
    | some (.special r) => go r
    | some (.value b i) => indexDenied cfg b.bank (some i)
    | some (.mode b i) => indexDenied cfg b.bank (some i)

/-- ILLI or INCI of a primitive as far as the encoding and the mode tell: a special purpose register that
is absent or privileged, a register number out of range, an illegal shape written to VSH (10_state.md R45,
R48; 30_encoding.md R161). -/
def primDenied (cfg : Config) (mode : Mode) (st : List (Option Nat)) (p : Prim) : Option EventName :=
  let entry := fun k => st.getD k none
  let write := fun v r =>
    match v with
    | none => sprDenied cfg mode r
    | some v => sprWriteDenied cfg mode r v
  match p with
  | .readSpr r => sprDenied cfg mode r
  | .writeSpr r => write (entry 0) r
  | .readSprAt => numberDenied cfg (entry 0) (sprDenied cfg mode)
  | .writeSprAt => numberDenied cfg (entry 0) (write (entry 1))
  | .readAt b | .writeAt b => indexDenied cfg b (entry 0)
  | .readModeAt b | .writeModeAt b => indexDenied cfg b.bank (entry 0)
  | _ => none

/-- ILLI or INCI of an instruction: the decode and privilege checks come before its data accesses
(60_exceptions.md R233). -/
def State.denied (s : State) (d : Decoded) : List (Option Nat) → List Prim → Option EventName
  | _, [] => none
  | st, p :: ps =>
    match primDenied s.cfg s.mode st p with
    | some n => some n
    | none => State.denied s d (encoded s.cfg d st p) ps

/-! ### What an instruction leads to -/

/-- An instruction that completes: PC is what it wrote, or its own address plus its length modulo 2^WLEN
(10_state.md R46), and the counters count it (60_exceptions.md R267). No time passes here: a counter of time
that the instruction has written and stopped keeps that value (`State.passTime`; DESIGN CHOICE, log 6). -/
def State.complete (s0 : State) (len : InstrLen) (w : Work) : State :=
  State.retire s0 w.done
    { w.s with pc := w.target.getD (s0.cfg.word (s0.pc.toNat + len.bytes)) }

/-- What an instruction that cannot complete leads to, after the helper registers that fired for it and
the flags it raised: a fault is taken before them (60_exceptions.md R233); a stop of the model, which is
no event of the hart, comes after them (R261, R262; log 21). -/
def State.stopped (s : State) (fired : List Trigger) (flags : List Flag) :
    Stop → Host.Outcome State Fault Refusal
  | .event e =>
    if e.precedes s.cfg then .next (s.deliver e)
    else (s.afterFlags fired flags).getD (.next (s.deliver e))
  | .fault f => (s.afterFlags fired flags).getD (.fault f)
  | .refused r => (s.afterFlags fired flags).getD (.refused r)

/-- Run a supplied instruction of a given length, after the helper registers that fired at its fetch: the
decode and privilege checks, its primitives, and, of the events it meets, a fault first, then the helper
events in index order, then an arithmetic exception (60_exceptions.md R233, R265, R266). Whether its flags
raise one is judged in `s`, so by the GEE in force when it began, also where it writes SR.GEE itself
(DESIGN CHOICE, log 36: R83 and R303 leave it open). A cancelled one leaves the state it began in
(60_exceptions.md R243), but for the free values it has drawn, which are not drawn again (log 6). -/
def State.runSupplied (s : State) (d : Decoded) (len : InstrLen) (fetched : List Trigger)
    (ps : List Prim) : Host.Outcome State Fault Refusal :=
  match s.denied d [] ps with
  | some n => s.raise n
  | none =>
    match runPrims d s { s := s, fired := fetched } ps with
    | .error (e, w) => (s.drawn w.s.draws).stopped w.fired w.flags e
    | .ok w => ((s.drawn w.s.draws).afterFlags w.fired w.flags).getD (.next (s.complete len w))

end Sys2Proof.Machine
end

