-- ==== Sys2Proof/Machine/Fetch.lean ====
section
/-! DEFINITION. One cycle of a hart: what arrives from outside, taking an event at the instruction
boundary, fetching, decoding and running an instruction (20_memory.md R106, R107, R115;
60_exceptions.md R233, R245 to R258). -/

namespace Sys2Proof.Machine

/-! ### Arrivals -/

/-- A WDT_TICK (60_exceptions.md R256): an enabled, non-zero WDT counts down, and posts TQE when it
reaches zero. -/
def State.tick (s : State) : State :=
  if s.cfg.has .user && s.sr.wdte == 1 && s.wdt != 0 then
    if s.wdt = 1 then State.post { s with wdt := 0 } { name := .tqe }
    else { s with wdt := s.wdt - 1 }
  else s

/-- A clock cycle: the WDT_TICK-th since the last tick ticks (60_exceptions.md R256). -/
def State.clock (s : State) : State :=
  if s.cycles + 1 < s.cfg.wdtTick then { s with cycles := s.cycles + 1 }
  else State.tick { s with cycles := 0 }

/-- A write of another agent to this address changes memory: there is RAM (20_memory.md R117). -/
def State.writable (s : State) (addr : Word) : Bool :=
  s.regionAt (s.cfg.word addr.toNat).toNat == .ram

/-- One thing from outside the hart (60_exceptions.md R249 to R256, 20_memory.md R110, R121). An
interrupt of a module the hart lacks does not exist. A write of another agent is judged by the SR.CMD in
force when it arrives, at the boundary, also where it races an instruction that itself writes SR.CMD, say
to 0: R110 does not say which value decides (DESIGN CHOICE, log 39). -/
def State.receive (s : State) : Input → Except Refusal State
  | .io k => .ok (if s.cfg.has .ioint then s.post { name := .ioint k } else s)
  | .ipc k => .ok (if s.cfg.has .ipcint then s.post { name := .ipcint k } else s)
  | .clockCycle => .ok s.clock
  | .custom slot =>
    match customRow s.cfg slot with
    | none => .ok s
    | some r =>
      match r.kind with
      | .ioInterrupt => .ok (s.post { name := .custom slot })
      | .ipcInterrupt => .ok (s.post { name := .custom slot })
      | .exception => .ok s
      | .fault => .ok s
  | .memoryWrite addr b =>
    if s.sr.sequential s.cfg then
      .ok (if s.writable addr then s.storeByte (s.cfg.word addr.toNat).toNat b else s)
    else .error .relaxedConsistency
  | .memoryWriteDuring after addr b =>
    if s.sr.sequential s.cfg then
      .ok (if s.writable addr then
        { s with racing := s.racing ++ [⟨after, (s.cfg.word addr.toNat).toNat, b⟩] } else s)
    else .error .relaxedConsistency

/-- Everything that arrives before one instruction boundary, in order. -/
def State.receiveAll (s : State) : List Input → Except Refusal State
  | [] => .ok s
  | i :: is =>
    match s.receive i with
    | .error r => .error r
    | .ok s' => State.receiveAll s' is

/-- The state at the next instruction boundary: time has passed and the next batch has arrived. -/
def State.boundary (s : State) : Except Refusal State :=
  match s.inputs with
  | [] => .ok s.passTime
  | batch :: rest => State.receiveAll { s.passTime with inputs := rest } batch

/-! ### Fetching -/

/-- The first of some locations that was written since load (20_memory.md R115). -/
def State.stale (s : State) (ps : List Word) : Option Word :=
  ps.find? (fun p => s.dirty.contains p.toNat)

/-- Bytes k to k+n-1 of the instruction at PC. -/
def State.fetchBytes (s : State) (k n : Nat) : Except Stop (List Byte) :=
  match s.physicals s.pc .fetch k n with
  | .error e => .error e
  | .ok ps =>
    match s.regionStop .fetch ps with
    | some e => .error e
    | none =>
      match s.stale ps with
      | some p => .error (.fault (.staleFetch p))
      | none => .ok (ps.map fun p => Memory.read s.mem p.toNat)

/-- Fetch the instruction at PC (20_memory.md R106, R107): MISI before any byte is read, the first
parcel, its length by LENGTH_OF, the rest. With a stop, how many bytes are known to be fetched: the first
parcel, or, once that is read, the whole instruction. -/
def State.fetch (s : State) : Except (Stop × Nat) (InstrLen × InstrBits) :=
  if s.pc.toNat % s.cfg.ialign ≠ 0 then .error (.event { name := .misi }, 2)
  else match s.fetchBytes 0 2 with
    | .error e => .error (e, 2)
    | .ok head =>
      let len := s.cfg.lengthOf.apply (parcelOf s.cfg.endian (head.getD 0 0) (head.getD 1 0))
      match s.fetchBytes 2 (len.bytes - 2) with
      | .error e => .error (e, len.bytes)
      | .ok tail => .ok (len, wordOf (parcelsOfBytes s.cfg.endian (head ++ tail)))

/-! ### Running -/

/-- The instruction raises a fault in this state, which is taken before a helper event of its fetch
(60_exceptions.md R233). -/
def coreFaults (s : State) : Instr → Bool
  | .hlt => s.mode == .user
  | .eret => s.mode == .user
  | .ueret => !s.cfg.has .user
  | .uret => !s.cfg.has .user || s.mode == .user
  | .syscall => true

/-- Run one of the five instructions, unless helper registers fired at its fetch and it has no fault. -/
def State.runCore (s : State) (fetched : List Trigger) (i : Instr) :
    Host.Outcome State Fault Refusal :=
  if coreFaults s i then exec i s
  else match fetched with
    | [] => exec i s
    | t :: ts => s.takeTriggers (t :: ts)

/-- Run a decoded instruction of a given length. -/
def State.execute (s : State) (d : Decoded) (len : InstrLen) (fetched : List Trigger) :
    Host.Outcome State Fault Refusal :=
  match d.row.sem with
  | .core i => s.runCore fetched i
  | .prims ps => s.runSupplied d len fetched ps
  | .group g => .refused (.undefinedGroup g)

/-- The helper registers that fire for a fetch of n bytes that stops: what stands at an address is asked
after them (20_memory.md R109; log 43), but a stale fetch is rejected, as U22 has it (log 21). -/
def State.firedAtFetch (s : State) (n : Nat) : Stop → List Trigger
  | .fault (.staleFetch _) => []
  | _ => s.accessTriggers .fetch s.pc n

/-- Fetch, decode and run the instruction at PC. -/
def State.runInstr (s : State) : Host.Outcome State Fault Refusal :=
  match s.fetch with
  | .error (e, n) => s.stopped (s.firedAtFetch n e) [] e
  | .ok (len, w) =>
    match decode s.cfg len w with
    | .illegal => s.raise .illi
    | .incompatible => s.raise .inci
    | .refused r => .refused (.encoding r)
    | .instr d => s.execute d len (s.accessTriggers .fetch s.pc len.bytes)

/-- Why a running hart in this state is refused, if it is (10_state.md R31, R42, R95; U3, U5, U8, U20); a
halted one is not asked (log 16). -/
def State.unsupported (s : State) : Option Refusal :=
  if s.sr.tnd ≠ 0 then some .transactional
  else match s.queue.find? (fun e => !e.name.defined s.cfg) with
  | some e => some (.undefinedEvent e.name.code)
  | none =>
    match s.reservedHelper with
    | some i => some (.helperMode i)
    | none => s.reservedCounter.map .counterMode

/-- The writes of other agents during the instruction have landed when the step ends, also where it was
cancelled. -/
def settled : Host.Outcome State Fault Refusal → Host.Outcome State Fault Refusal
  | .next t => .next t.settleAll
  | .fault f => .fault f
  | .refused r => .refused r

/-- What happens at an instruction boundary: an event is taken, or else the next instruction runs. -/
def State.atBoundary (s : State) : Host.Outcome State Fault Refusal :=
  match s.nextEvent with
  | some e => .next (s.takeEvent e)
  | none => s.runInstr

/-- A running hart: what arrives, then what happens at the boundary. -/
def State.runHart (s : State) : Host.Outcome State Fault Refusal :=
  match s.boundary with
  | .error r => .refused r
  | .ok s' => settled s'.atBoundary

/-- One step: a configuration or state the spec refuses is refused, a halted hart stays as it is
(60_exceptions.md R258), a running one runs. The halt state is asked first: a halted hart (HLTS 1 or 2)
stays as it is also where its TND is not 0, which R95 and U20 refuse in any step, and where it holds a
reserved mode or an event that U3, U5 and U8 refuse. The spec does not say which rule comes first there
(DESIGN CHOICE, log 16). -/
def State.cycle (s : State) : Host.Outcome State Fault Refusal :=
  match s.cfg.problem with
  | some p => .refused (.configuration p)
  | none =>
    if s.sr.hlts = 0 then
      match s.unsupported with
      | some r => .refused r
      | none => s.runHart
    else if s.sr.hlts.toNat < 3 then .next s
    else .refused (.haltState s.sr.hlts)

/-! ### Placing an instruction -/

/-- Place bytes where the next instruction is fetched, as loaded ones. -/
def State.placeAt (s : State) (k : Nat) : List Byte → State
  | [] => s
  | b :: bs =>
    let addr :=
      match s.translate (s.addrAt s.pc k) .fetch with
      | .to p => p.toNat
      | .pageFault => (s.addrAt s.pc k).toNat
      | .illegalAddress => (s.addrAt s.pc k).toNat
    State.placeAt { s with mem := Memory.write s.mem addr b, dirty := s.dirty.erase addr } (k + 1) bs

end Sys2Proof.Machine
end

