-- ==== Sys2Proof/Machine/Step.lean ====
section
/-! DEFINITION. One step of the machine, and placing an instruction for the next one. -/

namespace Sys2Proof.Machine

/-- One step of the hart. -/
def step (s : State) : Host.Outcome State Fault Refusal := s.cycle

/-- The instruction of `nbits` bits numbered as spec/opcode_table.json numbers them, zeros above them,
stored where `step` fetches its next instruction. Stands for the loading of a program from outside
(log 8). -/
def State.withFetchWord (s : State) (nbits w : Nat) : State :=
  s.placeAt 0 (instrBytes s.cfg.endian .six (BitVec.ofNat 48 (w % 2 ^ nbits)))

end Sys2Proof.Machine
end

