-- ==== Sys2Proof/Safety.lean ====
section
/-! DEFINITION. What a sound state is, what a state right after reset may be, and what counts as a safe
step, in the terms the statements use. -/

namespace Sys2Proof.Machine

/-- Every register of an event set fits WLEN bits (10_state.md R52 to R65). -/
abbrev EventRegs.fits (cfg : Config) (r : EventRegs) : Prop :=
  r.epc.toNat < 2 ^ cfg.wlen ∧ r.ed.toNat < 2 ^ cfg.wlen ∧ r.ehp.toNat < 2 ^ cfg.wlen
    ∧ r.et0.toNat < 2 ^ cfg.wlen ∧ r.et1.toNat < 2 ^ cfg.wlen

/-- The banks have their sizes, and their registers their widths (10_state.md R21 to R41). -/
structure State.BanksFit (s : State) : Prop where
  xCount  : s.x.length = s.cfg.srfs
  xWidth  : ∀ v ∈ s.x, v.toNat < 2 ^ s.cfg.wlen
  vrCount : s.vr.length = s.cfg.vrfs
  vrWidth : ∀ v ∈ s.vr, v.toNat < 2 ^ s.cfg.mxvl
  hCount  : s.h.length = s.cfg.hrfs
  hWidth  : ∀ r ∈ s.h, r.val.toNat < 2 ^ s.cfg.wlen
  cCount  : s.c.length = s.cfg.crfs
  cWidth  : ∀ r ∈ s.c, r.val.toNat < 2 ^ s.cfg.clen

/-- The usage registers have a bit for each register of their bank and no other (10_state.md R67 to R71). -/
abbrev UsageRegs.fits (cfg : Config) (u : UsageRegs) : Prop :=
  u.sgprb.toNat < 2 ^ cfg.srfs ∧ u.vgprb.toNat < 2 ^ cfg.vrfs ∧ u.hlprb.toNat < 2 ^ cfg.hrfs
    ∧ u.perfcb.toNat < 2 ^ cfg.crfs

/-- The special purpose registers whose width depends on the configuration fit it
(10_state.md R46 to R75). -/
structure State.SpecialsFit (s : State) : Prop where
  pcWidth   : s.pc.toNat < 2 ^ s.cfg.wlen
  uWidth    : s.u.fits s.cfg
  mWidth    : s.m.fits s.cfg
  pfpaWidth : s.pfpa.toNat < 2 ^ s.cfg.wlen
  tptrWidth : s.tptr.toNat < 2 ^ s.cfg.wlen
  maskWidth : s.vm1.toNat < 2 ^ (s.cfg.mxvl / 8) ∧ s.vm2.toNat < 2 ^ (s.cfg.mxvl / 8)
    ∧ s.vm3.toNat < 2 ^ (s.cfg.mxvl / 8)
  usageWidth : s.usage.fits s.cfg

/-- Memory is in its one form, inside the address space, and so is the note of written locations
(20_memory.md R100, R115). -/
structure State.MemoryFits (s : State) : Prop where
  sorted : Memory.wf s.mem
  inside : ∀ c ∈ s.mem, c.1 < 2 ^ s.cfg.wlen
  noted  : s.dirty.Pairwise (· < ·)
  races  : ∀ r ∈ s.racing, r.addr < 2 ^ s.cfg.wlen

/-- The fields of SR whose module is absent, and its unused bits, hold 0 (10_state.md R78). -/
abbrev State.StatusFits (s : State) : Prop := s.sr.present s.cfg = s.sr

/-- The event queue is within its depth, no event in it carries data: interrupts and helper events have
none; and every one of them exists on this hart (10_state.md R94, 60_exceptions.md R222 to R229). -/
structure State.QueueFits (s : State) : Prop where
  depth  : s.queue.length ≤ s.cfg.queueDepth
  noData : ∀ e ∈ s.queue, e.data = none
  exist  : ∀ e ∈ s.queue, e.name.defined s.cfg = true

/-- What 10_state.md R97 fixes of the state right after reset; all it calls unspecified is free. -/
structure State.AfterReset (s : State) : Prop where
  banks   : s.BanksFit
  special : s.SpecialsFit
  status  : s.StatusFits
  hModes  : ∀ r ∈ s.h, r.mode = 0
  cModes  : ∀ r ∈ s.c, r.mode = 0
  pc      : s.pc = s.cfg.resetPc
  mode    : s.sr.pmod = 0
  running : s.sr.hlts = 0
  masked  : (s.cfg.has .ioint || s.cfg.has .ipcint) = true → s.sr.im = 3
  quiet   : s.sr.wdte = 0 ∧ s.sr.gee = 0 ∧ s.sr.perfce = 0 ∧ s.sr.hlpre = 0 ∧ s.sr.tnd = 0
  causes  : causeId s.m.ec = 0 ∧ causeId s.u.ec = 0
  queue   : s.queue = []

/-- Everything but PC, SR, the event registers and the counters is unchanged; every byte of memory reads
as before. -/
structure State.SameElsewhere (s t : State) : Prop where
  cfg    : t.cfg = s.cfg
  x      : t.x = s.x
  vr     : t.vr = s.vr
  h      : t.h = s.h
  vsh    : t.vsh = s.vsh
  vm     : t.vm1 = s.vm1 ∧ t.vm2 = s.vm2 ∧ t.vm3 = s.vm3
  pfpa   : t.pfpa = s.pfpa
  usage  : t.usage = s.usage
  ids    : t.pid = s.pid ∧ t.tid = s.tid ∧ t.hpid = s.hpid ∧ t.tptr = s.tptr
  wdt    : t.wdt = s.wdt
  queue  : t.queue = s.queue
  memory : ∀ a, Memory.read t.mem a = Memory.read s.mem a
  dirty  : t.dirty = s.dirty
  racing : t.racing = s.racing
  inputs : t.inputs = s.inputs ∧ t.cycles = s.cycles ∧ t.draws = s.draws

/-- The counters after one completed instruction that is no load, store or branch: those of an enabled
bank that count instructions (mode 1) count it, modulo 2^CLEN, and no other changes (60_exceptions.md
R267, 10_state.md R43). -/
def State.CountedOnce (s t : State) : Prop :=
  ∀ i : Nat, t.c[i]? = (s.c[i]?).map fun (r : CounterReg) =>
    if s.counting = true ∧ countsOf s.cfg r.mode = .instructions then
      { r with val := s.cfg.counter (r.val.toNat + 1) }
    else r

/-- `t` is `s` after the privileged launching sequence with this cause and data, step by step
(60_exceptions.md R236). -/
structure State.TrappedMachine (s t : State) (cause : BitVec 16) (data : Option Word) : Prop where
  mepc   : t.m.epc = s.pc
  mesr   : t.m.esr = s.sr
  gee    : t.sr.gee = if s.cfg.has .exc then 0 else s.sr.gee
  hlpre  : t.sr.hlpre = if s.cfg.has .hlpr then 0 else s.sr.hlpre
  perfce : t.sr.perfce = if s.cfg.has .perfc then 0 else s.sr.perfce
  pmod   : t.sr.pmod = if s.cfg.has .user then 0 else s.sr.pmod
  wdte   : t.sr.wdte = if s.cfg.has .user then 0 else s.sr.wdte
  im     : t.sr.im = if s.cfg.has .ioint || s.cfg.has .ipcint then 3 else s.sr.im
  kept   : t.sr.rmd = s.sr.rmd ∧ t.sr.tnd = s.sr.tnd ∧ t.sr.cmd = s.sr.cmd ∧ t.sr.cntu = s.sr.cntu
    ∧ t.sr.pwrs = s.sr.pwrs ∧ t.sr.hlts = s.sr.hlts ∧ t.sr.spare = s.sr.spare
  mec    : t.m.ec = cause
  med    : t.m.ed = data.getD s.m.ed
  others : t.m.ehp = s.m.ehp ∧ t.m.et0 = s.m.et0 ∧ t.m.et1 = s.m.et1
  pc     : t.pc = s.m.ehp
  user   : t.u = s.u
  c      : t.c = s.c
  same   : s.SameElsewhere t

/-- `t` is `s` after the unprivileged launching sequence with this cause and data, step by step
(60_exceptions.md R237). -/
structure State.TrappedUser (s t : State) (cause : BitVec 16) (data : Option Word) : Prop where
  uepc   : t.u.epc = s.pc
  uesr   : t.u.esr = s.sr
  gee    : t.sr.gee = if s.cfg.has .exc then 0 else s.sr.gee
  hlpre  : t.sr.hlpre = if s.cfg.has .hlpr then 0 else s.sr.hlpre
  perfce : t.sr.perfce = if s.cfg.has .perfc then 0 else s.sr.perfce
  kept   : t.sr.rmd = s.sr.rmd ∧ t.sr.tnd = s.sr.tnd ∧ t.sr.cmd = s.sr.cmd ∧ t.sr.cntu = s.sr.cntu
    ∧ t.sr.im = s.sr.im ∧ t.sr.pmod = s.sr.pmod ∧ t.sr.wdte = s.sr.wdte ∧ t.sr.pwrs = s.sr.pwrs
    ∧ t.sr.hlts = s.sr.hlts ∧ t.sr.spare = s.sr.spare
  uec    : t.u.ec = cause
  ued    : t.u.ed = data.getD s.u.ed
  others : t.u.ehp = s.u.ehp ∧ t.u.et0 = s.u.et0 ∧ t.u.et1 = s.u.et1
  pc     : t.pc = s.u.ehp
  mach   : t.m = s.m
  c      : t.c = s.c
  same   : s.SameElsewhere t

/-- A hart that runs: a legal configuration, not halted, nothing the spec refuses. -/
structure State.Runs (s : State) : Prop where
  config    : s.cfg.problem = none
  notHalted : s.sr.hlts = 0
  supported : s.unsupported = none

/-- A safe step: the hart goes on, and not into the catastrophic halt (10_state.md R92, R258). -/
def SafeStep (s : State) : Prop := ∃ t, step s = .next t ∧ t.sr.hlts ≠ 2

/-- The instruction bytes `bs` stand in RAM or ROM where the hart fetches from offset k of PC on, as
loaded ones. -/
def State.Holds (s : State) (k : Nat) : List Byte → Prop
  | [] => True
  | b :: bs =>
    (∃ p, s.translate (s.addrAt s.pc k) .fetch = .to p ∧ Memory.read s.mem p.toNat = b
      ∧ p.toNat ∉ s.dirty ∧ s.regionAt p.toNat ∈ [RegionKind.ram, .rom])
    ∧ State.Holds s (k + 1) bs

end Sys2Proof.Machine
end

