-- ==== Sys2Proof/Certificates/Slice0/Obligations.lean ====
section
/-! DEFINITION. The statements for the provers. They hold for every configuration: `cfg` is a field of the
state. "Decision D<n>" names the spec's own choice (92_eei_decisions.md) a statement
rests on, "log n" the entry of the assumption log for a choice or a reading of the model's. -/

open Sys2Proof Sys2Proof.Machine

/-! ### Encoding -/

/-- Fields that fit a format come back from the word assembled of them, in all 14 formats and both orders
of FIELD_BIT_ORDER (30_encoding.md R131 to R145, R157; decision D2). -/
def Obligations.FormatFieldsRoundTrip : Prop :=
  ∀ (order : FieldOrder) (fmt : Format) (fl : Fields), fl.fits fmt = true →
    fieldsOf order fmt (assemble order fmt fl) = fl

/-- No bit of a word is dropped or invented: a word inside a format's length is assembled again from its
fields, which fit the format (30_encoding.md R130, R146; decision D2). -/
def Obligations.FormatWordRoundTrip : Prop :=
  ∀ (order : FieldOrder) (fmt : Format) (w : InstrBits), w.toNat < 2 ^ (8 * fmt.length.bytes) →
    assemble order fmt (fieldsOf order fmt w) = w ∧ (fieldsOf order fmt w).fits fmt = true

/-- Decoding the encoding of a well-formed instruction gives that instruction, and LENGTH_OF its length,
under every configuration. -/
def Obligations.DecodeOfEncodeIsTheInstruction : Prop :=
  ∀ (cfg : Config) (i : Instr) (len : InstrLen) (w : InstrBits),
    i.wellFormed cfg = true → encode cfg i = some (len, w) →
      (decode cfg len w).core? = some i ∧ cfg.lengthOf.apply (w.extractLsb' 0 16) = len

/-- Words written out from the figures decode to their fields (30_encoding.md R136, R139, R142, R145),
and the words of the reference map to the five instructions (the model's own op values, log 3). -/
def Obligations.SampleWordsDecode : Prop :=
  fieldsOf .lowLeft .twoRA 0x3FB70C7B#48 = { op := 0xFEDCB, ra := 7, rb := 6 }
    ∧ fieldsOf .lowLeft .iA 0x407F3D43#48 = { op := 0xC3, im := 0xA5F00F }
    ∧ fieldsOf .highLeft .twoRB 0x7EEE#48 = { op := 0xB7, ra := 6, rb := 7, md := 1 }
    ∧ fieldsOf .lowLeft .twoRIC 0x6699#48 = { op := 0x9, ra := 2, rb := 4, im := 0x35 }
    ∧ [1, 2, 3, 4, 5].map (decodeTableWord 32)
        = [some .hlt, some .eret, some .ueret, some .uret, some .syscall]

/-- All zeros, all ones, and every word OPCODE_MAP assigns to nothing are illegal (30_encoding.md R160). -/
def Obligations.BlankAndUnassignedWordsAreIllegal : Prop :=
  ∀ (cfg : Config) (len : InstrLen),
    decode cfg len 0 = .illegal
      ∧ decode cfg len (BitVec.ofNat 48 (2 ^ (8 * len.bytes) - 1)) = .illegal
      ∧ ∀ w, cfg.rowFor len w = none → decode cfg len w = .illegal

/-- A word of OPCODE_MAP is incompatible with this hart, whatever registers it names, when a module it
needs is absent, its md value, but for class D (the model's choice, log 48), or its vm value is unused, or
it is class E md 3, `vm(2)` 3, a class C bank the hart lacks, a class F fence without FNC, a vector-scalar
mode without an operand for the scalar, or a masked form without VF. Else class G with md not 0, a `vm(6)`
pattern without a value, opposite mask demands of md and vm, and a masked form whose mask register the map
does not supply are refused by name, before its registers are looked at: that order is the model's choice
(log 31). Else it is incompatible when an operand is outside its bank, or it has a class B size above the
width of a register operand or of a register the instruction fills or its data comes from (named by an
operand or by its number, with or without an access of memory), a fixed size above WBYTES on scalar data,
a vector access above MXVL/8 bytes, or a load into a register narrower than it; a register among `bases`
is asked too, also where its value raises a flag or decides a condition, but for its update by address
arithmetic where it addresses memory. Every other word is an instruction under the mask its md and vm
fields ask for: 1 masked, 2 inverted in md class E and `vm(2)`; MVV and MVS, IMVV and IMVS in `vm(6)`;
where only one of the two fields asks, its mask (30_encoding.md R161, R149, R150, R152, R154, R156;
10_state.md R22; 00_scope.md R2; 20_memory.md R104; decision D33; logs 31, 40, 42, 48). -/
def Obligations.UnsupportedOperandsAreIncompatible : Prop :=
  ∀ (cfg : Config) (len : InstrLen) (w : InstrBits) (row : OpcodeRow) (fl : Fields),
    blankWord len w = false → cfg.rowFor len w = some row →
    fl = fieldsOf cfg.fieldOrder row.format w →
    let scalar := row.scalarForm cfg fl
    let scalarData := ∃ p ∈ row.operands, p.2.resolve fl.md scalar = .sgprb ∧ p.1 ∉ row.bases
    let modes : Prop :=
      (∃ m ∈ row.modules, cfg.has m = false)
        ∨ (row.mdClass ≠ .ignored ∧ row.mdClass ≠ .d ∧ fl.md ∉ row.mdUsed)
        ∨ (row.mdClass = .e ∧ fl.md = 3)
        ∨ (row.format = .threeRIB ∧ fl.vm = 3)
        ∨ (∃ l, row.vmUsed = some l ∧ fl.vm ∉ l)
        ∨ (row.mdClass = .c ∧ Bank.byMd.count cfg fl.md scalar = 0)
        ∨ (row.mdClass = .f ∧ cfg.has .fnc = false)
        ∨ (scalar = true ∧ ∀ p ∈ row.operands, p.2 ≠ .byVm)
        ∨ (cfg.has .vf = false ∧ ((∃ inverted, row.masking cfg fl = .ok (some inverted))
            ∨ row.masking cfg fl = .error .maskConflict))
    let registers : Prop :=
      (∃ p ∈ row.operands, p.2.count cfg fl.md scalar ≤ (fl.reg p.1).toNat)
        ∨ (row.mdClass = .b ∧ ∃ p ∈ row.operands, p.1 ∉ row.bases
            ∧ (p.2.resolve fl.md scalar).bytes cfg < 2 ^ fl.md.toNat)
        ∨ (∃ ps p log, row.sem = .prims ps ∧ p ∈ ps ∧ p.accessSize = some (.bytes log)
            ∧ cfg.wbytes < 2 ^ log.val ∧ scalarData)
        ∨ (∃ ps p extent align, row.sem = .prims ps ∧ p ∈ ps
            ∧ p.accessSize = some (.vector extent align)
            ∧ (cfg.mxvl = 0 ∨ ∃ log : Fin 7, extent = .part log ∧ cfg.mxvl / 8 < 2 ^ log.val))
        ∨ (∃ ps, row.sem = .prims ps ∧ flows cfg row fl ps = false)
        ∨ (row.mdClass = .b ∧ ∃ ps b, row.sem = .prims ps ∧ .writeAt b ∈ ps ∧ b.bytes cfg < 2 ^ fl.md.toNat)
        ∨ (row.mdClass = .b ∧ ∃ ps f, row.sem = .prims ps ∧ .writeReg f ∈ ps
            ∧ (f ∉ row.bases ∨ ∀ p ∈ ps, p.accessSize = none)
            ∧ (row.bankOf fl.md scalar f).bytes cfg < 2 ^ fl.md.toNat)
        ∨ (row.mdClass = .b ∧ ∃ pre post b b' n,
            row.sem = .prims (pre ++ .readAt b :: .const n :: .writeAt b' :: post)
            ∧ 0 < b.bytes cfg ∧ b.bytes cfg < 2 ^ fl.md.toNat)
        ∨ (row.mdClass = .b ∧ ∃ pre post f f', row.sem = .prims (pre ++ .readReg f :: .writeReg f' :: post)
            ∧ f' ≠ f ∧ 0 < (row.bankOf fl.md scalar f).bytes cfg
            ∧ (row.bankOf fl.md scalar f).bytes cfg < 2 ^ fl.md.toNat)
        ∨ (row.mdClass = .b ∧ ∃ pre post f q, row.sem = .prims (pre ++ .readReg f :: q :: post)
            ∧ (q = .branch ∨ q = .select ∨ (∃ g, q = .raiseFlag g) ∨ ∃ size, q = .loadIf size ∨ q = .storeIf size)
            ∧ 0 < (row.bankOf fl.md scalar f).bytes cfg
            ∧ (row.bankOf fl.md scalar f).bytes cfg < 2 ^ fl.md.toNat)
        ∨ (∃ pre post size f, row.sem = .prims (pre ++ .load size :: .writeReg f :: post)
            ∧ (row.bankOf fl.md scalar f).bytes cfg < size.widest cfg fl.md)
        ∨ (∃ pre post size b n, row.sem = .prims (pre ++ .load size :: .const n :: .writeAt b :: post)
            ∧ b.bytes cfg < size.widest cfg fl.md)
    (modes → decode cfg len w = .incompatible)
    ∧ (¬modes → row.mdClass = .g → fl.md ≠ 0 → decode cfg len w = .refused .bankWindow)
    ∧ (¬modes → row.mdClass ≠ .g ∨ fl.md = 0 →
      (row.format = .fourRB → (∀ p ∈ cfg.vm6, p.1 ≠ fl.vm) → decode cfg len w = .refused .vectorMode)
      ∧ (∀ v m, row.vmMasking cfg fl = .ok (some v) → row.mdMasking fl = some m → v ≠ m →
        decode cfg len w = .refused .maskConflict)
      ∧ (∀ inverted, row.masking cfg fl = .ok (some inverted) → row.maskReg = none →
        decode cfg len w = .refused .maskRegister)
      ∧ ∀ mask, (row.masking cfg fl = .ok none ∧ mask = .unmasked)
          ∨ (∃ inverted m, row.masking cfg fl = .ok (some inverted) ∧ row.maskReg = some m
            ∧ mask = .masked m inverted) →
        (registers → decode cfg len w = .incompatible)
        ∧ (¬registers → decode cfg len w = .instr ⟨row, fl, mask, scalar⟩))
    ∧ (row.supported cfg fl = true ↔ ¬modes ∧ ¬registers)
    ∧ (let code := fun n : Nat => if n = 1 then some false else if n = 2 then some true else none
      let e := if row.mdClass = .e then code fl.md.toNat else none
      ∀ v, (row.format ∉ [Format.fourRB, .threeRIB] ∧ v = none)
          ∨ (row.format = .threeRIB ∧ v = code fl.vm.toNat)
          ∨ (row.format = .fourRB ∧ ∃ m, row.vmMode cfg fl = some m
            ∧ v = if m = .vv ∨ m = .vs then none else some (decide (m = .imvv ∨ m = .imvs))) →
        (v = none → row.masking cfg fl = .ok e) ∧ (e = none → row.masking cfg fl = .ok v)
          ∧ ∀ x y, v = some x → e = some y →
            row.masking cfg fl = if x = y then .ok (some x) else .error .maskConflict)

/-! ### The Status Register and the special purpose registers -/

/-- Under the default SR_LAYOUT the 32 bits and the fields of a status word determine each other
(10_state.md R79; decision D3). -/
def Obligations.StatusWordRoundTrip : Prop :=
  (∀ r : StatusReg, StatusReg.unpack {} (r.pack {}) = r)
    ∧ ∀ v : BitVec 32, (StatusReg.unpack {} v).pack {} = v

/-- A user-mode write of SR changes unprivileged fields only: IM, PMOD, WDTE, PWRS and HLTS keep their
value, and it raises no event (10_state.md R91; decision D18); reading SR in user mode gives all
fields. -/
def Obligations.UserWriteOfStatusKeepsPrivilegedFields : Prop :=
  ∀ (s : State) (v : Nat), s.StatusFits →
    let new := StatusReg.unpack s.cfg.srLayout (BitVec.ofNat 32 v)
    s.readSpr .user .sr = .ok (s.sr.pack s.cfg.srLayout).toNat ∧
    ∃ t, s.writeSpr .user .sr v = .ok t
      ∧ t.sr.im = s.sr.im ∧ t.sr.pmod = s.sr.pmod ∧ t.sr.wdte = s.sr.wdte
      ∧ t.sr.pwrs = s.sr.pwrs ∧ t.sr.hlts = s.sr.hlts
      ∧ t.sr.rmd = (if s.cfg.has .frmd then new.rmd else 0)
      ∧ t.sr.tnd = (if s.cfg.has .tm then new.tnd else 0)
      ∧ t.sr.cmd = (if s.cfg.has .fnc then new.cmd else 0)
      ∧ t.sr.gee = (if s.cfg.has .exc then new.gee else 0)
      ∧ t.sr.hlpre = (if s.cfg.has .hlpr then new.hlpre else 0)
      ∧ t.sr.perfce = (if s.cfg.has .perfc then new.perfce else 0)
      ∧ t.sr.cntu = (if s.cfg.has .perfc then new.cntu else 0)

/-- Access to a special purpose register: a privileged one in user mode raises ILLI, one the hart lacks
INCI, a write of an illegal shape to VSH ILLI, and every other access is permitted; so no read in machine
mode of a present register raises anything. PC, SR and the machine event registers always exist, every
other one with its modules (10_state.md R45 to R76, 60_exceptions.md R252; decision D32; logs 10, 17,
33). -/
def Obligations.SpecialRegisterPrivilege : Prop :=
  ∀ (s : State) (mode : Mode) (r : Spr) (v : Nat),
    (sprPresent s.cfg r = false →
      s.readSpr mode r = .error .inci ∧ s.writeSpr mode r v = .error .inci)
    ∧ (sprPresent s.cfg r = true → mode = .user → sprPrivileged r = true →
      s.readSpr mode r = .error .illi ∧ s.writeSpr mode r v = .error .illi)
    ∧ (sprPresent s.cfg r = true → ¬(mode = .user ∧ sprPrivileged r = true) →
      s.readSpr mode r = .ok (s.sprValue r)
      ∧ (if r = .vsh ∧ BitVec.ofNat 8 v ∈ s.cfg.vshIllegal then s.writeSpr mode r v = .error .illi
        else s.writeSpr mode r v = .ok (s.setSpr mode r v)))
    ∧ (sprPrivileged r = true ↔ r ∈ [Spr.mepc, .mesr, .mec, .med, .mehp, .met0, .met1, .pfpa,
        .sgprbu, .vgprbu, .hlprbu, .perfcbu, .pid, .tid, .hpid, .tptr, .wdt])
    ∧ (sprPresent s.cfg r = true ↔
      r ∈ [Spr.pc, .sr, .mepc, .mesr, .mec, .med, .mehp, .met0, .met1]
        ∨ (r = .vsh ∧ s.cfg.has .vc = true)
        ∨ (r ∈ [Spr.vm1, .vm2, .vm3] ∧ s.cfg.has .vf = true)
        ∨ (r ∈ [Spr.uepc, .uesr, .uec, .ued, .uehp, .uet0, .uet1, .pfpa, .pid, .tid, .hpid, .tptr, .wdt]
          ∧ s.cfg.has .user = true)
        ∨ (s.cfg.has .user = true ∧ s.cfg.has .ctxr = true
          ∧ (r = .sgprbu ∨ (r = .vgprbu ∧ s.cfg.mxvl ≠ 0) ∨ (r = .hlprbu ∧ s.cfg.has .hlpr = true)
            ∨ (r = .perfcbu ∧ s.cfg.has .perfc = true))))

/-- A written special purpose register reads as what was written, cut to its width, and no other one
changes. MESR, and UESR in machine mode, hold all 32 bits written; UESR in user mode takes the
unprivileged fields; SR in machine mode takes all fields that exist. PC is written when the instruction
completes; for SR in user mode see `UserWriteOfStatusKeepsPrivilegedFields` (10_state.md R47 to R76, R78,
R91; decisions D3, D25, D31; log 18). -/
def Obligations.SpecialRegisterWriteReadsBack : Prop :=
  ∀ (s t : State) (mode : Mode) (r : Spr) (v : Nat), s.writeSpr mode r v = .ok t →
    (∀ q, q ≠ r → t.sprValue q = s.sprValue q)
    ∧ (r ∈ [Spr.uepc, .ued, .uehp, .uet0, .uet1, .mepc, .med, .mehp, .met0, .met1, .pfpa, .tptr] →
        t.sprValue r = v % 2 ^ s.cfg.wlen)
    ∧ (r ∈ [Spr.uec, .mec] → t.sprValue r = v % 2 ^ 16)
    ∧ (r ∈ [Spr.pid, .tid, .hpid, .wdt] → t.sprValue r = v % 2 ^ 32)
    ∧ (r = .vsh → t.sprValue r = v % 2 ^ 8)
    ∧ (r ∈ [Spr.vm1, .vm2, .vm3] → t.sprValue r = v % 2 ^ (s.cfg.mxvl / 8))
    ∧ (r = .sgprbu → t.sprValue r = v % 2 ^ s.cfg.srfs)
    ∧ (r = .vgprbu → t.sprValue r = v % 2 ^ s.cfg.vrfs)
    ∧ (r = .hlprbu → t.sprValue r = v % 2 ^ s.cfg.hrfs)
    ∧ (r = .perfcbu → t.sprValue r = v % 2 ^ s.cfg.crfs)
    ∧ (let new := StatusReg.unpack s.cfg.srLayout (BitVec.ofNat 32 v)
      (r = .mesr → t.m.esr = new)
      ∧ (r = .uesr → mode = .machine → t.u.esr = new)
      ∧ (r = .uesr → mode = .user → t.u.esr = s.u.esr.withUnprivileged new)
      ∧ (r = .sr → mode = .machine → t.sr = new.present s.cfg)
      ∧ (s.cfg.srLayout = {} → r = .mesr ∨ (r = .uesr ∧ mode = .machine) →
          t.sprValue r = v % 2 ^ 32))

/-- A write of a bank's register, or of its mode, writes that register, cut to its width, and no other,
and no other bank; with USER and CTXR it sets the usage bit of a register the bank has and clears none,
under a mask too, and else no usage bit changes (10_state.md R30, R40, R67 to R71; decision D25; log 36). -/
def Obligations.BankWriteSetsUsage : Prop :=
  ∀ (s : State) (i v j : Nat) (m : MaskUse),
    ((i < s.x.length → (s.writeX i v).x[i]? = some (s.cfg.word v))
      ∧ (j ≠ i → (s.writeX i v).x[j]? = s.x[j]?))
    ∧ ((i < s.vr.length → (s.writeV .unmasked i v).vr[i]? = some (s.cfg.vword v))
      ∧ (j ≠ i → (s.writeV m i v).vr[j]? = s.vr[j]?))
    ∧ ((i < s.h.length →
          ((s.writeHelperVal i v).h[i]?).map (·.val) = some (s.cfg.word v)
          ∧ ((s.writeHelperVal i v).h[i]?).map (·.mode) = (s.h[i]?).map (·.mode)
          ∧ ((s.writeHelperMode i v).h[i]?).map (·.mode) = some (BitVec.ofNat 8 v)
          ∧ ((s.writeHelperMode i v).h[i]?).map (·.val) = (s.h[i]?).map (·.val))
      ∧ (j ≠ i → (s.writeHelperVal i v).h[j]? = s.h[j]? ∧ (s.writeHelperMode i v).h[j]? = s.h[j]?))
    ∧ ((i < s.c.length →
          ((s.writeCounterVal i v).c[i]?).map (·.val) = some (s.cfg.counter v)
          ∧ ((s.writeCounterVal i v).c[i]?).map (·.mode) = (s.c[i]?).map (·.mode)
          ∧ ((s.writeCounterMode i v).c[i]?).map (·.mode) = some (BitVec.ofNat 8 v)
          ∧ ((s.writeCounterMode i v).c[i]?).map (·.val) = (s.c[i]?).map (·.val))
      ∧ (j ≠ i →
          (s.writeCounterVal i v).c[j]? = s.c[j]? ∧ (s.writeCounterMode i v).c[j]? = s.c[j]?))
    ∧ (s.writeX i v = { s with x := (s.writeX i v).x, usage := (s.writeX i v).usage }
      ∧ s.writeV m i v = { s with vr := (s.writeV m i v).vr, usage := (s.writeV m i v).usage }
      ∧ ∀ t ∈ [s.writeHelperVal i v, s.writeHelperMode i v], t = { s with h := t.h, usage := t.usage })
    ∧ (∀ t ∈ [s.writeCounterVal i v, s.writeCounterMode i v], t = { s with c := t.c, usage := t.usage })
    ∧ (j < 32 →
        let set := fun (n : Nat) (u : BitVec 32) =>
          u.getLsbD j || (s.cfg.has .user && s.cfg.has .ctxr && decide (i < n) && j == i)
        (s.writeX i v).usage.sgprb.getLsbD j = set s.cfg.srfs s.usage.sgprb
        ∧ (s.writeV m i v).usage.vgprb.getLsbD j = set s.cfg.vrfs s.usage.vgprb
        ∧ (s.writeHelperVal i v).usage.hlprb.getLsbD j = set s.cfg.hrfs s.usage.hlprb
        ∧ (s.writeHelperMode i v).usage.hlprb.getLsbD j = set s.cfg.hrfs s.usage.hlprb
        ∧ (s.writeCounterVal i v).usage.perfcb.getLsbD j = set s.cfg.crfs s.usage.perfcb
        ∧ (s.writeCounterMode i v).usage.perfcb.getLsbD j = set s.cfg.crfs s.usage.perfcb)
    ∧ ((s.writeX i v).usage = { s.usage with sgprb := (s.writeX i v).usage.sgprb }
      ∧ (s.writeV m i v).usage = { s.usage with vgprb := (s.writeV m i v).usage.vgprb }
      ∧ (∀ t ∈ [s.writeHelperVal i v, s.writeHelperMode i v],
          t.usage = { s.usage with hlprb := t.usage.hlprb })
      ∧ ∀ t ∈ [s.writeCounterVal i v, s.writeCounterMode i v],
          t.usage = { s.usage with perfcb := t.usage.perfcb })

/-- Under a mask, byte k of a vector destination takes the new value where mask bit k is 1 (inverted: 0)
and keeps the old one elsewhere, so a write of a vector register under a mask leaves those bytes of it
(10_state.md R29, 30_encoding.md R152; decision D31; logs 30, 44). -/
def Obligations.MaskedVectorWriteKeepsOtherBytes : Prop :=
  ∀ (s : State) (r : MaskReg) (inverted : Bool),
    (∀ (old new : VWord) (j : Nat), j < 512 →
      (s.masked (.masked r inverted) old new).getLsbD j
        = if (s.maskValue r).getLsbD (j / 8) = !inverted then new.getLsbD j else old.getLsbD j)
    ∧ ∀ (i v : Nat) (old : VWord), s.vr[i]? = some old →
      ∃ new, (s.writeV (.masked r inverted) i v).vr[i]? = some new
        ∧ ∀ j, j < 512 → new.getLsbD j
          = if (s.maskValue r).getLsbD (j / 8) = !inverted then (s.cfg.vword v).getLsbD j
            else old.getLsbD j

/-! ### Taking an event -/

/-- The privileged launching sequence, step by step: with the machine level's critical state unsaved it
sets HLTS to 2 and stops; otherwise it saves PC and SR, sets the SR fields, cause and data, and goes to
MEHP; nothing else changes (60_exceptions.md R236). -/
def Obligations.PrivilegedLaunchingSequence : Prop :=
  ∀ (s : State) (cause : BitVec 16) (data : Option Word),
    (s.criticalUnsaved .machine = true →
      s.launchMachine cause data = { s with sr := { s.sr with hlts := 2 } })
    ∧ (s.criticalUnsaved .machine = false →
      s.TrappedMachine (s.launchMachine cause data) cause data)

/-- The unprivileged launching sequence, step by step: with the user level's critical state unsaved it
sets HLTS to 2 and stops; otherwise it saves PC and SR, sets the SR fields, cause and data, and goes to
UEHP; PMOD, WDTE, IM and all else keep their value (60_exceptions.md R237). -/
def Obligations.UnprivilegedLaunchingSequence : Prop :=
  ∀ (s : State) (cause : BitVec 16) (data : Option Word),
    (s.criticalUnsaved .user = true →
      s.launchUser cause data = { s with sr := { s.sr with hlts := 2 } })
    ∧ (s.criticalUnsaved .user = false → s.TrappedUser (s.launchUser cause data) cause data)

/-- The sequence an event is delivered by, and the double event: an event whose level's critical state is
unsaved halts the hart with HLTS 2 and changes nothing else; the other level's unsaved state is no
obstacle: a promoting event in user mode is judged by the machine level alone. The default test is the
identifier of the level's cause register (60_exceptions.md R234, R240, R241; decisions D4, D5). -/
def Obligations.DoubleEventHaltsTheHart : Prop :=
  ∀ (s : State) (e : Event),
    ((promoting (e.name.kind s.cfg) = true ∨ s.mode = .machine) →
      s.deliver e = s.launchMachine e.cause e.data
      ∧ (s.cfg.criticalTest = .causeNonzero → causeId s.m.ec ≠ 0 →
        s.deliver e = { s with sr := { s.sr with hlts := 2 } })
      ∧ (s.cfg.criticalTest = .causeNonzero → causeId s.m.ec = 0 →
        s.TrappedMachine (s.deliver e) e.cause e.data))
    ∧ (promoting (e.name.kind s.cfg) = false → s.mode = .user →
      s.deliver e = s.launchUser e.cause e.data
      ∧ (s.cfg.criticalTest = .causeNonzero → causeId s.u.ec ≠ 0 →
        s.deliver e = { s with sr := { s.sr with hlts := 2 } })
      ∧ (s.cfg.criticalTest = .causeNonzero → causeId s.u.ec = 0 →
        s.TrappedUser (s.deliver e) e.cause e.data))

/-- Which events promote: a fault, an IO or an IPC interrupt leaves a hart it does not halt (a double
event, R236, R240, R241) in machine mode; an exception leaves the mode as it was. TQE is an IPC interrupt.
Without USER the only mode is machine mode (60_exceptions.md R230). -/
def Obligations.EventRouting : Prop :=
  ∀ (s : State) (e : Event),
    (e.name.kind s.cfg ∈ [EventKind.fault, .ioInterrupt, .ipcInterrupt] →
      s.criticalUnsaved .machine = false → (s.deliver e).mode = .machine)
    ∧ (e.name.kind s.cfg = .exception → (s.deliver e).mode = s.mode)
    ∧ EventName.kind s.cfg .tqe = .ipcInterrupt
    ∧ (s.cfg.has .user = false → s.mode = .machine ∧ (s.deliver e).mode = .machine)

/-- The rows of the interrupts: IOINT_k has code 17 + k, GP 1, LP k; IPCINT_k has code 49 + k, GP 2,
LP k + 1; and their cause is the code alone, without extra information (60_exceptions.md R224, R225). -/
def Obligations.InterruptEventRows : Prop :=
  ∀ (cfg : Config) (k : Fin 32),
    ((EventName.ioint k).code.toNat = 17 + k.val ∧ (EventName.ioint k).gp cfg = some 1
      ∧ (EventName.ioint k).lp cfg = some k.val ∧ (EventName.ioint k).kind cfg = .ioInterrupt
      ∧ (EventName.ioint k).module = some .ioint
      ∧ (Event.cause { name := .ioint k }).toNat = 17 + k.val)
    ∧ (EventName.ipcint k).code.toNat = 49 + k.val ∧ (EventName.ipcint k).gp cfg = some 2
      ∧ (EventName.ipcint k).lp cfg = some (k.val + 1)
      ∧ (EventName.ipcint k).kind cfg = .ipcInterrupt
      ∧ (EventName.ipcint k).module = some .ipcint
      ∧ (Event.cause { name := .ipcint k }).toNat = 49 + k.val

/-! ### The five instructions -/

/-- HLT in machine mode sets HLTS to 1 and nothing else but the counters of retired instructions: PC
stays at the instruction, pending events stay pending, and the hart, in a legal configuration, never
moves again (40_event_return_and_system.md R181; decisions D17, D18; log 15). That it stays so also where TND
is not 0, which R95 and U20 refuse in any step, or where it holds a mode or an event that U3, U5 and U8
refuse, is the model's choice (`State.cycle`, log 16). -/
def Obligations.HltHaltsTheHart : Prop :=
  ∀ s : State, s.mode = .machine →
    ∃ t, exec .hlt s = .next t ∧ t.sr = { s.sr with hlts := 1 } ∧ t.pc = s.pc
      ∧ t.m = s.m ∧ t.u = s.u ∧ s.CountedOnce t ∧ s.SameElsewhere t
      ∧ (s.cfg.problem = none → step t = .next t)

/-- ERET in machine mode: SR from MESR (absent fields stay 0), PC from MEPC; with an identifier in MEC
the privileged launching sequence runs again at once. MEC, MED and the user registers keep their value.
Where the restored status is that of a transaction and an identifier is there, the run is refused
(40_event_return_and_system.md R182, 60_exceptions.md R247, R248; decisions D34, D39; logs 15, 19, 38). -/
def Obligations.EretReturns : Prop :=
  ∀ s : State, s.mode = .machine →
    ((s.m.esr.present s.cfg).tnd ≠ 0 → causeId s.m.ec ≠ 0 → exec .eret s = .refused .transactional)
    ∧ ((s.m.esr.present s.cfg).tnd = 0 ∨ causeId s.m.ec = 0 → ∃ t, exec .eret s = .next t
      ∧ (if causeId s.m.ec = 0 then
          t.sr = s.m.esr.present s.cfg ∧ t.pc = s.m.epc ∧ t.m.epc = s.m.epc ∧ t.m.esr = s.m.esr
        else
          t.sr = (s.m.esr.present s.cfg).promoted s.cfg ∧ t.pc = s.m.ehp ∧ t.m.epc = s.m.epc
            ∧ t.m.esr = s.m.esr.present s.cfg)
      ∧ t.m.ec = s.m.ec ∧ t.m.ed = s.m.ed ∧ t.m.ehp = s.m.ehp ∧ t.m.et0 = s.m.et0
      ∧ t.m.et1 = s.m.et1 ∧ t.u = s.u ∧ s.CountedOnce t ∧ s.SameElsewhere t)

/-- UERET with USER, in either mode: the unprivileged fields of SR from UESR, the privileged ones kept,
PC from UEPC; with an identifier in UEC the unprivileged launching sequence runs again at once. Where the
restored status is that of a transaction and an identifier is there, the run is refused
(40_event_return_and_system.md R183, 60_exceptions.md R247, R248; decisions D34, D39; logs 15, 38). -/
def Obligations.UeretReturns : Prop :=
  ∀ s : State, s.cfg.has .user = true →
    ((s.u.esr.present s.cfg).tnd ≠ 0 → causeId s.u.ec ≠ 0 → exec .ueret s = .refused .transactional)
    ∧ ((s.u.esr.present s.cfg).tnd = 0 ∨ causeId s.u.ec = 0 → ∃ t, exec .ueret s = .next t
      ∧ (if causeId s.u.ec = 0 then
          t.sr = (s.sr.withUnprivileged s.u.esr).present s.cfg ∧ t.pc = s.u.epc
            ∧ t.u.epc = s.u.epc ∧ t.u.esr = s.u.esr
        else
          t.sr = ((s.sr.withUnprivileged s.u.esr).present s.cfg).quiet s.cfg ∧ t.pc = s.u.ehp
            ∧ t.u.epc = s.u.epc
            ∧ t.u.esr = (s.sr.withUnprivileged s.u.esr).present s.cfg)
      ∧ t.mode = s.mode
      ∧ t.u.ec = s.u.ec ∧ t.u.ed = s.u.ed ∧ t.u.ehp = s.u.ehp ∧ t.u.et0 = s.u.et0
      ∧ t.u.et1 = s.u.et1 ∧ t.m = s.m ∧ s.CountedOnce t ∧ s.SameElsewhere t)

/-- URET in machine mode with USER: SR from UESR with PMOD and WDTE 1, PC from UEPC, so the hart is in
user mode; with an identifier in UEC the unprivileged launching sequence runs at once. Where the
restored status is that of a transaction and an identifier is there, the run is refused
(40_event_return_and_system.md R184, 60_exceptions.md R247, R248; decisions D34, D39; logs 15, 19, 38). -/
def Obligations.UretDemotes : Prop :=
  ∀ s : State, s.cfg.has .user = true → s.mode = .machine →
    ((s.u.esr.present s.cfg).tnd ≠ 0 → causeId s.u.ec ≠ 0 → exec .uret s = .refused .transactional)
    ∧ ((s.u.esr.present s.cfg).tnd = 0 ∨ causeId s.u.ec = 0 → ∃ t, exec .uret s = .next t
      ∧ (if causeId s.u.ec = 0 then
          t.sr = { s.u.esr.present s.cfg with pmod := 1, wdte := 1 } ∧ t.pc = s.u.epc
            ∧ t.u.epc = s.u.epc ∧ t.u.esr = s.u.esr
        else
          t.sr = StatusReg.quiet s.cfg { s.u.esr.present s.cfg with pmod := 1, wdte := 1 }
            ∧ t.pc = s.u.ehp ∧ t.u.epc = s.u.epc
            ∧ t.u.esr = { s.u.esr.present s.cfg with pmod := 1, wdte := 1 })
      ∧ t.mode = .user
      ∧ t.u.ec = s.u.ec ∧ t.u.ed = s.u.ed ∧ t.u.ehp = s.u.ehp ∧ t.u.et0 = s.u.et0
      ∧ t.u.et1 = s.u.et1 ∧ t.m = s.m ∧ s.CountedOnce t ∧ s.SameElsewhere t)

/-- The system call with USER, in either mode, when the machine level's critical state is saved: the
privileged launching sequence with cause 84, MEPC its own address, MED unchanged
(40_event_return_and_system.md R185; decision D38). -/
def Obligations.SyscallTraps : Prop :=
  ∀ s : State, s.cfg.has .user = true → s.criticalUnsaved .machine = false →
    ∃ t, exec .syscall s = .next t ∧ s.TrappedMachine t 0x0054 none ∧ t.mode = .machine

/-- The system call, or any fault of the five instructions, inside a machine handler whose critical state
is unsaved is a double event: HLTS becomes 2 and nothing else changes. The faults are: HLT, ERET and URET
in user mode; UERET, URET and the system call without USER; the system call itself
(40_event_return_and_system.md R181 to R186, 60_exceptions.md R240; decisions D18, D33, D38; log 17). -/
def Obligations.SyscallInUnsavedHandlerHalts : Prop :=
  ∀ (i : Instr) (s : State),
    (coreFaults s i = true ↔
      (s.mode = .user ∧ i ∈ [Instr.hlt, .eret, .uret])
        ∨ (s.cfg.has .user = false ∧ i ∈ [Instr.ueret, .uret, .syscall]) ∨ i = .syscall)
    ∧ (coreFaults s i = true → s.criticalUnsaved .machine = true →
      exec i s = .next { s with sr := { s.sr with hlts := 2 } })

/-- HLT, ERET and URET in user mode have no effect of their own: they raise ILLI, cause 3
(40_event_return_and_system.md R186; decision D18). -/
def Obligations.PrivilegedInstructionsTrapInUserMode : Prop :=
  ∀ (i : Instr) (s : State), i ∈ [Instr.hlt, .eret, .uret] → s.mode = .user →
    s.criticalUnsaved .machine = false →
    ∃ t, exec i s = .next t ∧ s.TrappedMachine t 0x0003 none ∧ t.mode = .machine

/-- UERET, URET and the system call on a hart without USER raise INCI, cause 2
(40_event_return_and_system.md R183 to R185, 30_encoding.md R161; decisions D33, D38; log 17). -/
def Obligations.UserInstructionsNeedUser : Prop :=
  ∀ (i : Instr) (s : State), i ∈ [Instr.ueret, .uret, .syscall] → s.cfg.has .user = false →
    s.criticalUnsaved .machine = false →
    ∃ t, exec i s = .next t ∧ s.TrappedMachine t 0x0002 none

/-- What none of the five instructions changes, whatever it does: the scalar, vector and helper
registers, masks, shape, usage registers, identifiers, watchdog, queue and every byte of memory; of the
counters only those that count instructions; of the event registers never the handler pointers and
temporaries. -/
def Obligations.CoreInstructionFrame : Prop :=
  ∀ (i : Instr) (s t : State), exec i s = .next t →
    s.SameElsewhere t ∧ t.c.length = s.c.length
      ∧ (∀ (j : Nat) (r : CounterReg), s.c[j]? = some r → countsOf s.cfg r.mode ≠ .instructions →
          t.c[j]? = some r)
      ∧ t.m.ehp = s.m.ehp ∧ t.m.et0 = s.m.et0 ∧ t.m.et1 = s.m.et1
      ∧ t.u.ehp = s.u.ehp ∧ t.u.et0 = s.u.et0 ∧ t.u.et1 = s.u.et1

/-! ### Steps -/

/-- A step of a running hart with no event to take at the boundary, whose fetch gives a word that
decodes to one of the five instructions and fires no helper register, is that instruction's meaning at
the state of the boundary, after which the writes of other agents that raced it land (log 39); with
none, the meaning alone. Where the word decodes to a supplied instruction the step runs its primitives
after the helper registers that fired at the fetch, and an instruction group without a meaning is refused
by name (41_referenced_instruction_groups.md R200; U23; log 30). -/
def Obligations.StepRunsTheDecodedInstruction : Prop :=
  ∀ (s b : State) (len : InstrLen) (w : InstrBits) (d : Decoded),
    s.Runs → s.boundary = .ok b → b.nextEvent = none → b.fetch = .ok (len, w) →
    decode b.cfg len w = .instr d →
    (∀ i, d.row.sem = .core i → b.accessTriggers .fetch b.pc len.bytes = [] →
      step s = settled (exec i b) ∧ (b.racing = [] → step s = exec i b))
    ∧ (∀ ps, d.row.sem = .prims ps →
      step s = settled (b.runSupplied d len (b.accessTriggers .fetch b.pc len.bytes) ps))
    ∧ ∀ g, d.row.sem = .group g → step s = .refused (.undefinedGroup g)

/-- Where the bytes of a well-formed instruction stand at an aligned PC, no input is due, nothing races, no
event is pending and no helper register watches the fetch, a step runs that instruction at the state where
time has passed for the counters that count it. That each of those takes a free value at the step
(`passTime`), that inputs come in a schedule, and that the bytes stand as loaded ones are the model's
choices (logs 6, 5, 8: 10_state.md R42 and 60_exceptions.md R267 give such a counter no value). -/
def Obligations.PlacedInstructionRuns : Prop :=
  ∀ (s : State) (i : Instr) (bs : List Byte),
    s.Runs → s.inputs = [] → s.racing = [] → s.nextEvent = none → s.pc.toNat % s.cfg.ialign = 0 →
    i.wellFormed s.cfg = true → encodeBytes s.cfg i = some bs → s.Holds 0 bs →
    s.accessTriggers .fetch s.pc bs.length = [] → step s = exec i s.passTime

/-- A halted hart does nothing: in a legal configuration, with HLTS 1 or 2, a step leaves the whole state
as it is, its coming inputs included (60_exceptions.md R258; decision D17; log 16). That this holds also where
TND is not 0, which R95 and U20 refuse in any step, or where a mode or an event is held that U3, U5 and U8
refuse, is the model's choice (`State.cycle`, log 16). -/
def Obligations.HaltedHartStaysHalted : Prop :=
  ∀ s : State, s.cfg.problem = none → (s.sr.hlts = 1 ∨ s.sr.hlts = 2) → step s = .next s

/-- A step is refused by name in an illegal configuration, with HLTS 3 to 7, and, of a hart that is not
halted, in transactional mode, with an event in the queue that does not exist on this hart, with a reserved
mode in an enabled helper register or in a counter of an enabled bank (93_implementation_defined.md U1, U2,
U16, U20, U8, U5, U3; logs 13, 27). That a halted hart is not asked these is the model's choice (log 16). -/
def Obligations.UnsupportedStatesAreRefused : Prop :=
  ∀ s : State,
    let unknown := fun e : Event => e ∈ s.queue ∧ e.name.defined s.cfg = false
    let badHelper := fun i => ∃ r, s.h[i]? = some r ∧ s.helperEnabled i = true ∧ 25 ≤ r.mode.toNat
      ∧ r.mode.toNat ≤ 127
    let badCounter := fun i => ∃ r, s.c[i]? = some r ∧ s.counting = true ∧ 16 ≤ r.mode.toNat
      ∧ r.mode.toNat ≤ 127
    (∀ p, s.cfg.problem = some p → step s = .refused (.configuration p))
    ∧ (s.cfg.problem = none → 3 ≤ s.sr.hlts.toNat → step s = .refused (.haltState s.sr.hlts))
    ∧ (s.cfg.problem = none → s.sr.hlts = 0 → s.sr.tnd ≠ 0 → step s = .refused .transactional)
    ∧ (s.cfg.problem = none → s.sr.hlts = 0 → s.sr.tnd = 0 →
        ((∃ e, unknown e) →
          ∃ e, unknown e ∧ step s = .refused (.undefinedEvent e.name.code))
        ∧ ((∀ e, ¬unknown e) → (∃ i, badHelper i) →
          ∃ i, badHelper i ∧ step s = .refused (.helperMode i))
        ∧ ((∀ e, ¬unknown e) → (∀ i, ¬badHelper i) → (∃ i, badCounter i) →
          ∃ i, badCounter i ∧ step s = .refused (.counterMode i)))

/-- With no event to take, a PC that is no multiple of IALIGN raises MISI before any byte is read: even
where a fetch there would be stale or has no memory (20_memory.md R107; decision D10; log 37). -/
def Obligations.MisalignedPcRaisesMisi : Prop :=
  ∀ s b : State, s.Runs → s.boundary = .ok b → b.nextEvent = none →
    b.pc.toNat % b.cfg.ialign ≠ 0 → b.criticalUnsaved .machine = false →
    ∃ t, step s = .next t.settleAll ∧ b.TrappedMachine t 0x0001 none

/-- A fetch whose byte k does not translate, be it of the first parcel or of a later one, raises PFLT or
ILLA with MED the untranslated address of that byte and MEPC the instruction's first byte (20_memory.md
R118, 60_exceptions.md R226, 70_reset_and_hazards.md R308; decision D40; log 24). -/
def Obligations.FetchFaultsCarryTheAddress : Prop :=
  ∀ (s b : State) (k : Nat), s.Runs → s.boundary = .ok b → b.nextEvent = none →
    b.pc.toNat % b.cfg.ialign = 0 → b.criticalUnsaved .machine = false →
    (k < 2 ∨ ∃ b0 b1, b.fetchBytes 0 2 = .ok [b0, b1]
      ∧ k < (b.cfg.lengthOf.apply (parcelOf b.cfg.endian b0 b1)).bytes) →
    (∀ j, j < k → ∃ p, b.translate (b.addrAt b.pc j) .fetch = .to p) →
    (b.translate (b.addrAt b.pc k) .fetch = .pageFault →
      ∃ t, step s = .next t.settleAll ∧ b.TrappedMachine t 0x0052 (some (b.addrAt b.pc k)))
    ∧ (b.translate (b.addrAt b.pc k) .fetch = .illegalAddress →
      ∃ t, step s = .next t.settleAll ∧ b.TrappedMachine t 0x0053 (some (b.addrAt b.pc k)))

/-- An illegal word raises ILLI and an incompatible one INCI, whatever helper registers watch the fetch
(30_encoding.md R160, R161; 60_exceptions.md R233; decisions D6, D33; logs 20, 32). -/
def Obligations.UndecodableWordsTrap : Prop :=
  ∀ (s b : State) (len : InstrLen) (w : InstrBits),
    s.Runs → s.boundary = .ok b → b.nextEvent = none → b.fetch = .ok (len, w) →
    b.criticalUnsaved .machine = false →
    (decode b.cfg len w = .illegal →
      ∃ t, step s = .next t.settleAll ∧ b.TrappedMachine t 0x0003 none)
    ∧ (decode b.cfg len w = .incompatible →
      ∃ t, step s = .next t.settleAll ∧ b.TrappedMachine t 0x0002 none)

/-- A helper register that fires at the fetch of one of the five instructions stops it, unless the
instruction has a fault in this state, which is taken instead (see `SyscallInUnsavedHandlerHalts` for
which have). A supplied instruction it stops as well. What comes before it is: ILLI or INCI of the decode
and privilege checks; an event its primitives stop with, where that is a fault or a custom exception of a
global priority below 3 (log 28). In every other case, whether the primitives end or stop, and whatever
stop of the model or arithmetic exception they meet, the helper events of the fetch, of the data accesses
and of the flags are taken together (60_exceptions.md R233, R261, R265; 20_memory.md R109; decision D6;
logs 20, 21, 28), by the helper registers in force when the instruction began (log 36). -/
def Obligations.ExecuteTriggerLosesToFault : Prop :=
  ∀ (s b : State) (len : InstrLen) (w : InstrBits) (d : Decoded),
    s.Runs → s.boundary = .ok b → b.nextEvent = none → b.fetch = .ok (len, w) →
    decode b.cfg len w = .instr d →
    b.accessTriggers .fetch b.pc len.bytes ≠ [] →
    let fired := b.accessTriggers .fetch b.pc len.bytes
    (∀ i, d.row.sem = .core i →
      step s = settled (if coreFaults b i = true then exec i b else b.takeTriggers fired))
    ∧ ∀ ps, d.row.sem = .prims ps →
      (∀ n, b.denied d [] ps = some n → step s = settled (b.raise n))
      ∧ (b.denied d [] ps = none →
        (∀ e w', runPrims d b { s := b, fired := fired } ps = .error (.event e, w') →
          e.precedes b.cfg = true → step s = settled (.next ((b.drawn w'.s.draws).deliver e)))
        ∧ ∀ w', (runPrims d b { s := b, fired := fired } ps = .ok w'
            ∨ ∃ stop, runPrims d b { s := b, fired := fired } ps = .error (stop, w')
              ∧ ∀ e, stop = .event e → e.precedes b.cfg = false) →
          (∃ more, w'.fired = fired ++ more ∧ ∀ t ∈ more, ∃ kind a n, t ∈ b.accessTriggers kind a n)
          ∧ step s
            = settled ((b.drawn w'.s.draws).takeTriggers (w'.fired ++ b.flagTriggers w'.flags)))

/-! ### Interrupts and the watchdog -/

/-- A queued interrupt whose class IM does not mask is taken: the boundary has an event to take, it is an
unmasked interrupt from the queue, and none of the unmasked ones comes before it in ASYNC_ORDER; a running
step takes the event of its boundary, out of the queue, and runs no instruction. With both classes masked
no interrupt is taken (60_exceptions.md R233, R245, R249; decisions D7, D8; logs 22, 23). Two things here are
the model's choice, not the spec's: the place of an interrupt ASYNC_ORDER does not list, after every listed
one whatever its priorities (`asyncRank`, log 28), and that TQE or a custom interrupt is taken also on
a hart with USER and neither IOINT nor IPCINT, whose absent IM reads 0 (`State.unmasked`, log 47). -/
def Obligations.TakenInterruptIsUnmaskedAndFirst : Prop :=
  (∀ (s : State) (e' : Event), e' ∈ s.queue →
    (e'.name.kind s.cfg = .ioInterrupt ∧ s.sr.im.getLsbD 0 = false)
      ∨ (e'.name.kind s.cfg = .ipcInterrupt ∧ s.sr.im.getLsbD 1 = false) →
    ∃ e, s.nextEvent = some e ∧ s.unmasked e = true ∧ asyncRank s.cfg e ≤ asyncRank s.cfg e')
  ∧ (∀ (s : State) (e : Event), s.nextEvent = some e →
    e ∈ s.queue
    ∧ (e.name.kind s.cfg = .ioInterrupt → s.sr.im.getLsbD 0 = false)
    ∧ (e.name.kind s.cfg = .ipcInterrupt → s.sr.im.getLsbD 1 = false)
    ∧ (s.sr.im = 3 → e.name.kind s.cfg ≠ .ioInterrupt ∧ e.name.kind s.cfg ≠ .ipcInterrupt))
  ∧ ∀ (s b : State) (e : Event), s.Runs → s.boundary = .ok b → b.nextEvent = some e →
    step s = .next (State.settleAll (State.deliver { b with queue := b.queue.erase e } e))

/-- A queued interrupt whose class is masked is not lost by a step: it is still queued afterwards
(60_exceptions.md R249; decision D8; log 23). -/
def Obligations.MaskedInterruptIsNotLost : Prop :=
  ∀ (s t : State) (e : Event), step s = .next t → e ∈ s.queue →
    ((e.name.kind s.cfg = .ioInterrupt ∧ s.sr.im.getLsbD 0 = true)
      ∨ (e.name.kind s.cfg = .ipcInterrupt ∧ s.sr.im.getLsbD 1 = true)) →
    e ∈ t.queue

/-- An interrupt that arrives joins the end of a queue with room and is dropped by a full one; a line of
an absent module does not exist (60_exceptions.md R245, R246; decision D29; log 23). -/
def Obligations.ArrivingInterrupts : Prop :=
  ∀ (s : State) (k : Fin 32),
    (s.cfg.has .ioint = true → s.queue.length < s.cfg.queueDepth →
      s.receive (.io k) = .ok { s with queue := s.queue ++ [{ name := .ioint k }] })
    ∧ (s.cfg.has .ipcint = true → s.queue.length < s.cfg.queueDepth →
      s.receive (.ipc k) = .ok { s with queue := s.queue ++ [{ name := .ipcint k }] })
    ∧ (s.cfg.queueDepth ≤ s.queue.length →
      s.receive (.io k) = .ok s ∧ s.receive (.ipc k) = .ok s)
    ∧ (s.cfg.has .ioint = false → s.receive (.io k) = .ok s)
    ∧ (s.cfg.has .ipcint = false → s.receive (.ipc k) = .ok s)

/-- A WDT_TICK: with USER, WDTE 1 and WDT not 0 the counter counts down, and TQE is posted exactly when
it reaches 0; otherwise nothing happens. It comes with every clock cycle that is the WDT_TICK-th since the
last one, and the other cycles are counted (60_exceptions.md R256; decision D16; log 12). -/
def Obligations.WatchdogTick : Prop :=
  ∀ s : State,
    (s.cycles + 1 < s.cfg.wdtTick → s.receive .clockCycle = .ok { s with cycles := s.cycles + 1 }) ∧
    (s.cfg.wdtTick ≤ s.cycles + 1 →
      s.receive .clockCycle = .ok (State.tick { s with cycles := 0 })) ∧
    (s.cfg.has .user = true → s.sr.wdte = 1 → 1 < s.wdt.toNat →
      s.tick = { s with wdt := s.wdt - 1 })
    ∧ (s.cfg.has .user = true → s.sr.wdte = 1 → s.wdt = 1 →
      s.tick = State.post { s with wdt := 0 } { name := .tqe })
    ∧ (s.cfg.has .user = false ∨ s.sr.wdte = 0 ∨ s.wdt = 0 → s.tick = s)

/-! ### Helper registers -/

/-- When a helper register in an address mode fires: for a data access of n bytes at a that touches the
byte at its value, also past 2^WLEN (log 45), and for a fetch that starts there; and it must be enabled.
Its event is that of its mode m, code 113 + m (60_exceptions.md R228, R260, R261; decisions D14, D26). -/
def Obligations.AddressTriggers : Prop :=
  ∀ (s : State) (a : Word) (n i : Nat) (r : HelperReg), s.h[i]? = some r →
    1 ≤ r.mode.toNat → r.mode.toNat ≤ 5 →
    let enabled := s.cfg.has .hlpr = true ∧ s.sr.hlpre.getLsbD (i / 8) = true
    let covers := ∃ k, k < n ∧ s.addrAt a k = r.val
    (a.toNat + n ≤ 2 ^ s.cfg.wlen →
      (covers ↔ a.toNat ≤ r.val.toNat ∧ r.val.toNat < a.toNat + n))
    ∧ ((∃ t ∈ s.accessTriggers .read a n, t.index = i)
        ↔ enabled ∧ covers ∧ r.mode.toNat ∈ [1, 4, 5])
    ∧ ((∃ t ∈ s.accessTriggers .write a n, t.index = i)
        ↔ enabled ∧ covers ∧ r.mode.toNat ∈ [2, 4, 5])
    ∧ ((∃ t ∈ s.accessTriggers .fetch a n, t.index = i)
        ↔ enabled ∧ a = r.val ∧ r.mode.toNat ∈ [3, 5])
    ∧ ∀ kind, ∀ t ∈ s.accessTriggers kind a n, t.index = i →
        some t.name = helperEvent s.cfg r.mode ∧ t.name.code.toNat = 113 + r.mode.toNat

/-- When a helper register in a range mode fires: for an access it watches that is not wholly between its
value and its successor's, both inclusive; only where the successor exists in mode 255. Its event is that
of its mode m, code 108 + m (10_state.md R32, 60_exceptions.md R228, R262; decisions D14, D15, D26). -/
def Obligations.RangeTriggers : Prop :=
  ∀ (s : State) (a : Word) (n i : Nat) (r : HelperReg), s.h[i]? = some r →
    6 ≤ r.mode.toNat → r.mode.toNat ≤ 10 → 0 < n →
    let fires := s.cfg.has .hlpr = true ∧ s.sr.hlpre.getLsbD (i / 8) = true
      ∧ ∃ hi, s.h[i + 1]? = some hi ∧ hi.mode = 255
        ∧ ¬(r.val.toNat ≤ a.toNat ∧ a.toNat + n - 1 ≤ hi.val.toNat)
    ((∃ t ∈ s.accessTriggers .read a n, t.index = i) ↔ fires ∧ r.mode.toNat ∈ [6, 9, 10])
    ∧ ((∃ t ∈ s.accessTriggers .write a n, t.index = i) ↔ fires ∧ r.mode.toNat ∈ [7, 9, 10])
    ∧ ((∃ t ∈ s.accessTriggers .fetch a n, t.index = i) ↔ fires ∧ r.mode.toNat ∈ [8, 10])
    ∧ ∀ kind, ∀ t ∈ s.accessTriggers kind a n, t.index = i →
        some t.name = helperEvent s.cfg r.mode ∧ t.name.code.toNat = 108 + r.mode.toNat

/-- When a helper register in a flag mode fires: the instruction at its value raises its mode's flag; GEE
does not matter, and a flag of any size counts. Modes 11 to 24 watch COVR1 to DIV0 in the table's order,
with event 108 + m; an implementation-specific mode watches what the configuration says, by default
nothing (10_state.md R31, 60_exceptions.md R263; decision D26; log 27). -/
def Obligations.FlagTriggers : Prop :=
  (∀ cfg : Config,
    (List.range 14).map (fun k => watchOf cfg (BitVec.ofNat 8 (11 + k)))
        = [.flag (.covr 0), .flag (.covr 1), .flag (.covr 2), .flag (.covr 3), .flag .cund,
          .flag (.ovfl 0), .flag (.ovfl 1), .flag (.ovfl 2), .flag (.ovfl 3),
          .flag (.unfl 0), .flag (.unfl 1), .flag (.unfl 2), .flag (.unfl 3), .flag .div0]
      ∧ (cfg.problem = none → ∀ k ∈ cfg.helperModes,
          watchOf cfg (BitVec.ofNat 8 (128 + k.slot.val)) = k.watch)
      ∧ ∀ m : BitVec 8, 128 ≤ m.toNat → (∀ k ∈ cfg.helperModes, 128 + k.slot.val ≠ m.toNat) →
          watchOf cfg m = .nothing)
  ∧ ∀ (s : State) (flags : List Flag) (i : Nat) (r : HelperReg) (f : Flag), s.h[i]? = some r →
    watchOf s.cfg r.mode = .flag f →
    ((∃ t ∈ s.flagTriggers flags, t.index = i)
      ↔ s.cfg.has .hlpr = true ∧ s.sr.hlpre.getLsbD (i / 8) = true ∧ r.val = s.pc ∧ f ∈ flags)
    ∧ ∀ t ∈ s.flagTriggers flags, t.index = i →
        some t.name = helperEvent s.cfg r.mode
        ∧ (r.mode.toNat ≤ 24 → t.name = .flagT f ∧ t.name.code.toNat = 108 + r.mode.toNat)

/-- Of the helper registers that fire for one instruction the lowest index is delivered and all the others
are queued behind it in index order, one event for a register; where the queue has no room for them the
run is refused. The event of helper mode m is 113 + m for modes 1 to 5 and 108 + m for 6 to 24, an
exception without data whose cause holds the identifier in bits 8:0 and the register's index in bits 15:9
(60_exceptions.md R265, R246, R228, R264, R235; decisions D24, D29, D30; logs 20, 22). R235 gives that index
to the events 114 to 132 only: that a helper register in a custom mode, 128 to 254, delivers its custom event
the same way, with the index as extra information, is the model's reading (log 27). -/
def Obligations.HelperEventOrderAndCause : Prop :=
  (∀ (s : State) (ts l : List Trigger), (∀ t ∈ ts, t.index < s.h.length) →
    l.Pairwise (fun a b => a.index < b.index) →
    (∀ t, t ∈ l ↔ ts.find? (fun u => u.index == t.index) = some t) →
    (ts = [] → s.takeTriggers ts = .next s)
    ∧ ∀ a rest, l = a :: rest →
      (s.queue.length + rest.length ≤ s.cfg.queueDepth →
        s.takeTriggers ts
          = .next (State.deliver { s with queue := s.queue ++ rest.map Trigger.event } a.event))
      ∧ (s.cfg.queueDepth < s.queue.length + rest.length →
        s.takeTriggers ts = .refused .queueOverflow))
  ∧ (∀ (cfg : Config) (m : BitVec 8), m.toNat < 128 →
      (helperEvent cfg m).map (fun e => e.code.toNat)
        = if 1 ≤ m.toNat ∧ m.toNat ≤ 5 then some (113 + m.toNat)
          else if 6 ≤ m.toNat ∧ m.toNat ≤ 24 then some (108 + m.toNat) else none)
  ∧ (∀ e : Event, causeId e.cause = e.name.code ∧ e.cause.extractLsb' 9 7 = e.extra)
  ∧ ∀ (s : State) (t : Trigger) (m : BitVec 8), s.cfg.problem = none → t.index < 32 →
      helperEvent s.cfg m = some t.name →
      t.name.kind s.cfg = .exception
      ∧ t.event.cause.toNat = t.index * 512 + t.name.code.toNat
      ∧ (s.mode = .user → s.deliver t.event = s.launchUser t.event.cause none)
      ∧ (s.mode = .machine → s.deliver t.event = s.launchMachine t.event.cause none)

/-- A flag of the executing instruction leads to its EXC exception exactly when EXC is implemented, GEE
is 1, the flag is CUND, DIV0 or of the word length, and no active helper register holds the instruction
for that flag (in a custom mode too, log 27): then the instruction is cancelled by that exception. Where
a helper register fires, for a flag or at the fetch, the helper events are what the instruction leads to.
Of several EXC exceptions the one of the lowest code is taken (log 29); where there is none, the flags lead
to nothing. The codes tell the two apart: 98 to 102 against 119 to 132 (60_exceptions.md R266, R227;
10_state.md R36, R83; decision D26; logs 27, 29). -/
def Obligations.ArithmeticExceptions : Prop :=
  ∀ (s : State) (flags : List Flag) (fetched : List Trigger),
    let overridden := fun f => ∃ i r, s.h[i]? = some r ∧ s.helperEnabled i = true ∧ r.val = s.pc
      ∧ watchOf s.cfg r.mode = .flag f
    let generated := fun n => (s.cfg.has .exc = true ∧ s.sr.gee = 1)
      ∧ ∃ f ∈ flags, excEvent s.cfg f = some n ∧ ¬overridden f
    (∀ n : EventName, n ∈ s.excEvents flags ↔ generated n)
    ∧ (fetched ++ s.flagTriggers flags ≠ [] →
      s.afterFlags fetched flags = some (s.takeTriggers (fetched ++ s.flagTriggers flags)))
    ∧ (fetched ++ s.flagTriggers flags = [] →
      (∀ n, generated n → (∀ m, generated m → n.code.toNat ≤ m.code.toNat) →
        s.afterFlags fetched flags = some (s.raise n))
      ∧ ((∀ n, ¬generated n) → s.afterFlags fetched flags = none))
    ∧ (∀ f ∈ flags, ∀ i r, s.h[i]? = some r → s.helperEnabled i = true → r.val = s.pc →
        watchOf s.cfg r.mode = .flag f →
        (∃ t ∈ s.flagTriggers flags, t.index = i ∧ some t.name = helperEvent s.cfg r.mode)
          ∧ s.flagTriggers flags ≠ [])
    ∧ (∀ f n, excEvent s.cfg f = some n → 98 ≤ n.code.toNat ∧ n.code.toNat ≤ 102)
    ∧ ∀ f, 119 ≤ (EventName.flagT f).code.toNat ∧ (EventName.flagT f).code.toNat ≤ 132

/-! ### Counting -/

/-- An instruction that began in `s0` and completes in `s` is counted by every counter that, in the mode
and with the PERFCE in force when it began, counts its kind (modes 1 every instruction, 2 loads, 3
stores, 4 taken and 5 not-taken branches; implementation-specific modes as configured, by default time),
modulo 2^CLEN; no other counter and nothing else of the state changes (60_exceptions.md R267, 10_state.md
R42, R43, R44; decision D36; logs 6, 15, 41). That the increment comes after the writes of the instruction
itself, so a counter it wrote holds the written value plus one, is the model's choice (log 41). A read of a
counter of time, while the counters are enabled, is a new draw, and no step takes back a draw, also where
it cancels the instruction that drew (93_implementation_defined.md U9); which counters count time is as the
instruction began, also where it has itself changed the mode (log 36). -/
def Obligations.CountersCountInstructions : Prop :=
  (∀ (s0 s : State) (k : Retired),
    State.retire s0 k s = { s with c := (State.retire s0 k s).c }
    ∧ ∀ (i : Nat) (r0 r : CounterReg), s0.c[i]? = some r0 → s.c[i]? = some r →
      ∃ r', (State.retire s0 k s).c[i]? = some r' ∧ r'.mode = r.mode
        ∧ (if s0.cfg.has .perfc = true ∧ s0.sr.perfce = 1
              ∧ (countsOf s0.cfg r0.mode = .instructions
                ∨ (countsOf s0.cfg r0.mode = .loads ∧ k.load = true)
                ∨ (countsOf s0.cfg r0.mode = .stores ∧ k.store = true)
                ∨ ∃ taken, countsOf s0.cfg r0.mode = .branches taken ∧ k.branch = some taken) then
            r'.val.toNat = (r.val.toNat + 1) % 2 ^ s.cfg.clen
          else r' = r))
  ∧ (∀ (s0 s : State) (i : Nat) (r : CounterReg), s0.c[i]? = some r →
      s0.cfg.has .perfc = true → s0.sr.perfce = 1 → countsOf s0.cfg r.mode = .time →
      State.readBank s0 s .perfcb i
        = ((s.cfg.counter (Config.counterFree s.draws (32 + i)).toNat).toNat, s.drawn (s.draws + 1)))
  ∧ (∀ s t : State, step s = .next t → s.draws ≤ t.draws)
  ∧ ∀ cfg : Config,
    (List.range 6).map (fun k => countsOf cfg (BitVec.ofNat 8 k))
        = [.nothing, .instructions, .loads, .stores, .branches true, .branches false]
      ∧ (∀ m : BitVec 8, 6 ≤ m.toNat → m.toNat ≤ 15 → countsOf cfg m = .time)
      ∧ (cfg.problem = none → ∀ k ∈ cfg.counterModes,
          countsOf cfg (BitVec.ofNat 8 (128 + k.slot.val)) = k.counts)
      ∧ ∀ m : BitVec 8, 128 ≤ m.toNat → (∀ k ∈ cfg.counterModes, 128 + k.slot.val ≠ m.toNat) →
          countsOf cfg m = .time

/-! ### Memory -/

/-- Byte k of a value in memory order is its bits 8k+7:8k under little-endian order and bits
8(n-1-k)+7:8(n-1-k) under big, and the bytes of a value give it back. Bytes 2j and 2j+1 of an instruction
in memory are columns 16j to 16j+7 and 16j+8 to 16j+15 under little-endian order, the other way round under
big; the bytes give the parcels back, and those the word (20_memory.md R105, R106; decisions D1, D2). -/
def Obligations.ByteOrder : Prop :=
  (∀ (n k v : Nat), k < n →
    (byteOf .little n k v).toNat = v / 2 ^ (8 * k) % 256
    ∧ (byteOf .big n k v).toNat = v / 2 ^ (8 * (n - 1 - k)) % 256
    ∧ ∀ e : Endian, valueOf e ((List.range n).map fun k => byteOf e n k v) = v % 2 ^ (8 * n))
  ∧ ∀ (e : Endian) (len : InstrLen) (w : InstrBits), w.toNat < 2 ^ (8 * len.bytes) →
    (instrBytes e len w).length = len.bytes
      ∧ wordOf (parcelsOfBytes e (instrBytes e len w)) = w
      ∧ (parcelsOfBytes e (instrBytes e len w))[0]? = some (w.extractLsb' 0 16)
      ∧ ∀ j, 2 * j < len.bytes →
        (instrBytes e len w)[2 * j]? = some (w.extractLsb' (16 * j + if e = .little then 0 else 8) 8)
        ∧ (instrBytes e len w)[2 * j + 1]?
          = some (w.extractLsb' (16 * j + if e = .little then 8 else 0) 8)

/-- MemWrite changes memory only at the physical addresses of the bytes its mask keeps, which it computes
with `checkData`, and where another agent's racing write lands meanwhile; and no register. At such an
address, unless a later byte goes there too or another agent writes it, memory reads the byte of the value
that byte order gives; bit i of the mask is for byte i of the value. Every byte it writes is noted as written
since load, what was noted stays so, and, racing writes apart, nothing else is (R115). MemRead where
`checkData` permits it is the value its bytes have in ENDIAN, each what memory holds when that byte is read,
with the racing writes that have landed by then (20_memory.md R104, R105, R115, R118; 10_state.md R29;
decision D1; logs 25, 39). That the bytes a mask leaves out are checked and translated too, and that byte
order is that of the whole of a vector access, is the model's choice (log 42). -/
def Obligations.MemWriteFrame : Prop :=
  (∀ (s0 s t : State) (k : Nat) (addr : Word) (n align v : Nat) (keeps : Nat → Bool),
    s0.memWrite s k addr n align v keeps = .ok t →
    ∃ ps, s0.checkData .write addr n align = .ok ps
      ∧ ps.length = n
      ∧ (∀ j p, ps[j]? = some p → s0.translate (s0.addrAt addr j) .write = .to p)
      ∧ (∀ a : Nat, (∀ j p, ps[j]? = some p → keeps (byteIndex s.cfg.endian n j) = true → p.toNat ≠ a) →
          (∀ r ∈ s.racing, r.addr ≠ a) →
          Memory.read t.mem a = Memory.read s.mem a ∧ (a ∈ t.dirty → a ∈ s.dirty))
      ∧ (∀ a ∈ s.dirty, a ∈ t.dirty)
      ∧ (∀ j p, ps[j]? = some p → keeps (byteIndex s.cfg.endian n j) = true → p.toNat ∈ t.dirty)
      ∧ (∀ j p, ps[j]? = some p → keeps (byteIndex s.cfg.endian n j) = true →
          (∀ i q, j < i → ps[i]? = some q → keeps (byteIndex s.cfg.endian n i) = true →
            q.toNat ≠ p.toNat) →
          (∀ r ∈ s.racing, r.addr ≠ p.toNat) →
          Memory.read t.mem p.toNat = byteOf s.cfg.endian n j v)
      ∧ t = { s with mem := t.mem, dirty := t.dirty, racing := t.racing })
  ∧ (∀ (e : Endian) (n j v : Nat), j < n →
    (byteOf e n j v).toNat = v / 2 ^ (8 * byteIndex e n j) % 256)
  ∧ (∀ (s0 s : State) (k : Nat) (addr : Word) (n align : Nat) (ps : List Word),
    s0.checkData .read addr n align = .ok ps →
    ps.length = n
      ∧ (∀ j p, ps[j]? = some p → s0.translate (s0.addrAt addr j) .read = .to p)
      ∧ s0.memRead s k addr n align = .ok (valueOf s.cfg.endian (s.loadBytes k ps)))
  ∧ ∀ (s : State) (k : Nat) (ps : List Word) (j : Nat),
    (s.loadBytes k ps)[j]? = (ps[j]?).map fun p => Memory.read (s.settle (k + j)).mem p.toNat

/-- What MemWrite wrote, MemRead at the same address and size reads, in either byte order, where
translation is the identity and no other agent writes (20_memory.md R105; decision D1; log 39). That a vector
access is one value in memory too is the model's choice (log 42). -/
def Obligations.MemReadAfterMemWrite : Prop :=
  ∀ (s t : State) (k j : Nat) (addr : Word) (n align v : Nat),
    (s.cfg.has .user = false ∨ s.cfg.translation = .identity) → s.racing = [] →
    n ≤ 64 → addr.toNat < 2 ^ s.cfg.wlen →
    s.memWrite s k addr n align v (fun _ => true) = .ok t →
    t.memRead t j addr n align = .ok (v % 2 ^ (8 * n))

/-- What stops a data access before it touches memory, in this order: an address that is no multiple of
the alignment raises MISD where DALIGN is implemented and stops the model where it is not; the first byte
that does not translate raises PFLT or ILLA with its untranslated address; then the platform's map is
asked: a device is refused, a hole and a write to ROM stop the model, RAM is accessed. A load or a store
notes the helper registers that watch its aligned access whatever comes of it: it stops with them noted, or
makes the access and goes on with them. A conditional one does the same where its condition is not 0, and
else makes no access and notes nothing (20_memory.md R108, R109, R117, R118; 60_exceptions.md R226, R233;
decisions D11, D40; logs 20, 24, 43). The model's choice, not the spec's: a shaped access has the vector shape
in force when the instruction began, also where the instruction has itself written VSH (log 36); a vector
access has the alignment its row of OPCODE_MAP gives, and all bytes of a masked access are checked, translated
and watched, those the mask leaves out too (log 42). -/
def Obligations.MisalignedDataAccess : Prop :=
  ∀ (s0 s : State) (k : Nat) (addr : Word) (n align v : Nat) (keeps : Nat → Bool), 0 < n →
    (addr.toNat % align ≠ 0 →
      (s0.cfg.has .dalign = true →
        s0.memRead s k addr n align = .error (.event { name := .misd })
        ∧ s0.memWrite s k addr n align v keeps = .error (.event { name := .misd }))
      ∧ (s0.cfg.has .dalign = false →
        s0.memRead s k addr n align = .error (.fault (.unalignedData addr))
        ∧ s0.memWrite s k addr n align v keeps = .error (.fault (.unalignedData addr))))
    ∧ (addr.toNat % align = 0 → ∀ kind : AccessKind,
      (∀ j, j < n → (∀ i, i < j → ∃ p, s0.translate (s0.addrAt addr i) kind = .to p) →
        (s0.translate (s0.addrAt addr j) kind = .pageFault →
          s0.checkData kind addr n align
            = .error (.event { name := .pflt, data := some (s0.addrAt addr j) }))
        ∧ (s0.translate (s0.addrAt addr j) kind = .illegalAddress →
          s0.checkData kind addr n align
            = .error (.event { name := .illa, data := some (s0.addrAt addr j) })))
      ∧ ∀ ps, s0.physicals addr kind 0 n = .ok ps →
        ((∀ p ∈ ps, s0.regionAt p.toNat = .ram ∨ (s0.regionAt p.toNat = .rom ∧ kind ≠ .write)) →
          s0.checkData kind addr n align = .ok ps)
        ∧ ∀ (j : Nat) (p : Word), ps[j]? = some p →
          (∀ (i : Nat) (q : Word), i < j → ps[i]? = some q →
            s0.regionAt q.toNat = .ram ∨ (s0.regionAt q.toNat = .rom ∧ kind ≠ .write)) →
          (s0.regionAt p.toNat = .device →
            s0.checkData kind addr n align = .error (.refused (.device p)))
          ∧ (s0.regionAt p.toNat = .hole →
            s0.checkData kind addr n align = .error (.fault (.unmapped p)))
          ∧ (s0.regionAt p.toNat = .rom → kind = .write →
            s0.checkData kind addr n align = .error (.fault (.readOnly p))))
    ∧ ∀ (d : Decoded) (w : Work) (size : AccessSize) (ps : List Prim), s0.sizeOf d size = (n, align) →
      let noted := fun kind => { w with
        fired := w.fired ++ if addr.toNat % align = 0 then s0.accessTriggers kind addr n else [] }
      let loaded := fun taken v => { (noted .read).push taken v with
        done := { w.done with load := true }, touched := w.touched + n }
      let stored := fun taken t => { (noted .write).pop taken with
        s := t, done := { w.done with store := true }, touched := w.touched + n }
      let plain := s0.cfg.word (w.top 0) = addr
      let given := w.top 0 ≠ 0 ∧ s0.cfg.word (w.top 1) = addr
      (∀ e, s0.checkData .read addr n align = .error e →
        (plain → runPrims d s0 w (.load size :: ps) = .error (e, noted .read))
        ∧ (given → runPrims d s0 w (.loadIf size :: ps) = .error (e, noted .read)))
      ∧ (∀ e, s0.checkData .write addr n align = .error e →
        (plain → runPrims d s0 w (.store size :: ps) = .error (e, noted .write))
        ∧ (given → runPrims d s0 w (.storeIf size :: ps) = .error (e, noted .write)))
      ∧ (∀ qs, s0.checkData .read addr n align = .ok qs →
        let v := valueOf w.s.cfg.endian (w.s.loadBytes w.touched qs)
        (plain → runPrims d s0 w (.load size :: ps) = runPrims d s0 (loaded 1 v) ps)
        ∧ (given → runPrims d s0 w (.loadIf size :: ps) = runPrims d s0 (loaded 3 v) ps))
      ∧ (∀ qs, s0.checkData .write addr n align = .ok qs →
        let write := fun v => s0.memWrite w.s w.touched addr n align v (w.s.storeKeeps d size)
        (plain → ∃ t, write (w.top 1) = .ok t
          ∧ runPrims d s0 w (.store size :: ps) = runPrims d s0 (stored 2 t) ps)
        ∧ (given → ∃ t, write (w.top 2) = .ok t
          ∧ runPrims d s0 w (.storeIf size :: ps) = runPrims d s0 (stored 3 t) ps))
      ∧ (w.top 0 = 0 →
        runPrims d s0 w (.loadIf size :: ps) = runPrims d s0 (w.push 3 (w.top 2)) ps
        ∧ runPrims d s0 w (.storeIf size :: ps) = runPrims d s0 (w.pop 3) ps)

/-- A store is not seen by a later fetch without a fetch fence: every written location is noted, a step
that would fetch a noted location, in any byte of the instruction, stops the model, and the fetch fence
(md 3 of class F) clears the note, after which no fetch is stale. The other fences order nothing under
sequential consistency and are refused under relaxed (20_memory.md R111, R115;
93_implementation_defined.md U22; decision D28; logs 21, 25, 26). That a fence of an instruction which has
itself written CMD goes by the written value is the model's choice (`Work.fence`, log 36). That a store of
an instruction notes every byte it writes is `MemWriteFrame`. -/
def Obligations.StoreToFetchNeedsAFence : Prop :=
  (∀ (s : State) (a : Nat) (byte : Byte), a ∈ (s.storeByte a byte).dirty)
  ∧ (∀ (s b : State) (n : Nat), s.Runs → s.boundary = .ok b → b.nextEvent = none →
    b.pc.toNat % b.cfg.ialign = 0 →
    (n = 2 ∨ ∃ b0 b1, b.fetchBytes 0 2 = .ok [b0, b1]
      ∧ n = (b.cfg.lengthOf.apply (parcelOf b.cfg.endian b0 b1)).bytes) →
    (∀ j, j < n → ∃ p, b.translate (b.addrAt b.pc j) .fetch = .to p
      ∧ b.regionAt p.toNat ∈ [RegionKind.ram, .rom]) →
    (∃ j p, j < n ∧ b.translate (b.addrAt b.pc j) .fetch = .to p ∧ p.toNat ∈ b.dirty) →
    ∃ j p, j < n ∧ b.translate (b.addrAt b.pc j) .fetch = .to p ∧ p.toNat ∈ b.dirty
      ∧ step s = .fault (.staleFetch p))
  ∧ (∀ (s : State) (k n : Nat) (p : Word), s.dirty = [] →
    s.fetchBytes k n ≠ .error (.fault (.staleFetch p)))
  ∧ ∀ (d : Decoded) (s0 : State) (w : Work),
    (d.fields.md = 3 → runPrim d s0 w .fence = .ok { w with s := { w.s with dirty := [] } })
    ∧ (d.fields.md ≠ 3 →
      (w.s.sr.sequential w.s.cfg = true → runPrim d s0 w .fence = .ok w)
      ∧ (w.s.sr.sequential w.s.cfg = false →
        runPrim d s0 w .fence = .error (.refused .relaxedConsistency)))

/-- The configuration segment: the size codes at offsets 12 to 18, zeros in the reserved bytes, and no
read outside its 1024 bytes (20_memory.md R102, R103; decision D35; log 35). -/
def Obligations.ConfigurationSegment : Prop :=
  ∀ (cfg : Config),
    cfg.read 12 1 = some cfg.wlenc.toNat ∧ cfg.read 13 1 = some cfg.mxvlc.toNat
    ∧ cfg.read 14 1 = some cfg.clenc.toNat ∧ cfg.read 15 1 = some cfg.srfsc.toNat
    ∧ cfg.read 16 1 = some cfg.vrfsc.toNat ∧ cfg.read 17 1 = some cfg.hrfsc.toNat
    ∧ cfg.read 18 1 = some cfg.crfsc.toNat
    ∧ cfg.read 0 2 = some cfg.segment.hid.toNat
    ∧ (∀ o, 171 ≤ o → o ≤ 255 → cfg.read o 1 = some 0)
    ∧ ∀ o n, 1024 < o + n → cfg.read o n = none

/-! ### Supplied instructions -/

/-- A supplied instruction that answers a next state either completes, its counters counted and PC what
it wrote or its address plus its length modulo 2^WLEN, and then no helper register fired for its fetch, its
data or its flags and the flags generated no exception, or is cancelled whole by an event: then the state is
the one before it with that event delivered and the events queued of the other helper registers that fired
for its fetch, data or flags, so the registers of all banks, the special registers outside the event
registers and every byte of memory are those before it. An access by name to a special purpose register
that is absent or privileged raises INCI or ILLI whatever else it meets. Where the checks of decoding and
privilege deny nothing, one that runs to its end leads to what the helper registers that fired and its flags
lead to, `State.afterFlags`, and where they lead to nothing completes; one that meets a fault leads to that
fault, and one that stops otherwise to what they lead to, else to that event or stop; in each case with the
free values it drew used up, so that none is drawn again (log 6; 10_state.md R45, R46,
60_exceptions.md R227, R233, R243, R261, R265, R267; decisions D6, D12, D13; logs 20, 21, 30). The model's
choice or reading, not the spec's: flags are judged by the GEE and the helper registers in force when the
instruction began, also where the instruction has itself written SR.GEE (log 36); and a custom exception of a
global priority below 3 is taken before the helper events and arithmetic exceptions, as a fault is (log 28). -/
def Obligations.SuppliedInstructionCompletesOrIsCancelled : Prop :=
  ∀ (s : State) (d : Decoded) (len : InstrLen) (fetched : List Trigger) (ps : List Prim),
    (∀ t, (∀ u ∈ fetched, u.index < s.h.length) → s.runSupplied d len fetched ps = .next t →
      (s.denied d [] ps = none ∧ ∃ w, runPrims d s { s := s, fired := fetched } ps = .ok w
          ∧ w.fired = [] ∧ s.flagTriggers w.flags = [] ∧ s.excEvents w.flags = [] ∧ t = s.complete len w
          ∧ t.pc = w.target.getD (s.cfg.word (s.pc.toNat + len.bytes)))
      ∨ ((∃ (e : Event) (ts : List Trigger),
            t = State.deliver { s.drawn t.draws with queue := s.queue ++ ts.map Trigger.event } e
            ∧ s.queue.length + ts.length ≤ max s.queue.length s.cfg.queueDepth
            ∧ ∀ u ∈ ts, u ∈ fetched ∨ (∃ kind a n, u ∈ s.accessTriggers kind a n)
              ∨ ∃ flags, u ∈ s.flagTriggers flags)
          ∧ t.cfg = s.cfg ∧ t.x = s.x ∧ t.vr = s.vr ∧ t.h = s.h ∧ t.c = s.c ∧ t.vsh = s.vsh
          ∧ t.vm1 = s.vm1 ∧ t.vm2 = s.vm2 ∧ t.vm3 = s.vm3 ∧ t.pfpa = s.pfpa ∧ t.usage = s.usage
          ∧ t.pid = s.pid ∧ t.tid = s.tid ∧ t.hpid = s.hpid ∧ t.tptr = s.tptr ∧ t.wdt = s.wdt
          ∧ t.dirty = s.dirty ∧ t.racing = s.racing ∧ t.inputs = s.inputs ∧ t.cycles = s.cycles
          ∧ s.draws ≤ t.draws
          ∧ ∀ a, Memory.read t.mem a = Memory.read s.mem a))
    ∧ (∀ r, (Prim.readSpr r ∈ ps ∨ Prim.writeSpr r ∈ ps) → sprDenied s.cfg s.mode r ≠ none →
      ∃ n ∈ [EventName.inci, .illi], s.runSupplied d len fetched ps = s.raise n)
    ∧ (∀ n, s.denied d [] ps = some n → s.runSupplied d len fetched ps = s.raise n)
    ∧ (s.denied d [] ps = none →
      let ran := runPrims d s { s := s, fired := fetched } ps
      let after := fun (w : Work) o =>
        s.runSupplied d len fetched ps = ((s.drawn w.s.draws).afterFlags w.fired w.flags).getD o
      (∀ w, ran = .ok w → after w (.next (s.complete len w)))
      ∧ ∀ w, (∀ e, ran = .error (.event e, w) →
          (e.precedes s.cfg = true →
            s.runSupplied d len fetched ps = .next ((s.drawn w.s.draws).deliver e))
          ∧ (e.precedes s.cfg = false → after w (.next ((s.drawn w.s.draws).deliver e))))
        ∧ (∀ f, ran = .error (.fault f, w) → after w (.fault f))
        ∧ ∀ r, ran = .error (.refused r, w) → after w (.refused r))

/-! ### Invariants of every step -/

/-- Right after reset, under every configuration without a problem, the invariants hold, and with them
all that is fixed of the reset state (10_state.md R97; decisions D9, D22). -/
def Obligations.ResetMeetsTheInvariants : Prop :=
  ∀ cfg : Config, cfg.problem = none →
    (State.resetOf cfg).AfterReset ∧ (State.resetOf cfg).MemoryFits ∧ (State.resetOf cfg).QueueFits
      ∧ (State.resetOf cfg).Runs

/-- No step changes the configuration (10_state.md R96, 20_memory.md R101: "It is never written"; log
13). -/
def Obligations.StepKeepsTheConfiguration : Prop :=
  ∀ s t : State, step s = .next t → t.cfg = s.cfg

/-- Every step keeps memory in its one form and inside the address space, and the note of written
locations in order; and no write of another agent is left in flight (20_memory.md R100, R104, R115; logs
4, 39). -/
def Obligations.StepKeepsMemoryForm : Prop :=
  ∀ s t : State, s.MemoryFits → step s = .next t →
    t.MemoryFits ∧ (s.racing = [] ∨ s.sr.hlts = 0 → t.racing = [])

/-- Every step keeps the banks at their sizes and their registers inside their widths (10_state.md R21,
R26, R30, R40; log 14). -/
def Obligations.StepKeepsBanks : Prop :=
  ∀ s t : State, s.BanksFit → step s = .next t → t.BanksFit

/-- Every step keeps the special purpose registers inside their widths, the usage registers inside the sizes
of their banks, in a state whose queued events carry no data (10_state.md R46 to R75; log 14). -/
def Obligations.StepKeepsSpecialRegisters : Prop :=
  ∀ s t : State, s.QueueFits → s.SpecialsFit → step s = .next t → t.SpecialsFit

/-- Every step leaves the SR fields of absent modules and the unused bits 0 (10_state.md R78). -/
def Obligations.StepKeepsAbsentStatusFields : Prop :=
  ∀ s t : State, s.StatusFits → step s = .next t → t.StatusFits

/-- Every step keeps the event queue within its depth, its events without data and such as exist on this
hart, so no reserved code is ever delivered (10_state.md R94, 60_exceptions.md R223; decision D29; log
23). -/
def Obligations.StepKeepsTheQueueBound : Prop :=
  ∀ s t : State, s.QueueFits → step s = .next t → t.QueueFits

/-- What user mode cannot change: over a step that begins and ends in user mode the machine event
registers, PFPA, PID, TID, HPID, TPTR and the privileged fields of SR are unchanged, but that HLTS may
become 2 by a double event (10_state.md R45, R91; 60_exceptions.md R252; decisions D18, D32). -/
def Obligations.UserModeCannotChangePrivilegedState : Prop :=
  ∀ s t : State, s.StatusFits → s.mode = .user → step s = .next t → t.mode = .user →
    t.m = s.m ∧ t.pfpa = s.pfpa ∧ t.pid = s.pid ∧ t.tid = s.tid ∧ t.hpid = s.hpid
      ∧ t.tptr = s.tptr ∧ t.sr.im = s.sr.im ∧ t.sr.pmod = s.sr.pmod ∧ t.sr.wdte = s.sr.wdte
      ∧ t.sr.pwrs = s.sr.pwrs ∧ (t.sr.hlts = s.sr.hlts ∨ t.sr.hlts = 2)

/-- Machine mode is entered from user mode only by the privileged launching sequence: PC becomes MEHP,
and MEPC and MESR hold the PC and SR of user mode (60_exceptions.md R253, R236). -/
def Obligations.MachineModeIsEnteredOnlyByLaunch : Prop :=
  ∀ s t : State, s.mode = .user → step s = .next t → t.mode = .machine →
    t.pc = s.m.ehp ∧ t.m.epc = s.pc ∧ t.m.esr = s.sr ∧ t.m.ehp = s.m.ehp
      ∧ t.m.et0 = s.m.et0 ∧ t.m.et1 = s.m.et1
end

