-- ==== Sys2Proof/Laws/Encoding.lean ====
section
/-! SUPPORT. Bits of an assembled instruction word, and the greatest widths of the family. -/

namespace Sys2Proof

theorem testBit_bitsToNat (l : List Bool) (i : Nat) :
    (bitsToNat l).testBit i = l.getD i false := by
  induction l generalizing i with
  | nil => simp [bitsToNat]
  | cons b bs ih =>
    cases i with
    | zero => cases b <;> simp [bitsToNat, Nat.testBit_zero]
    | succ i =>
      have : (bitsToNat (b :: bs)) / 2 = bitsToNat bs := by cases b <;> simp [bitsToNat] <;> omega
      rw [Nat.testBit_succ, this, ih]
      simp

theorem bitsToNat_lt (l : List Bool) : bitsToNat l < 2 ^ l.length := by
  induction l with
  | nil => simp [bitsToNat]
  | cons b bs ih => cases b <;> simp [bitsToNat, Nat.pow_succ] <;> omega

/-- A bit of an assembled word is the field bit of its column. -/
theorem assemble_getLsbD (order : FieldOrder) (fmt : Format) (fl : Fields) (c : Nat) (hc : c < 48) :
    (assemble order fmt fl).getLsbD c
      = match (fmt.columns order)[c]? with
        | some p => (fl.value p.1).testBit p.2
        | none => false := by
  rw [assemble, BitVec.getLsbD_ofNat, testBit_bitsToNat]
  simp only [hc, decide_true, Bool.true_and, List.getD, List.getElem?_map]
  cases (fmt.columns order)[c]? <;> simp

/-- Where the data of a sequence flows rightly, that of its rest does. -/
theorem flowsFrom_append {cfg : Config} {row : OpcodeRow} {fl : Fields} {used : List RegField}
    {pre post : List Prim} {st : List DataSource}
    (h : flowsFrom cfg row fl used st (pre ++ post) = true) :
    ∃ st', flowsFrom cfg row fl used st' post = true := by
  induction pre generalizing st with
  | nil => exact ⟨_, h⟩
  | cons p pre ih =>
    simp only [List.cons_append, flowsFrom, Bool.and_eq_true] at h
    exact ih h.2

/-- Where the data of an instruction flows rightly, every one of its primitives moves data rightly. -/
theorem flows_mem {cfg : Config} {row : OpcodeRow} {fl : Fields} {ps : List Prim} {p : Prim}
    (h : flows cfg row fl ps = true) (hp : p ∈ ps) :
    ∃ st, p.moves cfg row fl (addressing cfg row fl [] ps) st = true := by
  obtain ⟨pre, post, rfl⟩ := List.append_of_mem hp
  unfold flows at h
  obtain ⟨st, h⟩ := flowsFrom_append h
  simp only [flowsFrom, Bool.and_eq_true] at h
  exact ⟨st, h.1⟩

/-- A sequence without an access of memory addresses nothing. -/
theorem addressing_nil {cfg : Config} {row : OpcodeRow} {fl : Fields} {ps : List Prim}
    (h : ∀ p ∈ ps, p.accessSize = none) (st : List DataSource) : addressing cfg row fl st ps = [] := by
  induction ps generalizing st with
  | nil => rfl
  | cons p ps ih =>
    have hp := h p List.mem_cons_self
    simp only [addressing, ih (fun q hq => h q (List.mem_cons_of_mem _ hq)), List.append_nil]
    cases p <;> simp only [Prim.accessSize, reduceCtorEq] at hp <;> rfl

/-- A register's width is at most what it is held in. -/
theorem Config.wlen_le (cfg : Config) : cfg.wlen ≤ 64 := by
  have : ∀ c : BitVec 2, 8 * 2 ^ c.toNat ≤ 64 := by decide
  exact this cfg.wlenc

theorem Config.clen_le (cfg : Config) : cfg.clen ≤ 64 := by
  have : ∀ c : BitVec 2, 8 * 2 ^ c.toNat ≤ 64 := by decide
  exact this cfg.clenc

theorem Config.mxvl_le (cfg : Config) : cfg.mxvl ≤ 512 := by
  unfold Config.mxvl
  split <;> decide

/-- A number cut to WLEN bits. -/
theorem Config.word_toNat (cfg : Config) (n : Nat) : (cfg.word n).toNat = n % 2 ^ cfg.wlen := by
  simp only [Config.word, BitVec.toNat_ofNat]
  exact Nat.mod_eq_of_lt (Nat.lt_of_lt_of_le (Nat.mod_lt _ (Nat.two_pow_pos _))
    (Nat.pow_le_pow_right (by decide) cfg.wlen_le))

end Sys2Proof
end

