-- ==== Sys2Proof/Laws/State.lean ====
section
/-! SUPPORT. What each plain update of a state does to each field: one lemma per field per update, so that
no proof unfolds a record update; and what the conditional updates leave alone. -/

namespace Sys2Proof.Machine

/-- Marking a register sets its bit where the usage registers exist and the bank has the register, and no
other bit. -/
theorem markUsed_bit (cfg : Config) (n : Nat) (u : BitVec 32) (i : Nat) {j : Nat} (hj : j < 32) :
    (markUsed cfg n u i).getLsbD j
      = (u.getLsbD j || (cfg.has .user && cfg.has .ctxr && decide (i < n) && j == i)) := by
  unfold markUsed
  split
  · rename_i h
    simp only [h, Bool.true_and, BitVec.getLsbD_or, BitVec.getLsbD_ofNat, hj, decide_true,
      Nat.testBit_two_pow]
    by_cases hij : i = j
    · simp [hij]
    · simp [hij, Ne.symm hij]
  · rename_i h
    simp [h]

/-- A usage register stays inside the size of its bank. -/
theorem markUsed_lt (cfg : Config) (n : Nat) {u : BitVec 32} (i : Nat) (h : u.toNat < 2 ^ n) :
    (markUsed cfg n u i).toNat < 2 ^ n := by
  unfold markUsed
  split
  · rename_i hi
    simp only [Bool.and_eq_true, decide_eq_true_eq] at hi
    rw [BitVec.toNat_or, BitVec.toNat_ofNat]
    exact Nat.or_lt_two_pow h
      (Nat.lt_of_le_of_lt (Nat.mod_le _ _) (Nat.pow_lt_pow_right (by decide) hi.2))
  · exact h

/-! ### halt -/

@[simp] theorem State.halt_cfg (s : State) (v : BitVec 3) : (s.halt v).cfg = s.cfg := rfl
@[simp] theorem State.halt_x (s : State) (v : BitVec 3) : (s.halt v).x = s.x := rfl
@[simp] theorem State.halt_vr (s : State) (v : BitVec 3) : (s.halt v).vr = s.vr := rfl
@[simp] theorem State.halt_h (s : State) (v : BitVec 3) : (s.halt v).h = s.h := rfl
@[simp] theorem State.halt_c (s : State) (v : BitVec 3) : (s.halt v).c = s.c := rfl
@[simp] theorem State.halt_pc (s : State) (v : BitVec 3) : (s.halt v).pc = s.pc := rfl
@[simp] theorem State.halt_sr (s : State) (v : BitVec 3) : (s.halt v).sr = { s.sr with hlts := v } := rfl
@[simp] theorem State.halt_vsh (s : State) (v : BitVec 3) : (s.halt v).vsh = s.vsh := rfl
@[simp] theorem State.halt_vm1 (s : State) (v : BitVec 3) : (s.halt v).vm1 = s.vm1 := rfl
@[simp] theorem State.halt_vm2 (s : State) (v : BitVec 3) : (s.halt v).vm2 = s.vm2 := rfl
@[simp] theorem State.halt_vm3 (s : State) (v : BitVec 3) : (s.halt v).vm3 = s.vm3 := rfl
@[simp] theorem State.halt_u (s : State) (v : BitVec 3) : (s.halt v).u = s.u := rfl
@[simp] theorem State.halt_m (s : State) (v : BitVec 3) : (s.halt v).m = s.m := rfl
@[simp] theorem State.halt_pfpa (s : State) (v : BitVec 3) : (s.halt v).pfpa = s.pfpa := rfl
@[simp] theorem State.halt_usage (s : State) (v : BitVec 3) : (s.halt v).usage = s.usage := rfl
@[simp] theorem State.halt_pid (s : State) (v : BitVec 3) : (s.halt v).pid = s.pid := rfl
@[simp] theorem State.halt_tid (s : State) (v : BitVec 3) : (s.halt v).tid = s.tid := rfl
@[simp] theorem State.halt_hpid (s : State) (v : BitVec 3) : (s.halt v).hpid = s.hpid := rfl
@[simp] theorem State.halt_tptr (s : State) (v : BitVec 3) : (s.halt v).tptr = s.tptr := rfl
@[simp] theorem State.halt_wdt (s : State) (v : BitVec 3) : (s.halt v).wdt = s.wdt := rfl
@[simp] theorem State.halt_queue (s : State) (v : BitVec 3) : (s.halt v).queue = s.queue := rfl
@[simp] theorem State.halt_mem (s : State) (v : BitVec 3) : (s.halt v).mem = s.mem := rfl
@[simp] theorem State.halt_dirty (s : State) (v : BitVec 3) : (s.halt v).dirty = s.dirty := rfl
@[simp] theorem State.halt_racing (s : State) (v : BitVec 3) : (s.halt v).racing = s.racing := rfl
@[simp] theorem State.halt_inputs (s : State) (v : BitVec 3) : (s.halt v).inputs = s.inputs := rfl
@[simp] theorem State.halt_cycles (s : State) (v : BitVec 3) : (s.halt v).cycles = s.cycles := rfl
@[simp] theorem State.halt_draws (s : State) (v : BitVec 3) : (s.halt v).draws = s.draws := rfl

/-! ### enterMachine -/

@[simp] theorem State.enterMachine_cfg (s : State) (cause : BitVec 16) (data : Option Word) : (s.enterMachine cause data).cfg = s.cfg := rfl
@[simp] theorem State.enterMachine_x (s : State) (cause : BitVec 16) (data : Option Word) : (s.enterMachine cause data).x = s.x := rfl
@[simp] theorem State.enterMachine_vr (s : State) (cause : BitVec 16) (data : Option Word) : (s.enterMachine cause data).vr = s.vr := rfl
@[simp] theorem State.enterMachine_h (s : State) (cause : BitVec 16) (data : Option Word) : (s.enterMachine cause data).h = s.h := rfl
@[simp] theorem State.enterMachine_c (s : State) (cause : BitVec 16) (data : Option Word) : (s.enterMachine cause data).c = s.c := rfl
@[simp] theorem State.enterMachine_pc (s : State) (cause : BitVec 16) (data : Option Word) : (s.enterMachine cause data).pc = s.m.ehp := rfl
@[simp] theorem State.enterMachine_sr (s : State) (cause : BitVec 16) (data : Option Word) : (s.enterMachine cause data).sr = s.sr.promoted s.cfg := rfl
@[simp] theorem State.enterMachine_vsh (s : State) (cause : BitVec 16) (data : Option Word) : (s.enterMachine cause data).vsh = s.vsh := rfl
@[simp] theorem State.enterMachine_vm1 (s : State) (cause : BitVec 16) (data : Option Word) : (s.enterMachine cause data).vm1 = s.vm1 := rfl
@[simp] theorem State.enterMachine_vm2 (s : State) (cause : BitVec 16) (data : Option Word) : (s.enterMachine cause data).vm2 = s.vm2 := rfl
@[simp] theorem State.enterMachine_vm3 (s : State) (cause : BitVec 16) (data : Option Word) : (s.enterMachine cause data).vm3 = s.vm3 := rfl
@[simp] theorem State.enterMachine_u (s : State) (cause : BitVec 16) (data : Option Word) : (s.enterMachine cause data).u = s.u := rfl
@[simp] theorem State.enterMachine_m (s : State) (cause : BitVec 16) (data : Option Word) : (s.enterMachine cause data).m = s.m.saved s.pc s.sr cause data := rfl
@[simp] theorem State.enterMachine_pfpa (s : State) (cause : BitVec 16) (data : Option Word) : (s.enterMachine cause data).pfpa = s.pfpa := rfl
@[simp] theorem State.enterMachine_usage (s : State) (cause : BitVec 16) (data : Option Word) : (s.enterMachine cause data).usage = s.usage := rfl
@[simp] theorem State.enterMachine_pid (s : State) (cause : BitVec 16) (data : Option Word) : (s.enterMachine cause data).pid = s.pid := rfl
@[simp] theorem State.enterMachine_tid (s : State) (cause : BitVec 16) (data : Option Word) : (s.enterMachine cause data).tid = s.tid := rfl
@[simp] theorem State.enterMachine_hpid (s : State) (cause : BitVec 16) (data : Option Word) : (s.enterMachine cause data).hpid = s.hpid := rfl
@[simp] theorem State.enterMachine_tptr (s : State) (cause : BitVec 16) (data : Option Word) : (s.enterMachine cause data).tptr = s.tptr := rfl
@[simp] theorem State.enterMachine_wdt (s : State) (cause : BitVec 16) (data : Option Word) : (s.enterMachine cause data).wdt = s.wdt := rfl
@[simp] theorem State.enterMachine_queue (s : State) (cause : BitVec 16) (data : Option Word) : (s.enterMachine cause data).queue = s.queue := rfl
@[simp] theorem State.enterMachine_mem (s : State) (cause : BitVec 16) (data : Option Word) : (s.enterMachine cause data).mem = s.mem := rfl
@[simp] theorem State.enterMachine_dirty (s : State) (cause : BitVec 16) (data : Option Word) : (s.enterMachine cause data).dirty = s.dirty := rfl
@[simp] theorem State.enterMachine_racing (s : State) (cause : BitVec 16) (data : Option Word) : (s.enterMachine cause data).racing = s.racing := rfl
@[simp] theorem State.enterMachine_inputs (s : State) (cause : BitVec 16) (data : Option Word) : (s.enterMachine cause data).inputs = s.inputs := rfl
@[simp] theorem State.enterMachine_cycles (s : State) (cause : BitVec 16) (data : Option Word) : (s.enterMachine cause data).cycles = s.cycles := rfl
@[simp] theorem State.enterMachine_draws (s : State) (cause : BitVec 16) (data : Option Word) : (s.enterMachine cause data).draws = s.draws := rfl

/-! ### enterUser -/

@[simp] theorem State.enterUser_cfg (s : State) (cause : BitVec 16) (data : Option Word) : (s.enterUser cause data).cfg = s.cfg := rfl
@[simp] theorem State.enterUser_x (s : State) (cause : BitVec 16) (data : Option Word) : (s.enterUser cause data).x = s.x := rfl
@[simp] theorem State.enterUser_vr (s : State) (cause : BitVec 16) (data : Option Word) : (s.enterUser cause data).vr = s.vr := rfl
@[simp] theorem State.enterUser_h (s : State) (cause : BitVec 16) (data : Option Word) : (s.enterUser cause data).h = s.h := rfl
@[simp] theorem State.enterUser_c (s : State) (cause : BitVec 16) (data : Option Word) : (s.enterUser cause data).c = s.c := rfl
@[simp] theorem State.enterUser_pc (s : State) (cause : BitVec 16) (data : Option Word) : (s.enterUser cause data).pc = s.u.ehp := rfl
@[simp] theorem State.enterUser_sr (s : State) (cause : BitVec 16) (data : Option Word) : (s.enterUser cause data).sr = s.sr.quiet s.cfg := rfl
@[simp] theorem State.enterUser_vsh (s : State) (cause : BitVec 16) (data : Option Word) : (s.enterUser cause data).vsh = s.vsh := rfl
@[simp] theorem State.enterUser_vm1 (s : State) (cause : BitVec 16) (data : Option Word) : (s.enterUser cause data).vm1 = s.vm1 := rfl
@[simp] theorem State.enterUser_vm2 (s : State) (cause : BitVec 16) (data : Option Word) : (s.enterUser cause data).vm2 = s.vm2 := rfl
@[simp] theorem State.enterUser_vm3 (s : State) (cause : BitVec 16) (data : Option Word) : (s.enterUser cause data).vm3 = s.vm3 := rfl
@[simp] theorem State.enterUser_u (s : State) (cause : BitVec 16) (data : Option Word) : (s.enterUser cause data).u = s.u.saved s.pc s.sr cause data := rfl
@[simp] theorem State.enterUser_m (s : State) (cause : BitVec 16) (data : Option Word) : (s.enterUser cause data).m = s.m := rfl
@[simp] theorem State.enterUser_pfpa (s : State) (cause : BitVec 16) (data : Option Word) : (s.enterUser cause data).pfpa = s.pfpa := rfl
@[simp] theorem State.enterUser_usage (s : State) (cause : BitVec 16) (data : Option Word) : (s.enterUser cause data).usage = s.usage := rfl
@[simp] theorem State.enterUser_pid (s : State) (cause : BitVec 16) (data : Option Word) : (s.enterUser cause data).pid = s.pid := rfl
@[simp] theorem State.enterUser_tid (s : State) (cause : BitVec 16) (data : Option Word) : (s.enterUser cause data).tid = s.tid := rfl
@[simp] theorem State.enterUser_hpid (s : State) (cause : BitVec 16) (data : Option Word) : (s.enterUser cause data).hpid = s.hpid := rfl
@[simp] theorem State.enterUser_tptr (s : State) (cause : BitVec 16) (data : Option Word) : (s.enterUser cause data).tptr = s.tptr := rfl
@[simp] theorem State.enterUser_wdt (s : State) (cause : BitVec 16) (data : Option Word) : (s.enterUser cause data).wdt = s.wdt := rfl
@[simp] theorem State.enterUser_queue (s : State) (cause : BitVec 16) (data : Option Word) : (s.enterUser cause data).queue = s.queue := rfl
@[simp] theorem State.enterUser_mem (s : State) (cause : BitVec 16) (data : Option Word) : (s.enterUser cause data).mem = s.mem := rfl
@[simp] theorem State.enterUser_dirty (s : State) (cause : BitVec 16) (data : Option Word) : (s.enterUser cause data).dirty = s.dirty := rfl
@[simp] theorem State.enterUser_racing (s : State) (cause : BitVec 16) (data : Option Word) : (s.enterUser cause data).racing = s.racing := rfl
@[simp] theorem State.enterUser_inputs (s : State) (cause : BitVec 16) (data : Option Word) : (s.enterUser cause data).inputs = s.inputs := rfl
@[simp] theorem State.enterUser_cycles (s : State) (cause : BitVec 16) (data : Option Word) : (s.enterUser cause data).cycles = s.cycles := rfl
@[simp] theorem State.enterUser_draws (s : State) (cause : BitVec 16) (data : Option Word) : (s.enterUser cause data).draws = s.draws := rfl

/-! ### returnMachine -/

@[simp] theorem State.returnMachine_cfg (s : State) : (s.returnMachine).cfg = s.cfg := rfl
@[simp] theorem State.returnMachine_x (s : State) : (s.returnMachine).x = s.x := rfl
@[simp] theorem State.returnMachine_vr (s : State) : (s.returnMachine).vr = s.vr := rfl
@[simp] theorem State.returnMachine_h (s : State) : (s.returnMachine).h = s.h := rfl
@[simp] theorem State.returnMachine_c (s : State) : (s.returnMachine).c = s.c := rfl
@[simp] theorem State.returnMachine_pc (s : State) : (s.returnMachine).pc = s.m.epc := rfl
@[simp] theorem State.returnMachine_sr (s : State) : (s.returnMachine).sr = s.m.esr.present s.cfg := rfl
@[simp] theorem State.returnMachine_vsh (s : State) : (s.returnMachine).vsh = s.vsh := rfl
@[simp] theorem State.returnMachine_vm1 (s : State) : (s.returnMachine).vm1 = s.vm1 := rfl
@[simp] theorem State.returnMachine_vm2 (s : State) : (s.returnMachine).vm2 = s.vm2 := rfl
@[simp] theorem State.returnMachine_vm3 (s : State) : (s.returnMachine).vm3 = s.vm3 := rfl
@[simp] theorem State.returnMachine_u (s : State) : (s.returnMachine).u = s.u := rfl
@[simp] theorem State.returnMachine_m (s : State) : (s.returnMachine).m = { s.m with inHandler := false } := rfl
@[simp] theorem State.returnMachine_pfpa (s : State) : (s.returnMachine).pfpa = s.pfpa := rfl
@[simp] theorem State.returnMachine_usage (s : State) : (s.returnMachine).usage = s.usage := rfl
@[simp] theorem State.returnMachine_pid (s : State) : (s.returnMachine).pid = s.pid := rfl
@[simp] theorem State.returnMachine_tid (s : State) : (s.returnMachine).tid = s.tid := rfl
@[simp] theorem State.returnMachine_hpid (s : State) : (s.returnMachine).hpid = s.hpid := rfl
@[simp] theorem State.returnMachine_tptr (s : State) : (s.returnMachine).tptr = s.tptr := rfl
@[simp] theorem State.returnMachine_wdt (s : State) : (s.returnMachine).wdt = s.wdt := rfl
@[simp] theorem State.returnMachine_queue (s : State) : (s.returnMachine).queue = s.queue := rfl
@[simp] theorem State.returnMachine_mem (s : State) : (s.returnMachine).mem = s.mem := rfl
@[simp] theorem State.returnMachine_dirty (s : State) : (s.returnMachine).dirty = s.dirty := rfl
@[simp] theorem State.returnMachine_racing (s : State) : (s.returnMachine).racing = s.racing := rfl
@[simp] theorem State.returnMachine_inputs (s : State) : (s.returnMachine).inputs = s.inputs := rfl
@[simp] theorem State.returnMachine_cycles (s : State) : (s.returnMachine).cycles = s.cycles := rfl
@[simp] theorem State.returnMachine_draws (s : State) : (s.returnMachine).draws = s.draws := rfl

/-! ### returnUser -/

@[simp] theorem State.returnUser_cfg (s : State) : (s.returnUser).cfg = s.cfg := rfl
@[simp] theorem State.returnUser_x (s : State) : (s.returnUser).x = s.x := rfl
@[simp] theorem State.returnUser_vr (s : State) : (s.returnUser).vr = s.vr := rfl
@[simp] theorem State.returnUser_h (s : State) : (s.returnUser).h = s.h := rfl
@[simp] theorem State.returnUser_c (s : State) : (s.returnUser).c = s.c := rfl
@[simp] theorem State.returnUser_pc (s : State) : (s.returnUser).pc = s.u.epc := rfl
@[simp] theorem State.returnUser_sr (s : State) : (s.returnUser).sr = (s.sr.withUnprivileged s.u.esr).present s.cfg := rfl
@[simp] theorem State.returnUser_vsh (s : State) : (s.returnUser).vsh = s.vsh := rfl
@[simp] theorem State.returnUser_vm1 (s : State) : (s.returnUser).vm1 = s.vm1 := rfl
@[simp] theorem State.returnUser_vm2 (s : State) : (s.returnUser).vm2 = s.vm2 := rfl
@[simp] theorem State.returnUser_vm3 (s : State) : (s.returnUser).vm3 = s.vm3 := rfl
@[simp] theorem State.returnUser_u (s : State) : (s.returnUser).u = { s.u with inHandler := false } := rfl
@[simp] theorem State.returnUser_m (s : State) : (s.returnUser).m = s.m := rfl
@[simp] theorem State.returnUser_pfpa (s : State) : (s.returnUser).pfpa = s.pfpa := rfl
@[simp] theorem State.returnUser_usage (s : State) : (s.returnUser).usage = s.usage := rfl
@[simp] theorem State.returnUser_pid (s : State) : (s.returnUser).pid = s.pid := rfl
@[simp] theorem State.returnUser_tid (s : State) : (s.returnUser).tid = s.tid := rfl
@[simp] theorem State.returnUser_hpid (s : State) : (s.returnUser).hpid = s.hpid := rfl
@[simp] theorem State.returnUser_tptr (s : State) : (s.returnUser).tptr = s.tptr := rfl
@[simp] theorem State.returnUser_wdt (s : State) : (s.returnUser).wdt = s.wdt := rfl
@[simp] theorem State.returnUser_queue (s : State) : (s.returnUser).queue = s.queue := rfl
@[simp] theorem State.returnUser_mem (s : State) : (s.returnUser).mem = s.mem := rfl
@[simp] theorem State.returnUser_dirty (s : State) : (s.returnUser).dirty = s.dirty := rfl
@[simp] theorem State.returnUser_racing (s : State) : (s.returnUser).racing = s.racing := rfl
@[simp] theorem State.returnUser_inputs (s : State) : (s.returnUser).inputs = s.inputs := rfl
@[simp] theorem State.returnUser_cycles (s : State) : (s.returnUser).cycles = s.cycles := rfl
@[simp] theorem State.returnUser_draws (s : State) : (s.returnUser).draws = s.draws := rfl

/-! ### demote -/

@[simp] theorem State.demote_cfg (s : State) : (s.demote).cfg = s.cfg := rfl
@[simp] theorem State.demote_x (s : State) : (s.demote).x = s.x := rfl
@[simp] theorem State.demote_vr (s : State) : (s.demote).vr = s.vr := rfl
@[simp] theorem State.demote_h (s : State) : (s.demote).h = s.h := rfl
@[simp] theorem State.demote_c (s : State) : (s.demote).c = s.c := rfl
@[simp] theorem State.demote_pc (s : State) : (s.demote).pc = s.u.epc := rfl
@[simp] theorem State.demote_sr (s : State) : (s.demote).sr = { s.u.esr.present s.cfg with pmod := 1, wdte := 1 } := rfl
@[simp] theorem State.demote_vsh (s : State) : (s.demote).vsh = s.vsh := rfl
@[simp] theorem State.demote_vm1 (s : State) : (s.demote).vm1 = s.vm1 := rfl
@[simp] theorem State.demote_vm2 (s : State) : (s.demote).vm2 = s.vm2 := rfl
@[simp] theorem State.demote_vm3 (s : State) : (s.demote).vm3 = s.vm3 := rfl
@[simp] theorem State.demote_u (s : State) : (s.demote).u = { s.u with inHandler := false } := rfl
@[simp] theorem State.demote_m (s : State) : (s.demote).m = s.m := rfl
@[simp] theorem State.demote_pfpa (s : State) : (s.demote).pfpa = s.pfpa := rfl
@[simp] theorem State.demote_usage (s : State) : (s.demote).usage = s.usage := rfl
@[simp] theorem State.demote_pid (s : State) : (s.demote).pid = s.pid := rfl
@[simp] theorem State.demote_tid (s : State) : (s.demote).tid = s.tid := rfl
@[simp] theorem State.demote_hpid (s : State) : (s.demote).hpid = s.hpid := rfl
@[simp] theorem State.demote_tptr (s : State) : (s.demote).tptr = s.tptr := rfl
@[simp] theorem State.demote_wdt (s : State) : (s.demote).wdt = s.wdt := rfl
@[simp] theorem State.demote_queue (s : State) : (s.demote).queue = s.queue := rfl
@[simp] theorem State.demote_mem (s : State) : (s.demote).mem = s.mem := rfl
@[simp] theorem State.demote_dirty (s : State) : (s.demote).dirty = s.dirty := rfl
@[simp] theorem State.demote_racing (s : State) : (s.demote).racing = s.racing := rfl
@[simp] theorem State.demote_inputs (s : State) : (s.demote).inputs = s.inputs := rfl
@[simp] theorem State.demote_cycles (s : State) : (s.demote).cycles = s.cycles := rfl
@[simp] theorem State.demote_draws (s : State) : (s.demote).draws = s.draws := rfl

/-! ### writeX -/

@[simp] theorem State.writeX_cfg (s : State) (i v : Nat) : (s.writeX i v).cfg = s.cfg := rfl
@[simp] theorem State.writeX_x (s : State) (i v : Nat) : (s.writeX i v).x = s.x.set i (s.cfg.word v) := rfl
@[simp] theorem State.writeX_vr (s : State) (i v : Nat) : (s.writeX i v).vr = s.vr := rfl
@[simp] theorem State.writeX_h (s : State) (i v : Nat) : (s.writeX i v).h = s.h := rfl
@[simp] theorem State.writeX_c (s : State) (i v : Nat) : (s.writeX i v).c = s.c := rfl
@[simp] theorem State.writeX_pc (s : State) (i v : Nat) : (s.writeX i v).pc = s.pc := rfl
@[simp] theorem State.writeX_sr (s : State) (i v : Nat) : (s.writeX i v).sr = s.sr := rfl
@[simp] theorem State.writeX_vsh (s : State) (i v : Nat) : (s.writeX i v).vsh = s.vsh := rfl
@[simp] theorem State.writeX_vm1 (s : State) (i v : Nat) : (s.writeX i v).vm1 = s.vm1 := rfl
@[simp] theorem State.writeX_vm2 (s : State) (i v : Nat) : (s.writeX i v).vm2 = s.vm2 := rfl
@[simp] theorem State.writeX_vm3 (s : State) (i v : Nat) : (s.writeX i v).vm3 = s.vm3 := rfl
@[simp] theorem State.writeX_u (s : State) (i v : Nat) : (s.writeX i v).u = s.u := rfl
@[simp] theorem State.writeX_m (s : State) (i v : Nat) : (s.writeX i v).m = s.m := rfl
@[simp] theorem State.writeX_pfpa (s : State) (i v : Nat) : (s.writeX i v).pfpa = s.pfpa := rfl
@[simp] theorem State.writeX_usage (s : State) (i v : Nat) : (s.writeX i v).usage = { s.usage with sgprb := markUsed s.cfg s.cfg.srfs s.usage.sgprb i } := rfl
@[simp] theorem State.writeX_pid (s : State) (i v : Nat) : (s.writeX i v).pid = s.pid := rfl
@[simp] theorem State.writeX_tid (s : State) (i v : Nat) : (s.writeX i v).tid = s.tid := rfl
@[simp] theorem State.writeX_hpid (s : State) (i v : Nat) : (s.writeX i v).hpid = s.hpid := rfl
@[simp] theorem State.writeX_tptr (s : State) (i v : Nat) : (s.writeX i v).tptr = s.tptr := rfl
@[simp] theorem State.writeX_wdt (s : State) (i v : Nat) : (s.writeX i v).wdt = s.wdt := rfl
@[simp] theorem State.writeX_queue (s : State) (i v : Nat) : (s.writeX i v).queue = s.queue := rfl
@[simp] theorem State.writeX_mem (s : State) (i v : Nat) : (s.writeX i v).mem = s.mem := rfl
@[simp] theorem State.writeX_dirty (s : State) (i v : Nat) : (s.writeX i v).dirty = s.dirty := rfl
@[simp] theorem State.writeX_racing (s : State) (i v : Nat) : (s.writeX i v).racing = s.racing := rfl
@[simp] theorem State.writeX_inputs (s : State) (i v : Nat) : (s.writeX i v).inputs = s.inputs := rfl
@[simp] theorem State.writeX_cycles (s : State) (i v : Nat) : (s.writeX i v).cycles = s.cycles := rfl
@[simp] theorem State.writeX_draws (s : State) (i v : Nat) : (s.writeX i v).draws = s.draws := rfl

/-! ### writeV -/

@[simp] theorem State.writeV_cfg (s : State) (mask : MaskUse) (i v : Nat) : (s.writeV mask i v).cfg = s.cfg := rfl
@[simp] theorem State.writeV_x (s : State) (mask : MaskUse) (i v : Nat) : (s.writeV mask i v).x = s.x := rfl
@[simp] theorem State.writeV_vr (s : State) (mask : MaskUse) (i v : Nat) : (s.writeV mask i v).vr = s.vr.set i (s.masked mask (s.vr.getD i 0) (s.cfg.vword v)) := rfl
@[simp] theorem State.writeV_h (s : State) (mask : MaskUse) (i v : Nat) : (s.writeV mask i v).h = s.h := rfl
@[simp] theorem State.writeV_c (s : State) (mask : MaskUse) (i v : Nat) : (s.writeV mask i v).c = s.c := rfl
@[simp] theorem State.writeV_pc (s : State) (mask : MaskUse) (i v : Nat) : (s.writeV mask i v).pc = s.pc := rfl
@[simp] theorem State.writeV_sr (s : State) (mask : MaskUse) (i v : Nat) : (s.writeV mask i v).sr = s.sr := rfl
@[simp] theorem State.writeV_vsh (s : State) (mask : MaskUse) (i v : Nat) : (s.writeV mask i v).vsh = s.vsh := rfl
@[simp] theorem State.writeV_vm1 (s : State) (mask : MaskUse) (i v : Nat) : (s.writeV mask i v).vm1 = s.vm1 := rfl
@[simp] theorem State.writeV_vm2 (s : State) (mask : MaskUse) (i v : Nat) : (s.writeV mask i v).vm2 = s.vm2 := rfl
@[simp] theorem State.writeV_vm3 (s : State) (mask : MaskUse) (i v : Nat) : (s.writeV mask i v).vm3 = s.vm3 := rfl
@[simp] theorem State.writeV_u (s : State) (mask : MaskUse) (i v : Nat) : (s.writeV mask i v).u = s.u := rfl
@[simp] theorem State.writeV_m (s : State) (mask : MaskUse) (i v : Nat) : (s.writeV mask i v).m = s.m := rfl
@[simp] theorem State.writeV_pfpa (s : State) (mask : MaskUse) (i v : Nat) : (s.writeV mask i v).pfpa = s.pfpa := rfl
@[simp] theorem State.writeV_usage (s : State) (mask : MaskUse) (i v : Nat) : (s.writeV mask i v).usage = { s.usage with vgprb := markUsed s.cfg s.cfg.vrfs s.usage.vgprb i } := rfl
@[simp] theorem State.writeV_pid (s : State) (mask : MaskUse) (i v : Nat) : (s.writeV mask i v).pid = s.pid := rfl
@[simp] theorem State.writeV_tid (s : State) (mask : MaskUse) (i v : Nat) : (s.writeV mask i v).tid = s.tid := rfl
@[simp] theorem State.writeV_hpid (s : State) (mask : MaskUse) (i v : Nat) : (s.writeV mask i v).hpid = s.hpid := rfl
@[simp] theorem State.writeV_tptr (s : State) (mask : MaskUse) (i v : Nat) : (s.writeV mask i v).tptr = s.tptr := rfl
@[simp] theorem State.writeV_wdt (s : State) (mask : MaskUse) (i v : Nat) : (s.writeV mask i v).wdt = s.wdt := rfl
@[simp] theorem State.writeV_queue (s : State) (mask : MaskUse) (i v : Nat) : (s.writeV mask i v).queue = s.queue := rfl
@[simp] theorem State.writeV_mem (s : State) (mask : MaskUse) (i v : Nat) : (s.writeV mask i v).mem = s.mem := rfl
@[simp] theorem State.writeV_dirty (s : State) (mask : MaskUse) (i v : Nat) : (s.writeV mask i v).dirty = s.dirty := rfl
@[simp] theorem State.writeV_racing (s : State) (mask : MaskUse) (i v : Nat) : (s.writeV mask i v).racing = s.racing := rfl
@[simp] theorem State.writeV_inputs (s : State) (mask : MaskUse) (i v : Nat) : (s.writeV mask i v).inputs = s.inputs := rfl
@[simp] theorem State.writeV_cycles (s : State) (mask : MaskUse) (i v : Nat) : (s.writeV mask i v).cycles = s.cycles := rfl
@[simp] theorem State.writeV_draws (s : State) (mask : MaskUse) (i v : Nat) : (s.writeV mask i v).draws = s.draws := rfl

/-! ### writeHelperVal -/

@[simp] theorem State.writeHelperVal_cfg (s : State) (i v : Nat) : (s.writeHelperVal i v).cfg = s.cfg := rfl
@[simp] theorem State.writeHelperVal_x (s : State) (i v : Nat) : (s.writeHelperVal i v).x = s.x := rfl
@[simp] theorem State.writeHelperVal_vr (s : State) (i v : Nat) : (s.writeHelperVal i v).vr = s.vr := rfl
@[simp] theorem State.writeHelperVal_h (s : State) (i v : Nat) : (s.writeHelperVal i v).h = s.h.set i { s.h.getD i {} with val := s.cfg.word v } := rfl
@[simp] theorem State.writeHelperVal_c (s : State) (i v : Nat) : (s.writeHelperVal i v).c = s.c := rfl
@[simp] theorem State.writeHelperVal_pc (s : State) (i v : Nat) : (s.writeHelperVal i v).pc = s.pc := rfl
@[simp] theorem State.writeHelperVal_sr (s : State) (i v : Nat) : (s.writeHelperVal i v).sr = s.sr := rfl
@[simp] theorem State.writeHelperVal_vsh (s : State) (i v : Nat) : (s.writeHelperVal i v).vsh = s.vsh := rfl
@[simp] theorem State.writeHelperVal_vm1 (s : State) (i v : Nat) : (s.writeHelperVal i v).vm1 = s.vm1 := rfl
@[simp] theorem State.writeHelperVal_vm2 (s : State) (i v : Nat) : (s.writeHelperVal i v).vm2 = s.vm2 := rfl
@[simp] theorem State.writeHelperVal_vm3 (s : State) (i v : Nat) : (s.writeHelperVal i v).vm3 = s.vm3 := rfl
@[simp] theorem State.writeHelperVal_u (s : State) (i v : Nat) : (s.writeHelperVal i v).u = s.u := rfl
@[simp] theorem State.writeHelperVal_m (s : State) (i v : Nat) : (s.writeHelperVal i v).m = s.m := rfl
@[simp] theorem State.writeHelperVal_pfpa (s : State) (i v : Nat) : (s.writeHelperVal i v).pfpa = s.pfpa := rfl
@[simp] theorem State.writeHelperVal_usage (s : State) (i v : Nat) : (s.writeHelperVal i v).usage = { s.usage with hlprb := markUsed s.cfg s.cfg.hrfs s.usage.hlprb i } := rfl
@[simp] theorem State.writeHelperVal_pid (s : State) (i v : Nat) : (s.writeHelperVal i v).pid = s.pid := rfl
@[simp] theorem State.writeHelperVal_tid (s : State) (i v : Nat) : (s.writeHelperVal i v).tid = s.tid := rfl
@[simp] theorem State.writeHelperVal_hpid (s : State) (i v : Nat) : (s.writeHelperVal i v).hpid = s.hpid := rfl
@[simp] theorem State.writeHelperVal_tptr (s : State) (i v : Nat) : (s.writeHelperVal i v).tptr = s.tptr := rfl
@[simp] theorem State.writeHelperVal_wdt (s : State) (i v : Nat) : (s.writeHelperVal i v).wdt = s.wdt := rfl
@[simp] theorem State.writeHelperVal_queue (s : State) (i v : Nat) : (s.writeHelperVal i v).queue = s.queue := rfl
@[simp] theorem State.writeHelperVal_mem (s : State) (i v : Nat) : (s.writeHelperVal i v).mem = s.mem := rfl
@[simp] theorem State.writeHelperVal_dirty (s : State) (i v : Nat) : (s.writeHelperVal i v).dirty = s.dirty := rfl
@[simp] theorem State.writeHelperVal_racing (s : State) (i v : Nat) : (s.writeHelperVal i v).racing = s.racing := rfl
@[simp] theorem State.writeHelperVal_inputs (s : State) (i v : Nat) : (s.writeHelperVal i v).inputs = s.inputs := rfl
@[simp] theorem State.writeHelperVal_cycles (s : State) (i v : Nat) : (s.writeHelperVal i v).cycles = s.cycles := rfl
@[simp] theorem State.writeHelperVal_draws (s : State) (i v : Nat) : (s.writeHelperVal i v).draws = s.draws := rfl

/-! ### writeHelperMode -/

@[simp] theorem State.writeHelperMode_cfg (s : State) (i v : Nat) : (s.writeHelperMode i v).cfg = s.cfg := rfl
@[simp] theorem State.writeHelperMode_x (s : State) (i v : Nat) : (s.writeHelperMode i v).x = s.x := rfl
@[simp] theorem State.writeHelperMode_vr (s : State) (i v : Nat) : (s.writeHelperMode i v).vr = s.vr := rfl
@[simp] theorem State.writeHelperMode_h (s : State) (i v : Nat) : (s.writeHelperMode i v).h = s.h.set i { s.h.getD i {} with mode := BitVec.ofNat 8 v } := rfl
@[simp] theorem State.writeHelperMode_c (s : State) (i v : Nat) : (s.writeHelperMode i v).c = s.c := rfl
@[simp] theorem State.writeHelperMode_pc (s : State) (i v : Nat) : (s.writeHelperMode i v).pc = s.pc := rfl
@[simp] theorem State.writeHelperMode_sr (s : State) (i v : Nat) : (s.writeHelperMode i v).sr = s.sr := rfl
@[simp] theorem State.writeHelperMode_vsh (s : State) (i v : Nat) : (s.writeHelperMode i v).vsh = s.vsh := rfl
@[simp] theorem State.writeHelperMode_vm1 (s : State) (i v : Nat) : (s.writeHelperMode i v).vm1 = s.vm1 := rfl
@[simp] theorem State.writeHelperMode_vm2 (s : State) (i v : Nat) : (s.writeHelperMode i v).vm2 = s.vm2 := rfl
@[simp] theorem State.writeHelperMode_vm3 (s : State) (i v : Nat) : (s.writeHelperMode i v).vm3 = s.vm3 := rfl
@[simp] theorem State.writeHelperMode_u (s : State) (i v : Nat) : (s.writeHelperMode i v).u = s.u := rfl
@[simp] theorem State.writeHelperMode_m (s : State) (i v : Nat) : (s.writeHelperMode i v).m = s.m := rfl
@[simp] theorem State.writeHelperMode_pfpa (s : State) (i v : Nat) : (s.writeHelperMode i v).pfpa = s.pfpa := rfl
@[simp] theorem State.writeHelperMode_usage (s : State) (i v : Nat) : (s.writeHelperMode i v).usage = { s.usage with hlprb := markUsed s.cfg s.cfg.hrfs s.usage.hlprb i } := rfl
@[simp] theorem State.writeHelperMode_pid (s : State) (i v : Nat) : (s.writeHelperMode i v).pid = s.pid := rfl
@[simp] theorem State.writeHelperMode_tid (s : State) (i v : Nat) : (s.writeHelperMode i v).tid = s.tid := rfl
@[simp] theorem State.writeHelperMode_hpid (s : State) (i v : Nat) : (s.writeHelperMode i v).hpid = s.hpid := rfl
@[simp] theorem State.writeHelperMode_tptr (s : State) (i v : Nat) : (s.writeHelperMode i v).tptr = s.tptr := rfl
@[simp] theorem State.writeHelperMode_wdt (s : State) (i v : Nat) : (s.writeHelperMode i v).wdt = s.wdt := rfl
@[simp] theorem State.writeHelperMode_queue (s : State) (i v : Nat) : (s.writeHelperMode i v).queue = s.queue := rfl
@[simp] theorem State.writeHelperMode_mem (s : State) (i v : Nat) : (s.writeHelperMode i v).mem = s.mem := rfl
@[simp] theorem State.writeHelperMode_dirty (s : State) (i v : Nat) : (s.writeHelperMode i v).dirty = s.dirty := rfl
@[simp] theorem State.writeHelperMode_racing (s : State) (i v : Nat) : (s.writeHelperMode i v).racing = s.racing := rfl
@[simp] theorem State.writeHelperMode_inputs (s : State) (i v : Nat) : (s.writeHelperMode i v).inputs = s.inputs := rfl
@[simp] theorem State.writeHelperMode_cycles (s : State) (i v : Nat) : (s.writeHelperMode i v).cycles = s.cycles := rfl
@[simp] theorem State.writeHelperMode_draws (s : State) (i v : Nat) : (s.writeHelperMode i v).draws = s.draws := rfl

/-! ### writeCounterVal -/

@[simp] theorem State.writeCounterVal_cfg (s : State) (i v : Nat) : (s.writeCounterVal i v).cfg = s.cfg := rfl
@[simp] theorem State.writeCounterVal_x (s : State) (i v : Nat) : (s.writeCounterVal i v).x = s.x := rfl
@[simp] theorem State.writeCounterVal_vr (s : State) (i v : Nat) : (s.writeCounterVal i v).vr = s.vr := rfl
@[simp] theorem State.writeCounterVal_h (s : State) (i v : Nat) : (s.writeCounterVal i v).h = s.h := rfl
@[simp] theorem State.writeCounterVal_c (s : State) (i v : Nat) : (s.writeCounterVal i v).c = s.c.set i { s.c.getD i {} with val := s.cfg.counter v } := rfl
@[simp] theorem State.writeCounterVal_pc (s : State) (i v : Nat) : (s.writeCounterVal i v).pc = s.pc := rfl
@[simp] theorem State.writeCounterVal_sr (s : State) (i v : Nat) : (s.writeCounterVal i v).sr = s.sr := rfl
@[simp] theorem State.writeCounterVal_vsh (s : State) (i v : Nat) : (s.writeCounterVal i v).vsh = s.vsh := rfl
@[simp] theorem State.writeCounterVal_vm1 (s : State) (i v : Nat) : (s.writeCounterVal i v).vm1 = s.vm1 := rfl
@[simp] theorem State.writeCounterVal_vm2 (s : State) (i v : Nat) : (s.writeCounterVal i v).vm2 = s.vm2 := rfl
@[simp] theorem State.writeCounterVal_vm3 (s : State) (i v : Nat) : (s.writeCounterVal i v).vm3 = s.vm3 := rfl
@[simp] theorem State.writeCounterVal_u (s : State) (i v : Nat) : (s.writeCounterVal i v).u = s.u := rfl
@[simp] theorem State.writeCounterVal_m (s : State) (i v : Nat) : (s.writeCounterVal i v).m = s.m := rfl
@[simp] theorem State.writeCounterVal_pfpa (s : State) (i v : Nat) : (s.writeCounterVal i v).pfpa = s.pfpa := rfl
@[simp] theorem State.writeCounterVal_usage (s : State) (i v : Nat) : (s.writeCounterVal i v).usage = { s.usage with perfcb := markUsed s.cfg s.cfg.crfs s.usage.perfcb i } := rfl
@[simp] theorem State.writeCounterVal_pid (s : State) (i v : Nat) : (s.writeCounterVal i v).pid = s.pid := rfl
@[simp] theorem State.writeCounterVal_tid (s : State) (i v : Nat) : (s.writeCounterVal i v).tid = s.tid := rfl
@[simp] theorem State.writeCounterVal_hpid (s : State) (i v : Nat) : (s.writeCounterVal i v).hpid = s.hpid := rfl
@[simp] theorem State.writeCounterVal_tptr (s : State) (i v : Nat) : (s.writeCounterVal i v).tptr = s.tptr := rfl
@[simp] theorem State.writeCounterVal_wdt (s : State) (i v : Nat) : (s.writeCounterVal i v).wdt = s.wdt := rfl
@[simp] theorem State.writeCounterVal_queue (s : State) (i v : Nat) : (s.writeCounterVal i v).queue = s.queue := rfl
@[simp] theorem State.writeCounterVal_mem (s : State) (i v : Nat) : (s.writeCounterVal i v).mem = s.mem := rfl
@[simp] theorem State.writeCounterVal_dirty (s : State) (i v : Nat) : (s.writeCounterVal i v).dirty = s.dirty := rfl
@[simp] theorem State.writeCounterVal_racing (s : State) (i v : Nat) : (s.writeCounterVal i v).racing = s.racing := rfl
@[simp] theorem State.writeCounterVal_inputs (s : State) (i v : Nat) : (s.writeCounterVal i v).inputs = s.inputs := rfl
@[simp] theorem State.writeCounterVal_cycles (s : State) (i v : Nat) : (s.writeCounterVal i v).cycles = s.cycles := rfl
@[simp] theorem State.writeCounterVal_draws (s : State) (i v : Nat) : (s.writeCounterVal i v).draws = s.draws := rfl

/-! ### writeCounterMode -/

@[simp] theorem State.writeCounterMode_cfg (s : State) (i v : Nat) : (s.writeCounterMode i v).cfg = s.cfg := rfl
@[simp] theorem State.writeCounterMode_x (s : State) (i v : Nat) : (s.writeCounterMode i v).x = s.x := rfl
@[simp] theorem State.writeCounterMode_vr (s : State) (i v : Nat) : (s.writeCounterMode i v).vr = s.vr := rfl
@[simp] theorem State.writeCounterMode_h (s : State) (i v : Nat) : (s.writeCounterMode i v).h = s.h := rfl
@[simp] theorem State.writeCounterMode_c (s : State) (i v : Nat) : (s.writeCounterMode i v).c = s.c.set i { s.c.getD i {} with mode := BitVec.ofNat 8 v } := rfl
@[simp] theorem State.writeCounterMode_pc (s : State) (i v : Nat) : (s.writeCounterMode i v).pc = s.pc := rfl
@[simp] theorem State.writeCounterMode_sr (s : State) (i v : Nat) : (s.writeCounterMode i v).sr = s.sr := rfl
@[simp] theorem State.writeCounterMode_vsh (s : State) (i v : Nat) : (s.writeCounterMode i v).vsh = s.vsh := rfl
@[simp] theorem State.writeCounterMode_vm1 (s : State) (i v : Nat) : (s.writeCounterMode i v).vm1 = s.vm1 := rfl
@[simp] theorem State.writeCounterMode_vm2 (s : State) (i v : Nat) : (s.writeCounterMode i v).vm2 = s.vm2 := rfl
@[simp] theorem State.writeCounterMode_vm3 (s : State) (i v : Nat) : (s.writeCounterMode i v).vm3 = s.vm3 := rfl
@[simp] theorem State.writeCounterMode_u (s : State) (i v : Nat) : (s.writeCounterMode i v).u = s.u := rfl
@[simp] theorem State.writeCounterMode_m (s : State) (i v : Nat) : (s.writeCounterMode i v).m = s.m := rfl
@[simp] theorem State.writeCounterMode_pfpa (s : State) (i v : Nat) : (s.writeCounterMode i v).pfpa = s.pfpa := rfl
@[simp] theorem State.writeCounterMode_usage (s : State) (i v : Nat) : (s.writeCounterMode i v).usage = { s.usage with perfcb := markUsed s.cfg s.cfg.crfs s.usage.perfcb i } := rfl
@[simp] theorem State.writeCounterMode_pid (s : State) (i v : Nat) : (s.writeCounterMode i v).pid = s.pid := rfl
@[simp] theorem State.writeCounterMode_tid (s : State) (i v : Nat) : (s.writeCounterMode i v).tid = s.tid := rfl
@[simp] theorem State.writeCounterMode_hpid (s : State) (i v : Nat) : (s.writeCounterMode i v).hpid = s.hpid := rfl
@[simp] theorem State.writeCounterMode_tptr (s : State) (i v : Nat) : (s.writeCounterMode i v).tptr = s.tptr := rfl
@[simp] theorem State.writeCounterMode_wdt (s : State) (i v : Nat) : (s.writeCounterMode i v).wdt = s.wdt := rfl
@[simp] theorem State.writeCounterMode_queue (s : State) (i v : Nat) : (s.writeCounterMode i v).queue = s.queue := rfl
@[simp] theorem State.writeCounterMode_mem (s : State) (i v : Nat) : (s.writeCounterMode i v).mem = s.mem := rfl
@[simp] theorem State.writeCounterMode_dirty (s : State) (i v : Nat) : (s.writeCounterMode i v).dirty = s.dirty := rfl
@[simp] theorem State.writeCounterMode_racing (s : State) (i v : Nat) : (s.writeCounterMode i v).racing = s.racing := rfl
@[simp] theorem State.writeCounterMode_inputs (s : State) (i v : Nat) : (s.writeCounterMode i v).inputs = s.inputs := rfl
@[simp] theorem State.writeCounterMode_cycles (s : State) (i v : Nat) : (s.writeCounterMode i v).cycles = s.cycles := rfl
@[simp] theorem State.writeCounterMode_draws (s : State) (i v : Nat) : (s.writeCounterMode i v).draws = s.draws := rfl

/-! ### storeByte -/

@[simp] theorem State.storeByte_cfg (s : State) (addr : Nat) (b : Byte) : (s.storeByte addr b).cfg = s.cfg := rfl
@[simp] theorem State.storeByte_x (s : State) (addr : Nat) (b : Byte) : (s.storeByte addr b).x = s.x := rfl
@[simp] theorem State.storeByte_vr (s : State) (addr : Nat) (b : Byte) : (s.storeByte addr b).vr = s.vr := rfl
@[simp] theorem State.storeByte_h (s : State) (addr : Nat) (b : Byte) : (s.storeByte addr b).h = s.h := rfl
@[simp] theorem State.storeByte_c (s : State) (addr : Nat) (b : Byte) : (s.storeByte addr b).c = s.c := rfl
@[simp] theorem State.storeByte_pc (s : State) (addr : Nat) (b : Byte) : (s.storeByte addr b).pc = s.pc := rfl
@[simp] theorem State.storeByte_sr (s : State) (addr : Nat) (b : Byte) : (s.storeByte addr b).sr = s.sr := rfl
@[simp] theorem State.storeByte_vsh (s : State) (addr : Nat) (b : Byte) : (s.storeByte addr b).vsh = s.vsh := rfl
@[simp] theorem State.storeByte_vm1 (s : State) (addr : Nat) (b : Byte) : (s.storeByte addr b).vm1 = s.vm1 := rfl
@[simp] theorem State.storeByte_vm2 (s : State) (addr : Nat) (b : Byte) : (s.storeByte addr b).vm2 = s.vm2 := rfl
@[simp] theorem State.storeByte_vm3 (s : State) (addr : Nat) (b : Byte) : (s.storeByte addr b).vm3 = s.vm3 := rfl
@[simp] theorem State.storeByte_u (s : State) (addr : Nat) (b : Byte) : (s.storeByte addr b).u = s.u := rfl
@[simp] theorem State.storeByte_m (s : State) (addr : Nat) (b : Byte) : (s.storeByte addr b).m = s.m := rfl
@[simp] theorem State.storeByte_pfpa (s : State) (addr : Nat) (b : Byte) : (s.storeByte addr b).pfpa = s.pfpa := rfl
@[simp] theorem State.storeByte_usage (s : State) (addr : Nat) (b : Byte) : (s.storeByte addr b).usage = s.usage := rfl
@[simp] theorem State.storeByte_pid (s : State) (addr : Nat) (b : Byte) : (s.storeByte addr b).pid = s.pid := rfl
@[simp] theorem State.storeByte_tid (s : State) (addr : Nat) (b : Byte) : (s.storeByte addr b).tid = s.tid := rfl
@[simp] theorem State.storeByte_hpid (s : State) (addr : Nat) (b : Byte) : (s.storeByte addr b).hpid = s.hpid := rfl
@[simp] theorem State.storeByte_tptr (s : State) (addr : Nat) (b : Byte) : (s.storeByte addr b).tptr = s.tptr := rfl
@[simp] theorem State.storeByte_wdt (s : State) (addr : Nat) (b : Byte) : (s.storeByte addr b).wdt = s.wdt := rfl
@[simp] theorem State.storeByte_queue (s : State) (addr : Nat) (b : Byte) : (s.storeByte addr b).queue = s.queue := rfl
@[simp] theorem State.storeByte_mem (s : State) (addr : Nat) (b : Byte) : (s.storeByte addr b).mem = Memory.write s.mem addr b := rfl
@[simp] theorem State.storeByte_dirty (s : State) (addr : Nat) (b : Byte) : (s.storeByte addr b).dirty = noteAddr s.dirty addr := rfl
@[simp] theorem State.storeByte_racing (s : State) (addr : Nat) (b : Byte) : (s.storeByte addr b).racing = s.racing := rfl
@[simp] theorem State.storeByte_inputs (s : State) (addr : Nat) (b : Byte) : (s.storeByte addr b).inputs = s.inputs := rfl
@[simp] theorem State.storeByte_cycles (s : State) (addr : Nat) (b : Byte) : (s.storeByte addr b).cycles = s.cycles := rfl
@[simp] theorem State.storeByte_draws (s : State) (addr : Nat) (b : Byte) : (s.storeByte addr b).draws = s.draws := rfl

/-! ### drawn -/

@[simp] theorem State.drawn_cfg (s : State) (n : Nat) : (s.drawn n).cfg = s.cfg := rfl
@[simp] theorem State.drawn_x (s : State) (n : Nat) : (s.drawn n).x = s.x := rfl
@[simp] theorem State.drawn_vr (s : State) (n : Nat) : (s.drawn n).vr = s.vr := rfl
@[simp] theorem State.drawn_h (s : State) (n : Nat) : (s.drawn n).h = s.h := rfl
@[simp] theorem State.drawn_c (s : State) (n : Nat) : (s.drawn n).c = s.c := rfl
@[simp] theorem State.drawn_pc (s : State) (n : Nat) : (s.drawn n).pc = s.pc := rfl
@[simp] theorem State.drawn_sr (s : State) (n : Nat) : (s.drawn n).sr = s.sr := rfl
@[simp] theorem State.drawn_vsh (s : State) (n : Nat) : (s.drawn n).vsh = s.vsh := rfl
@[simp] theorem State.drawn_vm1 (s : State) (n : Nat) : (s.drawn n).vm1 = s.vm1 := rfl
@[simp] theorem State.drawn_vm2 (s : State) (n : Nat) : (s.drawn n).vm2 = s.vm2 := rfl
@[simp] theorem State.drawn_vm3 (s : State) (n : Nat) : (s.drawn n).vm3 = s.vm3 := rfl
@[simp] theorem State.drawn_u (s : State) (n : Nat) : (s.drawn n).u = s.u := rfl
@[simp] theorem State.drawn_m (s : State) (n : Nat) : (s.drawn n).m = s.m := rfl
@[simp] theorem State.drawn_pfpa (s : State) (n : Nat) : (s.drawn n).pfpa = s.pfpa := rfl
@[simp] theorem State.drawn_usage (s : State) (n : Nat) : (s.drawn n).usage = s.usage := rfl
@[simp] theorem State.drawn_pid (s : State) (n : Nat) : (s.drawn n).pid = s.pid := rfl
@[simp] theorem State.drawn_tid (s : State) (n : Nat) : (s.drawn n).tid = s.tid := rfl
@[simp] theorem State.drawn_hpid (s : State) (n : Nat) : (s.drawn n).hpid = s.hpid := rfl
@[simp] theorem State.drawn_tptr (s : State) (n : Nat) : (s.drawn n).tptr = s.tptr := rfl
@[simp] theorem State.drawn_wdt (s : State) (n : Nat) : (s.drawn n).wdt = s.wdt := rfl
@[simp] theorem State.drawn_queue (s : State) (n : Nat) : (s.drawn n).queue = s.queue := rfl
@[simp] theorem State.drawn_mem (s : State) (n : Nat) : (s.drawn n).mem = s.mem := rfl
@[simp] theorem State.drawn_dirty (s : State) (n : Nat) : (s.drawn n).dirty = s.dirty := rfl
@[simp] theorem State.drawn_racing (s : State) (n : Nat) : (s.drawn n).racing = s.racing := rfl
@[simp] theorem State.drawn_inputs (s : State) (n : Nat) : (s.drawn n).inputs = s.inputs := rfl
@[simp] theorem State.drawn_cycles (s : State) (n : Nat) : (s.drawn n).cycles = s.cycles := rfl
@[simp] theorem State.drawn_draws (s : State) (n : Nat) : (s.drawn n).draws = n := rfl

/-! ### post: the fields it leaves alone -/

@[simp] theorem State.post_cfg (s : State) (e : Event) : (s.post e).cfg = s.cfg := by
  unfold State.post; split <;> rfl
@[simp] theorem State.post_x (s : State) (e : Event) : (s.post e).x = s.x := by
  unfold State.post; split <;> rfl
@[simp] theorem State.post_vr (s : State) (e : Event) : (s.post e).vr = s.vr := by
  unfold State.post; split <;> rfl
@[simp] theorem State.post_h (s : State) (e : Event) : (s.post e).h = s.h := by
  unfold State.post; split <;> rfl
@[simp] theorem State.post_c (s : State) (e : Event) : (s.post e).c = s.c := by
  unfold State.post; split <;> rfl
@[simp] theorem State.post_pc (s : State) (e : Event) : (s.post e).pc = s.pc := by
  unfold State.post; split <;> rfl
@[simp] theorem State.post_sr (s : State) (e : Event) : (s.post e).sr = s.sr := by
  unfold State.post; split <;> rfl
@[simp] theorem State.post_vsh (s : State) (e : Event) : (s.post e).vsh = s.vsh := by
  unfold State.post; split <;> rfl
@[simp] theorem State.post_vm1 (s : State) (e : Event) : (s.post e).vm1 = s.vm1 := by
  unfold State.post; split <;> rfl
@[simp] theorem State.post_vm2 (s : State) (e : Event) : (s.post e).vm2 = s.vm2 := by
  unfold State.post; split <;> rfl
@[simp] theorem State.post_vm3 (s : State) (e : Event) : (s.post e).vm3 = s.vm3 := by
  unfold State.post; split <;> rfl
@[simp] theorem State.post_u (s : State) (e : Event) : (s.post e).u = s.u := by
  unfold State.post; split <;> rfl
@[simp] theorem State.post_m (s : State) (e : Event) : (s.post e).m = s.m := by
  unfold State.post; split <;> rfl
@[simp] theorem State.post_pfpa (s : State) (e : Event) : (s.post e).pfpa = s.pfpa := by
  unfold State.post; split <;> rfl
@[simp] theorem State.post_usage (s : State) (e : Event) : (s.post e).usage = s.usage := by
  unfold State.post; split <;> rfl
@[simp] theorem State.post_pid (s : State) (e : Event) : (s.post e).pid = s.pid := by
  unfold State.post; split <;> rfl
@[simp] theorem State.post_tid (s : State) (e : Event) : (s.post e).tid = s.tid := by
  unfold State.post; split <;> rfl
@[simp] theorem State.post_hpid (s : State) (e : Event) : (s.post e).hpid = s.hpid := by
  unfold State.post; split <;> rfl
@[simp] theorem State.post_tptr (s : State) (e : Event) : (s.post e).tptr = s.tptr := by
  unfold State.post; split <;> rfl
@[simp] theorem State.post_wdt (s : State) (e : Event) : (s.post e).wdt = s.wdt := by
  unfold State.post; split <;> rfl
@[simp] theorem State.post_mem (s : State) (e : Event) : (s.post e).mem = s.mem := by
  unfold State.post; split <;> rfl
@[simp] theorem State.post_dirty (s : State) (e : Event) : (s.post e).dirty = s.dirty := by
  unfold State.post; split <;> rfl
@[simp] theorem State.post_racing (s : State) (e : Event) : (s.post e).racing = s.racing := by
  unfold State.post; split <;> rfl
@[simp] theorem State.post_inputs (s : State) (e : Event) : (s.post e).inputs = s.inputs := by
  unfold State.post; split <;> rfl
@[simp] theorem State.post_cycles (s : State) (e : Event) : (s.post e).cycles = s.cycles := by
  unfold State.post; split <;> rfl
@[simp] theorem State.post_draws (s : State) (e : Event) : (s.post e).draws = s.draws := by
  unfold State.post; split <;> rfl

/-! ### retire: the fields it leaves alone -/

@[simp] theorem State.retire_cfg (s : State) (s0 : State) (k : Retired) : (State.retire s0 k s).cfg = s.cfg := by
  unfold State.retire; split <;> rfl
@[simp] theorem State.retire_x (s : State) (s0 : State) (k : Retired) : (State.retire s0 k s).x = s.x := by
  unfold State.retire; split <;> rfl
@[simp] theorem State.retire_vr (s : State) (s0 : State) (k : Retired) : (State.retire s0 k s).vr = s.vr := by
  unfold State.retire; split <;> rfl
@[simp] theorem State.retire_h (s : State) (s0 : State) (k : Retired) : (State.retire s0 k s).h = s.h := by
  unfold State.retire; split <;> rfl
@[simp] theorem State.retire_pc (s : State) (s0 : State) (k : Retired) : (State.retire s0 k s).pc = s.pc := by
  unfold State.retire; split <;> rfl
@[simp] theorem State.retire_sr (s : State) (s0 : State) (k : Retired) : (State.retire s0 k s).sr = s.sr := by
  unfold State.retire; split <;> rfl
@[simp] theorem State.retire_vsh (s : State) (s0 : State) (k : Retired) : (State.retire s0 k s).vsh = s.vsh := by
  unfold State.retire; split <;> rfl
@[simp] theorem State.retire_vm1 (s : State) (s0 : State) (k : Retired) : (State.retire s0 k s).vm1 = s.vm1 := by
  unfold State.retire; split <;> rfl
@[simp] theorem State.retire_vm2 (s : State) (s0 : State) (k : Retired) : (State.retire s0 k s).vm2 = s.vm2 := by
  unfold State.retire; split <;> rfl
@[simp] theorem State.retire_vm3 (s : State) (s0 : State) (k : Retired) : (State.retire s0 k s).vm3 = s.vm3 := by
  unfold State.retire; split <;> rfl
@[simp] theorem State.retire_u (s : State) (s0 : State) (k : Retired) : (State.retire s0 k s).u = s.u := by
  unfold State.retire; split <;> rfl
@[simp] theorem State.retire_m (s : State) (s0 : State) (k : Retired) : (State.retire s0 k s).m = s.m := by
  unfold State.retire; split <;> rfl
@[simp] theorem State.retire_pfpa (s : State) (s0 : State) (k : Retired) : (State.retire s0 k s).pfpa = s.pfpa := by
  unfold State.retire; split <;> rfl
@[simp] theorem State.retire_usage (s : State) (s0 : State) (k : Retired) : (State.retire s0 k s).usage = s.usage := by
  unfold State.retire; split <;> rfl
@[simp] theorem State.retire_pid (s : State) (s0 : State) (k : Retired) : (State.retire s0 k s).pid = s.pid := by
  unfold State.retire; split <;> rfl
@[simp] theorem State.retire_tid (s : State) (s0 : State) (k : Retired) : (State.retire s0 k s).tid = s.tid := by
  unfold State.retire; split <;> rfl
@[simp] theorem State.retire_hpid (s : State) (s0 : State) (k : Retired) : (State.retire s0 k s).hpid = s.hpid := by
  unfold State.retire; split <;> rfl
@[simp] theorem State.retire_tptr (s : State) (s0 : State) (k : Retired) : (State.retire s0 k s).tptr = s.tptr := by
  unfold State.retire; split <;> rfl
@[simp] theorem State.retire_wdt (s : State) (s0 : State) (k : Retired) : (State.retire s0 k s).wdt = s.wdt := by
  unfold State.retire; split <;> rfl
@[simp] theorem State.retire_queue (s : State) (s0 : State) (k : Retired) : (State.retire s0 k s).queue = s.queue := by
  unfold State.retire; split <;> rfl
@[simp] theorem State.retire_mem (s : State) (s0 : State) (k : Retired) : (State.retire s0 k s).mem = s.mem := by
  unfold State.retire; split <;> rfl
@[simp] theorem State.retire_dirty (s : State) (s0 : State) (k : Retired) : (State.retire s0 k s).dirty = s.dirty := by
  unfold State.retire; split <;> rfl
@[simp] theorem State.retire_racing (s : State) (s0 : State) (k : Retired) : (State.retire s0 k s).racing = s.racing := by
  unfold State.retire; split <;> rfl
@[simp] theorem State.retire_inputs (s : State) (s0 : State) (k : Retired) : (State.retire s0 k s).inputs = s.inputs := by
  unfold State.retire; split <;> rfl
@[simp] theorem State.retire_cycles (s : State) (s0 : State) (k : Retired) : (State.retire s0 k s).cycles = s.cycles := by
  unfold State.retire; split <;> rfl
@[simp] theorem State.retire_draws (s : State) (s0 : State) (k : Retired) : (State.retire s0 k s).draws = s.draws := by
  unfold State.retire; split <;> rfl

/-! ### passTime: the fields it leaves alone -/

@[simp] theorem State.passTime_cfg (s : State) : (s.passTime).cfg = s.cfg := by
  unfold State.passTime; split <;> rfl
@[simp] theorem State.passTime_x (s : State) : (s.passTime).x = s.x := by
  unfold State.passTime; split <;> rfl
@[simp] theorem State.passTime_vr (s : State) : (s.passTime).vr = s.vr := by
  unfold State.passTime; split <;> rfl
@[simp] theorem State.passTime_h (s : State) : (s.passTime).h = s.h := by
  unfold State.passTime; split <;> rfl
@[simp] theorem State.passTime_pc (s : State) : (s.passTime).pc = s.pc := by
  unfold State.passTime; split <;> rfl
@[simp] theorem State.passTime_sr (s : State) : (s.passTime).sr = s.sr := by
  unfold State.passTime; split <;> rfl
@[simp] theorem State.passTime_vsh (s : State) : (s.passTime).vsh = s.vsh := by
  unfold State.passTime; split <;> rfl
@[simp] theorem State.passTime_vm1 (s : State) : (s.passTime).vm1 = s.vm1 := by
  unfold State.passTime; split <;> rfl
@[simp] theorem State.passTime_vm2 (s : State) : (s.passTime).vm2 = s.vm2 := by
  unfold State.passTime; split <;> rfl
@[simp] theorem State.passTime_vm3 (s : State) : (s.passTime).vm3 = s.vm3 := by
  unfold State.passTime; split <;> rfl
@[simp] theorem State.passTime_u (s : State) : (s.passTime).u = s.u := by
  unfold State.passTime; split <;> rfl
@[simp] theorem State.passTime_m (s : State) : (s.passTime).m = s.m := by
  unfold State.passTime; split <;> rfl
@[simp] theorem State.passTime_pfpa (s : State) : (s.passTime).pfpa = s.pfpa := by
  unfold State.passTime; split <;> rfl
@[simp] theorem State.passTime_usage (s : State) : (s.passTime).usage = s.usage := by
  unfold State.passTime; split <;> rfl
@[simp] theorem State.passTime_pid (s : State) : (s.passTime).pid = s.pid := by
  unfold State.passTime; split <;> rfl
@[simp] theorem State.passTime_tid (s : State) : (s.passTime).tid = s.tid := by
  unfold State.passTime; split <;> rfl
@[simp] theorem State.passTime_hpid (s : State) : (s.passTime).hpid = s.hpid := by
  unfold State.passTime; split <;> rfl
@[simp] theorem State.passTime_tptr (s : State) : (s.passTime).tptr = s.tptr := by
  unfold State.passTime; split <;> rfl
@[simp] theorem State.passTime_wdt (s : State) : (s.passTime).wdt = s.wdt := by
  unfold State.passTime; split <;> rfl
@[simp] theorem State.passTime_queue (s : State) : (s.passTime).queue = s.queue := by
  unfold State.passTime; split <;> rfl
@[simp] theorem State.passTime_mem (s : State) : (s.passTime).mem = s.mem := by
  unfold State.passTime; split <;> rfl
@[simp] theorem State.passTime_dirty (s : State) : (s.passTime).dirty = s.dirty := by
  unfold State.passTime; split <;> rfl
@[simp] theorem State.passTime_racing (s : State) : (s.passTime).racing = s.racing := by
  unfold State.passTime; split <;> rfl
@[simp] theorem State.passTime_inputs (s : State) : (s.passTime).inputs = s.inputs := by
  unfold State.passTime; split <;> rfl
@[simp] theorem State.passTime_cycles (s : State) : (s.passTime).cycles = s.cycles := by
  unfold State.passTime; split <;> rfl

/-! ### settle and settleAll: the fields they leave alone -/

/-- Landing writes changes memory and the note of written locations only. -/
theorem State.land_frame (s : State) (l : List Race) :
    s.land l = { s with mem := (s.land l).mem, dirty := (s.land l).dirty } := by
  induction l generalizing s with
  | nil => rfl
  | cons r rest ih =>
    simp only [State.land]
    rw [ih]
    rfl

/-- Settling changes memory, the note of written locations and the races only. -/
theorem State.settle_frame (s : State) (k : Nat) :
    s.settle k = { s with
      mem := (s.settle k).mem, dirty := (s.settle k).dirty, racing := (s.settle k).racing } := by
  unfold State.settle
  rw [State.land_frame]

theorem State.settleAll_frame (s : State) :
    s.settleAll = { s with mem := s.settleAll.mem, dirty := s.settleAll.dirty, racing := [] } := by
  unfold State.settleAll
  rw [State.land_frame]

/-- With nothing racing, settling changes nothing. -/
theorem State.settle_of_nil {s : State} (k : Nat) (h : s.racing = []) : s.settle k = s := by
  cases s
  cases h
  rfl

theorem State.settleAll_of_nil {s : State} (h : s.racing = []) : s.settleAll = s := by
  cases s
  cases h
  rfl

@[simp] theorem State.settleAll_racing (s : State) : s.settleAll.racing = [] := rfl
@[simp] theorem State.settle_cfg (s : State) (k : Nat) : (s.settle k).cfg = s.cfg := by
  rw [State.settle_frame]
@[simp] theorem State.settle_x (s : State) (k : Nat) : (s.settle k).x = s.x := by
  rw [State.settle_frame]
@[simp] theorem State.settle_vr (s : State) (k : Nat) : (s.settle k).vr = s.vr := by
  rw [State.settle_frame]
@[simp] theorem State.settle_h (s : State) (k : Nat) : (s.settle k).h = s.h := by
  rw [State.settle_frame]
@[simp] theorem State.settle_c (s : State) (k : Nat) : (s.settle k).c = s.c := by
  rw [State.settle_frame]
@[simp] theorem State.settle_pc (s : State) (k : Nat) : (s.settle k).pc = s.pc := by
  rw [State.settle_frame]
@[simp] theorem State.settle_sr (s : State) (k : Nat) : (s.settle k).sr = s.sr := by
  rw [State.settle_frame]
@[simp] theorem State.settle_vsh (s : State) (k : Nat) : (s.settle k).vsh = s.vsh := by
  rw [State.settle_frame]
@[simp] theorem State.settle_vm1 (s : State) (k : Nat) : (s.settle k).vm1 = s.vm1 := by
  rw [State.settle_frame]
@[simp] theorem State.settle_vm2 (s : State) (k : Nat) : (s.settle k).vm2 = s.vm2 := by
  rw [State.settle_frame]
@[simp] theorem State.settle_vm3 (s : State) (k : Nat) : (s.settle k).vm3 = s.vm3 := by
  rw [State.settle_frame]
@[simp] theorem State.settle_u (s : State) (k : Nat) : (s.settle k).u = s.u := by
  rw [State.settle_frame]
@[simp] theorem State.settle_m (s : State) (k : Nat) : (s.settle k).m = s.m := by
  rw [State.settle_frame]
@[simp] theorem State.settle_pfpa (s : State) (k : Nat) : (s.settle k).pfpa = s.pfpa := by
  rw [State.settle_frame]
@[simp] theorem State.settle_usage (s : State) (k : Nat) : (s.settle k).usage = s.usage := by
  rw [State.settle_frame]
@[simp] theorem State.settle_pid (s : State) (k : Nat) : (s.settle k).pid = s.pid := by
  rw [State.settle_frame]
@[simp] theorem State.settle_tid (s : State) (k : Nat) : (s.settle k).tid = s.tid := by
  rw [State.settle_frame]
@[simp] theorem State.settle_hpid (s : State) (k : Nat) : (s.settle k).hpid = s.hpid := by
  rw [State.settle_frame]
@[simp] theorem State.settle_tptr (s : State) (k : Nat) : (s.settle k).tptr = s.tptr := by
  rw [State.settle_frame]
@[simp] theorem State.settle_wdt (s : State) (k : Nat) : (s.settle k).wdt = s.wdt := by
  rw [State.settle_frame]
@[simp] theorem State.settle_queue (s : State) (k : Nat) : (s.settle k).queue = s.queue := by
  rw [State.settle_frame]
@[simp] theorem State.settle_inputs (s : State) (k : Nat) : (s.settle k).inputs = s.inputs := by
  rw [State.settle_frame]
@[simp] theorem State.settle_cycles (s : State) (k : Nat) : (s.settle k).cycles = s.cycles := by
  rw [State.settle_frame]
@[simp] theorem State.settle_draws (s : State) (k : Nat) : (s.settle k).draws = s.draws := by
  rw [State.settle_frame]
@[simp] theorem State.settleAll_cfg (s : State) : s.settleAll.cfg = s.cfg := by
  rw [State.settleAll_frame]
@[simp] theorem State.settleAll_x (s : State) : s.settleAll.x = s.x := by
  rw [State.settleAll_frame]
@[simp] theorem State.settleAll_vr (s : State) : s.settleAll.vr = s.vr := by
  rw [State.settleAll_frame]
@[simp] theorem State.settleAll_h (s : State) : s.settleAll.h = s.h := by
  rw [State.settleAll_frame]
@[simp] theorem State.settleAll_c (s : State) : s.settleAll.c = s.c := by
  rw [State.settleAll_frame]
@[simp] theorem State.settleAll_pc (s : State) : s.settleAll.pc = s.pc := by
  rw [State.settleAll_frame]
@[simp] theorem State.settleAll_sr (s : State) : s.settleAll.sr = s.sr := by
  rw [State.settleAll_frame]
@[simp] theorem State.settleAll_vsh (s : State) : s.settleAll.vsh = s.vsh := by
  rw [State.settleAll_frame]
@[simp] theorem State.settleAll_vm1 (s : State) : s.settleAll.vm1 = s.vm1 := by
  rw [State.settleAll_frame]
@[simp] theorem State.settleAll_vm2 (s : State) : s.settleAll.vm2 = s.vm2 := by
  rw [State.settleAll_frame]
@[simp] theorem State.settleAll_vm3 (s : State) : s.settleAll.vm3 = s.vm3 := by
  rw [State.settleAll_frame]
@[simp] theorem State.settleAll_u (s : State) : s.settleAll.u = s.u := by
  rw [State.settleAll_frame]
@[simp] theorem State.settleAll_m (s : State) : s.settleAll.m = s.m := by
  rw [State.settleAll_frame]
@[simp] theorem State.settleAll_pfpa (s : State) : s.settleAll.pfpa = s.pfpa := by
  rw [State.settleAll_frame]
@[simp] theorem State.settleAll_usage (s : State) : s.settleAll.usage = s.usage := by
  rw [State.settleAll_frame]
@[simp] theorem State.settleAll_pid (s : State) : s.settleAll.pid = s.pid := by
  rw [State.settleAll_frame]
@[simp] theorem State.settleAll_tid (s : State) : s.settleAll.tid = s.tid := by
  rw [State.settleAll_frame]
@[simp] theorem State.settleAll_hpid (s : State) : s.settleAll.hpid = s.hpid := by
  rw [State.settleAll_frame]
@[simp] theorem State.settleAll_tptr (s : State) : s.settleAll.tptr = s.tptr := by
  rw [State.settleAll_frame]
@[simp] theorem State.settleAll_wdt (s : State) : s.settleAll.wdt = s.wdt := by
  rw [State.settleAll_frame]
@[simp] theorem State.settleAll_queue (s : State) : s.settleAll.queue = s.queue := by
  rw [State.settleAll_frame]
@[simp] theorem State.settleAll_inputs (s : State) : s.settleAll.inputs = s.inputs := by
  rw [State.settleAll_frame]
@[simp] theorem State.settleAll_cycles (s : State) : s.settleAll.cycles = s.cycles := by
  rw [State.settleAll_frame]
@[simp] theorem State.settleAll_draws (s : State) : s.settleAll.draws = s.draws := by
  rw [State.settleAll_frame]

end Sys2Proof.Machine
end

