-- ==== Sys2Proof/Laws/Event.lean ====
section
/-! SUPPORT. What delivering an event, taking the helper events of an instruction and running one of the five
instructions can do, said once. -/

namespace Sys2Proof.Machine

/-- Delivering an event halts the hart (a double event), or runs the privileged sequence, or, for an
exception in user mode, the unprivileged one. -/
theorem State.deliver_cases (s : State) (e : Event) :
    (s.deliver e = s.halt 2
        ∧ (s.criticalUnsaved .machine = true
          ∨ (s.criticalUnsaved .user = true ∧ s.mode = .user
              ∧ promoting (e.name.kind s.cfg) = false)))
      ∨ (s.deliver e = s.enterMachine e.cause e.data ∧ s.criticalUnsaved .machine = false
          ∧ (promoting (e.name.kind s.cfg) = true ∨ s.mode = .machine))
      ∨ (s.deliver e = s.enterUser e.cause e.data ∧ s.criticalUnsaved .user = false
          ∧ s.mode = .user ∧ promoting (e.name.kind s.cfg) = false) := by
  cases hp : promoting (e.name.kind s.cfg) <;> cases hm : s.mode <;>
    cases hcm : s.criticalUnsaved .machine <;> cases hcu : s.criticalUnsaved .user <;>
    simp [State.deliver, State.launchMachine, State.launchUser, hp, hm, hcm, hcu]

/-- Taking helper events that answers a next state: none fired, or the first in index order is
delivered with the others queued inside the depth. -/
theorem State.takeTriggers_cases {s t : State} {ts : List Trigger}
    (h : s.takeTriggers ts = .next t) :
    (inIndexOrder s.h.length ts = [] ∧ t = s)
      ∨ ∃ a rest, inIndexOrder s.h.length ts = a :: rest
          ∧ s.queue.length + rest.length ≤ s.cfg.queueDepth
          ∧ t = State.deliver { s with queue := s.queue ++ rest.map Trigger.event } a.event := by
  simp only [State.takeTriggers] at h
  split at h
  · rename_i hn
    cases h
    exact .inl ⟨hn, rfl⟩
  · rename_i a rest hn
    split at h
    · rename_i hq
      cases h
      exact .inr ⟨a, rest, hn, hq, rfl⟩
    · cases h

/-- The fault one of the five instructions raises when it has one. -/
def coreFault (i : Instr) (s : State) : EventName :=
  match i with
  | .hlt => .illi
  | .eret => .illi
  | .ueret => .inci
  | .uret => if s.cfg.has .user then .illi else .inci
  | .syscall => if s.cfg.has .user then .sysc else .inci

/-- A returning instruction that would relaunch an event inside a transaction (60_exceptions.md R247). -/
def coreRefused (i : Instr) (s : State) : Bool :=
  match i with
  | .hlt => false
  | .eret => s.returnMachine.sr.tnd != 0 && causeId s.m.ec != 0
  | .ueret => s.returnUser.sr.tnd != 0 && causeId s.u.ec != 0
  | .uret => s.demote.sr.tnd != 0 && causeId s.u.ec != 0
  | .syscall => false

/-- What one of the five instructions does to the state when it has no fault. -/
def coreEffect (i : Instr) (s : State) : State :=
  match i with
  | .hlt => s.halt 1
  | .eret => s.returnMachine.relaunchMachine
  | .ueret => s.returnUser.relaunchUser
  | .uret => s.demote.relaunchUser
  | .syscall => s

/-- The end of a returning sequence: the relaunch and the counters, or a refusal. -/
theorem State.finishReturn_machine (s0 s : State) :
    State.finishReturn s0 s .machine
      = if (s.sr.tnd != 0 && causeId s.m.ec != 0) = true then .refused .transactional
        else .next (State.retire s0 {} s.relaunchMachine) := rfl

theorem State.finishReturn_user (s0 s : State) :
    State.finishReturn s0 s .user
      = if (s.sr.tnd != 0 && causeId s.u.ec != 0) = true then .refused .transactional
        else .next (State.retire s0 {} s.relaunchUser) := rfl

/-- Every one of the five instructions takes its fault, or has its effect and is counted; a return that
would relaunch an event inside a transaction is refused. -/
theorem exec_eq (i : Instr) (s : State) :
    exec i s =
      if coreFaults s i then .next (s.deliver { name := coreFault i s })
      else if coreRefused i s then .refused .transactional
      else .next (State.retire s {} (coreEffect i s)) := by
  cases i <;> cases hm : s.mode <;> cases hu : s.cfg.has .user <;>
    simp [exec, execHlt, execEret, execUeret, execUret, execSyscall, coreFaults, coreFault,
      coreEffect, coreRefused, State.raise, State.finishReturn_machine, State.finishReturn_user, hm, hu]

/-- User mode exists only with the USER module (10_state.md R87). -/
theorem State.has_user_of_mode {s : State} (h : s.mode = .user) :
    s.cfg.has .user = true ∧ s.sr.pmod = 1 := by
  simp only [State.mode, StatusReg.mode] at h
  split at h
  · rename_i hc
    simpa using hc
  · cases h

/-- Relaunching after ERET either leaves the state or runs the privileged sequence. -/
theorem State.relaunchMachine_cases (s : State) :
    (s.relaunchMachine = s ∧ causeId s.m.ec = 0)
      ∨ (s.relaunchMachine = s.enterMachine s.m.ec none ∧ causeId s.m.ec ≠ 0) := by
  unfold State.relaunchMachine
  split
  · rename_i h
    exact .inl ⟨rfl, h⟩
  · rename_i h
    exact .inr ⟨rfl, h⟩

/-- Relaunching after UERET or URET either leaves the state or runs the unprivileged sequence. -/
theorem State.relaunchUser_cases (s : State) :
    (s.relaunchUser = s ∧ causeId s.u.ec = 0)
      ∨ (s.relaunchUser = s.enterUser s.u.ec none ∧ causeId s.u.ec ≠ 0) := by
  unfold State.relaunchUser
  split
  · rename_i h
    exact .inl ⟨rfl, h⟩
  · rename_i h
    exact .inr ⟨rfl, h⟩

end Sys2Proof.Machine
end

