-- ==== Sys2Proof/Laws/Memory.lean ====
section
/-! SUPPORT. The laws of main memory and of the note of written locations: a read after a write, and that
both keep their one form. -/

namespace Sys2Proof.Machine

@[simp] theorem Memory.read_nil (k : Nat) : Memory.read [] k = Config.memoryFree k := rfl

/-- A byte reads as what was written last at its address. -/
theorem Memory.read_write (m : List Host.Cell) (k j : Nat) (v : Byte) :
    Memory.read (Memory.write m k v) j = if j = k then v else Memory.read m j := by
  induction m with
  | nil => simp [Memory.write, Memory.read]
  | cons c rest ih =>
    obtain ⟨a, b⟩ := c
    simp only [Memory.write]
    split
    · simp [Memory.read]
    · split
      · rename_i hk
        simp only [Memory.read, hk]
        by_cases hj : j = a <;> simp [hj]
      · rename_i hk
        simp only [Memory.read, ih]
        by_cases hj : j = a <;> by_cases hjk : j = k <;> simp_all

/-- Every cell after a write is the one written or was there before. -/
theorem Memory.mem_write {m : List Host.Cell} {k : Nat} {v : Byte} {c : Host.Cell}
    (h : c ∈ Memory.write m k v) : c = (k, v) ∨ c ∈ m := by
  induction m with
  | nil => simpa [Memory.write] using h
  | cons d rest ih =>
    obtain ⟨a, b⟩ := d
    simp only [Memory.write] at h
    split at h
    · simpa using h
    · split at h
      · rcases List.mem_cons.1 h with h | h
        · exact .inl h
        · exact .inr (List.mem_cons_of_mem _ h)
      · rcases List.mem_cons.1 h with h | h
        · exact .inr (h ▸ List.mem_cons_self)
        · exact (ih h).imp_right (List.mem_cons_of_mem _)

/-- A write keeps the memory's one form. -/
theorem Memory.wf_write {m : List Host.Cell} (k : Nat) (v : Byte) (h : Memory.wf m) :
    Memory.wf (Memory.write m k v) := by
  induction m with
  | nil => simp [Memory.write, Memory.wf]
  | cons d rest ih =>
    obtain ⟨a, b⟩ := d
    have hr : ∀ c ∈ rest, a < c.1 := (List.pairwise_cons.1 h).1
    have ht : Memory.wf rest := (List.pairwise_cons.1 h).2
    simp only [Memory.write]
    split
    · rename_i hk
      refine List.pairwise_cons.2 ⟨fun c hc => ?_, h⟩
      rcases List.mem_cons.1 hc with rfl | hc
      · exact hk
      · exact Nat.lt_trans hk (hr c hc)
    · split
      · rename_i hk
        exact List.pairwise_cons.2 ⟨fun c hc => hk ▸ hr c hc, ht⟩
      · rename_i h1 h2
        refine List.pairwise_cons.2 ⟨fun c hc => ?_, ih ht⟩
        rcases Memory.mem_write hc with rfl | hc
        · show a < k
          omega
        · exact hr c hc

/-- Every noted address is the new one or was noted before. -/
theorem mem_noteAddr {l : List Nat} {k j : Nat} (h : j ∈ noteAddr l k) : j = k ∨ j ∈ l := by
  induction l with
  | nil => simpa [noteAddr] using h
  | cons a rest ih =>
    simp only [noteAddr] at h
    split at h
    · simpa using h
    · split at h
      · exact .inr h
      · rcases List.mem_cons.1 h with h | h
        · exact .inr (h ▸ List.mem_cons_self)
        · exact (ih h).imp_right (List.mem_cons_of_mem _)

/-- A noted address is noted, and noting forgets none. -/
theorem noted_noteAddr (l : List Nat) (k j : Nat) (h : j = k ∨ j ∈ l) : j ∈ noteAddr l k := by
  induction l with
  | nil => simpa [noteAddr] using h
  | cons a rest ih =>
    simp only [noteAddr]
    split
    · simpa using h
    · split
      · rename_i hk
        rcases h with rfl | h
        · exact hk ▸ List.mem_cons_self
        · exact h
      · rcases h with h | h
        · exact List.mem_cons_of_mem _ (ih (.inl h))
        · rcases List.mem_cons.1 h with h | h
          · exact h ▸ List.mem_cons_self
          · exact List.mem_cons_of_mem _ (ih (.inr h))

/-- Noting keeps the addresses strictly rising. -/
theorem sorted_noteAddr {l : List Nat} (k : Nat) (h : l.Pairwise (· < ·)) :
    (noteAddr l k).Pairwise (· < ·) := by
  induction l with
  | nil => simp [noteAddr]
  | cons a rest ih =>
    have hr := (List.pairwise_cons.1 h).1
    have ht := (List.pairwise_cons.1 h).2
    simp only [noteAddr]
    split
    · rename_i hk
      refine List.pairwise_cons.2 ⟨fun c hc => ?_, h⟩
      rcases List.mem_cons.1 hc with rfl | hc
      · exact hk
      · exact Nat.lt_trans hk (hr c hc)
    · split
      · exact h
      · refine List.pairwise_cons.2 ⟨fun c hc => ?_, ih ht⟩
        rcases mem_noteAddr hc with rfl | hc
        · omega
        · exact hr c hc

/-- Storing a byte notes its address and no other. -/
theorem State.mem_storeByte_dirty (s : State) (k : Nat) (b : Byte) (a : Nat) :
    a ∈ (s.storeByte k b).dirty ↔ a = k ∨ a ∈ s.dirty :=
  ⟨mem_noteAddr, noted_noteAddr _ _ _⟩

/-- Landing writes leave every byte they do not write. -/
theorem State.land_read (s : State) (l : List Race) (a : Nat) (h : ∀ r ∈ l, r.addr ≠ a) :
    Memory.read (s.land l).mem a = Memory.read s.mem a := by
  induction l generalizing s with
  | nil => rfl
  | cons r rest ih =>
    simp only [State.land]
    rw [ih _ fun q hq => h q (List.mem_cons_of_mem _ hq), State.storeByte_mem, Memory.read_write,
      if_neg (Ne.symm (h r List.mem_cons_self))]

/-- A location is noted after writes landed where it was before or one of them went there. -/
theorem State.mem_land_dirty (s : State) (l : List Race) (a : Nat) :
    a ∈ (s.land l).dirty ↔ a ∈ s.dirty ∨ ∃ r ∈ l, r.addr = a := by
  induction l generalizing s with
  | nil => simp [State.land]
  | cons r rest ih =>
    simp only [State.land, ih, State.mem_storeByte_dirty, List.mem_cons, or_and_right, exists_or,
      exists_eq_left, eq_comm (a := a), or_left_comm, or_assoc]

/-- Storing bytes notes their addresses, and, but for racing writes, no other. -/
theorem State.mem_storeBytes_dirty (s : State) (k : Nat) (l : List (Word × Byte)) (a : Nat) :
    (a ∈ s.dirty ∨ (∃ p ∈ l, p.1.toNat = a) → a ∈ (s.storeBytes k l).dirty)
      ∧ (a ∈ (s.storeBytes k l).dirty →
          a ∈ s.dirty ∨ (∃ p ∈ l, p.1.toNat = a) ∨ ∃ r ∈ s.racing, r.addr = a) := by
  induction l generalizing s k with
  | nil => exact ⟨fun h => h.elim id (by simp), .inl⟩
  | cons p rest ih =>
    simp only [State.storeBytes, List.mem_cons, or_and_right, exists_or, exists_eq_left]
    have hn : a ∈ ((s.settle k).storeByte p.1.toNat p.2).dirty
        ↔ a = p.1.toNat ∨ a ∈ s.dirty ∨ ∃ r ∈ s.racing.filter (fun r => decide (r.after ≤ k)), r.addr = a := by
      rw [State.mem_storeByte_dirty]
      exact or_congr Iff.rfl (State.mem_land_dirty _ _ _)
    refine ⟨fun h => (ih _ _).1 ?_, fun h => ?_⟩
    · rw [hn]
      rcases h with h | h | h
      · exact .inl (.inr (.inl h))
      · exact .inl (.inl h.symm)
      · exact .inr h
    · rcases (ih _ _).2 h with h | h | ⟨r, hr, h⟩
      · rcases hn.1 h with h | h | ⟨r, hr, h⟩
        · exact .inr (.inl (.inl h.symm))
        · exact .inl h
        · exact .inr (.inr ⟨r, (List.mem_filter.1 hr).1, h⟩)
      · exact .inr (.inl (.inr h))
      · exact .inr (.inr ⟨r, (List.mem_filter.1 hr).1, h⟩)

/-- Storing bytes changes memory, the note of written locations and the races only. -/
theorem State.storeBytes_frame (s : State) (k : Nat) (l : List (Word × Byte)) :
    s.storeBytes k l = { s with
      mem := (s.storeBytes k l).mem, dirty := (s.storeBytes k l).dirty
      racing := (s.storeBytes k l).racing } := by
  induction l generalizing s k with
  | nil => rfl
  | cons p rest ih =>
    simp only [State.storeBytes]
    rw [ih, State.settle_frame]
    rfl

/-- What still races after storing bytes raced before. -/
theorem State.storeBytes_racing {s : State} {k : Nat} {l : List (Word × Byte)} {r : Race}
    (h : r ∈ (s.storeBytes k l).racing) : r ∈ s.racing := by
  induction l generalizing s k with
  | nil => exact h
  | cons p rest ih => exact (List.mem_filter.1 (ih h)).1

/-- A byte outside the stored addresses, which no other agent writes, reads as before. -/
theorem State.storeBytes_read (s : State) (k : Nat) (l : List (Word × Byte)) (a : Nat)
    (h : ∀ p ∈ l, p.1.toNat ≠ a) (hr : ∀ r ∈ s.racing, r.addr ≠ a) :
    Memory.read (s.storeBytes k l).mem a = Memory.read s.mem a := by
  induction l generalizing s k with
  | nil => rfl
  | cons p rest ih =>
    simp only [State.storeBytes]
    rw [ih _ _ (fun q hq => h q (List.mem_cons_of_mem _ hq))
        (fun r hm => hr r (List.mem_filter.1 hm).1), State.storeByte_mem, Memory.read_write,
      if_neg (Ne.symm (h p List.mem_cons_self))]
    exact State.land_read _ _ _ fun r hm => hr r (List.mem_filter.1 hm).1

/-- The last byte stored at an address, which no other agent writes, is what reads there. -/
theorem State.storeBytes_last {s : State} {k i : Nat} {l : List (Word × Byte)} {q : Word × Byte}
    (hq : l[i]? = some q) (hl : ∀ m r, i < m → l[m]? = some r → r.1.toNat ≠ q.1.toNat)
    (hr : ∀ r ∈ s.racing, r.addr ≠ q.1.toNat) :
    Memory.read (s.storeBytes k l).mem q.1.toNat = q.2 := by
  induction l generalizing s k i with
  | nil => simp at hq
  | cons p l ih =>
    simp only [State.storeBytes]
    have hr' : ∀ r ∈ ((s.settle k).storeByte p.1.toNat p.2).racing, r.addr ≠ q.1.toNat :=
      fun r hm => hr r (List.mem_filter.1 hm).1
    cases i with
    | zero =>
      simp only [List.getElem?_cons_zero, Option.some.injEq] at hq
      subst hq
      rw [State.storeBytes_read _ _ _ _ (fun x hx => ?_) hr', State.storeByte_mem, Memory.read_write,
        if_pos rfl]
      obtain ⟨m, hm⟩ := List.getElem?_of_mem hx
      exact hl (m + 1) x (Nat.succ_pos m) hm
    | succ i => exact ih hq (fun m r hm hr => hl (m + 1) r (Nat.succ_lt_succ hm) hr) hr'

/-- The addresses of a translated access: one for each byte, the translation of that byte's. -/
theorem State.physicals_ok {s : State} {addr : Word} {kind : AccessKind} {k n : Nat} {ps : List Word}
    (h : s.physicals addr kind k n = .ok ps) :
    ps.length = n ∧ ∀ j p, ps[j]? = some p → s.translate (s.addrAt addr (k + j)) kind = .to p := by
  induction n generalizing k ps with
  | zero =>
    cases h
    simp
  | succ n ih =>
    simp only [State.physicals] at h
    split at h
    · cases h
    · rename_i p hp
      split at h <;> cases h
      rename_i ps' hps
      obtain ⟨h1, h2⟩ := ih hps
      refine ⟨by simp [h1], fun j q hq => ?_⟩
      cases j with
      | zero =>
        simp only [List.getElem?_cons_zero, Option.some.injEq] at hq
        subst hq
        simp only [State.physical] at hp
        split at hp <;> cases hp
        assumption
      | succ j =>
        have := h2 j q hq
        rwa [Nat.add_right_comm] at this

/-- A permitted data access has its physical addresses, which no region forbids. -/
theorem State.checkData_ok {s : State} {kind : AccessKind} {addr : Word} {n align : Nat} {ps : List Word}
    (h : s.checkData kind addr n align = .ok ps) :
    s.physicals addr kind 0 n = .ok ps ∧ s.regionStop kind ps = none := by
  simp only [State.checkData] at h
  split at h
  · rename_i h0
    subst h0
    cases h
    exact ⟨rfl, rfl⟩
  · split at h
    · split at h <;> cases h
    · split at h
      · cases h
      · split at h <;> cases h
        exact ⟨by assumption, by assumption⟩

/-- Reset memory is in its one form. -/
theorem State.resetOf_mem_wf (cfg : Config) : Memory.wf (State.resetOf cfg).mem := List.Pairwise.nil

/-- Landing writes keep memory in its one form. -/
theorem State.land_wf (s : State) (l : List Race) (h : Memory.wf s.mem) :
    Memory.wf (s.land l).mem := by
  induction l generalizing s with
  | nil => exact h
  | cons r rest ih => exact ih _ (Memory.wf_write _ _ h)

theorem State.settle_wf (s : State) (k : Nat) (h : Memory.wf s.mem) : Memory.wf (s.settle k).mem :=
  State.land_wf _ _ h

theorem State.settleAll_wf (s : State) (h : Memory.wf s.mem) : Memory.wf s.settleAll.mem :=
  State.land_wf _ _ h

/-- A stored list of bytes keeps memory in its one form. -/
theorem State.storeBytes_wf (s : State) (k : Nat) (l : List (Word × Byte)) (h : Memory.wf s.mem) :
    Memory.wf (s.storeBytes k l).mem := by
  induction l generalizing s k with
  | nil => exact h
  | cons p rest ih => exact ih _ _ (Memory.wf_write _ _ (State.settle_wf _ _ h))

/-- Placing an instruction keeps memory in its one form. -/
theorem State.placeAt_wf (s : State) (k : Nat) (bs : List Byte) (h : Memory.wf s.mem) :
    Memory.wf (s.placeAt k bs).mem := by
  induction bs generalizing s k with
  | nil => exact h
  | cons b bs ih => exact ih _ _ (Memory.wf_write _ _ h)

end Sys2Proof.Machine
end

