-- ==== Sys2Proof/Laws/Prims.lean ====
section
/-! SUPPORT. What one primitive of a supplied instruction can do to the state, said once, and induction over
a sequence of them. -/

namespace Sys2Proof.Machine

/-- Everything one primitive of the instruction `d` that began in `s0` can do to the state. -/
inductive PrimWrite (d : Decoded) (s0 s : State) : State → Prop where
  | same : PrimWrite d s0 s s
  | draw : PrimWrite d s0 s (s.drawn (s.draws + 1))
  | bank (b : Bank) (i v : Nat) : PrimWrite d s0 s (s.writeBank b d.mask i v)
  | mode (b : Bank) (i v : Nat) : PrimWrite d s0 s (s.writeBankMode b i v)
  | spr (r : Spr) (v : Nat) (h : sprDenied s.cfg s0.mode r = none) :
      PrimWrite d s0 s (s.setSpr s0.mode r v)
  | store (k : Nat) (addr : Word) (n align v : Nat) (keeps : Nat → Bool) (ps : List Word)
      (h : s0.checkData .write addr n align = .ok ps) :
      PrimWrite d s0 s (s.storeBytes k (maskedBytes s.cfg.endian ps n v keeps))
  | fence : PrimWrite d s0 s { s with dirty := [] }

/-- A read of a bank leaves the state or draws a free value. -/
theorem State.readBank_write (d : Decoded) (s0 s : State) (b : Bank) (i : Nat) :
    PrimWrite d s0 s (State.readBank s0 s b i).2 := by
  cases b <;> simp only [State.readBank] <;>
    first
      | exact .same
      | (split <;> first | exact .draw | exact .same)

/-- A permitted write of a special purpose register. -/
theorem State.writeSpr_ok {s s' : State} {mode : Mode} {r : Spr} {v : Nat}
    (h : s.writeSpr mode r v = .ok s') :
    sprDenied s.cfg mode r = none ∧ s' = s.setSpr mode r v := by
  simp only [State.writeSpr] at h
  split at h
  · cases h
  · rename_i hd
    cases h
    refine ⟨?_, rfl⟩
    simp only [sprWriteDenied] at hd
    split at hd
    · cases hd
    · assumption

/-- The state after a completed write to memory by an instruction. -/
theorem State.memWrite_ok {s0 s s' : State} {k : Nat} {addr : Word} {n align v : Nat}
    {keeps : Nat → Bool} (h : s0.memWrite s k addr n align v keeps = .ok s') :
    ∃ ps, s0.checkData .write addr n align = .ok ps
      ∧ s' = s.storeBytes k (maskedBytes s.cfg.endian ps n v keeps) := by
  simp only [State.memWrite] at h
  split at h
  · cases h
  · rename_i ps hp
    cases h
    exact ⟨ps, hp, rfl⟩

/-- Everything one primitive that completes does: to the state what `PrimWrite` says, to the program
counter nothing or a write; the helper registers that fired are noted before it runs. -/
structure Work.Next (d : Decoded) (s0 : State) (w w' : Work) : Prop where
  write  : PrimWrite d s0 w.s w'.s
  target : w'.target = w.target
    ∨ ∃ n, w'.target = some (s0.cfg.word n) ∨ w'.target = some (w.s.cfg.word n)
  fired  : w'.fired = w.fired

theorem Work.readSpr_ok {w w' : Work} {d : Decoded} {s0 : State} {mode : Mode} {n : Nat} {r : Spr}
    (h : w.readSpr mode n r = .ok w') : Work.Next d s0 w w' := by
  simp only [Work.readSpr, stopWith] at h
  split at h <;> cases h
  exact ⟨.same, .inl rfl, rfl⟩

/-- The write of a special purpose register by an instruction. -/
theorem Work.writeSpr_ok {w w' : Work} {d : Decoded} {s0 : State} {n v : Nat} {r : Spr}
    (h : w.writeSpr s0.mode n r v = .ok w') : Work.Next d s0 w w' := by
  simp only [Work.writeSpr, stopWith] at h
  split at h
  · cases h
  · rename_i s' hs
    obtain ⟨hd, rfl⟩ := State.writeSpr_ok hs
    cases h
    refine ⟨.spr _ _ hd, ?_, rfl⟩
    show (if r = .pc then _ else _) = _
      ∨ ∃ n, (if r = .pc then _ else _) = _ ∨ (if r = .pc then _ else _) = _
    split
    · exact .inr ⟨v, .inr rfl⟩
    · exact .inl rfl

theorem inBank_ok {s0 : State} {b : Bank} {i : Nat} {w w' : Work} (h : inBank s0 b i w = .ok w') :
    w' = w := by
  simp only [inBank, stopWith] at h
  split at h <;> cases h
  rfl

theorem Work.readAt_ok {w w' : Work} {d : Decoded} {s0 : State} {b : Bank} {n i : Nat}
    (h : w.readAt s0 b n i = .ok w') : Work.Next d s0 w w' := by
  cases inBank_ok h
  exact ⟨State.readBank_write _ _ _ _ _, .inl rfl, rfl⟩

theorem Work.writeAt_ok {w w' : Work} {d : Decoded} {s0 : State} {b : Bank} {n i v : Nat}
    (h : w.writeAt d s0 b n i v = .ok w') : Work.Next d s0 w w' := by
  cases inBank_ok h
  exact ⟨.bank _ _ _, .inl rfl, rfl⟩

theorem Work.readModeAt_ok {w w' : Work} {d : Decoded} {s0 : State} {b : ModeBank} {n i : Nat}
    (h : w.readModeAt s0 b n i = .ok w') : Work.Next d s0 w w' := by
  cases inBank_ok h
  exact ⟨.same, .inl rfl, rfl⟩

theorem Work.writeModeAt_ok {w w' : Work} {d : Decoded} {s0 : State} {b : ModeBank} {n i v : Nat}
    (h : w.writeModeAt s0 b n i v = .ok w') : Work.Next d s0 w w' := by
  cases inBank_ok h
  exact ⟨.mode _ _ _, .inl rfl, rfl⟩

/-- A read by a number of SPR_ACCESS. -/
theorem Work.readNumbered_ok {w w' : Work} {d : Decoded} {s0 : State} {n : Nat} {r : NumberedReg}
    (h : w.readNumbered s0 n r = .ok w') : Work.Next d s0 w w' := by
  cases r with
  | special r => exact Work.readSpr_ok h
  | value b i => exact Work.readAt_ok h
  | mode b i => exact Work.readModeAt_ok h

/-- A write by a number of SPR_ACCESS. -/
theorem Work.writeNumbered_ok {w w' : Work} {d : Decoded} {s0 : State} {n v : Nat} {r : NumberedReg}
    (h : w.writeNumbered d s0 n v r = .ok w') : Work.Next d s0 w w' := by
  cases r with
  | special r => exact Work.writeSpr_ok h
  | value b i => exact Work.writeAt_ok h
  | mode b i => exact Work.writeModeAt_ok h

theorem numbered_ok {cfg : Config} {n : Nat} {go : NumberedReg → Except Stop Work} {w' : Work}
    (h : numbered cfg n go = .ok w') : ∃ r, go r = .ok w' := by
  simp only [numbered, stopWith] at h
  split at h
  · cases h
  · exact ⟨_, h⟩

theorem Work.load_ok {w w' : Work} {d : Decoded} {s0 : State} {size : AccessSize} {n a : Nat}
    (h : w.load d s0 size n a = .ok w') : Work.Next d s0 w w' := by
  simp only [Work.load] at h
  split at h <;> cases h
  exact ⟨.same, .inl rfl, rfl⟩

theorem Work.store_ok {w w' : Work} {d : Decoded} {s0 : State} {size : AccessSize} {n a v : Nat}
    (h : w.store d s0 size n a v = .ok w') : Work.Next d s0 w w' := by
  simp only [Work.store] at h
  split at h
  · cases h
  · rename_i s' hs
    cases h
    obtain ⟨ps, hp, rfl⟩ := State.memWrite_ok hs
    exact ⟨.store _ _ _ _ _ _ ps hp, .inl rfl, rfl⟩

/-- What a completed primitive did. -/
theorem runPrim_next {d : Decoded} {s0 : State} {w w' : Work} {p : Prim}
    (h : runPrim d s0 w p = .ok w') : Work.Next d s0 w w' := by
  cases p <;> simp only [runPrim, stopWith] at h
  case readReg f =>
    cases h
    exact ⟨State.readBank_write _ _ _ _ _, .inl rfl, rfl⟩
  case writeReg f =>
    cases h
    exact ⟨.bank _ _ _, .inl rfl, rfl⟩
  case readAt b => exact Work.readAt_ok h
  case writeAt b => exact Work.writeAt_ok h
  case readModeAt b => exact Work.readModeAt_ok h
  case writeModeAt b => exact Work.writeModeAt_ok h
  case writeMode f =>
    cases h
    exact ⟨.mode _ _ _, .inl rfl, rfl⟩
  case readSpr r => exact Work.readSpr_ok h
  case writeSpr r => exact Work.writeSpr_ok h
  case readSprAt =>
    obtain ⟨r, h⟩ := numbered_ok h
    exact Work.readNumbered_ok h
  case writeSprAt =>
    obtain ⟨r, h⟩ := numbered_ok h
    exact Work.writeNumbered_ok h
  case load size => exact Work.load_ok h
  case store size => exact Work.store_ok h
  case loadIf size =>
    split at h
    · cases h
      exact ⟨.same, .inl rfl, rfl⟩
    · exact Work.load_ok h
  case storeIf size =>
    split at h
    · cases h
      exact ⟨.same, .inl rfl, rfl⟩
    · exact Work.store_ok h
  case jump =>
    cases h
    exact ⟨.same, .inr ⟨_, .inl rfl⟩, rfl⟩
  case branch =>
    cases h
    refine ⟨.same, ?_, rfl⟩
    by_cases hc : w.top 0 = 0
    · exact .inl (by simp [hc])
    · exact .inr ⟨w.top 1, .inl (by simp [hc])⟩
  case fence =>
    simp only [Work.fence] at h
    split at h
    · cases h
      exact ⟨.fence, .inl rfl, rfl⟩
    · split at h <;> cases h
      exact ⟨.same, .inl rfl, rfl⟩
  all_goals
    repeat' split at h
    all_goals first | (cases h; exact ⟨.same, .inl rfl, rfl⟩) | cases h

@[simp] theorem Work.note_s (w : Work) (d : Decoded) (s0 : State) (p : Prim) :
    (w.note d s0 p).s = w.s := rfl

@[simp] theorem Work.note_target (w : Work) (d : Decoded) (s0 : State) (p : Prim) :
    (w.note d s0 p).target = w.target := rfl

@[simp] theorem Work.note_flags (w : Work) (d : Decoded) (s0 : State) (p : Prim) :
    (w.note d s0 p).flags = w.flags := rfl

/-- What an aligned access fires, its kind and address fire. -/
theorem State.mem_attempt {s : State} {kind : AccessKind} {addr : Word} {n align : Nat} {t : Trigger}
    (h : t ∈ s.attempt kind addr n align) : t ∈ s.accessTriggers kind addr n := by
  simp only [State.attempt] at h
  split at h
  · cases h
  · exact h

/-- What is noted for a primitive fires for some access. -/
theorem Work.mem_note {w : Work} {d : Decoded} {s0 : State} {p : Prim} {t : Trigger}
    (h : t ∈ (w.note d s0 p).fired) :
    t ∈ w.fired ∨ ∃ kind a n, t ∈ s0.accessTriggers kind a n := by
  rcases List.mem_append.1 h with h | h
  · exact .inl h
  · refine .inr ?_
    cases p <;> simp only [Work.attempt] at h <;> try cases h
    case load => exact ⟨_, _, _, State.mem_attempt h⟩
    case store => exact ⟨_, _, _, State.mem_attempt h⟩
    all_goals
      split at h
      · cases h
      · exact ⟨_, _, _, State.mem_attempt h⟩

/-- The helper registers noted while a sequence runs, whether it ends or stops, had been noted before or
fire for some access. -/
theorem runPrims_fired {d : Decoded} {s0 : State} {ps : List Prim} {w w' : Work}
    (h : runPrims d s0 w ps = .ok w' ∨ ∃ e, runPrims d s0 w ps = .error (e, w')) :
    ∀ t ∈ w'.fired, t ∈ w.fired ∨ ∃ kind a n, t ∈ s0.accessTriggers kind a n := by
  induction ps generalizing w with
  | nil =>
    rcases h with h | ⟨e, h⟩ <;> cases h
    exact fun t ht => .inl ht
  | cons p ps ih =>
    intro t ht
    simp only [runPrims] at h
    cases hp : runPrim d s0 (w.note d s0 p) p with
    | error e =>
      simp only [hp, reduceCtorEq, Except.error.injEq, Prod.mk.injEq, false_or] at h
      obtain ⟨-, -, rfl⟩ := h
      exact Work.mem_note ht
    | ok w1 =>
      simp only [hp] at h
      rcases ih h t ht with h' | h'
      · exact Work.mem_note ((runPrim_next hp).fired ▸ h')
      · exact .inr h'

/-- A property every primitive's write keeps holds after the sequence. -/
theorem runPrims_induct {d : Decoded} {s0 : State} (P : State → Prop)
    (hP : ∀ s s', PrimWrite d s0 s s' → P s → P s') {ps : List Prim} {w w' : Work}
    (h : runPrims d s0 w ps = .ok w') (hw : P w.s) : P w'.s := by
  induction ps generalizing w with
  | nil =>
    cases h
    exact hw
  | cons p ps ih =>
    simp only [runPrims] at h
    split at h
    · cases h
    · rename_i w1 h1
      exact ih h (hP _ _ (runPrim_next h1).write hw)

/-- No primitive writes PC, the configuration, the queue or the inputs. -/
theorem PrimWrite.frame {d : Decoded} {s0 s s' : State} (h : PrimWrite d s0 s s') :
    s'.cfg = s.cfg ∧ s'.pc = s.pc ∧ s'.queue = s.queue ∧ s'.inputs = s.inputs := by
  cases h with
  | same => simp
  | draw => simp
  | bank b i v => cases b <;> simp [State.writeBank]
  | mode b i v => cases b <;> simp [State.writeBankMode]
  | spr r v hd => cases r <;> simp [State.setSpr]
  | store k addr n align v keeps ps hp => rw [State.storeBytes_frame]; simp
  | fence => simp

/-- What fires for flags, and which exceptions they generate, does not depend on the draws. -/
@[simp] theorem State.drawn_flagTriggers (s : State) (n : Nat) (flags : List Flag) :
    (s.drawn n).flagTriggers flags = s.flagTriggers flags := rfl

@[simp] theorem State.drawn_excEvents (s : State) (n : Nat) (flags : List Flag) :
    (s.drawn n).excEvents flags = s.excEvents flags := rfl

/-- No primitive takes back a draw. -/
theorem PrimWrite.draws_le {d : Decoded} {s0 s s' : State} (h : PrimWrite d s0 s s') :
    s.draws ≤ s'.draws := by
  cases h with
  | draw => exact Nat.le_succ _
  | bank b i v => cases b <;> exact Nat.le_refl _
  | mode b i v => cases b <;> exact Nat.le_refl _
  | spr r v hd => cases r <;> exact Nat.le_refl _
  | store k addr n align v keeps ps hp => exact Nat.le_of_eq (by rw [State.storeBytes_frame])
  | same => exact Nat.le_refl _
  | fence => exact Nat.le_refl _

/-- No sequence takes back a draw, whether it ends or stops. -/
theorem runPrims_draws_le {d : Decoded} {s0 : State} {ps : List Prim} {w w' : Work}
    (h : runPrims d s0 w ps = .ok w' ∨ ∃ e, runPrims d s0 w ps = .error (e, w')) :
    w.s.draws ≤ w'.s.draws := by
  induction ps generalizing w with
  | nil =>
    rcases h with h | ⟨e, h⟩ <;> cases h
    exact Nat.le_refl _
  | cons p ps ih =>
    simp only [runPrims] at h
    cases hp : runPrim d s0 (w.note d s0 p) p with
    | error e =>
      simp only [hp, reduceCtorEq, Except.error.injEq, Prod.mk.injEq, false_or] at h
      obtain ⟨-, -, rfl⟩ := h
      exact Nat.le_refl _
    | ok w1 =>
      simp only [hp] at h
      exact Nat.le_trans (runPrim_next hp).write.draws_le (ih h)

/-- A sequence of primitives keeps PC, the configuration, the queue and the inputs. -/
theorem runPrims_frame {d : Decoded} {s0 : State} {ps : List Prim} {w w' : Work}
    (h : runPrims d s0 w ps = .ok w') :
    w'.s.cfg = w.s.cfg ∧ w'.s.pc = w.s.pc ∧ w'.s.queue = w.s.queue ∧ w'.s.inputs = w.s.inputs :=
  runPrims_induct (fun t => t.cfg = w.s.cfg ∧ t.pc = w.s.pc ∧ t.queue = w.s.queue
    ∧ t.inputs = w.s.inputs)
    (fun _ _ hw ⟨h1, h2, h3, h4⟩ =>
      let ⟨g1, g2, g3, g4⟩ := hw.frame
      ⟨g1.trans h1, g2.trans h2, g3.trans h3, g4.trans h4⟩) h ⟨rfl, rfl, rfl, rfl⟩

end Sys2Proof.Machine
end

