-- ==== Sys2Proof/Laws/Step.lean ====
section
/-! SUPPORT. What arrives at an instruction boundary and what one step can do, said once. -/

namespace Sys2Proof.Machine

/-- Posting an event either adds it to a queue with room, or drops it. -/
theorem State.post_queue (s : State) (e : Event) :
    (s.post e).queue = if s.queue.length < s.cfg.queueDepth then s.queue ++ [e] else s.queue := by
  unfold State.post
  split <;> rfl

/-- A watchdog tick changes WDT and the queue only. -/
theorem State.tick_frame (s : State) :
    s.tick = { s with wdt := s.tick.wdt, queue := s.tick.queue } := by
  unfold State.tick State.post
  repeat' split
  all_goals rfl

/-- A clock cycle changes WDT, the queue and the count of cycles only. -/
theorem State.clock_frame (s : State) :
    s.clock = { s with wdt := s.clock.wdt, queue := s.clock.queue, cycles := s.clock.cycles } := by
  unfold State.clock
  split
  · rfl
  · rw [State.tick_frame]

/-- A clock cycle counts, or ticks and counts from 0 again. -/
theorem State.clock_cases (s : State) :
    (s.cycles + 1 < s.cfg.wdtTick ∧ s.clock = { s with cycles := s.cycles + 1 })
      ∨ (s.cfg.wdtTick ≤ s.cycles + 1 ∧ s.clock = State.tick { s with cycles := 0 }) := by
  unfold State.clock
  split
  · exact .inl ⟨‹_›, rfl⟩
  · exact .inr ⟨by omega, rfl⟩

/-- The fields nothing from outside the hart can change. -/
structure State.SameHart (s t : State) : Prop where
  cfg   : t.cfg = s.cfg
  x     : t.x = s.x
  vr    : t.vr = s.vr
  h     : t.h = s.h
  pc    : t.pc = s.pc
  sr    : t.sr = s.sr
  vsh   : t.vsh = s.vsh
  vm1   : t.vm1 = s.vm1
  vm2   : t.vm2 = s.vm2
  vm3   : t.vm3 = s.vm3
  u     : t.u = s.u
  m     : t.m = s.m
  pfpa  : t.pfpa = s.pfpa
  usage : t.usage = s.usage
  pid   : t.pid = s.pid
  tid   : t.tid = s.tid
  hpid  : t.hpid = s.hpid
  tptr  : t.tptr = s.tptr

theorem State.SameHart.refl (s : State) : s.SameHart s := by constructor <;> rfl

theorem State.SameHart.trans {a b c : State} (h1 : a.SameHart b) (h2 : b.SameHart c) :
    a.SameHart c :=
  ⟨h2.cfg.trans h1.cfg, h2.x.trans h1.x, h2.vr.trans h1.vr, h2.h.trans h1.h, h2.pc.trans h1.pc,
    h2.sr.trans h1.sr, h2.vsh.trans h1.vsh, h2.vm1.trans h1.vm1, h2.vm2.trans h1.vm2,
    h2.vm3.trans h1.vm3, h2.u.trans h1.u, h2.m.trans h1.m, h2.pfpa.trans h1.pfpa,
    h2.usage.trans h1.usage, h2.pid.trans h1.pid, h2.tid.trans h1.tid, h2.hpid.trans h1.hpid,
    h2.tptr.trans h1.tptr⟩

theorem State.SameHart.post (s : State) (e : Event) : s.SameHart (s.post e) := by
  constructor <;> simp

theorem State.SameHart.tick (s : State) : s.SameHart s.tick := by
  rw [State.tick_frame]
  constructor <;> rfl

theorem State.SameHart.clock (s : State) : s.SameHart s.clock := by
  rw [State.clock_frame]
  constructor <;> rfl

theorem State.SameHart.passTime (s : State) : s.SameHart s.passTime := by
  constructor <;> simp

/-- Everything one arrival can do: an event of this hart joins the queue, a clock cycle, a byte stored
inside the address space, or one that will race the next instruction. -/
inductive Arrival (s : State) : State → Prop where
  | none : Arrival s s
  | posted (e : Event) (hd : e.data = none) (hx : e.name.defined s.cfg = true) :
      Arrival s (s.post e)
  | clock : Arrival s s.clock
  | stored (n : Nat) (b : Byte) (h : n < 2 ^ s.cfg.wlen) : Arrival s (s.storeByte n b)
  | raced (r : Race) (h : r.addr < 2 ^ s.cfg.wlen) :
      Arrival s { s with racing := s.racing ++ [r] }

theorem Config.word_lt (cfg : Config) (n : Nat) : (cfg.word n).toNat < 2 ^ cfg.wlen := by
  simp only [Config.word, BitVec.toNat_ofNat]
  exact Nat.lt_of_le_of_lt (Nat.mod_le _ _) (Nat.mod_lt _ (Nat.two_pow_pos _))

theorem State.receive_cases {s t : State} {i : Input} (h : s.receive i = .ok t) : Arrival s t := by
  cases i with
  | io k =>
    simp only [State.receive] at h
    split at h <;> cases h
    · rename_i hm
      exact .posted _ rfl (by simpa [EventName.defined, EventName.module] using hm)
    · exact .none
  | ipc k =>
    simp only [State.receive] at h
    split at h <;> cases h
    · rename_i hm
      exact .posted _ rfl (by simpa [EventName.defined, EventName.module] using hm)
    · exact .none
  | clockCycle =>
    cases h
    exact .clock
  | custom slot =>
    simp only [State.receive] at h
    split at h
    · cases h
      exact .none
    · rename_i r hr
      have hx : EventName.defined s.cfg (.custom slot) = true := by simp [EventName.defined, hr]
      split at h <;> cases h
      · exact .posted _ rfl hx
      · exact .posted _ rfl hx
      · exact .none
      · exact .none
  | memoryWrite addr b =>
    simp only [State.receive] at h
    split at h <;> cases h
    split
    · exact .stored _ b (Config.word_lt _ _)
    · exact .none
  | memoryWriteDuring k addr b =>
    simp only [State.receive] at h
    split at h <;> cases h
    split
    · exact .raced _ (Config.word_lt _ _)
    · exact .none

theorem State.SameHart.receive {s t : State} {i : Input} (h : s.receive i = .ok t) :
    s.SameHart t := by
  cases State.receive_cases h with
  | none => exact .refl _
  | posted e => exact .post _ _
  | clock => exact .clock _
  | stored n b => constructor <;> rfl
  | raced r => constructor <;> rfl

/-- A property every arrival keeps holds after a batch. -/
theorem State.receiveAll_induct (P : State → Prop)
    (hP : ∀ s t i, s.receive i = .ok t → P s → P t) {is : List Input} {s t : State}
    (h : s.receiveAll is = .ok t) (hs : P s) : P t := by
  induction is generalizing s with
  | nil =>
    cases h
    exact hs
  | cons i is ih =>
    simp only [State.receiveAll] at h
    split at h
    · cases h
    · rename_i s' h'
      exact ih h (hP _ _ _ h' hs)

/-- A property that the passing of time, the taking of a batch and every arrival keep holds at the
boundary. -/
theorem State.boundary_induct (P : State → Prop) (hT : ∀ s, P s → P s.passTime)
    (hI : ∀ s l, P s → P { s with inputs := l })
    (hP : ∀ s t i, s.receive i = .ok t → P s → P t) {s t : State} (h : s.boundary = .ok t)
    (hs : P s) : P t := by
  simp only [State.boundary] at h
  split at h
  · cases h
    exact hT _ hs
  · exact State.receiveAll_induct P hP h (hI _ _ (hT _ hs))

/-- Nothing from outside the hart changes its registers other than WDT and the counters. -/
theorem State.boundary_sameHart {s t : State} (h : s.boundary = .ok t) : s.SameHart t :=
  State.boundary_induct (fun t => s.SameHart t) (fun _ hs => hs.trans (.passTime _))
    (fun u l hs => hs.trans (by constructor <;> rfl)) (fun _ _ _ hr hs => hs.trans (.receive hr))
    h (.refl s)

/-- The data of an event fits WLEN bits. -/
def Event.fits (cfg : Config) (e : Event) : Prop := ∀ v, e.data = some v → v.toNat < 2 ^ cfg.wlen

theorem Event.fits_of_none {cfg : Config} {e : Event} (h : e.data = none) : e.fits cfg := by
  intro v hv
  rw [h] at hv
  cases hv

/-- The trigger of a helper register of this hart, in some mode. -/
def Trigger.Real (cfg : Config) (t : Trigger) : Prop :=
  cfg.has .hlpr = true ∧ ∃ mode, helperEvent cfg mode = some t.name

/-- What stops an instruction fits: the data of its event. -/
def Stop.Fits (s : State) : Stop → Prop
  | .event e => e.fits s.cfg
  | .fault _ => True
  | .refused _ => True

/-- Everything `triggerIf` gives for the helper registers of a hart is real. -/
theorem State.triggers_real {s : State} {fires : Nat → HelperReg → Bool}
    (hf : ∀ i r, fires i r = true → s.cfg.has .hlpr = true) :
    ∀ t ∈ s.h.zipIdx.filterMap (triggerIf s.cfg fires), t.Real s.cfg := by
  intro t ht
  obtain ⟨p, -, hp⟩ := List.mem_filterMap.1 ht
  simp only [triggerIf] at hp
  split at hp
  · rename_i hfire
    obtain ⟨n, hn, rfl⟩ := Option.map_eq_some_iff.1 hp
    exact ⟨hf _ _ hfire, _, hn⟩
  · cases hp

/-- Everything `triggerIf` gives for the helper registers of a hart has the index of one. -/
theorem State.triggers_index {s : State} {fires : Nat → HelperReg → Bool} :
    ∀ t ∈ s.h.zipIdx.filterMap (triggerIf s.cfg fires), t.index < s.h.length := by
  intro t ht
  obtain ⟨p, hm, hp⟩ := List.mem_filterMap.1 ht
  simp only [triggerIf] at hp
  split at hp
  · obtain ⟨n, -, rfl⟩ := Option.map_eq_some_iff.1 hp
    exact (List.getElem?_eq_some_iff.1 (List.mem_zipIdx_iff_getElem?.1 hm)).1
  · cases hp

theorem State.accessTriggers_real (s : State) (kind : AccessKind) (a : Word) (n : Nat) :
    ∀ t ∈ s.accessTriggers kind a n, t.Real s.cfg :=
  State.triggers_real fun i r h => by
    simp only [State.firesOn, State.helperEnabled, Bool.and_eq_true] at h
    exact h.1.1

theorem State.flagTriggers_real (s : State) (flags : List Flag) :
    ∀ t ∈ s.flagTriggers flags, t.Real s.cfg :=
  State.triggers_real fun i r h => by
    simp only [State.firesOnFlag, State.helperEnabled, Bool.and_eq_true] at h
    exact h.1.1.1

/-- A fault of a translation carries the address of the byte. -/
theorem State.physicals_error {s : State} {addr : Word} {kind : AccessKind} {k n : Nat} {e : Stop}
    (h : s.physicals addr kind k n = .error e) : ∃ ev, e = .event ev ∧ ev.fits s.cfg := by
  induction n generalizing k with
  | zero => cases h
  | succ n ih =>
    simp only [State.physicals] at h
    split at h
    · rename_i e' he
      cases h
      simp only [State.physical] at he
      split at he <;> cases he <;>
        exact ⟨_, rfl, fun v hv => by cases hv; exact Config.word_lt _ _⟩
    · split at h
      · rename_i e' he
        cases h
        exact ih he
      · cases h

/-- What stands at a physical address stops the model or nothing. -/
theorem State.regionStop_fits {s : State} {kind : AccessKind} {ps : List Word} {e : Stop}
    (h : s.regionStop kind ps = some e) : (∃ f, e = .fault f) ∨ ∃ r, e = .refused r := by
  induction ps with
  | nil => cases h
  | cons p ps ih =>
    simp only [State.regionStop] at h
    split at h
    · exact ih h
    · split at h
      · cases h
        exact .inl ⟨_, rfl⟩
      · exact ih h
      · exact ih h
    · cases h
      exact .inr ⟨_, rfl⟩
    · cases h
      exact .inl ⟨_, rfl⟩

/-- What stops a data access fits. -/
theorem State.checkData_error {s : State} {kind : AccessKind} {addr : Word} {n align : Nat} {e : Stop}
    (h : s.checkData kind addr n align = .error e) : e.Fits s := by
  simp only [State.checkData] at h
  split at h
  · cases h
  · split at h
    · split at h <;> cases h
      · exact Event.fits_of_none rfl
      · trivial
    · split at h
      · rename_i e' he
        cases h
        obtain ⟨ev', rfl, hf⟩ := State.physicals_error he
        exact hf
      · split at h
        · rename_i e' he
          cases h
          rcases State.regionStop_fits he with ⟨f, rfl⟩ | ⟨r, rfl⟩ <;> trivial
        · cases h

theorem stopWith_fits {α : Type} {s : State} {n : EventName} {e : Stop}
    (h : (stopWith n : Except Stop α) = .error e) : e.Fits s := by
  cases h
  exact Event.fits_of_none rfl

theorem Work.readSpr_fits {w : Work} {s : State} {mode : Mode} {n : Nat} {r : Spr} {e : Stop}
    (h : w.readSpr mode n r = .error e) : e.Fits s := by
  simp only [Work.readSpr] at h
  split at h
  · cases h
  · exact stopWith_fits h

theorem Work.writeSpr_fits {w : Work} {s : State} {mode : Mode} {n v : Nat} {r : Spr} {e : Stop}
    (h : w.writeSpr mode n r v = .error e) : e.Fits s := by
  simp only [Work.writeSpr] at h
  split at h
  · exact stopWith_fits h
  · cases h

theorem inBank_fits {s0 s : State} {b : Bank} {i : Nat} {w : Work} {e : Stop}
    (h : inBank s0 b i w = .error e) : e.Fits s := by
  simp only [inBank] at h
  split at h
  · cases h
  · exact stopWith_fits h

theorem Work.readNumbered_fits {w : Work} {s0 s : State} {n : Nat} {r : NumberedReg} {e : Stop}
    (h : w.readNumbered s0 n r = .error e) : e.Fits s := by
  cases r with
  | special r => exact Work.readSpr_fits h
  | value b i => exact inBank_fits h
  | mode b i => exact inBank_fits h

theorem Work.writeNumbered_fits {w : Work} {d : Decoded} {s0 s : State} {n v : Nat} {r : NumberedReg}
    {e : Stop} (h : w.writeNumbered d s0 n v r = .error e) : e.Fits s := by
  cases r with
  | special r => exact Work.writeSpr_fits h
  | value b i => exact inBank_fits h
  | mode b i => exact inBank_fits h

theorem numbered_fits {cfg : Config} {s : State} {n : Nat} {go : NumberedReg → Except Stop Work}
    {e : Stop}
    (h : numbered cfg n go = .error e) (hg : ∀ r, go r = .error e → e.Fits s) : e.Fits s := by
  simp only [numbered] at h
  split at h
  · exact stopWith_fits h
  · exact hg _ h

theorem Work.load_fits {w : Work} {d : Decoded} {s : State} {size : AccessSize} {n a : Nat} {e : Stop}
    (h : w.load d s size n a = .error e) : e.Fits s := by
  simp only [Work.load] at h
  split at h
  · rename_i e' he
    cases h
    simp only [State.memRead] at he
    split at he
    · rename_i e'' he'
      cases he
      exact State.checkData_error he'
    · cases he
  · cases h

theorem Work.store_fits {w : Work} {d : Decoded} {s : State} {size : AccessSize} {n a v : Nat}
    {e : Stop} (h : w.store d s size n a v = .error e) : e.Fits s := by
  simp only [Work.store] at h
  split at h
  · rename_i e' he
    cases h
    simp only [State.memWrite] at he
    split at he
    · rename_i e'' he'
      cases he
      exact State.checkData_error he'
    · cases he
  · cases h

/-- What stops one primitive fits. -/
theorem runPrim_error {d : Decoded} {s0 : State} {w : Work} {p : Prim} {e : Stop}
    (h : runPrim d s0 w p = .error e) : e.Fits s0 := by
  cases p <;> simp only [runPrim] at h
  case readAt b => exact inBank_fits h
  case writeAt b => exact inBank_fits h
  case readModeAt b => exact inBank_fits h
  case writeModeAt b => exact inBank_fits h
  case readSpr r => exact Work.readSpr_fits h
  case writeSpr r => exact Work.writeSpr_fits h
  case readSprAt => exact numbered_fits h fun _ => Work.readNumbered_fits
  case writeSprAt => exact numbered_fits h fun _ => Work.writeNumbered_fits
  case load size => exact Work.load_fits h
  case store size => exact Work.store_fits h
  case loadIf size =>
    split at h
    · cases h
    · exact Work.load_fits h
  case storeIf size =>
    split at h
    · cases h
    · exact Work.store_fits h
  case readConfig n =>
    split at h <;> cases h
    trivial
  case fence =>
    simp only [Work.fence] at h
    repeat' split at h
    all_goals cases h
    trivial
  case raiseCustom slot => exact stopWith_fits h
  all_goals cases h

/-- What stops a sequence of primitives fits. -/
theorem runPrims_error {d : Decoded} {s0 : State} {ps : List Prim} {w : Work} {e : Stop × Work}
    (h : runPrims d s0 w ps = .error e) : e.1.Fits s0 := by
  induction ps generalizing w with
  | nil => cases h
  | cons p ps ih =>
    simp only [runPrims] at h
    split at h
    · rename_i e' he
      cases h
      exact runPrim_error he
    · exact ih h

/-- What stops a fetch fits. -/
theorem State.fetch_error {s : State} {e : Stop × Nat} (h : s.fetch = .error e) : e.1.Fits s := by
  have hb : ∀ k n e, s.fetchBytes k n = .error e → e.Fits s := by
    intro k n e h
    simp only [State.fetchBytes] at h
    split at h
    · rename_i e' he
      cases h
      obtain ⟨ev', rfl, hf⟩ := State.physicals_error he
      exact hf
    · split at h
      · rename_i e' he
        cases h
        rcases State.regionStop_fits he with ⟨f, rfl⟩ | ⟨r, rfl⟩ <;> trivial
      · split at h <;> cases h
        trivial
  simp only [State.fetch] at h
  split at h
  · cases h
    exact Event.fits_of_none rfl
  · split at h
    · rename_i e' he
      cases h
      exact hb _ _ _ he
    · split at h
      · rename_i e' he
        cases h
        exact hb _ _ _ he
      · cases h

/-- Everything a running hart can do from an instruction boundary to a next state. -/
inductive Advance (s : State) : State → Prop where
  /-- An event of the queue is taken. -/
  | took (e : Event) (h : s.nextEvent = some e) : Advance s (s.takeEvent e)
  /-- The instruction raises an event, with the free values before the n-th drawn. -/
  | raised (n : Nat) (hn : s.draws ≤ n) (e : Event) (h : e.fits s.cfg) :
      Advance s ((s.drawn n).deliver e)
  /-- Helper registers fire. -/
  | triggered (n : Nat) (hn : s.draws ≤ n) (ts : List Trigger) (t : State)
      (h : (s.drawn n).takeTriggers ts = .next t) (hr : ∀ u ∈ ts, u.Real s.cfg) : Advance s t
  /-- One of the five instructions has its effect. -/
  | ran (i : Instr) (h : coreFaults s i = false) (hr : coreRefused i s = false) :
      Advance s (State.retire s {} (coreEffect i s))
  /-- A supplied instruction completes. -/
  | completed (d : Decoded) (len : InstrLen) (w : InstrBits) (ps : List Prim) (f : List Trigger)
      (r : Work) (hd : decode s.cfg len w = .instr d) (hs : d.row.sem = .prims ps)
      (h : runPrims d s { s := s, fired := f } ps = .ok r) : Advance s (s.complete len r)

/-- An event raised before anything is drawn. -/
theorem State.deliver_advance (s : State) {e : Event} (h : e.fits s.cfg) : Advance s (s.deliver e) :=
  .raised s.draws (Nat.le_refl _) e h

theorem State.raise_advance {s t : State} {n : Nat} {e : EventName} (hn : s.draws ≤ n)
    (h : (s.drawn n).raise e = .next t) : Advance s t := by
  cases h
  exact .raised n hn _ (Event.fits_of_none rfl)

/-- With no helper register fired and no flag raised there is nothing to lead to. -/
theorem State.afterFlags_nil (s : State) : s.afterFlags [] [] = none := by
  have h1 : s.flagTriggers [] = [] := by
    refine List.filterMap_eq_nil_iff.2 fun p _ => ?_
    have : s.firesOnFlag [] p.2 p.1 = false := by
      simp only [State.firesOnFlag]
      split <;> simp
    simp [triggerIf, this]
  have h2 : s.excEvents [] = [] := by
    simp only [State.excEvents]
    split
    · refine List.filterMap_eq_nil_iff.2 fun f _ => ?_
      simp
    · rfl
  simp [State.afterFlags, h1, h2]

theorem State.afterFlags_advance {s t : State} {n : Nat} {fetched : List Trigger} {flags : List Flag}
    {o : Host.Outcome State Fault Refusal} (hn : s.draws ≤ n) (hr : ∀ u ∈ fetched, u.Real s.cfg)
    (h : (s.drawn n).afterFlags fetched flags = some o) (ho : o = .next t) : Advance s t := by
  subst ho
  simp only [State.afterFlags] at h
  split at h
  · rename_i a l hl
    refine .triggered n hn _ _ (Option.some.inj h) fun u hu => ?_
    rw [← hl] at hu
    rcases List.mem_append.1 hu with hu | hu
    · exact hr _ hu
    · exact State.flagTriggers_real (s.drawn n) _ _ hu
  · split at h
    · exact State.raise_advance hn (Option.some.inj h)
    · cases h

/-- An outcome that flags and helper registers may replace. -/
theorem State.afterFlags_getD_advance {s t : State} {n : Nat} {fetched : List Trigger}
    {flags : List Flag} {o : Host.Outcome State Fault Refusal} (hn : s.draws ≤ n)
    (hr : ∀ u ∈ fetched, u.Real s.cfg) (h : ((s.drawn n).afterFlags fetched flags).getD o = .next t)
    (ho : o = .next t → Advance s t) : Advance s t := by
  cases ha : (s.drawn n).afterFlags fetched flags with
  | none => exact ho (by simpa [ha] using h)
  | some o' => exact State.afterFlags_advance hn hr ha (by simpa [ha] using h)

theorem State.stopped_advance {s t : State} {n : Nat} {fetched : List Trigger} {flags : List Flag}
    {e : Stop} (hn : s.draws ≤ n) (hr : ∀ u ∈ fetched, u.Real s.cfg)
    (h : (s.drawn n).stopped fetched flags e = .next t) (he : e.Fits s) : Advance s t := by
  cases e with
  | event e =>
    simp only [State.stopped] at h
    split at h
    · cases h
      exact .raised n hn _ he
    · exact State.afterFlags_getD_advance hn hr h fun h => by cases h; exact .raised n hn _ he
  | fault f => exact State.afterFlags_getD_advance hn hr h nofun
  | refused r => exact State.afterFlags_getD_advance hn hr h nofun

theorem exec_advance {i : Instr} {s t : State} (h : exec i s = .next t) : Advance s t := by
  rw [exec_eq] at h
  split at h
  · cases h
    exact State.deliver_advance _ (Event.fits_of_none rfl)
  · rename_i hf
    split at h <;> cases h
    rename_i hr
    exact .ran i (by simpa using hf) (by simpa using hr)

theorem State.runCore_advance {s t : State} {fetched : List Trigger} {i : Instr}
    (hr : ∀ u ∈ fetched, u.Real s.cfg) (h : s.runCore fetched i = .next t) : Advance s t := by
  simp only [State.runCore] at h
  split at h
  · exact exec_advance h
  · split at h
    · exact exec_advance h
    · exact .triggered s.draws (Nat.le_refl _) _ _ h hr

/-- What the helper registers noted while a supplied instruction runs can be. -/
theorem runPrims_real {d : Decoded} {s : State} {ps : List Prim} {f : List Trigger} {w : Work}
    (hr : ∀ u ∈ f, u.Real s.cfg)
    (h : runPrims d s { s := s, fired := f } ps = .ok w
      ∨ ∃ e, runPrims d s { s := s, fired := f } ps = .error (e, w)) :
    ∀ u ∈ w.fired, u.Real s.cfg := by
  intro u hu
  rcases runPrims_fired h u hu with h' | ⟨kind, a, n, h'⟩
  · exact hr _ h'
  · exact State.accessTriggers_real _ _ _ _ _ h'

theorem State.runSupplied_advance {s t : State} {d : Decoded} {len : InstrLen} {w : InstrBits}
    {fetched : List Trigger} {ps : List Prim} (hd : decode s.cfg len w = .instr d)
    (hs : d.row.sem = .prims ps) (hr : ∀ u ∈ fetched, u.Real s.cfg)
    (h : s.runSupplied d len fetched ps = .next t) : Advance s t := by
  simp only [State.runSupplied] at h
  split at h
  · exact State.raise_advance (Nat.le_refl _) h
  · split at h
    · rename_i e w' he
      exact State.stopped_advance (runPrims_draws_le (w := { s := s, fired := fetched }) (.inr ⟨e, he⟩))
        (runPrims_real hr (.inr ⟨e, he⟩)) h (runPrims_error he)
    · rename_i r hw
      exact State.afterFlags_getD_advance
          (runPrims_draws_le (w := { s := s, fired := fetched }) (.inl hw))
          (runPrims_real hr (.inl hw)) h fun h => by
        cases h
        exact .completed d len w ps fetched r hd hs hw

/-- What running a fetched, decoded instruction to a next state can be. -/
theorem State.runInstr_advance {s t : State} (h : s.runInstr = .next t) : Advance s t := by
  simp only [State.runInstr] at h
  split at h
  · rename_i e n he
    refine State.stopped_advance (n := s.draws) (Nat.le_refl _) (fun u hu => ?_) h (State.fetch_error he)
    simp only [State.firedAtFetch] at hu
    split at hu
    · cases hu
    · exact State.accessTriggers_real _ _ _ _ _ hu
  · rename_i len w hf
    split at h
    · exact State.raise_advance (Nat.le_refl _) h
    · exact State.raise_advance (Nat.le_refl _) h
    · cases h
    · rename_i d hd
      have hr := State.accessTriggers_real s .fetch s.pc len.bytes
      simp only [State.execute] at h
      split at h
      · exact State.runCore_advance hr h
      · rename_i ps hs
        exact State.runSupplied_advance hd hs hr h
      · cases h

theorem settled_next {o : Host.Outcome State Fault Refusal} {t : State} (h : settled o = .next t) :
    ∃ u, o = .next u ∧ t = u.settleAll := by
  cases o with
  | next u =>
    cases h
    exact ⟨u, rfl, rfl⟩
  | fault f => cases h
  | refused r => cases h

/-- A running step: what its boundary leads to, settled. -/
theorem State.Runs.step_eq {s b : State} (hs : s.Runs) (hb : s.boundary = .ok b) :
    step s = settled b.atBoundary := by
  simp only [step, State.cycle, hs.config, hs.notHalted, hs.supported, State.runHart, hb, if_true]

/-- What a step to a next state can be: a halted hart stays, a running one advances from the next
instruction boundary, and what raced the instruction lands. -/
theorem step_cases {s t : State} (h : step s = .next t) :
    (s.sr.hlts ≠ 0 ∧ t = s)
      ∨ (s.Runs ∧ ∃ b u, s.boundary = .ok b ∧ Advance b u ∧ t = u.settleAll) := by
  simp only [step, State.cycle] at h
  split at h
  · cases h
  · rename_i hc
    split at h
    · rename_i hh
      split at h
      · cases h
      · rename_i hu
        refine .inr ⟨⟨hc, hh, hu⟩, ?_⟩
        simp only [State.runHart] at h
        split at h
        · cases h
        · rename_i b hb
          obtain ⟨u, hu', ht⟩ := settled_next h
          refine ⟨b, u, hb, ?_, ht⟩
          simp only [State.atBoundary] at hu'
          split at hu'
          · rename_i e he
            cases hu'
            exact .took e he
          · exact State.runInstr_advance hu'
    · rename_i hh
      split at h
      · cases h
        exact .inl ⟨hh, rfl⟩
      · cases h

end Sys2Proof.Machine
end

