-- ==== Sys2Proof/Laws/Invariant.lean ====
section
/-! SUPPORT. Invariants, once for all: what a property must survive to be kept by every step. -/

namespace Sys2Proof.Machine

/-- A property that the passing of time, the taking of a batch, every arrival, every advance and the
landing of what raced it keep is kept by every step. -/
theorem step_keeps (P : State → Prop) (hT : ∀ s, P s → P s.passTime)
    (hI : ∀ s l, P s → P { s with inputs := l }) (hR : ∀ s t, Arrival s t → P s → P t)
    (hA : ∀ s t, Advance s t → P s → P t) (hL : ∀ s, P s → P s.settleAll) {s t : State}
    (h : step s = .next t) (hs : P s) : P t := by
  rcases step_cases h with ⟨-, rfl⟩ | ⟨-, b, u, hb, ha, rfl⟩
  · exact hs
  · exact hL _ (hA _ _ ha
      (State.boundary_induct P hT hI (fun _ _ _ h => hR _ _ (State.receive_cases h)) hb hs))

/-- The program counter a sequence of primitives writes, if it writes one, is a WLEN-bit value. -/
theorem runPrims_target {d : Decoded} {s0 : State} {ps : List Prim} {w w' : Work}
    (h : runPrims d s0 w ps = .ok w') (hc : w.s.cfg = s0.cfg) :
    w'.target = w.target ∨ ∃ n, w'.target = some (s0.cfg.word n) := by
  induction ps generalizing w with
  | nil =>
    cases h
    exact .inl rfl
  | cons p ps ih =>
    simp only [runPrims] at h
    split at h
    · cases h
    · rename_i w1 h1
      have hn := runPrim_next h1
      rcases ih h (hn.write.frame.1.trans hc) with h' | h'
      · rw [h']
        rcases hn.target with h2 | ⟨n, h2 | h2⟩
        · exact .inl h2
        · exact .inr ⟨n, h2⟩
        · exact .inr ⟨n, hc ▸ h2⟩
      · exact .inr h'

/-! ### What leaves the configuration alone, and what else -/

/-- Counting an instruction changes the counters only. -/
theorem State.retire_frame (s0 s : State) (k : Retired) :
    State.retire s0 k s = { s with c := (State.retire s0 k s).c } := by
  unfold State.retire
  split <;> rfl

/-- The passing of time changes the counters and the draws only. -/
theorem State.passTime_frame (s : State) :
    s.passTime = { s with c := s.passTime.c, draws := s.passTime.draws } := by
  unfold State.passTime
  split <;> rfl

@[simp] theorem State.deliver_cfg (s : State) (e : Event) : (s.deliver e).cfg = s.cfg := by
  rcases State.deliver_cases s e with ⟨h, -⟩ | ⟨h, -⟩ | ⟨h, -⟩ <;> rw [h] <;> rfl

@[simp] theorem State.deliver_queue (s : State) (e : Event) : (s.deliver e).queue = s.queue := by
  rcases State.deliver_cases s e with ⟨h, -⟩ | ⟨h, -⟩ | ⟨h, -⟩ <;> rw [h] <;> rfl

/-- None of the five instructions changes the configuration or the queue. -/
theorem coreEffect_keeps (i : Instr) (s : State) :
    (coreEffect i s).cfg = s.cfg ∧ (coreEffect i s).queue = s.queue := by
  cases i with
  | hlt => exact ⟨rfl, rfl⟩
  | eret =>
    simp only [coreEffect]
    rcases State.relaunchMachine_cases s.returnMachine with ⟨h, -⟩ | ⟨h, -⟩ <;> rw [h] <;>
      exact ⟨rfl, rfl⟩
  | ueret =>
    simp only [coreEffect]
    rcases State.relaunchUser_cases s.returnUser with ⟨h, -⟩ | ⟨h, -⟩ <;> rw [h] <;>
      exact ⟨rfl, rfl⟩
  | uret =>
    simp only [coreEffect]
    rcases State.relaunchUser_cases s.demote with ⟨h, -⟩ | ⟨h, -⟩ <;> rw [h] <;> exact ⟨rfl, rfl⟩
  | syscall => exact ⟨rfl, rfl⟩

/-- The best of some events is one of them. -/
theorem bestOf_mem {cfg : Config} {l : List Event} {e : Event} (h : bestOf cfg l = some e) :
    e ∈ l := by
  induction l generalizing e with
  | nil => cases h
  | cons a l ih =>
    simp only [bestOf] at h
    split at h
    · cases h
      exact List.mem_cons_self
    · rename_i b hb
      split at h <;> cases h
      · exact List.mem_cons_of_mem _ (ih hb)
      · exact List.mem_cons_self

/-- The event taken at a boundary is in the queue, and is an unmasked interrupt or a queued exception. -/
theorem State.nextEvent_cases {s : State} {e : Event} (h : s.nextEvent = some e) :
    e ∈ s.queue ∧ (s.unmasked e = true ∨ Event.queuedException s.cfg e = true) := by
  simp only [State.nextEvent] at h
  split at h
  · rename_i e' he
    cases h
    have hm := List.mem_filter.1 (bestOf_mem he)
    exact ⟨hm.1, .inl hm.2⟩
  · split at h
    · cases h
    · exact ⟨List.mem_of_find?_eq_some h, .inr (List.find?_some h)⟩

/-! ### Kept by every advance -/

/-- A property every shared operation keeps. `D` says that it depends on the data of events: then the
launching sequences keep it for data that fits WLEN bits. -/
structure Kept (D : Prop) (P : State → Prop) : Prop where
  queue  : ∀ s q, P s → P { s with queue := q }
  draw   : ∀ s n, P s → P (s.drawn n)
  halt   : ∀ s v, P s → P (s.halt v)
  enterM : ∀ s c d, (D → ∀ v, d = some v → v.toNat < 2 ^ s.cfg.wlen) → P s → P (s.enterMachine c d)
  enterU : ∀ s c d, (D → ∀ v, d = some v → v.toNat < 2 ^ s.cfg.wlen) → P s → P (s.enterUser c d)
  retM   : ∀ s, P s → P s.returnMachine
  retU   : ∀ s, s.cfg.has .user = true → P s → P s.returnUser
  demote : ∀ s, s.cfg.has .user = true → P s → P s.demote
  retire : ∀ s0 k s, s0.cfg = s.cfg → P s0 → P s → P (State.retire s0 k s)
  prim   : ∀ d s0 s s', s0.cfg = s.cfg → PrimWrite d s0 s s' → P s → P s'
  pc     : ∀ s n, P s → P { s with pc := s.cfg.word n }

theorem Kept.deliver {D : Prop} {P : State → Prop} (K : Kept D P) (s : State) (e : Event)
    (he : D → e.fits s.cfg) (h : P s) : P (s.deliver e) := by
  rcases State.deliver_cases s e with ⟨h', -⟩ | ⟨h', -⟩ | ⟨h', -⟩ <;> rw [h']
  · exact K.halt _ _ h
  · exact K.enterM _ _ _ he h
  · exact K.enterU _ _ _ he h

theorem Kept.core {D : Prop} {P : State → Prop} (K : Kept D P) (s : State) (i : Instr)
    (hf : coreFaults s i = false) (h : P s) : P (coreEffect i s) := by
  cases i with
  | hlt => exact K.halt _ _ h
  | eret =>
    simp only [coreEffect]
    rcases State.relaunchMachine_cases s.returnMachine with ⟨h', -⟩ | ⟨h', -⟩ <;> rw [h']
    · exact K.retM _ h
    · exact K.enterM _ _ _ (fun _ => nofun) (K.retM _ h)
  | ueret =>
    simp only [coreFaults, Bool.not_eq_false'] at hf
    simp only [coreEffect]
    rcases State.relaunchUser_cases s.returnUser with ⟨h', -⟩ | ⟨h', -⟩ <;> rw [h']
    · exact K.retU _ hf h
    · exact K.enterU _ _ _ (fun _ => nofun) (K.retU _ hf h)
  | uret =>
    simp only [coreFaults, Bool.or_eq_false_iff, Bool.not_eq_false'] at hf
    simp only [coreEffect]
    rcases State.relaunchUser_cases s.demote with ⟨h', -⟩ | ⟨h', -⟩ <;> rw [h']
    · exact K.demote _ hf.1 h
    · exact K.enterU _ _ _ (fun _ => nofun) (K.demote _ hf.1 h)
  | syscall => exact h

/-- A property every shared operation keeps is kept by every advance from a boundary. -/
theorem Kept.advance {D : Prop} {P : State → Prop} (K : Kept D P) {s t : State}
    (hq : D → ∀ e ∈ s.queue, e.data = none) (h : Advance s t) (hs : P s) : P t := by
  cases h with
  | took e h =>
    exact K.deliver _ _ (fun hD => Event.fits_of_none (hq hD e (State.nextEvent_cases h).1))
      (K.queue _ _ hs)
  | raised n _ e h => exact K.deliver _ _ (fun _ => h) (K.draw _ _ hs)
  | triggered n _ ts t h hr =>
    rcases State.takeTriggers_cases h with ⟨-, rfl⟩ | ⟨a, r, -, -, rfl⟩
    · exact K.draw _ _ hs
    · exact K.deliver _ _ (fun _ => Event.fits_of_none rfl) (K.queue _ _ (K.draw _ _ hs))
  | ran i h hr => exact K.retire _ _ _ (coreEffect_keeps _ _).1.symm hs (K.core _ _ h hs)
  | completed d len w ps f r hd hd' h =>
    have hc := (runPrims_frame h).1
    have hr : P r.s ∧ r.s.cfg = s.cfg :=
      runPrims_induct (fun t => P t ∧ t.cfg = s.cfg)
        (fun _ _ hw h => ⟨K.prim _ _ _ _ h.2.symm hw h.1, hw.frame.1.trans h.2⟩) h ⟨hs, rfl⟩
    have hpc : ∀ c, r.s.cfg = c → ∀ n, P { r.s with pc := c.word n } := by
      rintro _ rfl n
      exact K.pc r.s n hr.1
    refine K.retire _ _ _ hc.symm hs ?_
    rcases runPrims_target h rfl with h' | ⟨n, h'⟩ <;> rw [h']
    · exact hpc _ hr.2 _
    · exact hpc _ hr.2 n

end Sys2Proof.Machine
end

