-- ==== Sys2Proof/Laws/PerInstr.lean ====
section
/-! SUPPORT. Per instruction: under the reference configuration the instruction is well formed, and the table
decoder reads it from the word the encoder gives. -/

namespace Sys2Proof.Laws.ReferenceEncoding

/-- Well formed, encoded in four bytes, and read back from that word. -/
def Statement (i : Instr) : Prop :=
  i.wellFormed Config.reference = true
    ∧ ∃ w, encode Config.reference i = some (.four, w) ∧ decodeTableWord 32 w.toNat = some i

theorem hlt : Statement .hlt := ⟨by decide +kernel, 1, by decide +kernel, by decide +kernel⟩

theorem eret : Statement .eret := ⟨by decide +kernel, 2, by decide +kernel, by decide +kernel⟩

theorem ueret : Statement .ueret := ⟨by decide +kernel, 3, by decide +kernel, by decide +kernel⟩

theorem uret : Statement .uret := ⟨by decide +kernel, 4, by decide +kernel, by decide +kernel⟩

theorem syscall : Statement .syscall := ⟨by decide +kernel, 5, by decide +kernel, by decide +kernel⟩

end Sys2Proof.Laws.ReferenceEncoding
end

