-- ==== Sys2Proof/Tests/Slice0.lean ====
section
/-! SUPPORT. The model's own tests. Expected values are those of spec/95_test_vectors.md and of the worked
examples of the rules; every statement with hypotheses has its witness here. -/

namespace Sys2Proof.Tests

-- One proof at a time: many kernel evaluations at once exhaust the memory limit.
set_option Elab.async false

open Sys2Proof Sys2Proof.Machine

/-! ### Helpers -/

/-- Event registers with 32-bit status words of the default SR_LAYOUT. -/
def regs (epc esr ec ehp : Nat) : EventRegs :=
  { epc := BitVec.ofNat 64 epc, esr := StatusReg.unpack {} (BitVec.ofNat 32 esr),
    ec := BitVec.ofNat 16 ec, ehp := BitVec.ofNat 64 ehp }

/-- A REF32 hart. -/
def hart (pc sr : Nat) (m : EventRegs := regs 0 0 0 0x100) (u : EventRegs := regs 0 0 0 0x2100) :
    State :=
  { State.reset with
    pc := BitVec.ofNat 64 pc, sr := StatusReg.unpack {} (BitVec.ofNat 32 sr), m := m, u := u }

/-- The hart with the four-byte instruction of an op value of the reference map at its PC. -/
def at' (op : Nat) (s : State) : State := s.withFetchWord 32 op

/-- The next state, where there is one. -/
def nextOf : Host.Outcome State Fault Refusal → Option State
  | .next t => some t
  | .fault _ => none
  | .refused _ => none

theorem nextOf_eq {o : Host.Outcome State Fault Refusal} {P : State → Bool}
    (h : (nextOf o).any P = true) : ∃ t, o = .next t ∧ P t = true := by
  cases o with
  | next t => exact ⟨t, rfl, h⟩
  | fault f => cases h
  | refused r => cases h

/-- PC, SR, and the first three registers of an event set. -/
def view (t : State) (r : EventRegs) : List Nat :=
  [t.pc.toNat, (t.sr.pack {}).toNat, r.epc.toNat, (r.esr.pack {}).toNat, r.ec.toNat]

/-- What a step leaves in PC, SR, MEPC, MESR, MEC. -/
def seeM (s : State) : Option (List Nat) := (nextOf (step s)).map fun t => view t t.m

/-- What a step leaves in PC, SR, UEPC, UESR, UEC. -/
def seeU (s : State) : Option (List Nat) := (nextOf (step s)).map fun t => view t t.u

/-- REF32 with one row in the map. -/
def withRow (r : OpcodeRow) : Config := { Config.reference with opcodeMap := [r] }

/-- A 32-bit hart with every module, 64-bit vectors and 16 helper registers. -/
def full : Config :=
  { Config.reference with
    modules := [.vc, .vf, .hlpr, .perfc, .frmd, .tm, .fnc, .exc, .ioint, .ipcint, .dalign, .user,
      .ctxr, .sa]
    mxvlc := 3, hrfsc := 1, vshIllegal := [0xFF] }

/-- A hart with no optional module. -/
def bare : State :=
  { State.resetOf { Config.reference with modules := [], clenc := 0 } with
    pc := 0x40, m := regs 0 0 0 0x100 }

/-! ### Well-formedness: a configuration that breaks one check is refused by that check's name -/

theorem test_reference_is_legal : Config.reference.problem = none ∧ full.problem = none := by
  decide +kernel

theorem test_reserved_size :
    { Config.reference with srfsc := 3 }.problem = some .reservedSize
      ∧ { Config.reference with crfsc := 3 }.problem = some .reservedSize := by decide +kernel

/-- S4, S5 (R27), and the code 7 without a length. -/
theorem test_vector_length :
    { full with wlenc := 3 }.problem = some .vectorLength
      ∧ { full with mxvlc := 4, wlenc := 0 }.problem = some .vectorLength
      ∧ { full with mxvlc := 7 }.problem = some .vectorLength
      ∧ { full with mxvlc := 6, wlenc := 3 }.problem = none := by decide +kernel

theorem test_unused_parameter :
    { Config.reference with vrfsc := 1 }.problem = some .unusedParameter
      ∧ { Config.reference with modules := [.user], hrfsc := 1 }.problem = some .unusedParameter
      ∧ { Config.reference with modules := [.user], clenc := 1 }.problem = some .unusedParameter := by
  decide +kernel

theorem test_vector_module :
    { full with mxvlc := 0 }.problem = some .vectorModule := by decide +kernel

/-- CTXR without USER; a watchdog that ticks every 0 cycles; a number given to two registers. -/
theorem test_module_tick_and_number :
    { full with modules := [.ctxr, .vc, .hlpr, .perfc] }.problem = some .moduleDependency
      ∧ { full with modules := [.ctxr, .vc, .hlpr, .perfc, .user] }.problem = none
      ∧ { Config.reference with wdtTick := 0 }.problem = some .watchdogTick
      ∧ { Config.reference with sprNumbers := [(4, .special .mec), (4, .mode .hlprb 0)] }.problem
        = some .registerNumber := by decide +kernel

theorem test_reset_pc :
    { Config.reference with resetPc := 1 }.problem = some .resetPc
      ∧ { Config.reference with ialign := 0 }.problem = some .resetPc
      ∧ { Config.reference with resetPc := 0x100000000 }.problem = some .resetPc := by decide +kernel

theorem test_queue_depth :
    { Config.reference with queueDepth := 0 }.problem = some .queueDepth := by decide +kernel

theorem test_sr_layout :
    { Config.reference with srLayout := { hlts := 26 } }.problem = some .srLayout
      ∧ { Config.reference with srLayout := { spare1 := 32 } }.problem = some .srLayout := by
  decide +kernel

/-- Two custom events of one code. -/
theorem test_custom_event :
    { Config.reference with customEvents := [⟨5, .fault, none, none⟩, ⟨5, .exception, none, none⟩] }.problem
        = some .customEvent
      ∧ { Config.reference with customEvents := [⟨5, .fault, none, none⟩] }.problem = none := by
  decide +kernel

/-- A custom mode given twice, one that watches or counts nothing known, one whose event is not listed. -/
theorem test_custom_mode :
    { Config.reference with helperModes := [{ slot := 0, watch := .nothing }, { slot := 0, watch := .nothing }] }.problem
        = some .customMode
      ∧ { Config.reference with helperModes := [{ slot := 0, watch := .reserved }] }.problem
        = some .customMode
      ∧ { Config.reference with helperModes := [{ slot := 0, watch := .nothing, event := some 5 }] }.problem
        = some .customMode
      ∧ { Config.reference with counterModes := [⟨7, .reserved⟩] }.problem = some .customMode
      ∧ { Config.reference with counterModes := [⟨7, .loads⟩, ⟨7, .stores⟩] }.problem
        = some .customMode := by decide +kernel

/-- PWRS values with an effect; without the field SA there is none to have it. -/
theorem test_power_effect :
    { full with powerEffect := .acts [1] }.problem = some .powerEffect
      ∧ { Config.reference with powerEffect := .acts [1] }.problem = none := by decide +kernel

/-- An op value, an operand, an md class its format cannot hold; class G outside the formats that have it;
an operand given twice; primitives without entries on the stack, on an operand the row lacks, a fence
without class F, an event that is not listed, md in a row that ignores it (R148), fields the format lacks. -/
theorem test_opcode_row :
    (withRow { format := .twoRIC, op := 16, sem := .core .hlt }).problem = some .opcodeRow
      ∧ (withRow { format := .iA, op := 1, operands := [(.ra, .sgprb)], sem := .core .hlt }).problem
        = some .opcodeRow
      ∧ (withRow { format := .iA, op := 1, mdClass := .a, sem := .core .hlt }).problem
        = some .opcodeRow
      ∧ (withRow { format := .twoRA, op := 1, mdClass := .g, sem := .core .hlt }).problem
        = some .opcodeRow
      ∧ (withRow { format := .twoRB, op := 1, mdClass := .g, sem := .core .hlt }).problem = none
      ∧ (withRow { format := .twoRA, op := 1, operands := [(.ra, .sgprb), (.ra, .vgprb)], sem := .prims [] }).problem
        = some .opcodeRow
      ∧ [[Prim.drop], [.readReg .ra], [.fence], [.raiseCustom 0], [.const 1, .arith .add], [.md, .drop],
          [.imm, .drop], [.vm, .drop], [.scalarForm, .drop]].map
          (fun ps => (withRow { format := .twoRA, op := 1, sem := .prims ps }).problem)
        = List.replicate 9 (some .opcodeRow)
      ∧ (withRow { format := .twoRA, op := 1, mdClass := .a, sem := .prims [.md, .drop] }).problem = none
      ∧ (withRow { format := .iA, op := 1, sem := .prims [.imm, .drop] }).problem = none := by decide +kernel

theorem test_opcode_overlap :
    { Config.reference with
        opcodeMap := [{ format := .twoRA, op := 1, sem := .core .hlt },
          { format := .iA, op := 1, sem := .core .eret }] }.problem = some .opcodeOverlap := by
  decide +kernel

/-- An ill-formed instruction for each check: no row, an illegal configuration, an operand, an absent
module, an unused md, the vector format, a blank word, a first parcel of another length. -/
theorem test_ill_formed_instructions :
    Instr.hlt.wellFormed { Config.reference with opcodeMap := [] } = false
      ∧ Instr.hlt.wellFormed { Config.reference with queueDepth := 0 } = false
      ∧ Instr.hlt.wellFormed (withRow
          { format := .twoRA, op := 1, operands := [(.ra, .sgprb)], sem := .core .hlt }) = false
      ∧ Instr.hlt.wellFormed (withRow
          { format := .twoRA, op := 1, modules := [.sa], sem := .core .hlt }) = false
      ∧ Instr.hlt.wellFormed (withRow
          { format := .twoRA, op := 1, mdClass := .a, mdUsed := [1], sem := .core .hlt }) = false
      ∧ Instr.hlt.wellFormed (withRow { format := .fourRB, op := 0xF, sem := .core .hlt }) = false
      ∧ Instr.hlt.wellFormed (withRow { format := .twoRA, op := 0, sem := .core .hlt }) = false
      ∧ Instr.hlt.wellFormed (withRow { format := .twoRA, op := 0xE, sem := .core .hlt }) = false := by
  decide +kernel

/-! ### Encoding: E1 to E14 of 95_test_vectors.md, in both readings of the figures -/

/-- A word in both orders assembles from the fields, decodes to them, and the fields fit. -/
def agrees (fmt : Format) (fl : Fields) (w w' : InstrBits) : Bool :=
  assemble .lowLeft fmt fl == w && assemble .highLeft fmt fl == w'
    && fieldsOf .lowLeft fmt w == fl && fieldsOf .highLeft fmt w' == fl && fl.fits fmt

theorem test_six_byte_words :
    agrees .twoRIB { op := 0x5A5A, ra := 1, rb := 2, md := 3, im := 0x1ABCDE }
        0xBCDEF569441A 0x7B3DD74B5105
      ∧ agrees .threeRIA { op := 0x1234, ra := 31, rb := 0, rc := 17, md := 1, im := 0x8001 }
        0x80016248C1F4 0x8001A38901F2
      ∧ agrees .fourRB { op := 0xABCDE, ra := 3, rb := 4, rc := 5, rd := 6, md := 2, vm := 0x2D }
        0xBABD8A63483E 0xDF5668CB0987
      ∧ agrees .threeRIB { op := 0x7FFF, ra := 8, rb := 16, rc := 24, md := 0, vm := 1, im := 0x2AAA }
        0xAAA931FFE08F 0x555607FFC22F := by decide +kernel

theorem test_four_byte_words :
    agrees .twoRA { op := 0xFEDCB, ra := 7, rb := 6 } 0x3FB70C7B 0x0EDFD9CD
      ∧ agrees .threeRA { op := 0x4001, ra := 10, rb := 11, rc := 12, md := 2 } 0x990016A1 0x4C0074A8
      ∧ agrees .fourRA { op := 0x2A5, ra := 1, rb := 2, rc := 3, rd := 4, md := 1 }
        0x464A8415 0xB045510A
      ∧ agrees .iA { op := 0xC3, im := 0xA5F00F } 0x407F3D43 0xBC04DE5C
      ∧ agrees .riA { op := 0x155, ra := 9, md := 3, im := 0xBEEF } 0xF77D6E95 0xFDDD7B2A
      ∧ agrees .twoRIA { op := 0x9C, ra := 30, rb := 29, im := 0x801 } 0x20067BEC 0x20066EF3 := by
  decide +kernel

theorem test_two_byte_words :
    agrees .twoRB { op := 0xB7, ra := 6, rb := 7, md := 1 } 0xBF97 0x7EEE
      ∧ agrees .iB { op := 0x2A, im := 0x2B5 } 0x5D5A 0xB365
      ∧ agrees .riB { op := 0x13, ra := 5, im := 0xA6 } 0x9753 0x576C
      ∧ agrees .twoRIC { op := 0x9, ra := 2, rb := 4, im := 0x35 } 0x6699 0x8EA9 := by decide +kernel

/-- The words of the five instructions, bit by bit: op[3:0] in columns 0 to 3 (R136), all else 0 (the
model's own op values, log 3). -/
theorem test_decode_core_words :
    decodeTableWord 32 0b00000000000000000000000000000001 = some .hlt
      ∧ decodeTableWord 32 0b00000000000000000000000000000010 = some .eret
      ∧ decodeTableWord 32 0b00000000000000000000000000000011 = some .ueret
      ∧ decodeTableWord 32 0b00000000000000000000000000000100 = some .uret
      ∧ decodeTableWord 32 0b00000000000000000000000000000101 = some .syscall := by decide +kernel

/-- A word with a bit of the ignored specifier fields or md set is the same instruction; one with another
op bit is none. -/
theorem test_decode_ignores_unused_fields :
    decodeTableWord 32 0b11000000000000000011111111110001 = some .hlt
      ∧ decodeTableWord 32 0b00000000000000000100000000000001 = none
      ∧ decodeTableWord 32 0b00100000000000000000000000000001 = none := by decide +kernel

/-- M5 to M8 (R106). -/
theorem test_instruction_bytes :
    instrBytes .little .four 0x3FB70C7B = [0x7B, 0x0C, 0xB7, 0x3F]
      ∧ instrBytes .big .four 0x3FB70C7B = [0x0C, 0x7B, 0x3F, 0xB7]
      ∧ instrBytes .little .six 0xBCDEF569441A = [0x1A, 0x44, 0x69, 0xF5, 0xDE, 0xBC]
      ∧ instrBytes .big .six 0xBCDEF569441A = [0x44, 0x1A, 0xF5, 0x69, 0xBC, 0xDE] := by decide +kernel

/-! ### The five instructions -/

/-- The example of R181. -/
theorem test_hlt_machine :
    seeM (at' 1 (hart 0x100 0x00180000)) = some [0x100, 0x08180000, 0, 0, 0] := by decide +kernel

/-- T1 (R186). -/
theorem test_hlt_user :
    seeM (at' 1 (hart 0x2000 0x00600800)) = some [0x100, 0x00180000, 0x2000, 0x00600800, 3] := by
  decide +kernel

/-- The example of R182. -/
theorem test_eret :
    seeM (at' 2 (hart 0 0x00180000 (regs 0x1004 0x00600800 0 0x100)))
      = some [0x1004, 0x00600800, 0x1004, 0x00600800, 0] := by decide +kernel

/-- T3 (R248): a non-zero identifier launches again at once. -/
theorem test_eret_relaunches :
    seeM (at' 2 (hart 0 0x00180000 (regs 0x3000 0x00600800 0x0011 0x100)))
      = some [0x100, 0x00180000, 0x3000, 0x00600800, 0x0011] := by decide +kernel

/-- The example of R183: forged privileged fields are ignored. -/
theorem test_ueret :
    seeU (at' 3 (hart 0x1000 0x00600000 (regs 0 0 0 0x100) (regs 0x2010 0x0038F800 0 0x2100)))
      = some [0x2010, 0x0060F800, 0x2010, 0x0038F800, 0] := by decide +kernel

/-- T5 (R183): in machine mode the privileged fields keep their value. -/
theorem test_ueret_machine :
    seeU (at' 3 (hart 0x1000 0x00180000 (regs 0 0 0 0x100) (regs 0x200 0x00611800 0 0x2100)))
      = some [0x200, 0x00191800, 0x200, 0x00611800, 0] := by decide +kernel

/-- The example of R184. -/
theorem test_uret :
    seeU (at' 4 (hart 0 0x00180000 (regs 0 0 0 0x100) (regs 0x2000 0x00000800 0 0x2100)))
      = some [0x2000, 0x00600800, 0x2000, 0x00000800, 0] := by decide +kernel

/-- T4 (R184, R248). -/
theorem test_uret_relaunches :
    seeU (at' 4 (hart 0 0x00180000 (regs 0 0 0 0x100) (regs 0x2040 0x00000800 0x0066 0x2100)))
      = some [0x2100, 0x00600000, 0x2040, 0x00600800, 0x0066] := by decide +kernel

/-- The example of R185. -/
theorem test_syscall :
    seeM (at' 5 (hart 0x1000 0x00600800)) = some [0x100, 0x00180000, 0x1000, 0x00600800, 0x0054] := by
  decide +kernel

/-- Step 2 of program 2: the double event. -/
theorem test_syscall_double :
    seeM (at' 5 (hart 0x100 0x00180000 (regs 0x1000 0x00600800 0x0054 0x100)))
      = some [0x100, 0x10180000, 0x1000, 0x00600800, 0x0054] := by decide +kernel

/-- From reset, the placed instruction runs (log 8). -/
theorem test_first_step_from_reset :
    seeM (State.reset.withFetchWord 32 1) = some [0, 0x08180000, 0, 0, 0] := by decide +kernel

/-! ### Witnesses: for every statement with hypotheses, values that meet them together -/

/-- FormatFieldsRoundTrip and FormatWordRoundTrip: the greatest fields and words of each length. -/
theorem test_witness_round_trips :
    (Fields.fits { op := 0xFFFFF, ra := 31, rb := 31, md := 3 } .twoRA = true)
      ∧ (Fields.fits { op := 0xF, ra := 7, rb := 7, im := 0x3F } .twoRIC = true)
      ∧ (0xFFFF#48).toNat < 2 ^ (8 * Format.twoRIC.length.bytes)
      ∧ (0xFFFFFFFF#48).toNat < 2 ^ (8 * Format.iA.length.bytes)
      ∧ (0xFFFFFFFFFFFF#48).toNat < 2 ^ (8 * Format.fourRB.length.bytes) := by decide +kernel

/-- DecodeOfEncodeIsTheInstruction. -/
theorem test_witness_encode :
    Instr.syscall.wellFormed Config.reference = true
      ∧ encode Config.reference .syscall = some (.four, 5) := by decide +kernel

/-- BlankAndUnassignedWordsAreIllegal: op 6 is in no row. -/
theorem test_witness_unassigned :
    Config.reference.rowFor .four 6 = none ∧ decode Config.reference .four 6 = .illegal := by
  decide +kernel

/-- What decoding answers to a word of a row, which is neither blank nor another row's. -/
def decodeRow (cfg : Config) (r : OpcodeRow) (fl : Fields) : Option DecodeResult :=
  let cfg := { cfg with opcodeMap := [r] }
  let w := assemble .lowLeft r.format fl
  if !blankWord r.format.length w && cfg.rowFor r.format.length w == some r
      && fieldsOf .lowLeft r.format w == fl then some (decode cfg r.format.length w) else none

/-- The word decodes to INCI on REF32. -/
def incompatible (r : OpcodeRow) (fl : Fields) : Bool :=
  decodeRow Config.reference r fl == some .incompatible

/-- `full` with a value for two `vm(6)` patterns. -/
def vectors : Config := { full with vm6 := [(1, .mvv), (2, .vs)] }

/-- UnsupportedOperandsAreIncompatible, a witness for each cause of INCI: an absent module, S8 with the
helper bank of 8 (R22), an unused md, E23, E25, an unused vm, class B and a fixed size above WBYTES on
scalar data, an absent bank, a class F fence without FNC, a vector-scalar mode without a scalar. -/
theorem test_witness_incompatible :
    incompatible { format := .twoRA, op := 1, modules := [.vf], sem := .core .hlt } { op := 1 }
      ∧ incompatible { format := .twoRA, op := 1, operands := [(.ra, .hlprb)], sem := .prims [] }
        { op := 1, ra := 8 }
      ∧ incompatible { format := .twoRA, op := 1, mdClass := .a, mdUsed := [0, 1], sem := .prims [] }
        { op := 1, md := 2 }
      ∧ incompatible { format := .twoRA, op := 1, mdClass := .e, sem := .prims [] } { op := 1, md := 3 }
      ∧ incompatible { format := .threeRIB, op := 1, sem := .prims [] } { op := 1, vm := 3 }
      ∧ incompatible { format := .threeRIB, op := 1, vmUsed := some [0], sem := .prims [] }
        { op := 1, vm := 1 }
      ∧ incompatible
        { format := .twoRA, op := 1, mdClass := .b, operands := [(.ra, .sgprb)], sem := .prims [] }
        { op := 1, md := 3 }
      ∧ incompatible
        { format := .twoRA, op := 1, operands := [(.ra, .sgprb)], sem := .prims [.const 0, .load (.bytes 3)] }
        { op := 1 }
      ∧ incompatible { format := .twoRA, op := 1, mdClass := .c, sem := .prims [] } { op := 1, md := 1 }
      ∧ incompatible { format := .twoRA, op := 1, mdClass := .f, sem := .prims [.fence] } { op := 1 }
      ∧ decodeRow vectors { format := .fourRB, op := 1, sem := .prims [] } { op := 1, vm := 2 }
        = some .incompatible := by decide +kernel

/-- The same statement, sizes and registers: class B above a helper register of 4 bytes and a vector
register of 2, a vector access above 8 bytes and one without vectors; a load into a register narrower than
it, by operand and by number, through arithmetic, into a special purpose register and PC; a store of more
than its register. -/
theorem test_witness_incompatible_sizes :
    let short : Config := { full with wlenc := 0, mxvlc := 1 }
    let no := fun cfg r fl => decodeRow cfg r fl == some .incompatible
    let prims := fun ps => incompatible { format := .twoRA, op := 1, sem := .prims ps } { op := 1 }
    let b : OpcodeRow := { format := .twoRA, op := 1, mdClass := .b, sem := .prims [] }
    short.mxvl = 16 ∧ full.mxvl = 64
      ∧ no Config.reference { b with operands := [(.rb, .hlprb)] } { op := 1, md := 3 }
      ∧ no short { b with operands := [(.ra, .vgprb)] } { op := 1, md := 2 }
      ∧ no full { b with mdClass := .ignored, sem := .prims [.const 0, .load (.vector (.part 4) 0)] } { op := 1 }
      ∧ prims [.const 0, .load (.vector .whole 0)]
      ∧ no Config.reference
        { b with
          operands := [(.rb, .sgprb)], bases := [.rb], sem := .prims [.const 0, .load .byMd, .writeReg .rb] }
        { op := 1, md := 3 }
      ∧ no Config.reference { b with sem := .prims [.const 0, .load .byMd, .const 1, .writeAt .sgprb] }
        { op := 1, md := 3 }
      ∧ [[Prim.const 0, .load (.bytes 3), .const 1, .writeAt .sgprb],
          [.const 0, .load (.bytes 3), .const 1, .arith .add (some 64), .const 1, .writeAt .hlprb],
          [.const 0, .load (.bytes 3), .writeSpr .uet0], [.const 0, .load (.bytes 3), .jump],
          [.const 1, .readAt .sgprb, .const 0, .store (.bytes 3)]].all prims := by decide +kernel

/-- The same, a class B size without an access of memory: eight bytes to x[0] of four, from x[0], from a
vector register, named by an operand or by a number; a register among `bases` that is written although
nothing is accessed, or with a vector register, or read as data, or as a condition only. -/
theorem test_witness_incompatible_class_b :
    let b : OpcodeRow := { format := .twoRA, op := 1, mdClass := .b, sem := .prims [] }
    let base : OpcodeRow := { b with operands := [(.ra, .sgprb), (.rb, .vgprb)], bases := [.ra] }
    let no := fun r ps => decodeRow full { r with sem := .prims ps } { op := 1, md := 3 } == some .incompatible
    full.wbytes = 4 ∧ full.mxvl / 8 = 8
      ∧ [[Prim.specifier .rb, .readAt .sgprb, .md, .compute 7 2, .specifier .ra, .writeAt .sgprb],
          [.const 1, .readAt .vgprb, .const 0, .writeAt .sgprb], [.const 9, .const 0, .writeAt .hlprb],
          [.const 1, .readAt .sgprb, .const 0, .writeAt .vgprb],
          [.const 1, .readAt .sgprb, .const 2, .arith .ltu, .raiseFlag .cund],
          [.const 1, .readAt .vgprb, .writeSpr .mepc]].all (no b)
      ∧ [[Prim.readReg .ra, .const 8, .arith .add, .writeReg .ra], [.readReg .rb, .writeReg .ra],
          [.readReg .ra, .writeReg .rb], [.readReg .ra, .load .byMd, .writeReg .ra],
          [.readReg .ra, .raiseFlag .cund], [.const 0, .readReg .ra, .branch],
          [.const 1, .const 2, .readReg .ra, .select, .drop], [.const 1, .const 0, .readReg .ra, .loadIf .byMd, .drop],
          [.const 1, .const 0, .readReg .ra, .storeIf .byMd],
          [.readReg .ra, .load .byMd, .drop, .readReg .rb, .writeReg .ra]].all (no base) := by decide +kernel

/-- Their neighbours decode: four bytes; eight from a vector register to a vector register; eight loaded
into a vector register with the address register moved on, before the load and after it; a condition from
the vector register, and from the address register where four bytes are asked. -/
theorem test_compatible_class_b :
    let b : OpcodeRow := { format := .twoRA, op := 1, mdClass := .b, sem := .prims [] }
    let base : OpcodeRow := { b with operands := [(.ra, .sgprb), (.rb, .vgprb)], bases := [.ra] }
    let ok := fun r md ps =>
      (decodeRow full { r with sem := .prims ps } { op := 1, md := md }).any fun d => d matches .instr _
    ok b 2 [.specifier .rb, .readAt .sgprb, .md, .compute 7 2, .specifier .ra, .writeAt .sgprb]
      ∧ ok b 3 [.const 1, .readAt .vgprb, .const 0, .writeAt .vgprb]
      ∧ ok b 3 [.const 9, .writeSpr .mec]
      ∧ [[Prim.readReg .ra, .load .byMd, .writeReg .rb, .readReg .ra, .const 8, .arith .add, .writeReg .ra],
          [.readReg .ra, .const 8, .arith .add, .pick 0, .writeReg .ra, .load .byMd, .writeReg .rb],
          [.readReg .rb, .readReg .ra, .store .byMd], [.const 0, .readReg .rb, .branch]].all (ok base 3)
      ∧ ok base 2 [.readReg .ra, .raiseFlag .cund] := by decide +kernel

/-- REF32 with numbers for SR, for the value of h[2], and for the modes of h[2], c[0] and h[8], which is
beyond the bank. -/
def numberedRegs : Config :=
  { Config.reference with
    sprNumbers := [(1, .special .sr), (2, .value .hlprb 2), (3, .mode .hlprb 2), (4, .mode .perfcb 0),
      (5, .mode .hlprb 8)] }

/-- SPR_ACCESS (R45, R205, R206): a mode and a value written by their numbers and by the register's own, and
read back in user mode; INCI for a register beyond the bank and for a number without a register; eight bytes
do not fill a helper register, by its number either. -/
theorem test_numbered_registers :
    let s := { hart 0 0x00600000 with cfg := numberedRegs }
    let run := fun ps => nextOf (s.runSupplied
      ⟨{ format := .twoRA, op := 1, sem := .prims ps }, {}, .unmasked, false⟩ .four [] ps)
    numberedRegs.problem = none
      ∧ (run [.const 5, .const 3, .writeSprAt, .const 9, .const 2, .writeSprAt]).map (·.h.getD 2 {})
        = some { val := 9, mode := 5 }
      ∧ (run [.const 1, .const 4, .writeSprAt, .const 4, .readSprAt, .const 1, .writeAt .sgprb]).map
        (fun t => (t.x.getD 1 0, t.c.map (·.mode))) = some (1, [1, 0, 0, 0, 0, 0, 0, 0])
      ∧ (run [.const 7, .const 1, .writeModeAt .hlprb, .const 1, .readModeAt .hlprb, .const 3,
          .writeModeAt .perfcb]).map (fun t => ((t.h.getD 1 {}).mode, (t.c.getD 3 {}).mode)) = some (7, 7)
      ∧ [[Prim.const 1, .const 5, .writeSprAt], [.const 6, .readSprAt, .drop],
          [.const 8, .readModeAt .hlprb, .drop]].all (fun ps => (run ps).map (·.m.ec) == some 2)
      ∧ decodeRow numberedRegs
        { format := .twoRA, op := 1, sem := .prims [.const 0, .load (.bytes 3), .specifier .ra, .writeSprAt] }
        { op := 1, ra := 2 } = some .incompatible := by
  decide +kernel

/-- R157: class D puts md on top, the sign extension; in a format without im the md bits are all of it, and
every md value is used (log 48); 24 bits with WLEN 8 keep the low 8 (log 46). -/
theorem test_immediates :
    let d : OpcodeRow := { format := .riA, op := 1, mdClass := .d, immSigned := true, sem := .prims [] }
    d.immediate Config.reference { im := 1, md := 2 } = 0xFFFE0001
      ∧ { d with immShift := 1 }.immediate Config.reference { im := 1, md := 1 } = 0x20002
      ∧ ({ d with format := .twoRA }.immediate Config.reference { md := 3 } = 0xFFFFFFFF
        ∧ { d with format := .twoRB, immSigned := false }.immediate Config.reference { md := 3 } = 3
        ∧ (decodeRow full { d with mdUsed := [0] } { op := 1, md := 2 }).any (fun r => r matches .instr _))
      ∧ OpcodeRow.immediate { format := .iA, op := 1, sem := .prims [] }
        { Config.reference with wlenc := 0 } { im := 0xA5F00F } = 0x0F := by decide +kernel

/-- The md field of a compressed row of class G. -/
def windowRow : OpcodeRow := { format := .twoRB, op := 1, mdClass := .g, sem := .core .hlt }

/-- The same statement's clauses for words the hart supports: E24 and E26 (R154, R156), masks, none and
two that disagree, without VF, without a mask register. -/
theorem test_witness_masked_forms :
    let e : OpcodeRow := { format := .twoRA, op := 1, mdClass := .e, maskReg := some .vm1, sem := .prims [] }
    let v : OpcodeRow := { format := .threeRIB, op := 1, mdClass := .e, maskReg := some .vm2, sem := .prims [] }
    let b : OpcodeRow :=
      { format := .fourRB, op := 1, operands := [(.ra, .byVm)], maskReg := some .vm3, sem := .prims [] }
    decodeRow full windowRow { op := 1, md := 1 } = some (.refused .bankWindow)
      ∧ decodeRow full windowRow { op := 1 } = some (.instr ⟨windowRow, { op := 1 }, .unmasked, false⟩)
      ∧ decodeRow vectors b { op := 1, vm := 3 } = some (.refused .vectorMode)
      ∧ decodeRow vectors b { op := 1, vm := 1 }
        = some (.instr ⟨b, { op := 1, vm := 1 }, .masked .vm3 false, false⟩)
      ∧ decodeRow vectors b { op := 1, vm := 2 } = some (.instr ⟨b, { op := 1, vm := 2 }, .unmasked, true⟩)
      ∧ decodeRow full e { op := 1, md := 2 }
        = some (.instr ⟨e, { op := 1, md := 2 }, .masked .vm1 true, false⟩)
      ∧ decodeRow full v { op := 1, md := 1 }
        = some (.instr ⟨v, { op := 1, md := 1 }, .masked .vm2 false, false⟩)
      ∧ decodeRow full v { op := 1, vm := 2 }
        = some (.instr ⟨v, { op := 1, vm := 2 }, .masked .vm2 true, false⟩)
      ∧ decodeRow full v { op := 1, md := 2, vm := 2 }
        = some (.instr ⟨v, { op := 1, md := 2, vm := 2 }, .masked .vm2 true, false⟩)
      ∧ decodeRow full v { op := 1, md := 1, vm := 2 } = some (.refused .maskConflict)
      ∧ decodeRow full { e with maskReg := none } { op := 1, md := 1 } = some (.refused .maskRegister)
      ∧ decodeRow Config.reference e { op := 1, md := 1 } = some .incompatible := by decide +kernel

/-- The same, words that are unsupported and refused both (log 31): a bank or an operand only the refused md
or vm value would tell, with VRFS 8 and SRFS 32, and class B size 8 with WBYTES 4, are refused, a fixed
bank's index beyond it and a masked form without a mask register too; without the refusal, or where a module
or the vm value alone tells, INCI. -/
theorem test_witness_refused_before_registers :
    let c := full
    let w : OpcodeRow :=
      { format := .threeRIB, op := 1, mdClass := .g, mdUsed := [0, 1], operands := [(.ra, .vgprb)],
        sem := .prims [] }
    let l : OpcodeRow :=
      { windowRow with
        mdUsed := [0, 1]
        operands := [(.ra, .sgprb)]
        sem := .prims [.const 0, .load (.bytes 3), .writeReg .ra] }
    let b : OpcodeRow := { format := .fourRB, op := 1, operands := [(.ra, .byVm)], sem := .prims [] }
    let e : OpcodeRow :=
      { format := .twoRA, op := 1, mdClass := .e, operands := [(.ra, .hlprb)], sem := .prims [] }
    Bank.vgprb.count c 0 false = 8 ∧ Bank.sgprb.count c 0 false = 32 ∧ c.wbytes = 4
      ∧ decodeRow c w { op := 1, md := 1, ra := 20 } = some (.refused .bankWindow)
      ∧ decodeRow c w { op := 1, ra := 20 } = some .incompatible
      ∧ decodeRow { c with modules := [] } { w with modules := [.vc] } { op := 1, md := 1, ra := 20 } = some .incompatible
      ∧ decodeRow c l { op := 1, md := 1 } = some (.refused .bankWindow)
      ∧ decodeRow c l { op := 1 } = some .incompatible
      ∧ decodeRow vectors b { op := 1, vm := 6, ra := 20 } = some (.refused .vectorMode)
      ∧ decodeRow vectors { b with vmUsed := some [1] } { op := 1, vm := 6, ra := 20 } = some .incompatible
      ∧ decodeRow vectors b { op := 1, vm := 2, ra := 20 }
        = some (.instr ⟨b, { op := 1, vm := 2, ra := 20 }, .unmasked, true⟩)
      ∧ decodeRow c e { op := 1, md := 1, ra := 20 } = some (.refused .maskRegister)
      ∧ decodeRow c { e with maskReg := some .vm1 } { op := 1, md := 1, ra := 20 } = some .incompatible := by
  decide +kernel

/-- The neighbours of those causes decode: the last register of the bank, a used md, 4 bytes, 8 bytes that
no scalar register takes, by operand and by number, in a counter; the fence with FNC. -/
theorem test_compatible_neighbours :
    let decodes := fun cfg r fl => ((decodeRow cfg r fl).any fun d => d matches .instr _) = true
    decodes Config.reference { format := .twoRA, op := 1, operands := [(.ra, .hlprb)], sem := .prims [] }
        { op := 1, ra := 7 }
      ∧ decodes Config.reference
        { format := .twoRA, op := 1, mdClass := .a, mdUsed := [0, 1], sem := .prims [] } { op := 1, md := 1 }
      ∧ decodes Config.reference
        { format := .twoRA, op := 1, mdClass := .b, operands := [(.ra, .sgprb)], sem := .prims [] }
        { op := 1, md := 2 }
      ∧ decodes Config.reference
        { format := .twoRA, op := 1, mdClass := .b, operands := [(.ra, .sgprb)], bases := [.ra],
          sem := .prims [] } { op := 1, md := 3 }
      ∧ decodes Config.reference { format := .twoRA, op := 1, mdClass := .c, sem := .prims [] }
        { op := 1, md := 2 }
      ∧ decodes Config.reference
        { format := .twoRA, op := 1, sem := .prims [.const 0, .load (.bytes 2), .const 1, .writeAt .sgprb] }
        { op := 1 }
      ∧ decodes { Config.reference with clenc := 3 }
        { format := .twoRA, op := 1, sem := .prims [.const 0, .load (.bytes 3), .const 1, .writeAt .perfcb] }
        { op := 1 }
      ∧ decodes full
        { format := .twoRA, op := 1, mdClass := .b, operands := [(.ra, .vgprb)],
          sem := .prims [.const 0, .load .byMd, .writeReg .ra] } { op := 1, md := 3 }
      ∧ decodes full { format := .twoRA, op := 1, sem := .prims [.const 0, .load (.vector (.part 3) 0)] }
        { op := 1 }
      ∧ decodes full { format := .twoRA, op := 1, mdClass := .f, sem := .prims [.fence] } { op := 1 } := by
  decide +kernel

/-- S13, S15, S19 (R79). -/
theorem test_status_words :
    StatusReg.pack {} { im := 3 } = 0x00180000#32
      ∧ StatusReg.pack {} { pmod := 1, wdte := 1, gee := 1, hlpre := 1, perfce := 1 } = 0x00611800#32
      ∧ StatusReg.pack {}
          { rmd := 3, tnd := 255, cmd := 1, gee := 1, hlpre := 15, perfce := 1, cntu := 3, im := 3,
            pmod := 1, wdte := 1, pwrs := 15 } = 0x07FFFFFF#32 := by decide +kernel

/-- SR after a write of a value to it, the event it raised otherwise. -/
def srAfter (mode : Mode) (s : State) (v : Nat) : Except EventName Nat :=
  match s.writeSpr mode .sr v with
  | .ok t => .ok (t.sr.pack {}).toNat
  | .error e => .error e

/-- S22 (R78). -/
theorem test_sr_write_machine :
    (srAfter .machine (hart 0 0x00180000) 0x07FFFFFF matches .ok 0x007FF800) = true := by decide +kernel

/-- UserWriteOfStatusKeepsPrivilegedFields: S23 (R91). -/
theorem test_witness_sr_write_user :
    (hart 0 0x00600000).StatusFits
      ∧ (srAfter .user (hart 0 0x00600000) 0xFFFFFFFF matches .ok 0x0067F800) = true := by decide +kernel

/-- SpecialRegisterPrivilege: each clause. VSH is absent from REF32; MEC is privileged; UEC is not; an
illegal shape. -/
theorem test_witness_special_registers :
    sprPresent Config.reference .vsh = false
      ∧ (sprPresent Config.reference .mec = true ∧ sprPrivileged .mec = true)
      ∧ (sprPresent Config.reference .uec = true ∧ sprPrivileged .uec = false)
      ∧ (sprPresent full .vsh = true ∧ BitVec.ofNat 8 0xFF ∈ full.vshIllegal
        ∧ ((State.resetOf full).writeSpr .machine .vsh 0xFF matches .error .illi) = true
        ∧ ((State.resetOf full).writeSpr .user .vsh 0xFE matches .ok _) = true) := by decide +kernel

/-- The same: which registers exist. A usage register needs USER, CTXR and its bank. -/
theorem test_witness_present :
    let present := fun cfg => [Spr.pc, .mec, .uec, .vm1, .pfpa, .sgprbu, .vgprbu, .hlprbu, .perfcbu].map
      (sprPresent cfg)
    let ctxr := fun m => { Config.reference with modules := .ctxr :: m }
    present full = List.replicate 9 true
      ∧ present bare.cfg = [true, true] ++ List.replicate 7 false
      ∧ present (ctxr [.user]) = [true, true, true, false, true, true, false, false, false]
      ∧ present (ctxr [.hlpr, .perfc]) = [true, true] ++ List.replicate 7 false
      ∧ present (ctxr [.user, .hlpr, .perfc]) = [true, true, true, false, true, true, false, true, true] := by
  decide +kernel

/-- A written special purpose register reads as this. -/
def wrote (cfg : Config) (r : Spr) (v : Nat) : Option Nat :=
  match (State.resetOf cfg).writeSpr .machine r v with
  | .ok t => some (t.sprValue r)
  | .error _ => none

/-- SpecialRegisterWriteReadsBack: a register of each clause, one past its greatest value; UESR written in
user mode takes unprivileged fields only. -/
theorem test_witness_special_register_writes :
    wrote full .mepc (2 ^ 32 + 5) = some 5 ∧ wrote full .mec (2 ^ 16 + 0x54) = some 0x54
      ∧ wrote full .pid (2 ^ 32 + 7) = some 7 ∧ wrote full .vsh (2 ^ 8 + 0x80) = some 0x80
      ∧ wrote full .vm1 (2 ^ 8 + 3) = some 3 ∧ wrote full .sgprbu (2 ^ 32 + 8) = some 8
      ∧ wrote full .vgprbu (2 ^ 8 + 8) = some 8 ∧ wrote full .hlprbu (2 ^ 16 + 8) = some 8
      ∧ wrote full .perfcbu (2 ^ 8 + 8) = some 8 ∧ wrote full .mesr (2 ^ 32 + 9) = some 9
      ∧ wrote full .uesr 0xFFFFFFFF = some 0xFFFFFFFF ∧ full.srLayout = {}
      ∧ (match (State.resetOf full).writeSpr .user .uesr 0xFFFFFFFF with
        | .ok t => some (t.sprValue .uesr)
        | .error _ => none) = some 0x0007FFFF := by decide +kernel

/-- BankWriteSetsUsage: S10 (R68), the last registers of the banks, and a number beyond the bank. -/
theorem test_witness_bank_writes :
    (3 < (State.resetOf full).x.length ∧ ((State.resetOf full).writeX 3 1).usage.sgprb = 8#32)
      ∧ 31 < (State.resetOf full).x.length ∧ 15 < (State.resetOf full).h.length
      ∧ 7 < (State.resetOf full).c.length ∧ 7 < (State.resetOf full).vr.length
      ∧ (State.resetOf full).writeX 32 1 = State.resetOf full
      ∧ (State.resetOf full).writeHelperVal 16 1 = State.resetOf full
      ∧ ((State.resetOf full).writeHelperMode 15 3).usage.hlprb = 0x8000#32
      ∧ ((State.resetOf full).writeV (.masked .vm1 false) 7 1).usage.vgprb = 0x80#32 := by decide +kernel

/-- MaskedVectorWriteKeepsOtherBytes: S7 (R29), mask bit 3 covers bits 31:24. -/
theorem test_witness_masked_write :
    State.masked { State.resetOf full with vm1 := 8 } (.masked .vm1 false) 0 (BitVec.allOnes 512)
        = 0xFF000000#512
      ∧ 511 < 512 ∧ (State.resetOf full).vr[7]? = some 0
      ∧ (State.writeV { State.resetOf full with vm1 := 8 } (.masked .vm1 true) 7 (2 ^ 64 - 1)).vr[7]?
        = some 0xFFFFFFFF00FFFFFF#512 := by decide +kernel

/-- A user handler whose critical state is unsaved. -/
def inUserHandler : State := hart 0x2100 0x00600000 (regs 0 0 0 0x100) (regs 0x2020 0x00600800 0x66 0x2100)

/-- A machine handler whose critical state is unsaved. -/
def inMachineHandler : State := hart 0x100 0x00180000 (regs 0x1000 0x00600800 0x54 0x100)

/-- PrivilegedLaunchingSequence: L2 (R236), and L8 (R240) with unsaved state. -/
theorem test_witness_launch_machine :
    (hart 0x2010 0x00600800).criticalUnsaved .machine = false
      ∧ view ((hart 0x2010 0x00600800).launchMachine 0x0016 none)
          ((hart 0x2010 0x00600800).launchMachine 0x0016 none).m
        = [0x100, 0x00180000, 0x2010, 0x00600800, 0x0016]
      ∧ inMachineHandler.criticalUnsaved .machine = true
      ∧ view (inMachineHandler.launchMachine 3 none) (inMachineHandler.launchMachine 3 none).m
        = [0x100, 0x10180000, 0x1000, 0x00600800, 0x0054] := by decide +kernel

/-- UnprivilegedLaunchingSequence: L6 (R237), and L10 (R240) with unsaved state. -/
theorem test_witness_launch_user :
    (hart 0x2004 0x00611800).criticalUnsaved .user = false
      ∧ view ((hart 0x2004 0x00611800).launchUser 0x0A72 none)
          ((hart 0x2004 0x00611800).launchUser 0x0A72 none).u
        = [0x2100, 0x00600000, 0x2004, 0x00611800, 0x0A72]
      ∧ inUserHandler.criticalUnsaved .user = true
      ∧ (inUserHandler.launchUser 0x0066 none).sr.hlts = 2 := by decide +kernel

/-- DoubleEventHaltsTheHart, each clause: L8 and a fault with saved state; L10 and an exception with saved
state; L9, an interrupt in a user handler (R240). -/
theorem test_witness_double :
    Config.reference.criticalTest = .causeNonzero
      ∧ promoting (EventName.kind Config.reference .illi) = true
      ∧ promoting (EventName.kind Config.reference .div0e) = false
      ∧ (inMachineHandler.mode = .machine ∧ causeId inMachineHandler.m.ec ≠ 0)
      ∧ ((hart 0 0x00600000).mode = .user ∧ causeId (hart 0 0x00600000).m.ec = 0
        ∧ causeId (hart 0 0x00600000).u.ec = 0)
      ∧ (inUserHandler.mode = .user ∧ causeId inUserHandler.u.ec ≠ 0)
      ∧ (inUserHandler.deliver { name := .ioint 0 }).m.ec = 0x0011 := by decide +kernel

/-- EventRouting: an interrupt, an exception in either mode, and no USER. -/
theorem test_witness_routing :
    EventName.kind Config.reference .tqe ∈ [EventKind.fault, .ioInterrupt, .ipcInterrupt]
      ∧ (hart 0 0x00600000).criticalUnsaved .machine = false
      ∧ EventName.kind Config.reference .div0e = .exception
      ∧ (hart 0 0x00600000).mode = .user ∧ (hart 0 0x00180000).mode = .machine
      ∧ bare.cfg.has .user = false := by decide +kernel

/-- HelperEventOrderAndCause: X9 (R235), the greatest index and the greatest mode. -/
theorem test_witness_cause :
    (Trigger.event ⟨31, .flagT .div0⟩).cause = 0x3E84 ∧ 31 < 32
      ∧ helperEvent full 24 = some (.flagT .div0) ∧ helperEvent full 25 = none
      ∧ (helperEvent full 5).map EventName.code = some 118
      ∧ (helperEvent full 6).map EventName.code = some 114 ∧ full.problem = none := by decide +kernel

/-- HltHaltsTheHart, EretReturns, UeretReturns, UretDemotes: machine mode with USER; both cases of the
identifier. -/
theorem test_witness_returns :
    (hart 0 0x00180000).mode = .machine ∧ (hart 0 0x00180000).cfg.has .user = true
      ∧ (hart 0 0x00180000).cfg.problem = none
      ∧ causeId (hart 0 0x00180000).m.ec = 0 ∧ causeId (hart 0 0x00180000).u.ec = 0
      ∧ causeId inMachineHandler.m.ec ≠ 0 ∧ causeId inUserHandler.u.ec ≠ 0 := by decide +kernel

/-- A hart with every module whose saved status words have TND 1 and whose cause registers hold 0x11. -/
def inTransaction : State :=
  let r : EventRegs := { regs 0x40 4 0x11 0x100 with inHandler := true }
  { State.resetOf full with m := r, u := r }

/-- EretReturns, UeretReturns, UretDemotes: the relaunch inside a transaction; with the identifier 0 the
return is made (R247, R248; log 38). -/
theorem test_witness_transaction :
    (inTransaction.mode = .machine ∧ inTransaction.cfg.has .user = true)
      ∧ ((inTransaction.m.esr.present inTransaction.cfg).tnd ≠ 0 ∧ causeId inTransaction.m.ec ≠ 0)
      ∧ ((inTransaction.u.esr.present inTransaction.cfg).tnd ≠ 0 ∧ causeId inTransaction.u.ec ≠ 0)
      ∧ [Instr.eret, .ueret, .uret].all (fun i => exec i inTransaction matches .refused .transactional)
      ∧ (nextOf (exec .eret { inTransaction with m := regs 0x40 4 0 0x100 })).map (·.sr.tnd) = some 1 := by
  decide +kernel

/-- SyscallTraps, PrivilegedInstructionsTrapInUserMode: user mode, nothing unsaved. -/
theorem test_witness_user_mode :
    (hart 0 0x00600000).cfg.has .user = true ∧ (hart 0 0x00600000).mode = .user
      ∧ (hart 0 0x00600000).criticalUnsaved .machine = false := by decide +kernel

/-- SyscallInUnsavedHandlerHalts: the system call; HLT in user mode; UERET without USER. -/
theorem test_witness_unsaved :
    let user := { inMachineHandler with sr := { pmod := 1 } }
    let noUser := { bare with m := regs 0 0 3 0x100 }
    (coreFaults inMachineHandler .syscall = true ∧ inMachineHandler.criticalUnsaved .machine = true)
      ∧ (coreFaults user .hlt = true ∧ user.criticalUnsaved .machine = true)
      ∧ (coreFaults noUser .ueret = true ∧ noUser.criticalUnsaved .machine = true)
      ∧ (nextOf (exec .ueret noUser)).map (·.sr.hlts) = some 2
      ∧ coreFaults inMachineHandler .uret = false := by decide +kernel

/-- UserInstructionsNeedUser; and L4 (R236): no SR field is present to change. -/
theorem test_witness_no_user :
    bare.cfg.has .user = false ∧ bare.criticalUnsaved .machine = false
      ∧ view (bare.deliver { name := .illi }) (bare.deliver { name := .illi }).m
        = [0x100, 0, 0x40, 0, 3] := by decide +kernel

/-- CoreInstructionFrame: a next state by effect and one by an event. -/
theorem test_witness_frame :
    (∃ t, exec .hlt (hart 0 0x00180000) = .next t) ∧ ∃ t, exec .hlt (hart 0 0x00600000) = .next t :=
  ⟨⟨_, rfl⟩, ⟨_, rfl⟩⟩

/-! #### Supplied rows -/

/-- Steps 2 and 3 of program 6 of the vectors: clear MEC, then MEPC becomes MEPC + 4. -/
def clearMec : OpcodeRow := { format := .twoRA, op := 6, sem := .prims [.const 0, .writeSpr .mec] }

def bumpMepc : OpcodeRow :=
  { format := .twoRA, op := 6, sem := .prims [.readSpr .mepc, .const 4, .arith .add, .writeSpr .mepc] }

/-- A store of x[rb] at x[ra]. -/
def storeWord : OpcodeRow :=
  { format := .twoRA, op := 7, operands := [(.ra, .sgprb), (.rb, .sgprb)],
    sem := .prims [.readReg .rb, .readReg .ra, .store (.bytes 2)] }

/-- A supplied row run at a state with some fields. -/
def runRow (s : State) (r : OpcodeRow) (fl : Fields) (fetched : List Trigger := []) :
    Host.Outcome State Fault Refusal :=
  match r.sem with
  | .prims ps => s.runSupplied ⟨r, fl, .unmasked, false⟩ .four fetched ps
  | .core i => exec i s
  | .group g => .refused (.undefinedGroup g)

/-- A hart of REF32 with a translation table and a platform map: a device at 0x10 to 0x1F, ROM from 0x20,
nothing from 0x30 to 0x3F; 0x40 is illegal, from 0x80 on there is no page. -/
def mapped : State :=
  { hart 0x1000 0 with
    cfg := { Config.reference with
      translation := .table [⟨none, none, none, 0x40, 0x43, .illegalAddress⟩,
        ⟨none, none, none, 0, 0x7F, .to 0⟩]
      memoryMap := [⟨0x10, 16, .device⟩, ⟨0x20, 16, .rom⟩, ⟨0x30, 16, .hole⟩] } }

/-- The causes a next state holds, and those queued. -/
def causes (o : Host.Outcome State Fault Refusal) : Option (BitVec 16 × BitVec 16 × List (BitVec 16)) :=
  (nextOf o).map fun t => (t.m.ec, t.u.ec, t.queue.map Event.cause)

/-! #### Steps -/

/-- The three facts of a hart that runs, decided at once. -/
theorem runs_of {s : State} (h : s.cfg.problem = none ∧ s.sr.hlts = 0 ∧ s.unsupported = none) : s.Runs :=
  ⟨h.1, h.2.1, h.2.2⟩

theorem runs_machine (op : Nat) (h : op = 1 ∨ op = 5) : (at' op (hart 0 0x00180000)).Runs := by
  rcases h with rfl | rfl <;> exact runs_of (by decide +kernel)

/-- The row of an op value of the reference map. -/
def coreRow (op : BitVec 20) (i : Instr) : OpcodeRow := { format := .twoRA, op := op, sem := .core i }

/-- StepRunsTheDecodedInstruction. -/
theorem test_witness_step :
    let s := at' 1 (hart 0 0x00180000)
    s.Runs ∧ s.boundary = .ok s ∧ s.fetch = .ok (.four, 1) ∧ s.nextEvent = none
      ∧ decode s.cfg .four 1 = .instr ⟨coreRow 1 .hlt, { op := 1 }, .unmasked, false⟩
      ∧ s.racing = []
      ∧ s.accessTriggers .fetch s.pc 4 = [] :=
  ⟨runs_machine 1 (.inl rfl), rfl, rfl, by decide +kernel⟩

/-- The same: a supplied row, and a group without a meaning (U23). -/
theorem test_witness_step_supplied :
    let on := fun r => at' 6 { inMachineHandler with cfg := withRow r }
    let group : OpcodeRow := { format := .twoRA, op := 6, sem := .group .packing }
    let s := on clearMec
    s.Runs ∧ s.boundary = .ok s ∧ s.fetch = .ok (.four, 6) ∧ (on group).fetch = .ok (.four, 6)
      ∧ (s.nextEvent = none ∧ decode s.cfg .four 6 = .instr ⟨clearMec, { op := 6 }, .unmasked, false⟩
        ∧ (nextOf (step s)).map (fun t => (t.m.ec, t.pc)) = some (0, 0x104))
      ∧ (on group).nextEvent = none
      ∧ decode (on group).cfg .four 6 = .instr ⟨group, { op := 6 }, .unmasked, false⟩
      ∧ (step (on group) matches .refused (.undefinedGroup .packing)) :=
  ⟨runs_of (by decide +kernel), rfl, rfl, rfl, by decide +kernel⟩

/-- PlacedInstructionRuns. -/
theorem test_witness_placed :
    let s := at' 1 (hart 0 0x00180000)
    s.Runs ∧ s.Holds 0 [1, 0, 0, 0] ∧ s.inputs = [] ∧ s.racing = [] ∧ s.nextEvent = none
      ∧ s.pc.toNat % s.cfg.ialign = 0 ∧ Instr.hlt.wellFormed s.cfg = true
      ∧ encodeBytes s.cfg .hlt = some [1, 0, 0, 0] ∧ s.accessTriggers .fetch s.pc 4 = [] :=
  ⟨runs_machine 1 (.inl rfl),
    ⟨⟨0, by decide +kernel⟩, ⟨1, by decide +kernel⟩, ⟨2, by decide +kernel⟩, ⟨3, by decide +kernel⟩,
      trivial⟩, by decide +kernel⟩

/-- HaltedHartStaysHalted: S17, S18. -/
theorem test_witness_halted :
    (hart 0 0x08180000).cfg.problem = none ∧ (hart 0 0x08180000).sr.hlts = 1
      ∧ (hart 0 0x10180000).sr.hlts = 2
      ∧ (let s := { State.resetOf full with sr := { tnd := 1, hlts := 1 } }
        s.cfg.problem = none ∧ s.sr.tnd ≠ 0 ∧ nextOf (step s) = some s) := by decide +kernel

/-- UnsupportedStatesAreRefused: each clause, at the ends of the reserved modes; an event of the queue that
no configuration row lists, and one of an absent module. -/
theorem test_witness_unsupported :
    { Config.reference with srfsc := 3 }.problem = some .reservedSize
      ∧ 3 ≤ (hart 0 0x18000000).sr.hlts.toNat
      ∧ ({ (State.resetOf full) with sr := { tnd := 1 } }).sr.tnd ≠ 0
      ∧ (let s := { hart 0 0x00001000 with h := [{ mode := 25 }, { mode := 127 }] }
        s.sr.hlts = 0 ∧ s.sr.tnd = 0 ∧ s.helperEnabled 1 = true ∧ s.unsupported = some (.helperMode 0))
      ∧ (let s := { hart 0 0x00010000 with c := [{ mode := 16 }, { mode := 127 }] }
        s.counting = true ∧ s.unsupported = some (.counterMode 0))
      ∧ (let s := { hart 0 0 with queue := [{ name := .tqe }, { name := .custom 5 }] }
        s.unsupported = some (.undefinedEvent 375))
      ∧ { bare with queue := [{ name := .ioint 0 }] }.unsupported = some (.undefinedEvent 17) := by
  decide +kernel

/-- A fetch boundary at a program counter in machine mode, with a translation. -/
def fetching (pc : Nat) (tr : Translation) : State :=
  { hart pc 0x00180000 with cfg := { Config.reference with translation := tr } }

/-- MisalignedPcRaisesMisi: M9 (R107). -/
theorem test_witness_misi :
    let s := fetching 0x1001 .identity
    s.Runs ∧ s.boundary = .ok s ∧ s.nextEvent = none ∧ s.pc.toNat % s.cfg.ialign ≠ 0
      ∧ s.criticalUnsaved .machine = false
      ∧ seeM s = some [0x100, 0x00180000, 0x1001, 0x00180000, 1] :=
  ⟨runs_of (by decide +kernel), rfl, by decide +kernel⟩

/-- The value of an operation that did not stop. -/
def okOf {ε α : Type} : Except ε α → Option α
  | .ok a => some a
  | .error _ => none

/-- What stopped an operation. -/
def stopOf {ε α : Type} : Except ε α → Option ε
  | .ok _ => none
  | .error e => some e

/-- FetchFaultsCarryTheAddress: a fault of either byte of the first parcel, of either kind, and of the
second parcel of a four-byte instruction (R308). -/
theorem test_witness_fetch_faults :
    let tr := Translation.table [⟨none, none, none, 0x40, 0x41, .illegalAddress⟩,
      ⟨none, none, none, 0, 0x50, .to 0⟩]
    let s := fetching 0x40 tr
    let s' := fetching 0x50 tr
    let s2 := (fetching 0x4E tr).withFetchWord 32 1
    s.Runs ∧ s.boundary = .ok s ∧ s'.Runs
    ∧ (s.nextEvent = none ∧ s.pc.toNat % s.cfg.ialign = 0
      ∧ s.criticalUnsaved .machine = false ∧ s.translate (s.addrAt s.pc 0) .fetch = .illegalAddress)
    ∧ (s'.translate (s'.addrAt s'.pc 0) .fetch = .to 0x50
      ∧ s'.translate (s'.addrAt s'.pc 1) .fetch = .pageFault)
    ∧ (okOf (s2.fetchBytes 0 2) = some [1, 0] ∧ (s2.cfg.lengthOf.apply (parcelOf s2.cfg.endian 1 0)).bytes = 4
      ∧ s2.translate (s2.addrAt s2.pc 2) .fetch = .to 0x50
      ∧ s2.translate (s2.addrAt s2.pc 3) .fetch = .pageFault
      ∧ (nextOf (step s2)).map (fun t => (t.m.ec, t.m.ed, t.m.epc)) = some (0x52, 0x51, 0x4E)) :=
  ⟨runs_of (by decide +kernel), rfl, runs_of (by decide +kernel), by decide +kernel⟩

/-- UndecodableWordsTrap: E28, and E29 by an absent module. -/
theorem test_witness_undecodable :
    let s := at' 6 (hart 0 0x00180000)
    let s' := at' 1 { hart 0 0x00180000 with
      cfg := withRow { format := .twoRA, op := 1, modules := [.sa], sem := .core .hlt } }
    s.Runs ∧ s.boundary = .ok s ∧ s.fetch = .ok (.four, 6) ∧ s'.Runs ∧ s'.fetch = .ok (.four, 1)
    ∧ (s.nextEvent = none ∧ s.criticalUnsaved .machine = false ∧ decode s.cfg .four 6 = .illegal)
    ∧ decode s'.cfg .four 1 = .incompatible :=
  ⟨runs_of (by decide +kernel), rfl, rfl, runs_of (by decide +kernel), rfl, by decide +kernel⟩

/-- Helper registers of a hart. -/
def watched (s : State) (h : List HelperReg) : State := { s with h := h }

/-- ExecuteTriggerLosesToFault: Y2 (R233), user-mode ERET at an address h[0] watches, and H19. -/
theorem test_witness_execute_trigger :
    let s := watched (at' 2 (hart 0x2000 0x00601000)) [{ val := 0x2000, mode := 3 }]
    s.Runs ∧ s.boundary = .ok s ∧ s.fetch = .ok (.four, 2) ∧ s.nextEvent = none
      ∧ decode s.cfg .four 2 = .instr ⟨coreRow 2 .eret, { op := 2 }, .unmasked, false⟩
      ∧ s.accessTriggers .fetch s.pc 4 = [⟨0, .ext⟩] ∧ s.mode = .user
      ∧ seeM s = some [0x100, 0x00180000, 0x2000, 0x00601000, 3] :=
  ⟨runs_of (by decide +kernel), rfl, rfl, by decide +kernel⟩

/-- The same: HLT (H19) and URET in machine mode have no fault, so the trigger is taken; the system call
and, without USER, UERET and URET have one, which wins. -/
theorem test_witness_execute_trigger_cases :
    let h : List HelperReg := [{}, {}, { val := 0x2004, mode := 3 }, {}, {}, {}, {}, {}]
    let on := fun op => watched (at' op (hart 0x2004 0x00001000)) h
    let noUser : Config := { Config.reference with modules := [.hlpr, .perfc] }
    let off := fun op => watched (at' op { hart 0x2004 0x00001000 with cfg := noUser }) h
    seeM (on 1) = some [0x100, 0x00180000, 0x2004, 0x00001000, 0x0474]
      ∧ (coreFaults (on 4) .uret = false ∧ (nextOf (step (on 4))).map (·.m.ec) = some 0x0474)
      ∧ (coreFaults (on 5) .syscall = true ∧ (nextOf (step (on 5))).map (·.m.ec) = some 0x54)
      ∧ (coreFaults (off 3) .ueret = true ∧ (off 3).accessTriggers .fetch (off 3).pc 4 = [⟨2, .ext⟩]
        ∧ (nextOf (step (off 3))).map (·.m.ec) = some 2)
      ∧ (nextOf (step (off 4))).map (·.m.ec) = some 2 := by decide +kernel

/-- The same, supplied instructions in a step: a load h[1] watches, then a write of MEPC, which user mode
has not (ILLI, R233); in machine mode the load ends and both helper events are taken; where there is no
page the fault wins; where a device stands they are taken as well. -/
theorem test_witness_execute_trigger_supplied :
    let row : OpcodeRow := { format := .twoRA, op := 6, operands := [(.ra, .sgprb)],
                             sem := .prims [.readReg .ra, .load (.bytes 2), .writeSpr .mepc] }
    let h : List HelperReg := [{ val := 0x40, mode := 3 }, { val := 0x60, mode := 6 }, { mode := 255 }]
    let tr := Translation.table [⟨none, none, none, 0, 0x7F, .to 0⟩]
    let cfg := { withRow row with translation := tr, memoryMap := [⟨0x10, 4, .device⟩] }
    let on := fun sr a => watched (at' 6 { hart 0x40 sr with cfg := cfg, x := [a] }) h
    let s := on 0x00001000 0x44
    let d : Decoded := ⟨row, { op := 6 }, .unmasked, false⟩
    s.Runs ∧ s.boundary = .ok s ∧ s.fetch = .ok (.four, 6) ∧ s.nextEvent = none
      ∧ decode s.cfg .four 6 = .instr d
      ∧ s.accessTriggers .fetch s.pc 4 = [⟨0, .ext⟩] ∧ s.accessTriggers .read 0x44 4 = [⟨1, .rdt⟩]
      ∧ causes (step s) = some (0x0074, 0, [0x0272])
      ∧ causes (step (on 0x00001000 0x80)) = some (0x52, 0, [])
      ∧ causes (step (on 0x00001000 0x10)) = some (0x0074, 0, [0x0272])
      ∧ (on 0x00601000 0x44).denied d [] [.readReg .ra, .load (.bytes 2), .writeSpr .mepc] = some .illi
      ∧ causes (step (on 0x00601000 0x44)) = some (3, 0, [])
      ∧ causes (step (on 0x00601000 0x80)) = some (3, 0, [])
      ∧ causes (step (on 0x00601000 0x46)) = some (3, 0, []) :=
  ⟨runs_of (by decide +kernel), rfl, rfl, by decide +kernel⟩

/-- A custom exception of a global priority below 3 precedes the trigger, one of 3 does not (log 28). -/
theorem test_witness_custom_exception :
    let row : OpcodeRow := { format := .twoRA, op := 6, sem := .prims [.raiseCustom 5] }
    let on := fun gp => { hart 0x40 0 with
      cfg := { withRow row with customEvents := [⟨5, .exception, some gp, none⟩] } }
    causes (runRow (on 2) row { op := 6 } [⟨0, .ext⟩]) = some (375, 0, [])
      ∧ causes (runRow (on 3) row { op := 6 } [⟨0, .ext⟩]) = some (0x74, 0, []) := by decide +kernel

/-- A watched fetch from a device or a hole: the helper event is taken, and without one the run stops;
where the fetch is stale as well the run stops (U22; logs 21, 43). -/
theorem test_watched_fetch_stops :
    let h : List HelperReg := [{ val := 0x10, mode := 3 }, { val := 0x30, mode := 5 }, {}]
    let on := fun pc h => watched { mapped with pc := pc, sr := { hlpre := 1 } } h
    causes (step (on 0x10 h)) = some (0x0074, 0, []) ∧ causes (step (on 0x30 h)) = some (0x0276, 0, [])
      ∧ (step (on 0x10 []) matches .refused (.device 0x10))
      ∧ (step (on 0x30 []) matches .fault (.unmapped 0x30))
      ∧ (step { on 0x10 h with pc := 0x44, dirty := [0x45] } matches .fault (.staleFetch 0x45)) := by
  decide +kernel

/-! #### Interrupts and the watchdog -/

/-- A hart with a queue. -/
def queued (sr : Nat) (q : List EventName) : State :=
  { hart 0 sr with queue := q.map fun n => { name := n } }

/-- TakenInterruptIsUnmaskedAndFirst: A1, A2, A4, A5 (R233, R249). -/
theorem test_witness_taken :
    (queued 0 [.ipcint 0, .ioint 3]).nextEvent = some { name := .ioint 3 }
      ∧ (queued 0x00080000 [.ioint 3, .ipcint 2]).nextEvent = some { name := .ipcint 2 }
      ∧ (queued 0 [.ioint 0, .tqe]).nextEvent = some { name := .tqe }
      ∧ (queued 0x00180000 [.ioint 0, .tqe]).nextEvent = none
      ∧ (queued 0x00180000 [.ioint 0, .rdt]).nextEvent = some { name := .rdt }
      ∧ ({ name := .ioint 3 } ∈ (queued 0 [.ipcint 0, .ioint 3]).queue
        ∧ EventName.kind Config.reference (.ioint 3) = .ioInterrupt
        ∧ (queued 0 [.ipcint 0, .ioint 3]).sr.im.getLsbD 0 = false) := by decide +kernel

/-- The same, a hart with USER and without IM: TQE is taken (R88; log 47). -/
theorem test_taken_without_im :
    let s := { queued 0 [.tqe] with cfg := { Config.reference with modules := [.user], clenc := 0 } }
    s.cfg.problem = none ∧ s.nextEvent = some { name := .tqe } := by decide +kernel

/-- The same, a custom interrupt ASYNC_ORDER does not list: after what it lists (log 28), and taken where
there is no IM (log 47). -/
theorem test_taken_custom :
    let cfg := { Config.reference with customEvents := [⟨0, .ioInterrupt, some 0, none⟩] }
    let s := fun q => { queued 0 q with cfg := cfg }
    let off := { s [.custom 0] with cfg := { cfg with modules := [.user], clenc := 0 } }
    cfg.problem = none ∧ off.cfg.problem = none
      ∧ (s [.custom 0, .ioint 3]).nextEvent = some { name := .ioint 3 }
      ∧ (s [.custom 0]).nextEvent = some { name := .custom 0 }
      ∧ EventName.kind off.cfg (.custom 0) = .ioInterrupt ∧ off.sr.im.getLsbD 0 = false
      ∧ off.nextEvent = some { name := .custom 0 } := by decide +kernel

/-- The same: a running step takes the event of its boundary. -/
theorem test_witness_taken_step :
    let s := queued 0 [.ipcint 0, .ioint 3]
    s.Runs ∧ s.boundary = .ok s ∧ s.nextEvent = some { name := .ioint 3 }
      ∧ (nextOf (step s)).map (fun t => (t.m.ec, t.queue)) = some (0x14, [{ name := .ipcint 0 }]) :=
  ⟨runs_of (by decide +kernel), rfl, by decide +kernel⟩

/-- MaskedInterruptIsNotLost: A2, by a step. -/
theorem test_witness_masked_interrupt :
    let s := queued 0x00080000 [.ioint 3, .ipcint 2]
    (∃ t, step s = .next t ∧ (t.queue == [{ name := .ioint 3 }]) = true)
      ∧ EventName.kind s.cfg (.ioint 3) = .ioInterrupt ∧ s.sr.im.getLsbD 0 = true :=
  ⟨nextOf_eq (by decide +kernel), by decide +kernel⟩

/-- ArrivingInterrupts: room, a full queue (A6), an absent module. -/
theorem test_witness_arrivals :
    ((hart 0 0).cfg.has .ioint = true ∧ (hart 0 0).cfg.has .ipcint = true
        ∧ (hart 0 0).queue.length < (hart 0 0).cfg.queueDepth)
      ∧ (let s := queued 0 (List.replicate 16 .tqe); s.cfg.queueDepth ≤ s.queue.length)
      ∧ bare.cfg.has .ioint = false ∧ bare.cfg.has .ipcint = false := by decide +kernel

/-- A hart whose watchdog holds a value. -/
def watchdog (sr : Nat) (w : BitVec 32) : State := { hart 0 sr with wdt := w }

/-- WatchdogTick: W1, W2, W3 (R256); a tick every three clock cycles. -/
theorem test_witness_watchdog :
    ((watchdog 0x00600000 2).sr.wdte = 1 ∧ 1 < (watchdog 0x00600000 2).wdt.toNat
        ∧ (watchdog 0x00600000 2).tick.wdt = 1 ∧ (watchdog 0x00600000 2).tick.queue = [])
      ∧ ((watchdog 0x00600000 1).tick.wdt = 0
        ∧ (watchdog 0x00600000 1).tick.queue = [{ name := .tqe }])
      ∧ (let s := { watchdog 0x00600000 2 with cfg := { Config.reference with wdtTick := 3 } }
        s.cycles + 1 < s.cfg.wdtTick ∧ { s with cycles := 1 }.clock = { s with cycles := 2 }
          ∧ s.cfg.wdtTick ≤ 2 + 1 ∧ { s with cycles := 2 }.clock = { s with wdt := 1 })
      ∧ (watchdog 0x00600000 0).tick = watchdog 0x00600000 0
      ∧ (watchdog 0 3).tick = watchdog 0 3 := by decide +kernel

/-! #### Helper registers -/

/-- A user-mode hart with HLPRE 1 and one helper register at an index. -/
def helper (i : Nat) (mode : BitVec 8) (val : Word) (next : HelperReg := {}) : State :=
  watched (hart 0x3000 0x00601000)
    (((List.replicate 8 {}).set i { val := val, mode := mode }).set (i + 1) next)

/-- AddressTriggers: H1 to H4 (R260, R261). -/
theorem test_witness_address_triggers :
    (helper 1 1 0x1003).h[1]? = some { val := 0x1003, mode := 1 }
      ∧ (helper 1 1 0x1003).accessTriggers .read 0x1000 4 = [⟨1, .rdt⟩]
      ∧ (helper 1 1 0x1003).accessTriggers .read 0x1004 2 = []
      ∧ (helper 1 1 0x1003).accessTriggers .write 0x1000 4 = []
      ∧ (helper 2 3 0x2004).accessTriggers .fetch 0x2002 4 = []
      ∧ (helper 2 3 0x2004).accessTriggers .fetch 0x2004 4 = [⟨2, .ext⟩]
      ∧ (helper 0 5 0x2004).accessTriggers .fetch 0x2004 4 = [⟨0, .rwet⟩] := by decide +kernel

/-- The same, at the top of the address space: the access wraps and touches 0xFFFFFFFE to 1 (R7; log 45). -/
theorem test_witness_wrapped_access :
    (helper 0 1 1).accessTriggers .read 0xFFFFFFFE 4 = [⟨0, .rdt⟩]
      ∧ (helper 0 1 2).accessTriggers .read 0xFFFFFFFE 4 = []
      ∧ (helper 0 1 0xFFFFFFFF).accessTriggers .read 0xFFFFFFFE 4 = [⟨0, .rdt⟩]
      ∧ (0x1000 : Word).toNat + 4 ≤ 2 ^ (helper 0 1 1).cfg.wlen := by decide +kernel

/-- RangeTriggers: H5 to H10 (R262). -/
theorem test_witness_range_triggers :
    let s := helper 4 7 0x8000 { val := 0x8FFF, mode := 255 }
    s.h[4]? = some { val := 0x8000, mode := 7 }
      ∧ s.accessTriggers .write 0x8FFC 4 = [] ∧ s.accessTriggers .write 0x8FFE 4 = [⟨4, .wrt⟩]
      ∧ s.accessTriggers .write 0x7FFF 1 = [⟨4, .wrt⟩] ∧ s.accessTriggers .read 0x7FFF 1 = []
      ∧ (helper 4 7 0x8000).accessTriggers .write 0 4 = []
      ∧ (helper 7 7 0x8000).accessTriggers .write 0 4 = [] := by decide +kernel

/-- REF32 whose helper mode 254 and counter mode 255 have a meaning. -/
def hooked : Config :=
  { Config.reference with
    helperModes := [{ slot := 126, watch := .flag .cund, event := some 9 }]
    counterModes := [⟨127, .branches true⟩]
    customEvents := [⟨9, .exception, none, none⟩] }

/-- FlagTriggers: H12, H13, H16 (R263), and the custom modes of a configuration (U6). -/
theorem test_witness_flag_triggers :
    (helper 0 24 0x3000).h[0]? = some { val := 0x3000, mode := 24 }
      ∧ watchOf Config.reference 24 = .flag .div0
      ∧ (helper 0 24 0x3000).flagTriggers [.div0] = [⟨0, .flagT .div0⟩]
      ∧ (helper 0 24 0x3004).flagTriggers [.div0] = []
      ∧ (helper 0 11 0x3000).flagTriggers [.covr 0] = [⟨0, .flagT (.covr 0)⟩]
      ∧ hooked.problem = none ∧ { slot := 126, watch := .flag .cund, event := some 9 } ∈ hooked.helperModes
      ∧ watchOf hooked 254 = .flag .cund ∧ helperEvent hooked 254 = some (.custom 9)
      ∧ watchOf hooked 128 = .nothing
      ∧ { helper 0 254 0x3000 with cfg := hooked }.flagTriggers [.cund] = [⟨0, .custom 9⟩] := by
  decide +kernel

/-- HelperEventOrderAndCause: H17 (R265), and three registers, with room and without. -/
theorem test_witness_lowest_first :
    let s := helper 1 4 0x1000
    let ts : List Trigger := [⟨3, .rdt⟩, ⟨1, .rwt⟩, ⟨2, .wrt⟩, ⟨1, .rdt⟩]
    let l : List Trigger := [⟨1, .rwt⟩, ⟨2, .wrt⟩, ⟨3, .rdt⟩]
    ((nextOf (s.takeTriggers [⟨3, .rdt⟩, ⟨1, .rwt⟩])).map fun t => (t.u.ec, t.queue.map Event.cause))
        = some (0x0275, [0x0672])
      ∧ ((nextOf (s.takeTriggers ts)).map fun t => (t.u.ec, t.queue.map Event.cause))
        = some (0x0275, [0x0473, 0x0672])
      ∧ ts.all (fun t => decide (t.index < s.h.length))
      ∧ l.Pairwise (fun a b => a.index < b.index)
      ∧ (l.all fun t => ts.find? (fun u => u.index == t.index) == some t)
      ∧ s.queue.length + 2 ≤ s.cfg.queueDepth
      ∧ (let s := queued 0 (List.replicate 15 .tqe); s.cfg.queueDepth < s.queue.length + 2) := by
  decide +kernel

/-- ArithmeticExceptions: H13 to H16 (R227, R266), with an enabled helper register at the address. -/
theorem test_witness_arithmetic_exceptions :
    ((helper 0 24 0x3000).helperEnabled 0 = true ∧ (helper 0 24 0x3000).pc = 0x3000
        ∧ watchOf Config.reference 24 = .flag .div0)
      ∧ excEvent Config.reference .div0 = some .div0e
      ∧ (helper 0 24 0x3000).excEvents [.div0] = []
      ∧ (watched (hart 0x3000 0x00601800) [{ val := 0x3000, mode := 24 }]).excEvents [.div0] = []
      ∧ (watched (hart 0x3004 0x00601800) [{ val := 0x3000, mode := 24 }]).excEvents [.div0] = [.div0e]
      ∧ (watched (hart 0x3000 0x00600800) [{ val := 0x3000, mode := 24 }]).excEvents [.div0] = [.div0e]
      ∧ (hart 0x3000 0x00600800).excEvents [.covr 0] = []
      ∧ (hart 0x3000 0x00600800).excEvents [.covr 2] = [.covre]
      ∧ (hart 0x3000 0x00600800).afterFlags [] [.covr 0] = none
      ∧ (hart 0x3000 0x00600000).afterFlags [] [.covr 2] = none := by decide +kernel

/-- The same, several flags of one instruction: the lowest code is taken, the next where a register holds
the first's flag is its helper event; a trigger of the fetch and one of a flag together (logs 20, 29). -/
theorem test_witness_several_flags :
    let s := hart 0x3000 0x00600800
    let w := watched (hart 0x3000 0x00601800) [{}, { val := 0x3000, mode := 15 }]
    let fl : List Flag := [.div0, .covr 2, .cund]
    s.excEvents fl = [.covre, .cunde, .div0e] ∧ s.flagTriggers fl = []
      ∧ ((s.afterFlags [] fl).bind nextOf).map (·.u.ec) = some 0x0062
      ∧ w.excEvents fl = [.covre, .div0e] ∧ w.flagTriggers fl = [⟨1, .flagT .cund⟩]
      ∧ ((w.afterFlags [] fl).bind nextOf).map (·.u.ec) = some 0x027B
      ∧ (w.afterFlags [⟨0, .ext⟩] fl).bind causes = some (0, 0x0074, [0x027B]) := by decide +kernel

/-- An instruction that writes GEE and raises a flag is judged by the GEE it began with (log 36). -/
theorem test_flag_after_gee_write :
    let ps := fun sr => [Prim.const sr, .writeSpr .sr, .const 1, .raiseFlag .div0]
    let run := fun old new => causes (runRow (hart 0 old)
      { format := .twoRA, op := 1, sem := .prims (ps new) } { op := 1 })
    hart 0 0x800 = { hart 0 0 with sr := { gee := 1 } }
      ∧ run 0 0x800 = some (0, 0, []) ∧ run 0x800 0 = some (102, 0, []) := by decide +kernel

/-- The model's choices: an instruction that writes the counter which counts it leaves the written value
plus one (log 41), and an eight-byte CfgRead is cut to the register (log 35). -/
theorem test_counter_write_and_wide_segment_read :
    let s := { hart 0 0x00010000 with c := [{ mode := 1 }], x := [0] }
    let run := fun ps => nextOf (runRow s { clearMec with sem := .prims ps } { op := 6 })
    let wide : List Prim := [.const 12, .readConfig 8, .const 0, .writeAt .sgprb]
    ((run [.const 9, .const 0, .writeAt .perfcb]).bind fun t => t.c[0]?).map (·.val) = some 10
      ∧ decodeRow Config.reference { clearMec with sem := .prims wide } { op := 6 }
        = some (.instr ⟨{ clearMec with sem := .prims wide }, { op := 6 }, .unmasked, false⟩)
      ∧ (run wide).map (·.x) = some [0x02020002] := by decide +kernel

/-- CountersCountInstructions, SuppliedInstructionCompletesOrIsCancelled: an instruction that reads a time
counter twice and then meets a misaligned address is cancelled with both free values used up, and so is a
value a counter took as time passed (R267, U9, log 6). -/
theorem test_cancelled_draws_are_used_up :
    let s := { hart 0 0x00010000 with c := [{ val := 5, mode := 6 }] }
    let ps : List Prim := [.const 0, .readAt .perfcb, .drop, .const 0, .readAt .perfcb, .drop, .const 1,
      .load (.bytes 2), .drop]
    let t := nextOf (runRow s { clearMec with sem := .prims ps } { op := 6 })
    (s.cfg.has .perfc = true ∧ s.sr.perfce = 1 ∧ countsOf s.cfg 6 = .time)
      ∧ s.draws = 0 ∧ t.map (·.draws) = some 2 ∧ t.map (·.m.ec) = some 81
      ∧ (t.bind fun t => t.c[0]?) = some { val := 5, mode := 6 }
      ∧ (nextOf (step { s with pc := 1 })).map (·.draws) = some 1 := by decide +kernel

/-- CountersCountInstructions: K1, K6 (R267, R43), and K2 with CLEN 8. -/
theorem test_witness_counters :
    let s := { hart 0 0x00010000 with c := [{ val := 0xFFFFFFFF, mode := 1 }, {}] }
    let s8 := { s with cfg := { Config.reference with clenc := 0 }, c := [{ val := 0xFF, mode := 1 }] }
    s.c[0]? = some { val := 0xFFFFFFFF, mode := 1 }
      ∧ (State.retire s {} s).c = [{ val := 0, mode := 1 }, {}]
      ∧ (State.retire s8 {} s8).c = [{ val := 0, mode := 1 }] := by decide +kernel

/-- The same, modes 2 to 5 and 255 (K5): a load, a store, a branch taken and one not; an instruction that
turns PERFCE off, and one that changes the mode (D36), is counted as it began. -/
theorem test_witness_counter_modes :
    let c : List CounterReg := [{ mode := 2 }, { mode := 3 }, { mode := 4 }, { mode := 5 }, { mode := 255 }]
    let s := { hart 0 0x00010000 with cfg := hooked, c := c }
    let after := fun k => (State.retire s k s).c.map (·.val)
    after { load := true } = [1, 0, 0, 0, 0] ∧ after { store := true } = [0, 1, 0, 0, 0]
      ∧ after { load := true, store := true } = [1, 1, 0, 0, 0]
      ∧ after { branch := some true } = [0, 0, 1, 0, 1] ∧ after { branch := some false } = [0, 0, 0, 1, 0]
      ∧ (State.retire s { load := true } { s with sr := {} }).c.map (·.val) = [1, 0, 0, 0, 0]
      ∧ (State.retire s { load := true } (s.writeCounterMode 0 1)).c[0]? = some { val := 1, mode := 1 }
      ∧ hooked.problem = none ∧ countsOf hooked 255 = .branches true := by decide +kernel

/-- K3 (R267): an instruction that raises an event is not counted; K4: nor is ERET begun with PERFCE 0. -/
theorem test_events_are_not_counted :
    let c : List CounterReg := [{ val := 5, mode := 1 }]
    (nextOf (step { at' 5 (hart 0 0x00610000) with c := c })).map (·.c) = some c
      ∧ (nextOf (step { at' 2 (hart 0 0x00180000 (regs 0x1000 0x00010000 0 0)) with c := c })).map (·.c)
        = some c := by decide +kernel

/-! #### Memory -/

/-- Memory after MemWrite, where it completes. -/
def wrote' (s : State) (a : Word) (n v : Nat) : Option State :=
  match s.memWrite s 0 a n n v (fun _ => true) with
  | .ok t => some t
  | .error _ => none

/-- What MemRead gives, where it completes. -/
def readBack (s : State) (a : Word) (n : Nat) : Option Nat :=
  match s.memRead s 0 a n n with
  | .ok v => some v
  | .error _ => none

/-- MemWriteFrame, MemReadAfterMemWrite, ByteOrder: M1 to M4 (R105), with and without USER. -/
theorem test_witness_memory :
    let big := { hart 0 0 with cfg := { Config.reference with endian := .big } }
    (wrote' bare 0x100 4 0x11223344).map (·.mem)
        = some [(0x100, 0x44), (0x101, 0x33), (0x102, 0x22), (0x103, 0x11)]
      ∧ ((wrote' bare 0x100 4 0x11223344).bind fun t => readBack t 0x102 2) = some 0x1122
      ∧ ((wrote' big 0x100 4 0x11223344).bind fun t => readBack t 0x102 2) = some 0x3344
      ∧ (bare.cfg.has .user = false ∧ bare.racing = [] ∧ (0x100 : Word).toNat < 2 ^ bare.cfg.wlen)
      ∧ (big.cfg.has .user = true ∧ big.cfg.translation = .identity)
      ∧ bare.accessTriggers .read 0x100 4 = [] ∧ (0xBCDEF569441A#48).toNat < 2 ^ (8 * InstrLen.six.bytes) := by
  decide +kernel

/-- MemWriteFrame: mask bit 1 keeps byte 1 of the value, which big-endian order puts at the address before
the last (R29, R105); a store through a page elsewhere. -/
theorem test_witness_masked_store :
    let paged := { hart 0 0 with
      cfg := { Config.reference with translation := .table [⟨none, none, none, 0x100, 0x1FF, .to 0x400⟩] } }
    let store := fun (s : State) (keeps : Nat → Bool) =>
      (okOf (s.memWrite s 0 0x100 4 4 0x11223344 keeps)).map (·.mem)
    store { bare with cfg := { bare.cfg with endian := .big } } (· == 1) = some [(0x102, 0x33)]
      ∧ store bare (· == 1) = some [(0x101, 0x33)]
      ∧ (okOf (bare.memWrite bare 0 0x100 4 4 0x11223344 (· == 1))).map (·.dirty) = some [0x101]
      ∧ okOf (paged.checkData .write 0x100 4 4) = some [0x400, 0x401, 0x402, 0x403]
      ∧ store paged (· != 0) = some [(0x401, 0x33), (0x402, 0x22), (0x403, 0x11)] := by decide +kernel

/-- The same: a store under a mask, and a read another agent's write tears (R104; log 39). -/
theorem test_witness_torn_read :
    let s := { hart 0 0 with mem := [(0x100, 1), (0x101, 2), (0x102, 3), (0x103, 4)],
                             racing := [⟨2, 0x100, 9⟩, ⟨2, 0x103, 9⟩] }
    readBack s 0x100 4 = some 0x09030201
      ∧ (match s.memWrite s 0 0x100 4 1 0 (· == 1) with
        | .ok t => t.mem
        | .error _ => []) = [(0x100, 1), (0x101, 0), (0x102, 3), (0x103, 4)] := by decide +kernel

/-- MisalignedDataAccess: M11, M12 (R108), and each of the other stops at the ends of its range. -/
theorem test_witness_misaligned :
    let s := mapped
    ((0x1002 : Word).toNat % 4 ≠ 0 ∧ s.cfg.has .dalign = true ∧ bare.cfg.has .dalign = false
        ∧ (0x1002 : Word).toNat % 2 = 0)
      ∧ stopOf (s.checkData .write 0x7E 4 2) = some (.event { name := .pflt, data := some 0x80 })
      ∧ stopOf (s.checkData .read 0x3C 8 4) = some (.event { name := .illa, data := some 0x40 })
      ∧ stopOf (s.checkData .read 0x1F 1 1) = some (.refused (.device 0x1F))
      ∧ stopOf (s.checkData .write 0x2F 1 1) = some (.fault (.readOnly 0x2F))
      ∧ okOf (s.checkData .read 0x2F 1 1) = some [0x2F]
      ∧ stopOf (s.checkData .read 0x2E 4 2) = some (.fault (.unmapped 0x30))
      ∧ okOf (s.checkData .write 0x44 2 2) = some [0x44, 0x45]
      ∧ (let w := watched (hart 0 0x00001000) [{ val := 0x45, mode := 2 }]
        w.attempt .write 0x44 2 2 = [⟨0, .wrt⟩] ∧ w.attempt .write 0x45 2 2 = []
          ∧ okOf (w.checkData .write 0x44 2 2) = some [0x44, 0x45]) := by decide +kernel

/-- The same: what a load or a store attempts is noted, where it does not translate and where a device
stands; a misaligned one is not. -/
theorem test_witness_attempts :
    let s := { watched mapped [{ val := 0x80, mode := 4 }, { val := 0x12, mode := 4 }] with sr := { hlpre := 1 } }
    let d : Decoded := ⟨storeWord, {}, .unmasked, false⟩
    let fired := fun st ps => (stopOf (runPrims d s { s := s, stack := st } ps)).map (·.2.fired)
    s.sizeOf d (.bytes 2) = (4, 4) ∧ stopOf (s.checkData .read 0x80 4 4) = some (.event { name := .pflt, data := some 0x80 })
      ∧ fired [0x80] [.load (.bytes 2)] = some [⟨0, .rwt⟩]
      ∧ fired [0x10, 9] [.store (.bytes 2)] = some [⟨1, .rwt⟩]
      ∧ fired [0x7E] [.load (.bytes 2)] = some [] := by decide +kernel

/-- The same, permitted accesses: they are made and go on with what fired, conditional ones where the
condition is not 0. -/
theorem test_witness_permitted :
    let s := { watched mapped [{ val := 0x44, mode := 4 }] with sr := { hlpre := 1 }, mem := [(0x44, 7), (0x45, 8)] }
    let d : Decoded := ⟨storeWord, {}, .unmasked, false⟩
    let ends := fun st ps => (okOf (runPrims d s { s := s, stack := st } ps)).map fun w =>
      (w.stack, w.fired.length, Memory.read w.s.mem 0x44)
    s.sizeOf d (.bytes 1) = (2, 2) ∧ okOf (s.checkData .read 0x44 2 2) = some [0x44, 0x45]
      ∧ okOf (s.checkData .write 0x44 2 2) = some [0x44, 0x45]
      ∧ ends [0x44] [.load (.bytes 1)] = some ([0x0807], 1, 7)
      ∧ ends [0x44, 0x0209] [.store (.bytes 1)] = some ([], 1, 9)
      ∧ ends [1, 0x44, 5] [.loadIf (.bytes 1)] = some ([0x0807], 1, 7)
      ∧ ends [0, 0x44, 5] [.loadIf (.bytes 1)] = some ([5], 0, 7)
      ∧ ends [1, 0x44, 0x0209] [.storeIf (.bytes 1)] = some ([], 1, 9)
      ∧ ends [0, 0x44, 5] [.storeIf (.bytes 1)] = some ([], 0, 7) := by decide +kernel

/-- StoreToFetchNeedsAFence: M13 (R115): an instruction written since load. -/
theorem test_witness_stale_fetch :
    let s := { at' 1 (hart 0 0x00180000) with dirty := [1] }
    let d : Decoded := ⟨{ format := .twoRA, op := 1, mdClass := .f, sem := .prims [.fence] },
      { op := 1, md := 3 }, .unmasked, false⟩
    s.Runs ∧ s.boundary = .ok s ∧ s.nextEvent = none ∧ s.pc.toNat % s.cfg.ialign = 0
      ∧ s.translate (s.addrAt s.pc 0) .fetch = .to 0 ∧ s.translate (s.addrAt s.pc 1) .fetch = .to 1
      ∧ (s.regionAt 0 = .ram ∧ s.regionAt 1 = .ram ∧ 1 ∈ s.dirty)
      ∧ (step s matches .fault (.staleFetch 1))
      ∧ (match runPrim d s { s := s } .fence with
        | .ok w => seeM w.s
        | .error _ => none) = some [0, 0x08180000, 0, 0, 0]
      ∧ s.sr.sequential s.cfg = true ∧ (State.resetOf full).sr.sequential full = false :=
  ⟨runs_of (by decide +kernel), rfl, by decide +kernel⟩

/-- The same, a byte of the second parcel. -/
theorem test_witness_stale_tail :
    let s := { at' 1 (hart 0 0x00180000) with dirty := [3] }
    okOf (s.fetchBytes 0 2) = some [1, 0] ∧ (s.cfg.lengthOf.apply (parcelOf s.cfg.endian 1 0)).bytes = 4
      ∧ s.translate (s.addrAt s.pc 3) .fetch = .to 3
      ∧ (step s matches .fault (.staleFetch 3)) := by decide +kernel

/-- ConfigurationSegment: M14 to M18 (R102, R103). -/
theorem test_witness_segment :
    (List.range 7).map (fun k => Config.reference.read (12 + k) 1)
        = [some 2, some 0, some 2, some 2, some 0, some 0, some 0]
      ∧ (List.range 2).map (fun k => { Config.reference with segment := { hid := 1 } }.read k 1)
        = [some 1, some 0]
      ∧ Config.reference.read 171 1 = some 0 ∧ Config.reference.read 1023 2 = none
      ∧ 171 ≤ 255 ∧ 1024 < 1023 + 2 := by decide +kernel

/-! #### Supplied instructions -/

/-- SuppliedInstructionCompletesOrIsCancelled: steps 2 and 3 of program 6 complete; M11, a store that raises
MISD, is cancelled. -/
theorem test_witness_supplied :
    let s := { inMachineHandler with cfg := withRow clearMec }
    let s' := { hart 0x1000 0x00180000 with x := [0x1002, 9] }
    (∃ t, runRow s clearMec { op := 6 } = .next t ∧ (t.m.ec == 0 && t.pc == 0x104) = true)
      ∧ (∃ t, runRow s bumpMepc { op := 6 } = .next t ∧ (t.m.epc == 0x1004 && t.pc == 0x104) = true)
      ∧ ∃ t, runRow s' storeWord { op := 7, rb := 1 } = .next t
        ∧ (t.m.ec == 0x0051 && t.mem == []) = true :=
  ⟨nextOf_eq (by decide +kernel), nextOf_eq (by decide +kernel), nextOf_eq (by decide +kernel)⟩

/-- The same, cancelled with a further helper event queued; and an access by name that user mode has not,
after a store that would be misaligned. -/
theorem test_witness_supplied_cancelled :
    let s := watched { hart 0x3000 0x00601000 with x := [0x1000, 9] } [{}, { val := 0x1003, mode := 2 }]
    let privileged : OpcodeRow := { storeWord with
      sem := .prims [.readReg .rb, .const 2, .store (.bytes 2), .readSpr .mec, .drop] }
    (∀ u ∈ ([⟨0, .ext⟩] : List Trigger), u.index < s.h.length)
      ∧ causes (runRow s storeWord { op := 7, rb := 1 } [⟨0, .ext⟩]) = some (0, 0x0074, [0x0273])
      ∧ sprDenied s.cfg s.mode .mec = some .illi
      ∧ causes (runRow s privileged { op := 7, rb := 1 }) = some (3, 0, []) := by decide +kernel

/-- The same, at an unwatched fetch: data a register watches (R109), a flag's exception (R227), a fault
before it, and neither. -/
theorem test_witness_supplied_unwatched :
    let flagged : OpcodeRow := { clearMec with sem := .prims [.const 1, .raiseFlag .div0] }
    let faulty : OpcodeRow := { clearMec with
      sem := .prims [.const 1, .raiseFlag .div0, .const 2, .load (.bytes 2), .drop] }
    let s := watched { hart 0x3000 0x00601800 with x := [0x1000, 9] } [{ val := 0x1003, mode := 2 }]
    let d : Decoded := ⟨flagged, { op := 6 }, .unmasked, false⟩
    s.denied d [] [.const 1, .raiseFlag .div0] = none
      ∧ causes (runRow s storeWord { op := 7, rb := 1 }) = some (0, 0x0073, [])
      ∧ causes (runRow s flagged { op := 6 }) = some (0, 0x0066, [])
      ∧ causes (runRow s faulty { op := 6 }) = some (0x0051, 0, [])
      ∧ causes (runRow { s with sr := { s.sr with gee := 0 } } flagged { op := 6 }) = some (0, 0, []) := by
  decide +kernel

/-- ExecuteTriggerLosesToFault, supplied instructions: Y1, a fault of the instruction wins; a stop of the
model and a completion lose to the trigger; a flag raised before a store that fires joins the order by
index (R265). -/
theorem test_witness_supplied_triggers :
    let s := fun a => { mapped with x := [a, 9] }
    let flagged : OpcodeRow := { storeWord with
      sem := .prims [.const 1, .raiseFlag .div0, .readReg .rb, .readReg .ra, .store (.bytes 2)] }
    let w := watched { hart 0x3000 0x00601000 with x := [0x1000, 9] }
      [{ val := 0x3000, mode := 24 }, { val := 0x1000, mode := 2 }]
    causes (runRow (s 0x80) storeWord { op := 7, rb := 1 } [⟨2, .ext⟩]) = some (0x52, 0, [])
      ∧ causes (runRow (s 0x10) storeWord { op := 7, rb := 1 } [⟨2, .ext⟩]) = some (0x0474, 0, [])
      ∧ causes (runRow (s 0x44) storeWord { op := 7, rb := 1 } [⟨2, .ext⟩]) = some (0x0474, 0, [])
      ∧ causes (runRow w flagged { op := 7, rb := 1 }) = some (0, 0x0084, [0x0273]) := by decide +kernel

/-- M19, M20 (R118, R226): a store to an address a table refuses. -/
theorem test_translation_faults :
    let tr := Translation.table [⟨none, some .user, none, 0, 0xFF, .illegalAddress⟩]
    let s := fun a => { hart 0x1000 0x00600000 with
      cfg := { Config.reference with translation := tr }, x := [a, 9] }
    let run := fun a => (nextOf (runRow (s a) storeWord { op := 7, rb := 1 })).map fun t => (t.m.ec, t.m.ed)
    run 0x40 = some (0x0053, 0x40) ∧ run 0x00404004 = some (0x0052, 0x00404004) := by decide +kernel

/-! #### Invariants -/

/-- ResetMeetsTheInvariants. -/
theorem test_witness_reset : Config.reference.problem = none ∧ full.problem = none :=
  test_reference_is_legal

/-- What holds of each entry of a list, checked entry by entry. -/
theorem all_mem {α : Type} {p : α → Prop} [DecidablePred p] {l : List α}
    (h : l.all (fun a => decide (p a)) = true) : ∀ a ∈ l, p a := by simpa using h

/-- The statements over every step: a state right after reset with an instruction placed steps, and meets
the invariants. -/
theorem test_witness_a_step :
    ∃ t, step (at' 1 State.reset) = .next t ∧ (t.sr.hlts == 1) = true := nextOf_eq (by decide +kernel)

theorem test_witness_memory_fits : (at' 1 State.reset).MemoryFits :=
  ⟨by decide +kernel, by decide +kernel, by decide +kernel, by decide +kernel⟩

theorem test_witness_banks_fit : (at' 1 State.reset).BanksFit where
  xCount := rfl
  xWidth := all_mem (by decide +kernel)
  vrCount := rfl
  vrWidth := all_mem rfl
  hCount := rfl
  hWidth := all_mem (by decide +kernel)
  cCount := rfl
  cWidth := all_mem (by decide +kernel)

theorem test_witness_specials_fit :
    (at' 1 State.reset).SpecialsFit ∧ (at' 1 State.reset).StatusFits ∧ (at' 1 State.reset).QueueFits :=
  have fits : ∀ s : State, (s.pc.toNat < 2 ^ s.cfg.wlen ∧ s.u.fits s.cfg ∧ s.m.fits s.cfg)
      ∧ (s.pfpa.toNat < 2 ^ s.cfg.wlen ∧ s.tptr.toNat < 2 ^ s.cfg.wlen)
      ∧ s.vm1.toNat < 2 ^ (s.cfg.mxvl / 8) ∧ s.vm2.toNat < 2 ^ (s.cfg.mxvl / 8)
        ∧ s.vm3.toNat < 2 ^ (s.cfg.mxvl / 8)
      ∧ s.usage.fits s.cfg → s.SpecialsFit :=
    fun _ h => ⟨h.1.1, h.1.2.1, h.1.2.2, h.2.1.1, h.2.1.2, ⟨h.2.2.1, h.2.2.2.1, h.2.2.2.2.1⟩, h.2.2.2.2.2⟩
  ⟨fits _ (by decide +kernel), by decide +kernel, by decide +kernel, all_mem rfl, all_mem rfl⟩

/-- UserModeCannotChangePrivilegedState: a user-mode UERET stays in user mode. -/
theorem test_witness_user_step :
    let s := at' 3 (hart 0x1000 0x00600000 (regs 0 0 0 0x100) (regs 0x2010 0x0038F800 0 0x2100))
    s.StatusFits ∧ s.mode = .user ∧ ∃ t, step s = .next t ∧ (t.mode == .user) = true :=
  ⟨by decide +kernel, by decide +kernel, nextOf_eq (by decide +kernel)⟩

/-- MachineModeIsEnteredOnlyByLaunch: a system call in user mode. -/
theorem test_witness_promotion :
    let s := at' 5 (hart 0x1000 0x00600800)
    s.mode = .user ∧ ∃ t, step s = .next t ∧ (t.mode == .machine) = true :=
  ⟨by decide +kernel, nextOf_eq (by decide +kernel)⟩

end Sys2Proof.Tests
end

section

namespace Sys2Proof.Machine

/-! ### What the five instructions leave racing -/

@[simp] theorem State.deliver_racing (s : State) (e : Event) : (s.deliver e).racing = s.racing := by
  rcases State.deliver_cases s e with ⟨h, -⟩ | ⟨h, -⟩ | ⟨h, -⟩ <;> rw [h] <;> rfl

@[simp] theorem State.relaunchMachine_racing (s : State) : s.relaunchMachine.racing = s.racing := by
  rcases State.relaunchMachine_cases s with ⟨h, -⟩ | ⟨h, -⟩ <;> rw [h]
  rfl

@[simp] theorem State.relaunchUser_racing (s : State) : s.relaunchUser.racing = s.racing := by
  rcases State.relaunchUser_cases s with ⟨h, -⟩ | ⟨h, -⟩ <;> rw [h]
  rfl

@[simp] theorem coreEffect_racing (i : Instr) (s : State) : (coreEffect i s).racing = s.racing := by
  cases i <;> simp [coreEffect]

/-- No write of another agent lands while one of the five instructions runs: none of them accesses data
(20_memory.md R104). -/
theorem exec_racing {i : Instr} {s t : State} (h : exec i s = .next t) : t.racing = s.racing := by
  rw [exec_eq] at h
  split at h
  · cases h
    exact State.deliver_racing _ _
  · split at h <;> cases h
    simp

/-- With nothing racing, the meaning of one of the five instructions is settled already. -/
theorem settled_exec {s : State} (i : Instr) (h : s.racing = []) : settled (exec i s) = exec i s := by
  cases ho : exec i s with
  | next t => exact congrArg _ (State.settleAll_of_nil ((exec_racing ho).trans h))
  | fault f => rfl
  | refused r => rfl

/-! ### From the boundary to the decoded row -/

theorem State.atBoundary_of_none {s : State} (h : s.nextEvent = none) : s.atBoundary = s.runInstr := by
  simp only [State.atBoundary, h]

theorem State.runInstr_of_decode {s : State} {len : InstrLen} {w : InstrBits} {d : Decoded}
    (hf : s.fetch = .ok (len, w)) (hd : decode s.cfg len w = .instr d) :
    s.runInstr = s.execute d len (s.accessTriggers .fetch s.pc len.bytes) := by
  simp only [State.runInstr, hf, hd]

/-- A running step with no event to take, whose fetched word decodes, executes what it decodes to. -/
theorem State.Runs.step_of_decode {s b : State} {len : InstrLen} {w : InstrBits} {d : Decoded}
    (hs : s.Runs) (hb : s.boundary = .ok b) (he : b.nextEvent = none) (hf : b.fetch = .ok (len, w))
    (hd : decode b.cfg len w = .instr d) :
    step s = settled (b.execute d len (b.accessTriggers .fetch b.pc len.bytes)) := by
  rw [hs.step_eq hb, State.atBoundary_of_none he, State.runInstr_of_decode hf hd]

/-- At a fetch no helper register watches, one of the five instructions is its meaning, also where it
faults. -/
theorem State.runCore_nil (s : State) (i : Instr) : s.runCore [] i = exec i s := ite_self _

theorem State.execute_core {s : State} {d : Decoded} {i : Instr} (h : d.row.sem = .core i)
    (len : InstrLen) (fetched : List Trigger) : s.execute d len fetched = s.runCore fetched i := by
  simp only [State.execute, h]

theorem State.execute_prims {s : State} {d : Decoded} {ps : List Prim} (h : d.row.sem = .prims ps)
    (len : InstrLen) (fetched : List Trigger) :
    s.execute d len fetched = s.runSupplied d len fetched ps := by
  simp only [State.execute, h]

theorem State.execute_group {s : State} {d : Decoded} {g : InstrGroup} (h : d.row.sem = .group g)
    (len : InstrLen) (fetched : List Trigger) :
    s.execute d len fetched = .refused (.undefinedGroup g) := by
  simp only [State.execute, h]

/-- Settles O27: a step from a boundary without an event is the decoded row executed and settled; each of
the three kinds of row then says what that is, and the five instructions leave what races as it is. -/
theorem stepRunsTheDecodedInstruction : Obligations.StepRunsTheDecodedInstruction := by
  unfold Obligations.StepRunsTheDecodedInstruction
  intro s b len w d hs hb he hf hd
  have hstep := hs.step_of_decode hb he hf hd
  refine ⟨fun i hi ht => ?_, fun ps hp => ?_, fun g hg => ?_⟩
  · have hcore : step s = settled (exec i b) := by
      rw [hstep, State.execute_core hi, ht, State.runCore_nil]
    exact ⟨hcore, fun hr => hcore.trans (settled_exec i hr)⟩
  · rw [hstep, State.execute_prims hp]
  · rw [hstep, State.execute_group hg]
    rfl

end Sys2Proof.Machine
end

section

namespace Sys2Proof.Machine

/-! ### What the launching sequences leave in each register -/

section

variable (s : State) (cause : BitVec 16) (data : Option Word)

/-- The launching sequences are confined to PC, SR and one set of event registers. -/
theorem State.enterMachine_sameElsewhere : s.SameElsewhere (s.enterMachine cause data) := by
  constructor <;> simp

theorem State.enterUser_sameElsewhere : s.SameElsewhere (s.enterUser cause data) := by
  constructor <;> simp

/-- The steps of R236 field by field: MEPC, MESR, MEC and MED through `EventRegs.saved`, the fields of SR
through `StatusReg.promoted`. -/
theorem State.enterMachine_trapped : s.TrappedMachine (s.enterMachine cause data) cause data where
  mepc := rfl
  mesr := rfl
  gee := rfl
  hlpre := rfl
  perfce := rfl
  pmod := rfl
  wdte := rfl
  im := rfl
  kept := ⟨rfl, rfl, rfl, rfl, rfl, rfl, rfl⟩
  mec := rfl
  med := rfl
  others := ⟨rfl, rfl, rfl⟩
  pc := s.enterMachine_pc cause data
  user := s.enterMachine_u cause data
  c := s.enterMachine_c cause data
  same := s.enterMachine_sameElsewhere cause data

/-- The steps of R237 field by field: UEPC, UESR, UEC and UED through `EventRegs.saved`, the fields of SR
through `StatusReg.quiet`, which leaves PMOD, WDTE and IM. -/
theorem State.enterUser_trapped : s.TrappedUser (s.enterUser cause data) cause data where
  uepc := rfl
  uesr := rfl
  gee := rfl
  hlpre := rfl
  perfce := rfl
  kept := ⟨rfl, rfl, rfl, rfl, rfl, rfl, rfl, rfl, rfl, rfl⟩
  uec := rfl
  ued := rfl
  others := ⟨rfl, rfl, rfl⟩
  pc := s.enterUser_pc cause data
  mach := s.enterUser_m cause data
  c := s.enterUser_c cause data
  same := s.enterUser_sameElsewhere cause data

/-! ### The double-event test -/

variable {s}

theorem State.launchMachine_of_unsaved (h : s.criticalUnsaved .machine = true) :
    s.launchMachine cause data = s.halt 2 := if_pos h

theorem State.launchMachine_of_saved (h : s.criticalUnsaved .machine = false) :
    s.launchMachine cause data = s.enterMachine cause data := if_neg (by simp [h])

theorem State.launchUser_of_unsaved (h : s.criticalUnsaved .user = true) :
    s.launchUser cause data = s.halt 2 := if_pos h

theorem State.launchUser_of_saved (h : s.criticalUnsaved .user = false) :
    s.launchUser cause data = s.enterUser cause data := if_neg (by simp [h])

end

/-- Settles O13: the double-event test of R240 decides between the halt, which sets HLTS alone, and the
sequence without the test, whose fields `State.enterMachine_trapped` gives. -/
theorem privilegedLaunchingSequence : Obligations.PrivilegedLaunchingSequence := by
  unfold Obligations.PrivilegedLaunchingSequence
  intro s cause data
  refine ⟨fun hu => State.launchMachine_of_unsaved cause data hu, fun hs => ?_⟩
  rw [State.launchMachine_of_saved cause data hs]
  exact s.enterMachine_trapped cause data

/-- Settles O14: as for the privileged sequence, with the user level's test and
`State.enterUser_trapped`. -/
theorem unprivilegedLaunchingSequence : Obligations.UnprivilegedLaunchingSequence := by
  unfold Obligations.UnprivilegedLaunchingSequence
  intro s cause data
  refine ⟨fun hu => State.launchUser_of_unsaved cause data hu, fun hs => ?_⟩
  rw [State.launchUser_of_saved cause data hs]
  exact s.enterUser_trapped cause data

/-! ### Codes and causes -/

/-- The cause register holds the extra information above the nine bits of the code
(60_exceptions.md R235). -/
theorem Event.cause_toNat (e : Event) :
    e.cause.toNat = e.extra.toNat * 512 + e.name.code.toNat := by
  rw [Event.cause, BitVec.toNat_append, ← Nat.shiftLeft_add_eq_or_of_lt e.name.code.isLt,
    Nat.shiftLeft_eq]

/-- Without extra information the cause is the code alone. -/
theorem Event.cause_toNat_of_name (n : EventName) :
    (Event.cause { name := n }).toNat = n.code.toNat := by
  simp [Event.cause_toNat]

theorem EventName.code_ioint_toNat (k : Fin 32) : (EventName.ioint k).code.toNat = 17 + k.val := by
  simp only [EventName.code, BitVec.toNat_ofNat]
  omega

theorem EventName.code_ipcint_toNat (k : Fin 32) : (EventName.ipcint k).code.toNat = 49 + k.val := by
  simp only [EventName.code, BitVec.toNat_ofNat]
  omega

/-- Settles O17: priorities, type and module are the table's row; code and cause are the numbers of R224
and R225, below the 512 codes there are, so the nine bits of the code hold them. -/
theorem interruptEventRows : Obligations.InterruptEventRows := by
  unfold Obligations.InterruptEventRows
  intro cfg k
  have hio := EventName.code_ioint_toNat k
  have hipc := EventName.code_ipcint_toNat k
  exact ⟨⟨hio, rfl, rfl, rfl, rfl, (Event.cause_toNat_of_name _).trans hio⟩,
    hipc, rfl, rfl, rfl, rfl, (Event.cause_toNat_of_name _).trans hipc⟩

end Sys2Proof.Machine
end

section

namespace Sys2Proof

/-! ### The tables of the formats -/

/-- A bit of a field has a column exactly where the field has that bit in the format (30_encoding.md R131). -/
theorem Format.mem_columns (order : FieldOrder) (fmt : Format) (f : FieldName) (b : Nat) :
    (f, b) ∈ fmt.columns order ↔ b < fmt.fieldWidth f := by
  have hin : ∀ p ∈ fmt.columns order, p.2 < fmt.fieldWidth p.1 := by
    cases order <;> cases fmt <;> decide
  have hof : ∀ b < fmt.fieldWidth f, (f, b) ∈ fmt.columns order := by
    cases order <;> cases fmt <;> cases f <;> decide
  exact ⟨fun h => hin _ h, hof b⟩

theorem Format.columns_nodup (order : FieldOrder) (fmt : Format) : (fmt.columns order).Nodup := by
  cases order <;> cases fmt <;> decide

theorem Format.columns_length (order : FieldOrder) (fmt : Format) :
    (fmt.columns order).length = 8 * fmt.length.bytes := by
  cases order <;> cases fmt <;> rfl

/-- The bits a field is held in. -/
def FieldName.bits : FieldName → Nat
  | .op => 20
  | .ra | .rb | .rc | .rd => 5
  | .im => 24
  | .md => 2
  | .vm => 6

theorem FieldName.bits_le (f : FieldName) : f.bits ≤ 24 := by
  cases f <;> decide

/-- Every field of every format is held whole. -/
theorem Format.fieldWidth_le (fmt : Format) (f : FieldName) : fmt.fieldWidth f ≤ f.bits := by
  cases fmt <;> cases f <;> decide

theorem InstrLen.bytes_le (len : InstrLen) : len.bytes ≤ 6 := by
  cases len <;> decide

/-- The column of a field's bit holds that bit. -/
theorem Format.columnOf_eq_some {order : FieldOrder} {fmt : Format} {f : FieldName} {b c : Nat} :
    fmt.columnOf order f b = some c ↔ (fmt.columns order)[c]? = some (f, b) := by
  constructor
  · intro h
    obtain ⟨hc, hp, -⟩ := List.findIdx?_eq_some_iff_getElem.1 h
    rw [List.getElem?_eq_getElem hc, eq_of_beq hp]
  · intro h
    obtain ⟨hc, hp⟩ := List.getElem?_eq_some_iff.1 h
    refine List.findIdx?_eq_some_iff_getElem.2 ⟨hc, by simp [hp], fun j hj => ?_⟩
    intro hq
    have hjc : j = c :=
      (List.getElem_inj (fmt.columns_nodup order)).1 ((eq_of_beq hq).trans hp.symm)
    omega

theorem Format.columnOf_eq_none {order : FieldOrder} {fmt : Format} {f : FieldName} {b : Nat} :
    fmt.columnOf order f b = none ↔ fmt.fieldWidth f ≤ b := by
  rw [← Nat.not_lt, ← fmt.mem_columns order]
  simp only [Format.columnOf, List.findIdx?_eq_none_iff, beq_eq_false_iff_ne]
  exact ⟨fun h hm => h _ hm rfl, fun h p hp hpe => h (hpe ▸ hp)⟩

/-! ### The bits of an assembled word and of a field -/

/-- The bit of an assembled word at a field bit's column is that bit. -/
theorem assemble_getLsbD_column {order : FieldOrder} {fmt : Format} {f : FieldName} {b c : Nat}
    (fl : Fields) (h : (fmt.columns order)[c]? = some (f, b)) :
    (assemble order fmt fl).getLsbD c = (fl.value f).testBit b := by
  have hc : c < 48 := by
    have := (List.getElem?_eq_some_iff.1 h).1
    have := fmt.columns_length order
    have := fmt.length.bytes_le
    omega
  rw [assemble_getLsbD _ _ _ _ hc, h]

/-- A bit of a field read from a word is the word's bit at its column. -/
theorem fieldOf_testBit (order : FieldOrder) (fmt : Format) (w : InstrBits) (f : FieldName) (b : Nat) :
    (fieldOf order fmt w f).testBit b
      = match fmt.columnOf order f b with
        | some c => w.getLsbD c
        | none => false := by
  rw [fieldOf, testBit_bitsToNat, List.getD_eq_getElem?_getD, List.getElem?_map]
  by_cases hb : b < 24
  · rw [List.getElem?_range hb]
    rfl
  · have hw := fmt.fieldWidth_le f
    have hf := f.bits_le
    rw [Format.columnOf_eq_none.2 (by omega)]
    simp [List.getElem?_eq_none (l := List.range 24) (i := b) (by simpa using hb)]

/-- A field read from a word is within its width in the format. -/
theorem fieldOf_lt (order : FieldOrder) (fmt : Format) (w : InstrBits) (f : FieldName) :
    fieldOf order fmt w f < 2 ^ fmt.fieldWidth f := by
  refine Nat.lt_pow_two_of_testBit _ fun b hb => ?_
  rw [fieldOf_testBit, Format.columnOf_eq_none.2 hb]

theorem fieldsOf_value (order : FieldOrder) (fmt : Format) (w : InstrBits) (f : FieldName) :
    (fieldsOf order fmt w).value f = fieldOf order fmt w f := by
  have h : fieldOf order fmt w f < 2 ^ f.bits :=
    Nat.lt_of_lt_of_le (fieldOf_lt order fmt w f) (Nat.pow_le_pow_right (by decide) (fmt.fieldWidth_le f))
  cases f <;> exact Nat.mod_eq_of_lt h

theorem Fields.fits_iff (fl : Fields) (fmt : Format) :
    fl.fits fmt = true ↔ ∀ f, fl.value f < 2 ^ fmt.fieldWidth f := by
  simp only [Fields.fits, List.all_eq_true, decide_eq_true_eq]
  exact ⟨fun h f => h f (by cases f <;> decide), fun h f _ => h f⟩

/-- Two sets of fields with the same values are the same. -/
theorem Fields.ext_value {a b : Fields} (h : ∀ f, a.value f = b.value f) : a = b := by
  obtain ⟨op, ra, rb, rc, rd, im, md, vm⟩ := a
  obtain ⟨op', ra', rb', rc', rd', im', md', vm'⟩ := b
  congr
  · exact BitVec.eq_of_toNat_eq (h .op)
  · exact BitVec.eq_of_toNat_eq (h .ra)
  · exact BitVec.eq_of_toNat_eq (h .rb)
  · exact BitVec.eq_of_toNat_eq (h .rc)
  · exact BitVec.eq_of_toNat_eq (h .rd)
  · exact BitVec.eq_of_toNat_eq (h .im)
  · exact BitVec.eq_of_toNat_eq (h .md)
  · exact BitVec.eq_of_toNat_eq (h .vm)

/-- A field that fits its format comes back from the assembled word. -/
theorem fieldOf_assemble (order : FieldOrder) {fmt : Format} {fl : Fields} {f : FieldName}
    (h : fl.value f < 2 ^ fmt.fieldWidth f) : fieldOf order fmt (assemble order fmt fl) f = fl.value f := by
  refine Nat.eq_of_testBit_eq fun b => ?_
  rw [fieldOf_testBit]
  cases hc : fmt.columnOf order f b with
  | some c => exact assemble_getLsbD_column fl (Format.columnOf_eq_some.1 hc)
  | none =>
    exact (Nat.testBit_lt_two_pow (Nat.lt_of_lt_of_le h
      (Nat.pow_le_pow_right (by decide) (Format.columnOf_eq_none.1 hc)))).symm

/-- Settles O1, field by field: every bit of a field within its width has a column of its own. -/
theorem formatFieldsRoundTrip : Obligations.FormatFieldsRoundTrip := by
  unfold Obligations.FormatFieldsRoundTrip
  intro order fmt fl h
  refine Fields.ext_value fun f => ?_
  rw [fieldsOf_value]
  exact fieldOf_assemble order ((Fields.fits_iff _ _).1 h f)

/-- Settles O2, column by column: each column of the format is the column of the field bit it holds, and
past them the word has no bit set. -/
theorem formatWordRoundTrip : Obligations.FormatWordRoundTrip := by
  unfold Obligations.FormatWordRoundTrip
  intro order fmt w hw
  have hfits : (fieldsOf order fmt w).fits fmt = true :=
    (Fields.fits_iff _ _).2 fun f => by
      rw [fieldsOf_value]
      exact fieldOf_lt order fmt w f
  refine ⟨BitVec.eq_of_getLsbD_eq fun c hc => ?_, hfits⟩
  cases hp : (fmt.columns order)[c]? with
  | some p =>
    obtain ⟨f, b⟩ := p
    rw [assemble_getLsbD_column _ hp, fieldsOf_value, fieldOf_testBit, Format.columnOf_eq_some.2 hp]
  | none =>
    rw [assemble_getLsbD _ _ _ _ hc, hp]
    have hlen := List.getElem?_eq_none_iff.1 hp
    rw [fmt.columns_length order] at hlen
    exact (Nat.testBit_lt_two_pow (Nat.lt_of_lt_of_le hw
      (Nat.pow_le_pow_right (by decide) hlen))).symm

/-! ### The checks of a configuration -/

/-- A configuration without a problem passes every check. -/
theorem Config.check_of_problem {cfg : Config} (h : cfg.problem = none) {b : Bool} {p : ConfigProblem}
    (hm : (b, p) ∈ cfg.checks) : b = true := by
  simp only [Config.problem, Option.map_eq_none_iff, List.find?_eq_none] at h
  simpa using h _ hm

theorem Config.row_fits {cfg : Config} (h : cfg.problem = none) :
    ∀ r ∈ cfg.opcodeMap, OpcodeRow.fits cfg r = true :=
  List.all_eq_true.1 (Config.check_of_problem (b := cfg.opcodeMap.all (·.fits cfg)) (p := .opcodeRow) h
    (by simp [Config.checks]))

theorem unambiguous_pairwise {order : FieldOrder} {rows : List OpcodeRow}
    (h : unambiguous order rows = true) : rows.Pairwise (fun a b => a.disjoint order b = true) := by
  induction rows with
  | nil => exact .nil
  | cons r rs ih =>
    simp only [unambiguous, Bool.and_eq_true, List.all_eq_true] at h
    exact .cons h.1 (ih h.2)

/-- Two rows whose op values no word of one length carries both, whichever comes first in the map. -/
def OpcodeRow.Apart (order : FieldOrder) (a b : OpcodeRow) : Prop :=
  a.disjoint order b = true ∨ b.disjoint order a = true

/-- Two different rows of a legal map are apart. -/
theorem Config.rows_apart {cfg : Config} (h : cfg.problem = none) {a b : OpcodeRow}
    (ha : a ∈ cfg.opcodeMap) (hb : b ∈ cfg.opcodeMap) (hab : a ≠ b) : a.Apart cfg.fieldOrder b := by
  have hp := List.pairwise_iff_getElem.1 (unambiguous_pairwise
    (Config.check_of_problem (b := unambiguous cfg.fieldOrder cfg.opcodeMap) (p := .opcodeOverlap) h
      (by simp [Config.checks])))
  obtain ⟨i, hi, rfl⟩ := List.getElem_of_mem ha
  obtain ⟨j, hj, rfl⟩ := List.getElem_of_mem hb
  rcases Nat.lt_trichotomy i j with hij | rfl | hij
  · exact .inl (hp i j hi hj hij)
  · exact absurd rfl hab
  · exact .inr (hp j i hj hi hij)

/-! ### Decoding what was encoded -/

/-- Where every bit of a row's op field is 1, a word that carries the row's op value has the bit of the op
value assembled alone. -/
theorem getLsbD_of_fieldOf_op {order : FieldOrder} {r : OpcodeRow} {w : InstrBits} {c : Nat} (hc : c < 48)
    (hop : fieldOf order r.format w .op = r.op.toNat)
    (hm : (assemble order r.format { op := BitVec.allOnes 20 }).getLsbD c = true) :
    (assemble order r.format { op := r.op }).getLsbD c = w.getLsbD c := by
  cases hp : (r.format.columns order)[c]? with
  | none =>
    rw [assemble_getLsbD _ _ _ _ hc, hp] at hm
    cases hm
  | some p =>
    obtain ⟨f, b⟩ := p
    have hf : f = .op := by
      rw [assemble_getLsbD_column _ hp] at hm
      cases f <;> simp [Fields.value] at hm ⊢
    subst hf
    calc (assemble order r.format { op := r.op }).getLsbD c
        = r.op.toNat.testBit b := assemble_getLsbD_column _ hp
      _ = (fieldOf order r.format w .op).testBit b := by rw [hop]
      _ = w.getLsbD c := by rw [fieldOf_testBit, Format.columnOf_eq_some.2 hp]

/-- No word carries the op values of two disjoint rows of one length. -/
theorem OpcodeRow.disjoint_absurd {order : FieldOrder} {a b : OpcodeRow} {w : InstrBits}
    (hd : a.disjoint order b = true) (hl : a.format.length = b.format.length)
    (ha : fieldOf order a.format w .op = a.op.toNat) (hb : fieldOf order b.format w .op = b.op.toNat) :
    False := by
  simp only [OpcodeRow.disjoint, hl, bne_self_eq_false, Bool.false_or, bne_iff_ne, ne_eq] at hd
  refine hd (BitVec.eq_of_getLsbD_eq fun c hc => ?_)
  show _ = (0#48).getLsbD c
  rw [BitVec.getLsbD_and, BitVec.getLsbD_and, BitVec.getLsbD_xor, BitVec.getLsbD_zero]
  cases hma : (assemble order a.format { op := BitVec.allOnes 20 }).getLsbD c with
  | false => simp
  | true =>
    cases hmb : (assemble order b.format { op := BitVec.allOnes 20 }).getLsbD c with
    | false => simp
    | true =>
      rw [getLsbD_of_fieldOf_op hc ha hma, getLsbD_of_fieldOf_op hc hb hmb, Bool.xor_self, Bool.and_false]

/-- Fields with an op value alone fit a format whose op field holds it. -/
theorem Fields.fits_op {fmt : Format} {op : BitVec 20} (h : op.toNat < 2 ^ fmt.fieldWidth .op) :
    Fields.fits { op := op } fmt = true := by
  refine (Fields.fits_iff _ _).2 fun f => ?_
  cases f with
  | op => exact h
  | ra | rb | rc | rd | im | md | vm => exact Nat.two_pow_pos _

theorem OpcodeRow.fits_op {cfg : Config} {r : OpcodeRow} (h : r.fits cfg = true) :
    r.op.toNat < 2 ^ r.format.fieldWidth .op := by
  simp only [OpcodeRow.fits, Bool.and_eq_true, decide_eq_true_eq] at h
  obtain ⟨⟨⟨⟨⟨hop, -⟩, -⟩, -⟩, -⟩, -⟩ := h
  exact hop

/-- The word of a row of a legal map is recognised as that row's. -/
theorem Config.rowFor_assemble {cfg : Config} (h : cfg.problem = none) {r : OpcodeRow}
    (hr : r ∈ cfg.opcodeMap) :
    cfg.rowFor r.format.length (assemble cfg.fieldOrder r.format { op := r.op }) = some r := by
  have hop : fieldOf cfg.fieldOrder r.format (assemble cfg.fieldOrder r.format { op := r.op }) .op
      = r.op.toNat := fieldOf_assemble (f := .op) _ (OpcodeRow.fits_op (Config.row_fits h r hr))
  cases hf : cfg.rowFor r.format.length (assemble cfg.fieldOrder r.format { op := r.op }) with
  | none =>
    have hno := List.find?_eq_none.1 hf r hr
    simp only [beq_self_eq_true, Bool.true_and, beq_iff_eq] at hno
    exact absurd hop hno
  | some q =>
    have hq := List.find?_some hf
    simp only [Bool.and_eq_true, beq_iff_eq] at hq
    obtain ⟨hql, hqop⟩ := hq
    refine Classical.byContradiction fun hne => ?_
    rcases Config.rows_apart h (List.mem_of_find?_eq_some hf) hr (fun e => hne (e ▸ rfl)) with hd | hd
    · exact OpcodeRow.disjoint_absurd hd hql hqop hop
    · exact OpcodeRow.disjoint_absurd hd hql.symm hop hqop

/-- With md and vm 0 nothing asks for a mask, in any format but 4R-B. -/
theorem OpcodeRow.maskUse_zero {row : OpcodeRow} {cfg : Config} {fl : Fields} (hf : row.format ≠ .fourRB)
    (hmd : fl.md = 0) (hvm : fl.vm = 0) : row.maskUse cfg fl = .ok .unmasked := by
  have hv : row.vmMasking cfg fl = .ok none := by
    cases h : row.format <;> simp_all [OpcodeRow.vmMasking, maskCode]
  have hm : row.mdMasking fl = none := by simp [OpcodeRow.mdMasking, maskCode, hmd]
  simp [OpcodeRow.maskUse, OpcodeRow.masking, hv, hm, hmd]

/-! ### Decoding a word of a row -/

section

variable {cfg : Config} {len : InstrLen} {w : InstrBits} {row : OpcodeRow} {fl : Fields}

/-- Decoding a word that is blank, or that no row has. -/
theorem decode_of_blank (h : blankWord len w = true) : decode cfg len w = .illegal := if_pos h

theorem decode_of_rowFor_none (h : cfg.rowFor len w = none) : decode cfg len w = .illegal := by
  simp [decode, h]

variable (hb : blankWord len w = false) (hr : cfg.rowFor len w = some row)
  (hfl : fl = fieldsOf cfg.fieldOrder row.format w)

include hb hr hfl

/-- A word of a row is incompatible for its modes, else refused for its mask, else incompatible for its
registers, else an instruction. -/
theorem decode_of_modes (hm : row.modesLegal cfg fl = false) : decode cfg len w = .incompatible := by
  subst hfl
  simp only [decode, hb, hr, hm, Bool.false_eq_true, if_false, Bool.not_false, if_true]

theorem decode_of_maskUse_error {r : DecodeRefusal} (hm : row.modesLegal cfg fl = true)
    (hu : row.maskUse cfg fl = .error r) : decode cfg len w = .refused r := by
  subst hfl
  simp only [decode, hb, hr, hm, hu, Bool.false_eq_true, if_false, Bool.not_true]

theorem decode_of_registers {mask : MaskUse} (hm : row.modesLegal cfg fl = true)
    (hu : row.maskUse cfg fl = .ok mask) (hg : row.registersLegal cfg fl = false) :
    decode cfg len w = .incompatible := by
  subst hfl
  simp only [decode, hb, hr, hm, hu, hg, Bool.false_eq_true, if_false, Bool.not_true]

theorem decode_of_legal {mask : MaskUse} (hm : row.modesLegal cfg fl = true)
    (hu : row.maskUse cfg fl = .ok mask) (hg : row.registersLegal cfg fl = true) :
    decode cfg len w = .instr ⟨row, fl, mask, row.scalarForm cfg fl⟩ := by
  subst hfl
  simp only [decode, hb, hr, hm, hu, hg, Bool.false_eq_true, if_false, Bool.not_true, if_true]

end

/-- What is supported without operands is so whatever its op value. -/
theorem OpcodeRow.modesLegal_op (row : OpcodeRow) (cfg : Config) (op : BitVec 20) :
    row.modesLegal cfg { op := op } = row.modesLegal cfg {} := rfl

/-- One of the five instructions without operands has registers enough. -/
theorem OpcodeRow.registersLegal_core {row : OpcodeRow} {cfg : Config} {i : Instr} (fl : Fields)
    (ho : row.operands = []) (hs : row.sem = .core i) : row.registersLegal cfg fl = true := by
  simp [OpcodeRow.registersLegal, OpcodeRow.operandsLegal, OpcodeRow.sizeFits, OpcodeRow.sizesLegal, ho, hs]

/-- What `Instr.wellFormed` says of the row of an instruction. -/
theorem Instr.wellFormed_row {cfg : Config} {i : Instr} (h : i.wellFormed cfg = true) :
    ∃ r, cfg.rowOf i = some r ∧ cfg.problem = none ∧ r.operands = [] ∧ r.modesLegal cfg {} = true
      ∧ r.format ≠ .fourRB
      ∧ blankWord r.format.length (assemble cfg.fieldOrder r.format { op := r.op }) = false
      ∧ cfg.lengthOf.apply ((assemble cfg.fieldOrder r.format { op := r.op }).extractLsb' 0 16)
        = r.format.length := by
  unfold Instr.wellFormed at h
  split at h
  · cases h
  · rename_i r hr
    simp only [Bool.and_eq_true, Config.legal, Option.isNone_iff_eq_none, List.isEmpty_iff,
      OpcodeRow.supported, bne_iff_ne, Bool.not_eq_true', beq_iff_eq] at h
    obtain ⟨⟨⟨⟨⟨hl, ho⟩, hm, -⟩, hf⟩, hb⟩, hlen⟩ := h
    exact ⟨r, hr, hl, ho, hm, hf, hb, hlen⟩

/-- A well-formed instruction's word decodes to its row. -/
theorem Instr.decode_wellFormed {cfg : Config} {i : Instr} (h : i.wellFormed cfg = true) {len : InstrLen}
    {w : InstrBits} (he : encode cfg i = some (len, w)) :
    ∃ d, decode cfg len w = .instr d ∧ d.row.sem = .core i
      ∧ cfg.lengthOf.apply (w.extractLsb' 0 16) = len := by
  obtain ⟨r, hr, hp, ho, hm, hf, hb, hlen⟩ := Instr.wellFormed_row h
  have hmem : r ∈ cfg.opcodeMap := List.mem_of_find?_eq_some hr
  have hsem : r.sem = .core i := eq_of_beq (List.find?_some hr :)
  have hlw : r.format.length = len ∧ assemble cfg.fieldOrder r.format { op := r.op } = w := by
    simpa [encode, hr] using he
  obtain ⟨rfl, rfl⟩ := hlw
  have hfl : fieldsOf cfg.fieldOrder r.format (assemble cfg.fieldOrder r.format { op := r.op })
      = { op := r.op } :=
    formatFieldsRoundTrip _ _ _ (Fields.fits_op (OpcodeRow.fits_op (Config.row_fits hp r hmem)))
  exact ⟨_, decode_of_legal hb (Config.rowFor_assemble hp hmem) hfl.symm
    ((r.modesLegal_op cfg r.op).trans hm) (OpcodeRow.maskUse_zero hf rfl rfl)
    (OpcodeRow.registersLegal_core _ ho hsem), hsem, hlen⟩

/-- Settles O3: the map's rows are pairwise disjoint, so the word of a row is recognised as that row's, its
fields come back, and with md and vm 0 it is unmasked. -/
theorem decodeOfEncodeIsTheInstruction : Obligations.DecodeOfEncodeIsTheInstruction := by
  unfold Obligations.DecodeOfEncodeIsTheInstruction
  intro cfg i len w h he
  obtain ⟨d, hd, hs, hl⟩ := Instr.decode_wellFormed h he
  exact ⟨by simp [hd, DecodeResult.core?, hs], hl⟩

/-- Settles O4: fields of the sample words, computed bit by bit, and the five words of the reference map. -/
theorem sampleWordsDecode : Obligations.SampleWordsDecode := by
  unfold Obligations.SampleWordsDecode
  exact ⟨by decide +kernel, by decide +kernel, by decide +kernel, by decide +kernel, by decide +kernel⟩

/-- Settles O5: the two blank words by `blankWord`, every other by its missing row. -/
theorem blankAndUnassignedWordsAreIllegal : Obligations.BlankAndUnassignedWordsAreIllegal := by
  unfold Obligations.BlankAndUnassignedWordsAreIllegal
  intro cfg len
  have hones : blankWord len (BitVec.ofNat 48 (2 ^ (8 * len.bytes) - 1)) = true := by
    cases len <;> decide
  exact ⟨decode_of_blank rfl, decode_of_blank hones, fun w => decode_of_rowFor_none⟩

end Sys2Proof
end

section

namespace Sys2Proof

/-! ### When the modes of a word are unsupported -/

section

variable (row : OpcodeRow) (cfg : Config) (fl : Fields)

theorem maskCode_eq (n : Nat) :
    maskCode n = if n = 1 then some false else if n = 2 then some true else none := by
  unfold maskCode
  split <;> simp_all

theorem VmMode.masking_eq (m : VmMode) :
    m.masking = if m = .vv ∨ m = .vs then none else some (decide (m = .imvv ∨ m = .imvs)) := by
  cases m <;> rfl

theorem OpcodeRow.mdLegal_eq_false :
    row.mdLegal cfg fl = false ↔
      (row.mdClass ≠ .ignored ∧ row.mdClass ≠ .d ∧ fl.md ∉ row.mdUsed)
        ∨ (row.mdClass = .e ∧ fl.md = 3)
        ∨ (row.mdClass = .c ∧ Bank.byMd.count cfg fl.md (row.scalarForm cfg fl) = 0)
        ∨ (row.mdClass = .f ∧ cfg.has .fnc = false) := by
  have hcount : Bank.byMd.count cfg fl.md (row.scalarForm cfg fl) = Bank.byMd.count cfg fl.md false := rfl
  rw [hcount]
  unfold OpcodeRow.mdLegal
  cases row.mdClass <;> simp [Classical.or_iff_not_imp_left]

theorem OpcodeRow.vmLegal_eq_false :
    row.vmLegal cfg fl = false ↔
      (row.format = .threeRIB ∧ fl.vm = 3)
        ∨ (∃ l, row.vmUsed = some l ∧ fl.vm ∉ l)
        ∨ (row.scalarForm cfg fl = true ∧ ∀ p ∈ row.operands, p.2 ≠ .byVm) := by
  unfold OpcodeRow.vmLegal
  cases row.vmUsed <;> simp [Classical.or_iff_not_imp_left]

/-- A masked form, and opposite demands, are unsupported without VF; a refused form is not. -/
theorem OpcodeRow.maskLegal_eq_false :
    row.maskLegal cfg fl = false ↔
      cfg.has .vf = false ∧ ((∃ inverted, row.masking cfg fl = .ok (some inverted))
        ∨ row.masking cfg fl = .error .maskConflict) := by
  unfold OpcodeRow.maskLegal
  cases h : row.masking cfg fl with
  | ok m => cases m <;> simp
  | error r => cases r <;> simp

/-- What of a word's md and vm values and modules this hart does not support (30_encoding.md R161). -/
def OpcodeRow.ModesUnsupported : Prop :=
  (∃ m ∈ row.modules, cfg.has m = false)
    ∨ (row.mdClass ≠ .ignored ∧ row.mdClass ≠ .d ∧ fl.md ∉ row.mdUsed)
    ∨ (row.mdClass = .e ∧ fl.md = 3)
    ∨ (row.format = .threeRIB ∧ fl.vm = 3)
    ∨ (∃ l, row.vmUsed = some l ∧ fl.vm ∉ l)
    ∨ (row.mdClass = .c ∧ Bank.byMd.count cfg fl.md (row.scalarForm cfg fl) = 0)
    ∨ (row.mdClass = .f ∧ cfg.has .fnc = false)
    ∨ (row.scalarForm cfg fl = true ∧ ∀ p ∈ row.operands, p.2 ≠ .byVm)
    ∨ (cfg.has .vf = false ∧ ((∃ inverted, row.masking cfg fl = .ok (some inverted))
        ∨ row.masking cfg fl = .error .maskConflict))

theorem OpcodeRow.modesLegal_eq_false :
    row.modesLegal cfg fl = false ↔ row.ModesUnsupported cfg fl := by
  have hmodules : row.modules.all cfg.has = false ↔ ∃ m ∈ row.modules, cfg.has m = false := by simp
  unfold OpcodeRow.modesLegal OpcodeRow.ModesUnsupported
  rw [Bool.and_eq_false_iff, Bool.and_eq_false_iff, Bool.and_eq_false_iff, hmodules,
    OpcodeRow.mdLegal_eq_false, OpcodeRow.vmLegal_eq_false, OpcodeRow.maskLegal_eq_false]
  exact iff_of_eq (by ac_rfl)

theorem OpcodeRow.modesLegal_iff : row.modesLegal cfg fl = true ↔ ¬row.ModesUnsupported cfg fl := by
  rw [← OpcodeRow.modesLegal_eq_false, Bool.not_eq_false]

end

/-! ### The mask of a word -/

section

variable {row : OpcodeRow} {cfg : Config} {fl : Fields}

theorem OpcodeRow.mdMasking_eq :
    row.mdMasking fl = if row.mdClass = .e then
      (if fl.md.toNat = 1 then some false else if fl.md.toNat = 2 then some true else none) else none := by
  unfold OpcodeRow.mdMasking
  rw [maskCode_eq]

theorem OpcodeRow.vmMasking_of_vmMode_none (hf : row.format = .fourRB) (h : row.vmMode cfg fl = none) :
    row.vmMasking cfg fl = .error .vectorMode := by
  simp only [OpcodeRow.vmMasking, hf, h]

theorem OpcodeRow.vmMode_eq_none (h : ∀ p ∈ cfg.vm6, p.1 ≠ fl.vm) : row.vmMode cfg fl = none := by
  have : cfg.vm6.find? (fun p => p.1 == fl.vm) = none :=
    List.find?_eq_none.2 fun p hp => by simpa using h p hp
  simp [OpcodeRow.vmMode, this]

/-- The masking the vm field asks for: none, that of `vm(2)`, or that of the vector mode. -/
theorem OpcodeRow.vmMasking_eq_ok {v : Option Bool}
    (h : (row.format ∉ [Format.fourRB, .threeRIB] ∧ v = none)
      ∨ (row.format = .threeRIB
        ∧ v = if fl.vm.toNat = 1 then some false else if fl.vm.toNat = 2 then some true else none)
      ∨ (row.format = .fourRB ∧ ∃ m, row.vmMode cfg fl = some m
        ∧ v = if m = .vv ∨ m = .vs then none else some (decide (m = .imvv ∨ m = .imvs)))) :
    row.vmMasking cfg fl = .ok v := by
  unfold OpcodeRow.vmMasking
  rcases h with ⟨hf, rfl⟩ | ⟨hf, rfl⟩ | ⟨hf, m, hm, rfl⟩
  · cases h : row.format <;> simp_all
  · rw [hf, ← maskCode_eq]
  · rw [hf, hm, ← VmMode.masking_eq]

theorem OpcodeRow.masking_of_vmMasking_error {r : DecodeRefusal} (h : row.vmMasking cfg fl = .error r) :
    row.masking cfg fl = .error r := by
  simp only [OpcodeRow.masking, h]

/-- The masking of an instruction by those its vm and its md field ask for. -/
theorem OpcodeRow.masking_of_ok {v : Option Bool} (h : row.vmMasking cfg fl = .ok v) :
    (v = none → row.masking cfg fl = .ok (row.mdMasking fl))
      ∧ (row.mdMasking fl = none → row.masking cfg fl = .ok v)
      ∧ ∀ x y, v = some x → row.mdMasking fl = some y →
        row.masking cfg fl = if x = y then .ok (some x) else .error .maskConflict := by
  unfold OpcodeRow.masking
  rw [h]
  cases v with
  | none => cases row.mdMasking fl <;> simp
  | some a =>
    cases row.mdMasking fl with
    | none => simp
    | some b =>
      refine ⟨nofun, nofun, ?_⟩
      rintro x y ⟨⟩ ⟨⟩
      by_cases hab : a = b
      · simp [hab]
      · simp [hab]

theorem OpcodeRow.maskUse_bankWindow (hg : row.mdClass = .g) (hmd : fl.md ≠ 0) :
    row.maskUse cfg fl = .error .bankWindow := if_pos ⟨hg, hmd⟩

theorem OpcodeRow.not_bankWindow (h : row.mdClass ≠ .g ∨ fl.md = 0) : ¬(row.mdClass = .g ∧ fl.md ≠ 0) := by
  rintro ⟨hg, hmd⟩
  exact h.elim (· hg) hmd

theorem OpcodeRow.maskUse_of_masking_error {r : DecodeRefusal} (h : row.mdClass ≠ .g ∨ fl.md = 0)
    (hm : row.masking cfg fl = .error r) : row.maskUse cfg fl = .error r := by
  simp only [OpcodeRow.maskUse, if_neg (OpcodeRow.not_bankWindow h), hm]

theorem OpcodeRow.maskUse_maskRegister {inverted : Bool} (h : row.mdClass ≠ .g ∨ fl.md = 0)
    (hm : row.masking cfg fl = .ok (some inverted)) (hr : row.maskReg = none) :
    row.maskUse cfg fl = .error .maskRegister := by
  simp only [OpcodeRow.maskUse, if_neg (OpcodeRow.not_bankWindow h), hm, hr]

theorem OpcodeRow.maskUse_eq_ok {mask : MaskUse} (h : row.mdClass ≠ .g ∨ fl.md = 0)
    (hm : (row.masking cfg fl = .ok none ∧ mask = .unmasked)
      ∨ ∃ inverted m, row.masking cfg fl = .ok (some inverted) ∧ row.maskReg = some m
        ∧ mask = .masked m inverted) : row.maskUse cfg fl = .ok mask := by
  rcases hm with ⟨hm, rfl⟩ | ⟨inverted, m, hm, hr, rfl⟩
  · simp only [OpcodeRow.maskUse, if_neg (OpcodeRow.not_bankWindow h), hm]
  · simp only [OpcodeRow.maskUse, if_neg (OpcodeRow.not_bankWindow h), hm, hr]

end

/-! ### When the registers of a word are unsupported -/

section

variable {row : OpcodeRow} {cfg : Config} {fl : Fields}

theorem OpcodeRow.dataSize_of_b (h : row.mdClass = .b) : row.dataSize fl = 2 ^ fl.md.toNat := if_pos h

theorem OpcodeRow.dataSize_of_not_b (h : row.mdClass ≠ .b) : row.dataSize fl = 0 := if_neg h

theorem OpcodeRow.operandsLegal_eq_false :
    row.operandsLegal cfg fl = false ↔
      ∃ p ∈ row.operands, p.2.count cfg fl.md (row.scalarForm cfg fl) ≤ (fl.reg p.1).toNat := by
  simp [OpcodeRow.operandsLegal]

theorem OpcodeRow.sizeFits_eq_false :
    row.sizeFits cfg fl = false ↔
      row.mdClass = .b ∧ ∃ p ∈ row.operands, p.1 ∉ row.bases
        ∧ (p.2.resolve fl.md (row.scalarForm cfg fl)).bytes cfg < 2 ^ fl.md.toNat := by
  by_cases hb : row.mdClass = .b
  · simp [OpcodeRow.sizeFits, OpcodeRow.dataSize_of_b hb, hb]
  · simp [OpcodeRow.sizeFits, OpcodeRow.dataSize_of_not_b hb, hb]

theorem OpcodeRow.scalarData_iff :
    row.scalarData cfg fl = true ↔
      ∃ p ∈ row.operands, p.2.resolve fl.md (row.scalarForm cfg fl) = .sgprb ∧ p.1 ∉ row.bases := by
  simp [OpcodeRow.scalarData]

/-- A size the hart cannot access: fixed above WBYTES on scalar data, or a part of a vector above
MXVL/8 bytes (20_memory.md R104). -/
theorem AccessSize.legal_eq_false {scalarData : Bool} {size : AccessSize} :
    size.legal cfg scalarData = false ↔
      (∃ log, size = .bytes log ∧ cfg.wbytes < 2 ^ log.val ∧ scalarData = true)
        ∨ ∃ extent align, size = .vector extent align
          ∧ (cfg.mxvl = 0 ∨ ∃ log : Fin 7, extent = .part log ∧ cfg.mxvl / 8 < 2 ^ log.val) := by
  rcases size with log | _ | ⟨_ | _ | log, align⟩ <;> simp [AccessSize.legal]
  intro h
  rw [h, Nat.zero_div]
  exact Nat.two_pow_pos _

/-- An access of the sequence the hart cannot make, of a fixed scalar size or of a vector. -/
theorem accesses_eq_false {ps : List Prim} {scalarData : Bool} :
    ps.all (fun p => (p.accessSize.map (·.legal cfg scalarData)).getD true) = false ↔
      (∃ p log, p ∈ ps ∧ p.accessSize = some (.bytes log) ∧ cfg.wbytes < 2 ^ log.val ∧ scalarData = true)
        ∨ ∃ p extent align, p ∈ ps ∧ p.accessSize = some (.vector extent align)
          ∧ (cfg.mxvl = 0 ∨ ∃ log : Fin 7, extent = .part log ∧ cfg.mxvl / 8 < 2 ^ log.val) := by
  have hone : ∀ p : Prim, (p.accessSize.map (·.legal cfg scalarData)).getD true = false ↔
      ∃ size, p.accessSize = some size ∧ size.legal cfg scalarData = false := by
    intro p
    cases p.accessSize <;> simp
  rw [List.all_eq_false]
  simp only [Bool.not_eq_true, hone, AccessSize.legal_eq_false]
  constructor
  · rintro ⟨p, hp, size, hs, ⟨log, rfl, h⟩ | ⟨extent, align, rfl, h⟩⟩
    · exact .inl ⟨p, log, hp, hs, h⟩
    · exact .inr ⟨p, extent, align, hp, hs, h⟩
  · rintro (⟨p, log, hp, hs, h⟩ | ⟨p, extent, align, hp, hs, h⟩)
    · exact ⟨p, hp, _, hs, .inl ⟨log, rfl, h⟩⟩
    · exact ⟨p, hp, _, hs, .inr ⟨extent, align, rfl, h⟩⟩

/-! ### Data that does not fit its registers -/

theorem DataSource.le_of_fills {e : DataSource} {n bytes : Nat} (h : e.fills n bytes = true) :
    e.loaded ≤ bytes ∧ n ≤ bytes ∧ e.wide n = true := by
  simpa [DataSource.fills, and_assoc] using h

theorem DataSource.le_of_wide {e : DataSource} {n : Nat} (h : e.wide n = true) (h0 : 0 < e.least) :
    n ≤ e.least := by
  simp only [DataSource.wide, Bool.or_eq_true, beq_iff_eq, decide_eq_true_eq] at h
  omega

variable {ps : List Prim}

/-- The stack entry of a register read, whichever operand it is: as narrow as the register, no load, and
nothing that addresses memory but, of a base, that base. -/
theorem readReg_entry (row : OpcodeRow) (cfg : Config) (fl : Fields) (st : List DataSource) (f : RegField) :
    ∃ e rest, Prim.carry cfg row fl st (.readReg f) = e :: rest
      ∧ e.least = (row.fieldBank cfg fl f).bytes cfg ∧ ∀ g ∈ e.bases, g = f := by
  by_cases hf : row.bases.contains f = true
  · exact ⟨_, _, congrArg (· :: _) (if_pos hf), rfl, fun g hg => List.mem_singleton.1 hg⟩
  · exact ⟨_, _, congrArg (· :: _) (if_neg hf), rfl, fun g hg => absurd hg List.not_mem_nil⟩

/-- Where data flows rightly, so it does from any primitive on, from the stack there. -/
theorem flows_from {pre post : List Prim} (h : flows cfg row fl (pre ++ post) = true) :
    ∃ st, flowsFrom cfg row fl (addressing cfg row fl [] (pre ++ post)) st post = true :=
  flowsFrom_append h

/-- A register written by its number holds a class B size. -/
theorem flows_writeAt {b : Bank} (h : flows cfg row fl ps = true) (hb : row.mdClass = .b)
    (hp : .writeAt b ∈ ps) : 2 ^ fl.md.toNat ≤ b.bytes cfg := by
  obtain ⟨st, hm⟩ := flows_mem h hp
  have hn := (DataSource.le_of_fills (show DataSource.fills _ _ _ = true from hm)).2.1
  rwa [OpcodeRow.dataSize_of_b hb] at hn

/-- A written operand holds a class B size, unless it is a base and memory is accessed. -/
theorem flows_writeReg {f : RegField} (h : flows cfg row fl ps = true) (hb : row.mdClass = .b)
    (hp : .writeReg f ∈ ps) (hf : f ∉ row.bases ∨ ∀ p ∈ ps, p.accessSize = none) :
    2 ^ fl.md.toNat ≤ (row.fieldBank cfg fl f).bytes cfg := by
  obtain ⟨st, hm⟩ := flows_mem h hp
  simp only [Prim.moves, Bool.or_eq_true, Bool.and_eq_true, List.contains_iff_mem] at hm
  rcases hm with ⟨⟨⟨hbase, hused⟩, -⟩, -⟩ | hm
  · rcases hf with hf | hf
    · exact absurd hbase hf
    · rw [addressing_nil hf] at hused
      cases hused
  · have hn := (DataSource.le_of_fills hm).2.1
    rwa [OpcodeRow.dataSize_of_b hb] at hn

/-- A register read and written by number is no narrower than a class B size. -/
theorem flows_readAt_writeAt {pre post : List Prim} {b b' : Bank} {n : Nat}
    (h : flows cfg row fl (pre ++ .readAt b :: .const n :: .writeAt b' :: post) = true)
    (hb : row.mdClass = .b) (h0 : 0 < b.bytes cfg) : 2 ^ fl.md.toNat ≤ b.bytes cfg := by
  obtain ⟨st, hm⟩ := flows_from h
  simp only [flowsFrom, Bool.and_eq_true] at hm
  obtain ⟨-, -, hm, -⟩ := hm
  have hw := (DataSource.le_of_fills (show DataSource.fills _ _ _ = true from hm)).2.2
  have hn := DataSource.le_of_wide hw (show 0 < b.bytes cfg from h0)
  rwa [OpcodeRow.dataSize_of_b hb] at hn

/-- An operand moved to another one is no narrower than a class B size. -/
theorem flows_readReg_writeReg {pre post : List Prim} {f f' : RegField}
    (h : flows cfg row fl (pre ++ .readReg f :: .writeReg f' :: post) = true) (hb : row.mdClass = .b)
    (hf : f' ≠ f) (h0 : 0 < (row.fieldBank cfg fl f).bytes cfg) :
    2 ^ fl.md.toNat ≤ (row.fieldBank cfg fl f).bytes cfg := by
  obtain ⟨st, hm⟩ := flows_from h
  simp only [flowsFrom, Bool.and_eq_true] at hm
  obtain ⟨-, hm, -⟩ := hm
  obtain ⟨e, rest, he, hl, hbs⟩ := readReg_entry row cfg fl st f
  rw [he] at hm
  simp only [Prim.moves, List.getD_cons_zero, Bool.or_eq_true, Bool.and_eq_true,
    List.contains_iff_mem] at hm
  rcases hm with ⟨⟨-, hbase⟩, -⟩ | hm
  · exact absurd (hbs _ hbase) hf
  · have hn := DataSource.le_of_wide (DataSource.le_of_fills hm).2.2 (hl ▸ h0)
    rwa [OpcodeRow.dataSize_of_b hb, hl] at hn

/-- An operand that decides a condition or raises a flag is no narrower than a class B size. -/
theorem flows_readReg_condition {pre post : List Prim} {f : RegField} {q : Prim}
    (h : flows cfg row fl (pre ++ .readReg f :: q :: post) = true) (hb : row.mdClass = .b)
    (hq : q = .branch ∨ q = .select ∨ (∃ g, q = .raiseFlag g) ∨ ∃ size, q = .loadIf size ∨ q = .storeIf size)
    (h0 : 0 < (row.fieldBank cfg fl f).bytes cfg) :
    2 ^ fl.md.toNat ≤ (row.fieldBank cfg fl f).bytes cfg := by
  obtain ⟨st, hm⟩ := flows_from h
  simp only [flowsFrom, Bool.and_eq_true] at hm
  obtain ⟨-, hm, -⟩ := hm
  obtain ⟨e, rest, he, hl, -⟩ := readReg_entry row cfg fl st f
  rw [he] at hm
  have hw : e.wide (row.dataSize fl) = true := by
    rcases hq with rfl | rfl | ⟨g, rfl⟩ | ⟨size, rfl | rfl⟩ <;>
      simp only [Prim.moves, List.getD_cons_zero, Bool.and_eq_true] at hm
    · exact hm.1
    · exact hm
    · exact hm
    · exact hm
    · exact hm.1
  have hn := DataSource.le_of_wide hw (hl ▸ h0)
  rwa [OpcodeRow.dataSize_of_b hb, hl] at hn

/-- A loaded operand is as wide as the load. -/
theorem flows_load_writeReg {pre post : List Prim} {size : AccessSize} {f : RegField}
    (h : flows cfg row fl (pre ++ .load size :: .writeReg f :: post) = true) :
    size.widest cfg fl.md ≤ (row.fieldBank cfg fl f).bytes cfg := by
  obtain ⟨st, hm⟩ := flows_from h
  simp only [flowsFrom, Bool.and_eq_true] at hm
  obtain ⟨-, hm, -⟩ := hm
  simp only [Prim.moves, Prim.carry, List.getD_cons_zero, Bool.or_eq_true, Bool.and_eq_true,
    List.contains_nil, Bool.false_eq_true, and_false, false_and, false_or] at hm
  exact (DataSource.le_of_fills hm).1

/-- A register loaded by its number is as wide as the load. -/
theorem flows_load_writeAt {pre post : List Prim} {size : AccessSize} {b : Bank} {n : Nat}
    (h : flows cfg row fl (pre ++ .load size :: .const n :: .writeAt b :: post) = true) :
    size.widest cfg fl.md ≤ b.bytes cfg := by
  obtain ⟨st, hm⟩ := flows_from h
  simp only [flowsFrom, Bool.and_eq_true] at hm
  obtain ⟨-, -, hm, -⟩ := hm
  exact (DataSource.le_of_fills (show DataSource.fills _ _ _ = true from hm)).1

/-- What of a word's registers and sizes this hart does not support (30_encoding.md R161): one of the four
checks fails. -/
theorem OpcodeRow.registersLegal_eq_false :
    row.registersLegal cfg fl = false ↔
      row.operandsLegal cfg fl = false ∨ row.sizeFits cfg fl = false
        ∨ (∃ ps, row.sem = .prims ps
          ∧ ps.all (fun p => (p.accessSize.map (·.legal cfg (row.scalarData cfg fl))).getD true) = false)
        ∨ ∃ ps, row.sem = .prims ps ∧ flows cfg row fl ps = false := by
  simp only [OpcodeRow.registersLegal, Bool.and_eq_false_iff, or_assoc, OpcodeRow.sizesLegal]
  cases row.sem with
  | core i => simp
  | group g => simp
  | prims ps => simp only [Bool.and_eq_false_iff, Sem.prims.injEq, exists_eq_left']

end

/-- Settles O6: the order of the checks is that of `decode`; each check's failure is its list of causes. Of
the causes in the registers those that name a shape of sequence are ways for `flows` to fail. -/
theorem unsupportedOperandsAreIncompatible : Obligations.UnsupportedOperandsAreIncompatible := by
  unfold Obligations.UnsupportedOperandsAreIncompatible
  intro cfg len w row fl hblank hrow hfl scalar scalarData modes registers
  have hmodes : row.modesLegal cfg fl = false ↔ modes := row.modesLegal_eq_false cfg fl
  have hmodes' : row.modesLegal cfg fl = true ↔ ¬modes := row.modesLegal_iff cfg fl
  have hregs : row.registersLegal cfg fl = false ↔ registers := by
    rw [OpcodeRow.registersLegal_eq_false, OpcodeRow.operandsLegal_eq_false, OpcodeRow.sizeFits_eq_false]
    constructor
    · rintro (h | h | ⟨ps, hs, h⟩ | h)
      · exact .inl h
      · exact .inr (.inl h)
      · rcases accesses_eq_false.1 h with ⟨p, log, hp, ha, hw, hd⟩ | ⟨p, extent, align, hp, ha, hv⟩
        · exact .inr (.inr (.inl ⟨ps, p, log, hs, hp, ha, hw, OpcodeRow.scalarData_iff.1 hd⟩))
        · exact .inr (.inr (.inr (.inl ⟨ps, p, extent, align, hs, hp, ha, hv⟩)))
      · exact .inr (.inr (.inr (.inr (.inl h))))
    · have hflow : ∀ {ps}, row.sem = .prims ps → (flows cfg row fl ps = true → False) →
          ∃ ps, row.sem = .prims ps ∧ flows cfg row fl ps = false :=
        fun {ps} hs h => ⟨ps, hs, Bool.eq_false_iff.2 h⟩
      rintro (h | h | ⟨ps, p, log, hs, hp, ha, hw, hd⟩ | ⟨ps, p, extent, align, hs, hp, ha, hv⟩ | h
        | ⟨hb, ps, b, hs, hp, hw⟩ | ⟨hb, ps, f, hs, hp, hf, hw⟩ | ⟨hb, pre, post, b, b', n, hs, h0, hw⟩
        | ⟨hb, pre, post, f, f', hs, hf, h0, hw⟩ | ⟨hb, pre, post, f, q, hs, hq, h0, hw⟩
        | ⟨pre, post, size, f, hs, hw⟩ | ⟨pre, post, size, b, n, hs, hw⟩)
      · exact .inl h
      · exact .inr (.inl h)
      · exact .inr (.inr (.inl ⟨ps, hs, accesses_eq_false.2
          (.inl ⟨p, log, hp, ha, hw, OpcodeRow.scalarData_iff.2 hd⟩)⟩))
      · exact .inr (.inr (.inl ⟨ps, hs, accesses_eq_false.2 (.inr ⟨p, extent, align, hp, ha, hv⟩)⟩))
      · exact .inr (.inr (.inr h))
      all_goals refine .inr (.inr (.inr (hflow hs fun h => Nat.not_le_of_lt hw ?_)))
      · exact flows_writeAt h hb hp
      · exact flows_writeReg h hb hp hf
      · exact flows_readAt_writeAt h hb h0
      · exact flows_readReg_writeReg h hb hf h0
      · exact flows_readReg_condition h hb hq h0
      · exact flows_load_writeReg h
      · exact flows_load_writeAt h
  have hregs' : row.registersLegal cfg fl = true ↔ ¬registers := by rw [← hregs, Bool.not_eq_false]
  refine ⟨fun hm => decode_of_modes hblank hrow hfl (hmodes.2 hm), fun hm hg hmd =>
    decode_of_maskUse_error hblank hrow hfl (hmodes'.2 hm) (OpcodeRow.maskUse_bankWindow hg hmd),
    fun hm hg => ⟨fun hf hv => ?_, fun v m hv hmd hne => ?_, fun inverted hk hr => ?_,
      fun mask hk => ⟨fun hr => ?_, fun hr => ?_⟩⟩, ?_, fun v hv => ?_⟩
  · exact decode_of_maskUse_error hblank hrow hfl (hmodes'.2 hm) (OpcodeRow.maskUse_of_masking_error hg
      (OpcodeRow.masking_of_vmMasking_error
        (OpcodeRow.vmMasking_of_vmMode_none hf (OpcodeRow.vmMode_eq_none hv))))
  · refine decode_of_maskUse_error hblank hrow hfl (hmodes'.2 hm) (OpcodeRow.maskUse_of_masking_error hg ?_)
    rw [(OpcodeRow.masking_of_ok hv).2.2 v m rfl hmd, if_neg hne]
  · exact decode_of_maskUse_error hblank hrow hfl (hmodes'.2 hm)
      (OpcodeRow.maskUse_maskRegister hg hk hr)
  · exact decode_of_registers hblank hrow hfl (hmodes'.2 hm) (OpcodeRow.maskUse_eq_ok hg hk) (hregs.2 hr)
  · exact decode_of_legal hblank hrow hfl (hmodes'.2 hm) (OpcodeRow.maskUse_eq_ok hg hk) (hregs'.2 hr)
  · rw [← hmodes', ← hregs', OpcodeRow.supported, Bool.and_eq_true]
  · have h := OpcodeRow.masking_of_ok (OpcodeRow.vmMasking_eq_ok hv)
    rw [OpcodeRow.mdMasking_eq] at h
    exact h

end Sys2Proof
end

section

namespace Sys2Proof.Machine

/-! ### Invariants of every step, from what the shared operations keep -/

/-- A property every shared operation, the passing of time, the taking of a batch, every arrival and the
landing of racing writes keep is kept by every step. -/
theorem Kept.step {P : State → Prop} (K : Kept False P) (hT : ∀ s, P s → P s.passTime)
    (hI : ∀ s l, P s → P { s with inputs := l }) (hR : ∀ s t, Arrival s t → P s → P t)
    (hL : ∀ s, P s → P s.settleAll) {s t : State} (h : step s = .next t) (hs : P s) : P t :=
  step_keeps P hT hI hR (fun _ _ ha => K.advance False.elim ha) hL h hs

/-- A property of what no arrival changes is kept by every arrival. -/
theorem Arrival.sameHart {s t : State} (h : Arrival s t) : s.SameHart t := by
  cases h with
  | none => exact .refl _
  | posted e => exact .post _ _
  | clock => exact .clock _
  | stored n b => constructor <;> rfl
  | raced r => constructor <;> rfl

theorem State.SameHart.settleAll (s : State) : s.SameHart s.settleAll := by
  constructor <;> simp

/-! ### The configuration -/

/-- No shared operation changes the configuration. -/
theorem kept_cfg (c : Config) : Kept False (fun t => t.cfg = c) where
  queue _ _ h := h
  draw _ _ h := h
  halt _ _ h := h
  enterM _ _ _ _ h := h
  enterU _ _ _ _ h := h
  retM _ h := h
  retU _ _ h := h
  demote _ _ h := h
  retire _ _ _ _ _ h := (State.retire_cfg _ _ _).trans h
  prim _ _ _ _ _ hw h := hw.frame.1.trans h
  pc _ _ h := h

theorem Advance.cfg {s t : State} (h : Advance s t) : t.cfg = s.cfg :=
  (kept_cfg s.cfg).advance False.elim h rfl

/-- Settles O53: no shared operation and nothing from outside writes the configuration. -/
theorem stepKeepsTheConfiguration : Obligations.StepKeepsTheConfiguration := by
  unfold Obligations.StepKeepsTheConfiguration
  intro s t h
  exact (kept_cfg s.cfg).step (fun _ hu => (State.passTime_cfg _).trans hu) (fun _ _ hu => hu)
    (fun _ _ ha hu => ha.sameHart.cfg.trans hu) (fun _ hu => (State.settleAll_cfg _).trans hu) h rfl

/-! ### Memory -/

/-- A translation ends inside the address space. -/
theorem State.translate_lt {s : State} {addr p : Word} {kind : AccessKind}
    (ha : addr.toNat < 2 ^ s.cfg.wlen) (h : s.translate addr kind = .to p) :
    p.toNat < 2 ^ s.cfg.wlen := by
  simp only [State.translate] at h
  split at h
  · cases h
    exact ha
  · split at h
    · cases h
      exact ha
    · split at h
      · cases h
      · split at h <;> cases h
        exact Config.word_lt _ _
    · split at h <;> cases h
      exact Config.word_lt _ _

/-- Every physical address of a permitted data access is inside the address space. -/
theorem State.checkData_lt {s : State} {kind : AccessKind} {addr : Word} {n align : Nat} {ps : List Word}
    (h : s.checkData kind addr n align = .ok ps) : ∀ p ∈ ps, p.toNat < 2 ^ s.cfg.wlen := by
  intro p hp
  obtain ⟨j, hj⟩ := List.getElem?_of_mem hp
  exact State.translate_lt (Config.word_lt _ _) ((State.physicals_ok (State.checkData_ok h).1).2 j p hj)

/-- The bytes a mask keeps go to physical addresses of the access. -/
theorem mem_maskedBytes {e : Endian} {ps : List Word} {n v : Nat} {keeps : Nat → Bool} {q : Word × Byte}
    (h : q ∈ maskedBytes e ps n v keeps) : q.1 ∈ ps := by
  obtain ⟨r, hr, hq⟩ := List.mem_filterMap.1 h
  split at hq
  · cases hq
    exact (List.of_mem_zip hr).1
  · cases hq

/-- The form of memory depends on memory, the note, the races and the configuration only. -/
theorem State.MemoryFits.of_same {s t : State} (h : s.MemoryFits) (hc : t.cfg = s.cfg) (hm : t.mem = s.mem)
    (hd : t.dirty = s.dirty) (hr : t.racing = s.racing) : t.MemoryFits :=
  ⟨hm ▸ h.sorted, hm ▸ hc ▸ h.inside, hd ▸ h.noted, hr ▸ hc ▸ h.races⟩

theorem State.MemoryFits.storeByte {s : State} (h : s.MemoryFits) {n : Nat} (hn : n < 2 ^ s.cfg.wlen)
    (b : Byte) : (s.storeByte n b).MemoryFits where
  sorted := Memory.wf_write _ _ h.sorted
  inside := fun _ hc => (Memory.mem_write hc).elim (fun e => e ▸ hn) (h.inside _)
  noted := sorted_noteAddr _ h.noted
  races := h.races

theorem State.land_cfg (s : State) (l : List Race) : (s.land l).cfg = s.cfg := by rw [State.land_frame]

theorem State.land_racing (s : State) (l : List Race) : (s.land l).racing = s.racing := by
  rw [State.land_frame]

theorem State.MemoryFits.land {s : State} (h : s.MemoryFits) {l : List Race}
    (hl : ∀ r ∈ l, r.addr < 2 ^ s.cfg.wlen) : (s.land l).MemoryFits := by
  induction l generalizing s with
  | nil => exact h
  | cons r rest ih =>
    exact ih (h.storeByte (hl r List.mem_cons_self) _) fun q hq => hl q (List.mem_cons_of_mem _ hq)

/-- With fewer writes of other agents in flight memory keeps its form. -/
theorem State.MemoryFits.racing {s : State} (h : s.MemoryFits) {l : List Race}
    (hl : ∀ r ∈ l, r.addr < 2 ^ s.cfg.wlen) : State.MemoryFits { s with racing := l } :=
  ⟨h.sorted, h.inside, h.noted, hl⟩

theorem State.MemoryFits.settle {s : State} (h : s.MemoryFits) (k : Nat) : (s.settle k).MemoryFits :=
  (h.land fun r hr => h.races r (List.mem_filter.1 hr).1).racing fun r hr => by
    rw [State.land_cfg]
    exact h.races r (List.mem_filter.1 hr).1

theorem State.MemoryFits.settleAll {s : State} (h : s.MemoryFits) : s.settleAll.MemoryFits :=
  (h.land h.races).racing nofun

theorem State.MemoryFits.storeBytes {s : State} (h : s.MemoryFits) (k : Nat) {l : List (Word × Byte)}
    (hl : ∀ q ∈ l, q.1.toNat < 2 ^ s.cfg.wlen) : (s.storeBytes k l).MemoryFits := by
  induction l generalizing s k with
  | nil => exact h
  | cons p rest ih =>
    have hcfg := s.settle_cfg k
    refine ih ((h.settle k).storeByte (hcfg ▸ hl p List.mem_cons_self) _) _ fun q hq => ?_
    rw [State.storeByte_cfg, hcfg]
    exact hl q (List.mem_cons_of_mem _ hq)

theorem PrimWrite.memoryFits {d : Decoded} {s0 s s' : State} (hc : s0.cfg = s.cfg)
    (hw : PrimWrite d s0 s s') (h : s.MemoryFits) : s'.MemoryFits := by
  cases hw with
  | same => exact h
  | draw => exact h.of_same rfl rfl rfl rfl
  | bank b i v => cases b <;> exact h.of_same rfl rfl rfl rfl
  | mode b i v => cases b <;> exact h.of_same rfl rfl rfl rfl
  | spr r v _ => cases r <;> exact h.of_same rfl rfl rfl rfl
  | store k addr n align v keeps ps hp =>
    exact h.storeBytes k fun q hq => hc ▸ State.checkData_lt hp _ (mem_maskedBytes hq)
  | fence => exact ⟨h.sorted, h.inside, .nil, h.races⟩

theorem kept_memoryFits : Kept False State.MemoryFits where
  queue _ _ h := h.of_same rfl rfl rfl rfl
  draw _ _ h := h.of_same rfl rfl rfl rfl
  halt _ _ h := h.of_same rfl rfl rfl rfl
  enterM _ _ _ _ h := h.of_same rfl rfl rfl rfl
  enterU _ _ _ _ h := h.of_same rfl rfl rfl rfl
  retM _ h := h.of_same rfl rfl rfl rfl
  retU _ _ h := h.of_same rfl rfl rfl rfl
  demote _ _ h := h.of_same rfl rfl rfl rfl
  retire _ _ _ _ _ h := h.of_same (by simp) (by simp) (by simp) (by simp)
  prim _ _ _ _ hc hw h := hw.memoryFits hc h
  pc _ _ h := h.of_same rfl rfl rfl rfl

theorem Arrival.memoryFits {s t : State} (ha : Arrival s t) (h : s.MemoryFits) : t.MemoryFits := by
  cases ha with
  | none => exact h
  | posted e => exact h.of_same (by simp) (by simp) (by simp) (by simp)
  | clock => rw [State.clock_frame]; exact h.of_same rfl rfl rfl rfl
  | stored n b hn => exact h.storeByte hn b
  | raced r hr =>
    refine h.racing fun q hq => ?_
    rcases List.mem_append.1 hq with hq | hq
    · exact h.races q hq
    · exact List.mem_singleton.1 hq ▸ hr

/-- Settles O54: a data access and a write of another agent store inside the address space, and every step
of a running hart ends with all races landed. -/
theorem stepKeepsMemoryForm : Obligations.StepKeepsMemoryForm := by
  unfold Obligations.StepKeepsMemoryForm
  intro s t hs h
  refine ⟨kept_memoryFits.step (fun _ hu => hu.of_same (by simp) (by simp) (by simp) (by simp))
    (fun _ _ hu => hu.of_same rfl rfl rfl rfl) (fun _ _ ha => ha.memoryFits) (fun _ hu => hu.settleAll)
    h hs, fun hr => ?_⟩
  rcases step_cases h with ⟨hh, rfl⟩ | ⟨-, b, u, -, -, rfl⟩
  · exact hr.resolve_right hh
  · exact u.settleAll_racing

/-! ### The register banks -/

theorem Config.vword_lt (cfg : Config) (n : Nat) : (cfg.vword n).toNat < 2 ^ cfg.mxvl := by
  simp only [Config.vword, BitVec.toNat_ofNat]
  exact Nat.lt_of_le_of_lt (Nat.mod_le _ _) (Nat.mod_lt _ (Nat.two_pow_pos _))

theorem Config.counter_lt (cfg : Config) (n : Nat) : (cfg.counter n).toNat < 2 ^ cfg.clen := by
  simp only [Config.counter, BitVec.toNat_ofNat]
  exact Nat.lt_of_le_of_lt (Nat.mod_le _ _) (Nat.mod_lt _ (Nat.two_pow_pos _))

theorem Config.vmask_lt (cfg : Config) (n : Nat) : (cfg.vmask n).toNat < 2 ^ (cfg.mxvl / 8) := by
  simp only [Config.vmask, BitVec.toNat_ofNat]
  exact Nat.lt_of_le_of_lt (Nat.mod_le _ _) (Nat.mod_lt _ (Nat.two_pow_pos _))

/-- A vector register written under a mask stays within its width. -/
theorem State.masked_lt (s : State) (mask : MaskUse) {old new : VWord} {n : Nat} (ho : old.toNat < 2 ^ n)
    (hn : new.toNat < 2 ^ n) : (s.masked mask old new).toNat < 2 ^ n := by
  cases mask with
  | unmasked => exact hn
  | masked r inverted =>
    simp only [State.masked, BitVec.toNat_or, BitVec.toNat_and]
    exact Nat.or_lt_two_pow (Nat.lt_of_le_of_lt Nat.and_le_left hn)
      (Nat.lt_of_le_of_lt Nat.and_le_left ho)

theorem State.BanksFit.of_same {s t : State} (h : s.BanksFit) (hc : t.cfg = s.cfg) (hx : t.x = s.x)
    (hv : t.vr = s.vr) (hh : t.h = s.h) (hk : t.c = s.c) : t.BanksFit := by
  obtain ⟨h1, h2, h3, h4, h5, h6, h7, h8⟩ := h
  constructor <;> simpa only [hc, hx, hv, hh, hk]

/-- Setting one entry of a list keeps what holds of every entry, where it holds of the new one. -/
theorem forall_mem_set {α : Type} {P : α → Prop} {l : List α} {i : Nat} {a : α} (h : ∀ b ∈ l, P b)
    (ha : P a) : ∀ b ∈ l.set i a, P b :=
  fun _ hb => (List.mem_or_eq_of_mem_set hb).elim (h _) (· ▸ ha)

/-- An entry read with a default has what every entry and the default have. -/
theorem forall_getD {α : Type} {P : α → Prop} {l : List α} (i : Nat) {a : α} (h : ∀ b ∈ l, P b)
    (ha : P a) : P (l.getD i a) := by
  rw [List.getD_eq_getElem?_getD]
  cases hi : l[i]? with
  | none => exact ha
  | some b => exact h b (List.mem_of_getElem? hi)

theorem PrimWrite.banksFit {d : Decoded} {s0 s s' : State} (hw : PrimWrite d s0 s s')
    (h : s.BanksFit) : s'.BanksFit := by
  obtain ⟨hx, hxw, hv, hvw, hh, hhw, hc, hcw⟩ := h
  cases hw with
  | same => exact ⟨hx, hxw, hv, hvw, hh, hhw, hc, hcw⟩
  | draw => exact ⟨hx, hxw, hv, hvw, hh, hhw, hc, hcw⟩
  | bank b i v =>
    have hzero : (0 : VWord).toNat < 2 ^ s.cfg.mxvl :=
      lt_of_eq_of_lt (BitVec.toNat_zero (w := 512)) (Nat.two_pow_pos _)
    cases b with
    | sgprb =>
      exact ⟨(List.length_set ..).trans hx, forall_mem_set hxw (Config.word_lt _ _), hv, hvw, hh, hhw, hc, hcw⟩
    | vgprb | byVm =>
      exact ⟨hx, hxw, (List.length_set ..).trans hv,
        forall_mem_set hvw (s.masked_lt _ (forall_getD (P := fun r : VWord => r.toNat < _) i hvw hzero)
          (Config.vword_lt _ _)), hh, hhw, hc, hcw⟩
    | hlprb =>
      exact ⟨hx, hxw, hv, hvw, (List.length_set ..).trans hh, forall_mem_set hhw (Config.word_lt _ _), hc, hcw⟩
    | perfcb | byMd =>
      exact ⟨hx, hxw, hv, hvw, hh, hhw, (List.length_set ..).trans hc,
        forall_mem_set hcw (Config.counter_lt _ _)⟩
  | mode b i v =>
    cases b with
    | hlprb =>
      exact ⟨hx, hxw, hv, hvw, (List.length_set ..).trans hh,
        forall_mem_set hhw (forall_getD (P := fun r : HelperReg => r.val.toNat < _) i hhw
          (Nat.two_pow_pos _)), hc, hcw⟩
    | perfcb =>
      exact ⟨hx, hxw, hv, hvw, hh, hhw, (List.length_set ..).trans hc,
        forall_mem_set hcw (forall_getD (P := fun r : CounterReg => r.val.toNat < _) i hcw
          (Nat.two_pow_pos _))⟩
    | sgprb | vgprb | byMd | byVm => exact ⟨hx, hxw, hv, hvw, hh, hhw, hc, hcw⟩
  | spr r v _ => cases r <;> exact ⟨hx, hxw, hv, hvw, hh, hhw, hc, hcw⟩
  | store k addr n align v keeps ps hp =>
    rw [State.storeBytes_frame]
    exact ⟨hx, hxw, hv, hvw, hh, hhw, hc, hcw⟩
  | fence => exact ⟨hx, hxw, hv, hvw, hh, hhw, hc, hcw⟩

/-- The counter at an index after an instruction: one more where it counts the instruction. -/
theorem State.retire_getElem? {s0 s : State} {k : Retired} {i : Nat} {r0 r : CounterReg}
    (h0 : s0.c[i]? = some r0) (h : s.c[i]? = some r) :
    (State.retire s0 k s).c[i]?
      = some (if s0.counting = true ∧ countsInstr k (countsOf s0.cfg r0.mode) = true
          then CounterReg.count r s.cfg else r) := by
  unfold State.retire
  by_cases hc : s0.counting = true
  · simp only [hc, if_true, true_and, List.getElem?_zipWith, h0, h]
  · simp only [hc, Bool.false_eq_true, if_false, false_and, h]

theorem State.retire_length {s0 s : State} (k : Retired) (h : s0.c.length = s.c.length) :
    (State.retire s0 k s).c.length = s.c.length := by
  unfold State.retire
  split
  · simp [h]
  · rfl

theorem State.retire_width {s0 s : State} (k : Retired) (hl : s0.c.length = s.c.length)
    (h : ∀ r ∈ s.c, r.val.toNat < 2 ^ s.cfg.clen) :
    ∀ r ∈ (State.retire s0 k s).c, r.val.toNat < 2 ^ s.cfg.clen := by
  intro r hr
  obtain ⟨i, hi, hri⟩ := List.mem_iff_getElem.1 hr
  have hi' : i < s.c.length := State.retire_length k hl ▸ hi
  have h0 := List.getElem?_eq_getElem (hl ▸ hi' : i < s0.c.length)
  have h1 := State.retire_getElem? (k := k) h0 (List.getElem?_eq_getElem hi')
  rw [List.getElem?_eq_getElem hi, hri, Option.some.injEq] at h1
  rw [h1]
  split
  · exact Config.counter_lt _ _
  · exact h _ (List.getElem_mem hi')

theorem kept_banksFit : Kept False State.BanksFit where
  queue _ _ h := h.of_same rfl rfl rfl rfl rfl
  draw _ _ h := h.of_same rfl rfl rfl rfl rfl
  halt _ _ h := h.of_same rfl rfl rfl rfl rfl
  enterM _ _ _ _ h := h.of_same rfl rfl rfl rfl rfl
  enterU _ _ _ _ h := h.of_same rfl rfl rfl rfl rfl
  retM _ h := h.of_same rfl rfl rfl rfl rfl
  retU _ _ h := h.of_same rfl rfl rfl rfl rfl
  demote _ _ h := h.of_same rfl rfl rfl rfl rfl
  retire s0 k s hc h0 h := by
    have hl : s0.c.length = s.c.length := by rw [h0.cCount, h.cCount, hc]
    rw [State.retire_frame]
    exact ⟨h.xCount, h.xWidth, h.vrCount, h.vrWidth, h.hCount, h.hWidth,
      (State.retire_length k hl).trans h.cCount, State.retire_width k hl h.cWidth⟩
  prim _ _ _ _ _ hw h := hw.banksFit h
  pc _ _ h := h.of_same rfl rfl rfl rfl rfl

theorem State.BanksFit.passTime {s : State} (h : s.BanksFit) : s.passTime.BanksFit := by
  obtain ⟨hx, hxw, hv, hvw, hh, hhw, hc, hcw⟩ := h
  unfold State.passTime
  split
  · refine ⟨hx, hxw, hv, hvw, hh, hhw, (List.length_mapIdx ..).trans hc, fun r hr => ?_⟩
    obtain ⟨i, hi, rfl⟩ := List.mem_mapIdx.1 hr
    dsimp only
    split
    · exact Config.counter_lt _ _
    · exact hcw _ (List.getElem_mem hi)
  · exact ⟨hx, hxw, hv, hvw, hh, hhw, hc, hcw⟩

/-- Nothing that arrives changes a counter. -/
theorem Arrival.c {s t : State} (h : Arrival s t) : t.c = s.c := by
  cases h with
  | none => rfl
  | posted e => simp
  | clock => rw [State.clock_frame]
  | stored n b => rfl
  | raced r => rfl

theorem State.BanksFit.of_sameHart {s t : State} (h : s.BanksFit) (hs : s.SameHart t) (hc : t.c = s.c) :
    t.BanksFit := h.of_same hs.cfg hs.x hs.vr hs.h hc

/-- Settles O55: every write of a bank cuts its value to the bank's width and sets an entry of the bank. -/
theorem stepKeepsBanks : Obligations.StepKeepsBanks := by
  unfold Obligations.StepKeepsBanks
  intro s t hs h
  exact kept_banksFit.step (fun _ hu => hu.passTime) (fun _ _ hu => hu.of_same rfl rfl rfl rfl rfl)
    (fun _ _ ha hu => hu.of_sameHart ha.sameHart ha.c)
    (fun _ hu => hu.of_sameHart (.settleAll _) (State.settleAll_c _)) h hs

/-! ### The Status Register -/

theorem StatusReg.present_present (cfg : Config) (r : StatusReg) :
    (r.present cfg).present cfg = r.present cfg := by
  simp only [StatusReg.present]
  congr 1 <;> split <;> rfl

/-- The launching sequences and the discarding of absent fields commute. -/
theorem StatusReg.present_quiet (cfg : Config) (r : StatusReg) :
    (r.quiet cfg).present cfg = (r.present cfg).quiet cfg := by
  simp only [StatusReg.present, StatusReg.quiet]
  congr 1 <;> split <;> rfl

theorem StatusReg.present_promoted (cfg : Config) (r : StatusReg) :
    (r.promoted cfg).present cfg = (r.present cfg).promoted cfg := by
  simp only [StatusReg.present, StatusReg.promoted, StatusReg.quiet]
  congr 1 <;> split <;> rfl

theorem StatusReg.present_demoted {cfg : Config} (hu : cfg.has .user = true) (r : StatusReg) :
    StatusReg.present cfg { r.present cfg with pmod := 1, wdte := 1 }
      = { r.present cfg with pmod := 1, wdte := 1 } := by
  have h := StatusReg.present_present cfg r
  simp only [StatusReg.present, hu, if_true, StatusReg.mk.injEq, true_and, and_true] at h ⊢
  exact h

theorem StatusReg.present_written (cfg : Config) (mode : Mode) (old new : StatusReg) :
    (StatusReg.written cfg mode old new).present cfg = StatusReg.written cfg mode old new := by
  cases mode <;> exact StatusReg.present_present _ _

theorem State.StatusFits.of_same {s t : State} (h : s.StatusFits) (hc : t.cfg = s.cfg) (hs : t.sr = s.sr) :
    t.StatusFits := by
  unfold State.StatusFits
  rw [hc, hs]
  exact h

theorem PrimWrite.statusFits {d : Decoded} {s0 s s' : State} (hw : PrimWrite d s0 s s')
    (h : s.StatusFits) : s'.StatusFits := by
  cases hw with
  | same => exact h
  | draw => exact h.of_same rfl rfl
  | bank b i v => cases b <;> exact h.of_same rfl rfl
  | mode b i v => cases b <;> exact h.of_same rfl rfl
  | spr r v hd =>
    cases r with
    | sr => exact StatusReg.present_written _ _ _ _
    | _ => exact h.of_same rfl rfl
  | store k addr n align v keeps ps hp => rw [State.storeBytes_frame]; exact h.of_same rfl rfl
  | fence => exact h.of_same rfl rfl

theorem kept_statusFits : Kept False State.StatusFits where
  queue _ _ h := h
  draw _ _ h := h
  halt s v h := congrArg (fun r : StatusReg => { r with hlts := v }) h
  enterM s _ _ _ h := (StatusReg.present_promoted _ _).trans (congrArg (StatusReg.promoted s.cfg) h)
  enterU s _ _ _ h := (StatusReg.present_quiet _ _).trans (congrArg (StatusReg.quiet s.cfg) h)
  retM _ _ := StatusReg.present_present _ _
  retU _ _ _ := StatusReg.present_present _ _
  demote _ hu _ := StatusReg.present_demoted hu _
  retire _ _ _ _ _ h := h.of_same (by simp) (by simp)
  prim _ _ _ _ _ hw h := hw.statusFits h
  pc _ _ h := h

/-- Settles O57: every write of SR discards the absent fields, and the launching sequences commute with
that. -/
theorem stepKeepsAbsentStatusFields : Obligations.StepKeepsAbsentStatusFields := by
  unfold Obligations.StepKeepsAbsentStatusFields
  intro s t hs h
  exact kept_statusFits.step (fun _ hu => hu.of_same (by simp) (by simp)) (fun _ _ hu => hu)
    (fun _ _ ha hu => hu.of_same ha.sameHart.cfg ha.sameHart.sr)
    (fun _ hu => hu.of_same (by simp) (by simp)) h hs

/-! ### The event queue -/

theorem mem_inIndexOrder {n : Nat} {ts : List Trigger} {t : Trigger} (h : t ∈ inIndexOrder n ts) :
    t ∈ ts := by
  obtain ⟨i, -, hi⟩ := List.mem_filterMap.1 h
  exact List.mem_of_find?_eq_some hi

/-- What an advance does to the queue: one event is taken out, or events of helper registers join its end
inside the depth. -/
theorem Advance.queue {s t : State} (h : Advance s t) :
    (∃ e, s.nextEvent = some e ∧ t.queue = s.queue.erase e)
      ∨ ∃ ts : List Trigger, (∀ u ∈ ts, u.Real s.cfg)
          ∧ s.queue.length + ts.length ≤ max s.queue.length s.cfg.queueDepth
          ∧ t.queue = s.queue ++ ts.map Trigger.event := by
  cases h with
  | took e he => exact .inl ⟨e, he, State.deliver_queue _ _⟩
  | raised n hn e he => exact .inr ⟨[], nofun, Nat.le_max_left _ _, by simp⟩
  | triggered n hn ts t h hr =>
    rcases State.takeTriggers_cases h with ⟨-, rfl⟩ | ⟨a, rest, hi, hq, rfl⟩
    · exact .inr ⟨[], nofun, Nat.le_max_left _ _, by simp⟩
    · refine .inr ⟨rest, fun u hu => hr u (mem_inIndexOrder (hi ▸ List.mem_cons_of_mem _ hu)), ?_,
        State.deliver_queue _ _⟩
      exact Nat.le_trans hq (Nat.le_max_right _ _)
  | ran i hf hr => exact .inr ⟨[], nofun, Nat.le_max_left _ _, by simp [(coreEffect_keeps i s).2]⟩
  | completed d len w ps f r hd hs hr =>
    exact .inr ⟨[], nofun, Nat.le_max_left _ _, by simp [State.complete, (runPrims_frame hr).2.2.1]⟩

theorem customRow_isSome {cfg : Config} {slot : Fin 142} :
    (customRow cfg slot).isSome = true ↔ ∃ c ∈ cfg.customEvents, c.slot = slot := by
  simp [customRow]

/-- A custom mode of a legal configuration is legal itself. -/
theorem helperHook_legal {cfg : Config} (hc : cfg.problem = none) {mode : BitVec 8} {k : HelperHook}
    (h : helperHook cfg mode = some k) : k.legal cfg = true := by
  have hm := Config.check_of_problem (b := decide (cfg.helperModes.map (·.slot)).Nodup
    && cfg.helperModes.all (·.legal cfg) && decide (cfg.counterModes.map (·.slot)).Nodup
    && cfg.counterModes.all (fun k => k.counts != .reserved)) (p := .customMode) hc (by simp [Config.checks])
  simp only [Bool.and_eq_true, List.all_eq_true] at hm
  exact hm.1.1.2 k (List.mem_of_find?_eq_some h)

/-- The event of a helper mode is a listed custom exception, or an event of the module HLPR. -/
theorem helperEvent_cases {cfg : Config} (hc : cfg.problem = none) {mode : BitVec 8} {n : EventName}
    (h : helperEvent cfg mode = some n) :
    (∃ slot, n = .custom slot ∧ ∃ c ∈ cfg.customEvents, c.slot = slot ∧ c.kind = .exception)
      ∨ n = .rdt ∨ n = .wrt ∨ n = .ext ∨ n = .rwt ∨ n = .rwet ∨ ∃ f, n = .flagT f := by
  unfold helperEvent at h
  split at h
  · rename_i slot hs
    cases h
    obtain ⟨k, hk, hks⟩ := Option.bind_eq_some_iff.1 hs
    have hl := helperHook_legal hc hk
    simp only [HelperHook.legal, hks, Bool.and_eq_true, List.any_eq_true, beq_iff_eq] at hl
    exact .inl ⟨slot, rfl, hl.2⟩
  · refine .inr ?_
    have ha : ∀ rd wr fe, accessEvent rd wr fe = .rdt ∨ accessEvent rd wr fe = .wrt
        ∨ accessEvent rd wr fe = .ext ∨ accessEvent rd wr fe = .rwt ∨ accessEvent rd wr fe = .rwet := by
      decide
    cases hw : watchOf cfg mode with
    | nothing | reserved =>
      rw [hw] at h
      cases h
    | address rd wr fe | range rd wr fe =>
      rw [hw] at h
      cases h
      rcases ha rd wr fe with ha | ha | ha | ha | ha <;> simp [ha]
    | flag f =>
      rw [hw] at h
      cases h
      simp

/-- The event of a helper register of a hart with a legal configuration exists there. -/
theorem Trigger.Real.defined {cfg : Config} (hc : cfg.problem = none) {t : Trigger} (h : t.Real cfg) :
    t.event.name.defined cfg = true := by
  obtain ⟨hh, mode, hm⟩ := h
  show t.name.defined cfg = true
  rcases helperEvent_cases hc hm with ⟨slot, hn, c, hcm, hs, -⟩ | hn | hn | hn | hn | hn | ⟨f, hn⟩ <;> rw [hn]
  · exact customRow_isSome.2 ⟨c, hcm, hs⟩
  all_goals simpa [EventName.defined, EventName.module] using hh

theorem State.QueueFits.of_same {s t : State} (h : s.QueueFits) (hc : t.cfg = s.cfg)
    (hq : t.queue = s.queue) : t.QueueFits := by
  obtain ⟨h1, h2, h3⟩ := h
  constructor <;> simpa only [hc, hq]

theorem State.QueueFits.post {s : State} (h : s.QueueFits) {e : Event} (hd : e.data = none)
    (hx : e.name.defined s.cfg = true) : (s.post e).QueueFits := by
  unfold State.post
  split
  · rename_i hl
    refine ⟨Nat.le_trans (Nat.le_of_eq List.length_append) hl, fun u hu => ?_, fun u hu => ?_⟩ <;>
      rcases List.mem_append.1 hu with hu | hu
    · exact h.noData u hu
    · exact List.mem_singleton.1 hu ▸ hd
    · exact h.exist u hu
    · exact List.mem_singleton.1 hu ▸ hx
  · exact h

/-- A watchdog tick leaves the queue, or posts TQE on a hart with USER. -/
theorem State.QueueFits.tick {s : State} (h : s.QueueFits) : s.tick.QueueFits := by
  unfold State.tick
  split
  · rename_i hc
    simp only [Bool.and_eq_true] at hc
    split
    · have hx : EventName.defined s.cfg .tqe = true := by
        simpa [EventName.defined, EventName.module] using hc.1.1
      have h0 : State.QueueFits { s with wdt := 0 } := h.of_same rfl rfl
      exact h0.post rfl hx
    · exact h.of_same rfl rfl
  · exact h

theorem Arrival.queueFits {s t : State} (ha : Arrival s t) (h : s.QueueFits) : t.QueueFits := by
  cases ha with
  | none => exact h
  | posted e hd hx => exact h.post hd hx
  | clock =>
    rcases State.clock_cases s with ⟨-, hs⟩ | ⟨-, hs⟩ <;> rw [hs]
    · exact h.of_same rfl rfl
    · exact State.QueueFits.tick (h.of_same rfl rfl)
  | stored n b => exact h.of_same rfl rfl
  | raced r => exact h.of_same rfl rfl

theorem Advance.queueFits {s t : State} (ha : Advance s t) (hc : s.cfg.problem = none) (h : s.QueueFits) :
    t.QueueFits := by
  rcases ha.queue with ⟨e, -, hq⟩ | ⟨ts, hr, hl, hq⟩
  · refine ⟨?_, fun u hu => ?_, fun u hu => ?_⟩
    · rw [hq, ha.cfg]
      exact Nat.le_trans List.length_erase_le h.depth
    · exact h.noData u (List.mem_of_mem_erase (hq ▸ hu))
    · rw [ha.cfg]
      exact h.exist u (List.mem_of_mem_erase (hq ▸ hu))
  · refine ⟨?_, fun u hu => ?_, fun u hu => ?_⟩
    · rw [hq, ha.cfg, List.length_append, List.length_map]
      exact Nat.le_trans hl (Nat.max_le.2 ⟨h.depth, Nat.le_refl _⟩)
    · rcases List.mem_append.1 (hq ▸ hu) with hu | hu
      · exact h.noData u hu
      · obtain ⟨x, -, rfl⟩ := List.mem_map.1 hu
        rfl
    · rw [ha.cfg]
      rcases List.mem_append.1 (hq ▸ hu) with hu | hu
      · exact h.exist u hu
      · obtain ⟨x, hx, rfl⟩ := List.mem_map.1 hu
        exact (hr x hx).defined hc

theorem State.boundary_queueFits {s b : State} (hb : s.boundary = .ok b) (h : s.QueueFits) : b.QueueFits :=
  State.boundary_induct State.QueueFits (fun _ hu => hu.of_same (by simp) (by simp))
    (fun _ _ hu => hu.of_same rfl rfl) (fun _ _ _ hr => (State.receive_cases hr).queueFits) hb h

/-- Settles O58: arrivals join a queue with room, further helper events are refused on a full one, and both
exist on a hart with a legal configuration. -/
theorem stepKeepsTheQueueBound : Obligations.StepKeepsTheQueueBound := by
  unfold Obligations.StepKeepsTheQueueBound
  intro s t hs h
  rcases step_cases h with ⟨-, rfl⟩ | ⟨hr, b, u, hb, ha, rfl⟩
  · exact hs
  · have hc : b.cfg.problem = none := (State.boundary_sameHart hb).cfg ▸ hr.config
    exact (ha.queueFits hc (State.boundary_queueFits hb hs)).of_same (by simp) (by simp)

/-! ### The special purpose registers -/

theorem State.SpecialsFit.of_same {s t : State} (h : s.SpecialsFit) (hs : s.SameHart t) : t.SpecialsFit := by
  obtain ⟨h1, h2, h3, h4, h5, h6, h7⟩ := h
  constructor <;> simpa only [hs.cfg, hs.pc, hs.u, hs.m, hs.pfpa, hs.tptr, hs.vm1, hs.vm2, hs.vm3, hs.usage]

/-- Saving critical state keeps a set of event registers within WLEN bits. -/
theorem EventRegs.fits_saved {cfg : Config} {r : EventRegs} (h : r.fits cfg) {pc : Word}
    (hp : pc.toNat < 2 ^ cfg.wlen) (sr : StatusReg) (cause : BitVec 16) {data : Option Word}
    (hd : ∀ v, data = some v → v.toNat < 2 ^ cfg.wlen) : (r.saved pc sr cause data).fits cfg := by
  obtain ⟨-, hed, hehp, het0, het1⟩ := h
  refine ⟨hp, ?_, hehp, het0, het1⟩
  cases data with
  | none => exact hed
  | some v => exact hd v rfl

/-- A number cut to as many bits as a bank has registers fits the bank's usage register. -/
theorem usage_ofNat_lt (v n : Nat) : (BitVec.ofNat 32 (v % 2 ^ n)).toNat < 2 ^ n := by
  rw [BitVec.toNat_ofNat]
  exact Nat.lt_of_le_of_lt (Nat.mod_le _ _) (Nat.mod_lt _ (Nat.two_pow_pos _))

theorem State.SpecialsFit.setSpr {s : State} (h : s.SpecialsFit) (mode : Mode) (r : Spr) (v : Nat) :
    (s.setSpr mode r v).SpecialsFit := by
  obtain ⟨hpc, hu, hm, hpf, htp, hv, hus⟩ := h
  have hw := Config.word_lt s.cfg v
  have hk := Config.vmask_lt s.cfg v
  have hn := usage_ofNat_lt v
  obtain ⟨hepc, hed, hehp, het0, het1⟩ := hu
  obtain ⟨kepc, ked, kehp, ket0, ket1⟩ := hm
  obtain ⟨hs1, hs2, hs3, hs4⟩ := hus
  obtain ⟨hv1, hv2, hv3⟩ := hv
  have hu : s.u.fits s.cfg := ⟨hepc, hed, hehp, het0, het1⟩
  have hm : s.m.fits s.cfg := ⟨kepc, ked, kehp, ket0, ket1⟩
  have hus : s.usage.fits s.cfg := ⟨hs1, hs2, hs3, hs4⟩
  have hv := And.intro hv1 (And.intro hv2 hv3)
  cases r with
  | pc | sr | vsh | uesr | uec | mesr | mec | pid | tid | hpid | wdt =>
    exact ⟨hpc, hu, hm, hpf, htp, hv, hus⟩
  | vm1 => exact ⟨hpc, hu, hm, hpf, htp, ⟨hk, hv2, hv3⟩, hus⟩
  | vm2 => exact ⟨hpc, hu, hm, hpf, htp, ⟨hv1, hk, hv3⟩, hus⟩
  | vm3 => exact ⟨hpc, hu, hm, hpf, htp, ⟨hv1, hv2, hk⟩, hus⟩
  | uepc => exact ⟨hpc, ⟨hw, hed, hehp, het0, het1⟩, hm, hpf, htp, hv, hus⟩
  | ued => exact ⟨hpc, ⟨hepc, hw, hehp, het0, het1⟩, hm, hpf, htp, hv, hus⟩
  | uehp => exact ⟨hpc, ⟨hepc, hed, hw, het0, het1⟩, hm, hpf, htp, hv, hus⟩
  | uet0 => exact ⟨hpc, ⟨hepc, hed, hehp, hw, het1⟩, hm, hpf, htp, hv, hus⟩
  | uet1 => exact ⟨hpc, ⟨hepc, hed, hehp, het0, hw⟩, hm, hpf, htp, hv, hus⟩
  | mepc => exact ⟨hpc, hu, ⟨hw, ked, kehp, ket0, ket1⟩, hpf, htp, hv, hus⟩
  | med => exact ⟨hpc, hu, ⟨kepc, hw, kehp, ket0, ket1⟩, hpf, htp, hv, hus⟩
  | mehp => exact ⟨hpc, hu, ⟨kepc, ked, hw, ket0, ket1⟩, hpf, htp, hv, hus⟩
  | met0 => exact ⟨hpc, hu, ⟨kepc, ked, kehp, hw, ket1⟩, hpf, htp, hv, hus⟩
  | met1 => exact ⟨hpc, hu, ⟨kepc, ked, kehp, ket0, hw⟩, hpf, htp, hv, hus⟩
  | pfpa => exact ⟨hpc, hu, hm, hw, htp, hv, hus⟩
  | tptr => exact ⟨hpc, hu, hm, hpf, hw, hv, hus⟩
  | sgprbu => exact ⟨hpc, hu, hm, hpf, htp, hv, hn _, hs2, hs3, hs4⟩
  | vgprbu => exact ⟨hpc, hu, hm, hpf, htp, hv, hs1, hn _, hs3, hs4⟩
  | hlprbu => exact ⟨hpc, hu, hm, hpf, htp, hv, hs1, hs2, hn _, hs4⟩
  | perfcbu => exact ⟨hpc, hu, hm, hpf, htp, hv, hs1, hs2, hs3, hn _⟩

theorem PrimWrite.specialsFit {d : Decoded} {s0 s s' : State} (hw : PrimWrite d s0 s s')
    (h : s.SpecialsFit) : s'.SpecialsFit := by
  obtain ⟨hpc, hu, hm, hpf, htp, hv, hs1, hs2, hs3, hs4⟩ := h
  cases hw with
  | same => exact ⟨hpc, hu, hm, hpf, htp, hv, hs1, hs2, hs3, hs4⟩
  | draw => exact ⟨hpc, hu, hm, hpf, htp, hv, hs1, hs2, hs3, hs4⟩
  | bank b i v =>
    cases b with
    | sgprb => exact ⟨hpc, hu, hm, hpf, htp, hv, markUsed_lt _ _ _ hs1, hs2, hs3, hs4⟩
    | vgprb | byVm => exact ⟨hpc, hu, hm, hpf, htp, hv, hs1, markUsed_lt _ _ _ hs2, hs3, hs4⟩
    | hlprb => exact ⟨hpc, hu, hm, hpf, htp, hv, hs1, hs2, markUsed_lt _ _ _ hs3, hs4⟩
    | perfcb | byMd => exact ⟨hpc, hu, hm, hpf, htp, hv, hs1, hs2, hs3, markUsed_lt _ _ _ hs4⟩
  | mode b i v =>
    cases b with
    | hlprb => exact ⟨hpc, hu, hm, hpf, htp, hv, hs1, hs2, markUsed_lt _ _ _ hs3, hs4⟩
    | perfcb => exact ⟨hpc, hu, hm, hpf, htp, hv, hs1, hs2, hs3, markUsed_lt _ _ _ hs4⟩
    | sgprb | vgprb | byMd | byVm => exact ⟨hpc, hu, hm, hpf, htp, hv, hs1, hs2, hs3, hs4⟩
  | spr r v _ =>
    exact State.SpecialsFit.setSpr ⟨hpc, hu, hm, hpf, htp, hv, hs1, hs2, hs3, hs4⟩ _ _ _
  | store k addr n align v keeps ps hp =>
    rw [State.storeBytes_frame]
    exact ⟨hpc, hu, hm, hpf, htp, hv, hs1, hs2, hs3, hs4⟩
  | fence => exact ⟨hpc, hu, hm, hpf, htp, hv, hs1, hs2, hs3, hs4⟩

/-- The special purpose registers keep their widths where the data of delivered events does. -/
theorem kept_specialsFit : Kept True State.SpecialsFit where
  queue _ _ h := h.of_same (by constructor <;> rfl)
  draw _ _ h := h.of_same (by constructor <;> rfl)
  halt _ _ h := ⟨h.pcWidth, h.uWidth, h.mWidth, h.pfpaWidth, h.tptrWidth, h.maskWidth, h.usageWidth⟩
  enterM _ _ _ hd h := ⟨h.mWidth.2.2.1, h.uWidth, EventRegs.fits_saved h.mWidth h.pcWidth _ _ (hd trivial),
    h.pfpaWidth, h.tptrWidth, h.maskWidth, h.usageWidth⟩
  enterU _ _ _ hd h := ⟨h.uWidth.2.2.1, EventRegs.fits_saved h.uWidth h.pcWidth _ _ (hd trivial), h.mWidth,
    h.pfpaWidth, h.tptrWidth, h.maskWidth, h.usageWidth⟩
  retM _ h := ⟨h.mWidth.1, h.uWidth, h.mWidth, h.pfpaWidth, h.tptrWidth, h.maskWidth, h.usageWidth⟩
  retU _ _ h := ⟨h.uWidth.1, h.uWidth, h.mWidth, h.pfpaWidth, h.tptrWidth, h.maskWidth, h.usageWidth⟩
  demote _ _ h := ⟨h.uWidth.1, h.uWidth, h.mWidth, h.pfpaWidth, h.tptrWidth, h.maskWidth, h.usageWidth⟩
  retire _ _ _ _ _ h := h.of_same (by constructor <;> simp)
  prim _ _ _ _ _ hw h := hw.specialsFit h
  pc _ _ h := ⟨Config.word_lt _ _, h.uWidth, h.mWidth, h.pfpaWidth, h.tptrWidth, h.maskWidth, h.usageWidth⟩

/-- Settles O56: the data of a delivered event is an address of the hart, or that of a queued event, which
has none. -/
theorem stepKeepsSpecialRegisters : Obligations.StepKeepsSpecialRegisters := by
  unfold Obligations.StepKeepsSpecialRegisters
  intro s t hq hs h
  rcases step_cases h with ⟨-, rfl⟩ | ⟨hr, b, u, hb, ha, rfl⟩
  · exact hs
  · exact (kept_specialsFit.advance (fun _ => (State.boundary_queueFits hb hq).noData) ha
      (hs.of_same (State.boundary_sameHart hb))).of_same (.settleAll u)

end Sys2Proof.Machine
end

section

namespace Sys2Proof.Machine

/-! ### What delivering an event and returning do to the mode -/

theorem StatusReg.mode_promoted (cfg : Config) (r : StatusReg) : (r.promoted cfg).mode cfg = .machine := by
  cases hu : cfg.has .user <;> simp [StatusReg.mode, StatusReg.promoted, hu]

/-- The mode a status word selects is that of its PMOD. -/
theorem StatusReg.mode_congr {cfg : Config} {a b : StatusReg} (h : a.pmod = b.pmod) :
    a.mode cfg = b.mode cfg := by
  simp only [StatusReg.mode, h]

theorem StatusReg.mode_quiet (cfg : Config) (r : StatusReg) : (r.quiet cfg).mode cfg = r.mode cfg :=
  StatusReg.mode_congr rfl

/-- Discarding absent fields leaves the mode: PMOD without USER selects nothing. -/
theorem StatusReg.mode_present (cfg : Config) (r : StatusReg) : (r.present cfg).mode cfg = r.mode cfg := by
  cases hu : cfg.has .user <;> simp [StatusReg.mode, StatusReg.present, hu]

/-- The unprivileged fields do not select the mode. -/
theorem StatusReg.mode_withUnprivileged (cfg : Config) (old new : StatusReg) :
    ((old.withUnprivileged new).present cfg).mode cfg = old.mode cfg :=
  (StatusReg.mode_present _ _).trans (StatusReg.mode_congr rfl)

theorem State.mode_eq_of {s t : State} (hc : t.cfg = s.cfg) (hs : t.sr = s.sr) : t.mode = s.mode := by
  simp only [State.mode, hc, hs]

theorem State.mode_halt (s : State) (v : BitVec 3) : (s.halt v).mode = s.mode := StatusReg.mode_congr rfl

theorem State.mode_enterMachine (s : State) (c : BitVec 16) (d : Option Word) :
    (s.enterMachine c d).mode = .machine := StatusReg.mode_promoted _ _

theorem State.mode_enterUser (s : State) (c : BitVec 16) (d : Option Word) :
    (s.enterUser c d).mode = s.mode := StatusReg.mode_quiet _ _

theorem State.mode_returnUser (s : State) : s.returnUser.mode = s.mode :=
  StatusReg.mode_withUnprivileged _ _ _

theorem State.mode_relaunchUser (s : State) : s.relaunchUser.mode = s.mode := by
  rcases State.relaunchUser_cases s with ⟨h, -⟩ | ⟨h, -⟩ <;> rw [h]
  exact s.mode_enterUser _ _

/-- Of the five instructions UERET alone has no fault in user mode. -/
theorem coreFaults_user {s : State} {i : Instr} (hm : s.mode = .user) (h : coreFaults s i = false) :
    i = .ueret := by
  cases i <;> simp_all [coreFaults]

/-! ### What user mode cannot change -/

/-- The state only machine mode may change is unchanged, the status word's privileged fields included, of
which HLTS may become 2 (10_state.md R45, R91; 60_exceptions.md R252, R240). -/
structure State.PrivilegedKept (s t : State) : Prop where
  cfg    : t.cfg = s.cfg
  status : t.StatusFits
  m      : t.m = s.m
  pfpa   : t.pfpa = s.pfpa
  ids    : t.pid = s.pid ∧ t.tid = s.tid ∧ t.hpid = s.hpid ∧ t.tptr = s.tptr
  im     : t.sr.im = s.sr.im
  pmod   : t.sr.pmod = s.sr.pmod
  wdte   : t.sr.wdte = s.sr.wdte
  pwrs   : t.sr.pwrs = s.sr.pwrs
  hlts   : t.sr.hlts = s.sr.hlts ∨ t.sr.hlts = 2

theorem State.PrivilegedKept.refl {s : State} (h : s.StatusFits) : s.PrivilegedKept s :=
  ⟨rfl, h, rfl, rfl, ⟨rfl, rfl, rfl, rfl⟩, rfl, rfl, rfl, rfl, .inl rfl⟩

theorem State.PrivilegedKept.trans {a b c : State} (h1 : a.PrivilegedKept b) (h2 : b.PrivilegedKept c) :
    a.PrivilegedKept c := by
  obtain ⟨hpid, htid, hhpid, htptr⟩ := h1.ids
  obtain ⟨kpid, ktid, khpid, ktptr⟩ := h2.ids
  exact ⟨h2.cfg.trans h1.cfg, h2.status, h2.m.trans h1.m, h2.pfpa.trans h1.pfpa,
    ⟨kpid.trans hpid, ktid.trans htid, khpid.trans hhpid, ktptr.trans htptr⟩, h2.im.trans h1.im,
    h2.pmod.trans h1.pmod, h2.wdte.trans h1.wdte, h2.pwrs.trans h1.pwrs,
    h2.hlts.elim (fun e => h1.hlts.imp e.trans e.trans) .inr⟩

/-- Where the registers and the status word are the same, so is the privileged state. -/
theorem State.PrivilegedKept.of_sameHart {s t : State} (hs : s.StatusFits) (h : s.SameHart t) :
    s.PrivilegedKept t :=
  ⟨h.cfg, hs.of_same h.cfg h.sr, h.m, h.pfpa, ⟨h.pid, h.tid, h.hpid, h.tptr⟩, by rw [h.sr], by rw [h.sr],
    by rw [h.sr], by rw [h.sr], .inl (by rw [h.sr])⟩

theorem State.PrivilegedKept.mode {s t : State} (h : s.PrivilegedKept t) : t.mode = s.mode := by
  rw [State.mode, h.cfg]
  exact StatusReg.mode_congr h.pmod

/-- Taking the unprivileged fields of another word leaves the privileged ones of a sound status. -/
theorem StatusReg.privileged_kept {cfg : Config} {old : StatusReg} (h : old.present cfg = old)
    (new : StatusReg) :
    ((old.withUnprivileged new).present cfg).im = old.im
      ∧ ((old.withUnprivileged new).present cfg).pmod = old.pmod
      ∧ ((old.withUnprivileged new).present cfg).wdte = old.wdte
      ∧ ((old.withUnprivileged new).present cfg).pwrs = old.pwrs
      ∧ ((old.withUnprivileged new).present cfg).hlts = old.hlts := by
  have him : (old.present cfg).im = old.im := congrArg StatusReg.im h
  have hpmod : (old.present cfg).pmod = old.pmod := congrArg StatusReg.pmod h
  have hwdte : (old.present cfg).wdte = old.wdte := congrArg StatusReg.wdte h
  have hpwrs : (old.present cfg).pwrs = old.pwrs := congrArg StatusReg.pwrs h
  exact ⟨him, hpmod, hwdte, hpwrs, rfl⟩

theorem State.PrivilegedKept.halt {s : State} (h : s.StatusFits) : s.PrivilegedKept (s.halt 2) :=
  ⟨rfl, kept_statusFits.halt _ _ h, rfl, rfl, ⟨rfl, rfl, rfl, rfl⟩, rfl, rfl, rfl, rfl, .inr rfl⟩

theorem State.PrivilegedKept.enterUser {s : State} (h : s.StatusFits) (c : BitVec 16) (d : Option Word) :
    s.PrivilegedKept (s.enterUser c d) :=
  ⟨rfl, kept_statusFits.enterU _ _ _ (fun hf => hf.elim) h, rfl, rfl, ⟨rfl, rfl, rfl, rfl⟩, rfl, rfl, rfl,
    rfl, .inl rfl⟩

/-- An event delivered in user mode that leaves the hart there is a double event or an exception. -/
theorem State.PrivilegedKept.deliver {s : State} (h : s.StatusFits) {e : Event}
    (ht : (s.deliver e).mode = .user) : s.PrivilegedKept (s.deliver e) := by
  rcases State.deliver_cases s e with ⟨hd, -⟩ | ⟨hd, -⟩ | ⟨hd, -⟩
  · exact hd ▸ .halt h
  · rw [hd, State.mode_enterMachine] at ht
    cases ht
  · exact hd ▸ .enterUser h _ _

theorem State.PrivilegedKept.returnUser {s : State} (h : s.StatusFits) : s.PrivilegedKept s.returnUser := by
  obtain ⟨him, hpmod, hwdte, hpwrs, hhlts⟩ := StatusReg.privileged_kept h s.u.esr
  exact ⟨rfl, StatusReg.present_present _ _, rfl, rfl, ⟨rfl, rfl, rfl, rfl⟩, him, hpmod, hwdte, hpwrs,
    .inl hhlts⟩

theorem State.PrivilegedKept.relaunchUser {s : State} (h : s.StatusFits) :
    s.PrivilegedKept s.relaunchUser := by
  rcases State.relaunchUser_cases s with ⟨hr, -⟩ | ⟨hr, -⟩ <;> rw [hr]
  · exact .refl h
  · exact .enterUser h _ _

theorem State.SameHart.retire (s0 : State) (k : Retired) (s : State) :
    s.SameHart (State.retire s0 k s) := by
  constructor <;> simp

/-- A primitive of an instruction in user mode writes no privileged register, and of SR no privileged
field. -/
theorem PrimWrite.privilegedKept {d : Decoded} {s0 s s' : State} (hm : s0.mode = .user)
    (hw : PrimWrite d s0 s s') (h : s.StatusFits) : s.PrivilegedKept s' := by
  cases hw with
  | same => exact .refl h
  | draw => exact .of_sameHart h (by constructor <;> rfl)
  | bank b i v => cases b <;> exact ⟨rfl, h, rfl, rfl, ⟨rfl, rfl, rfl, rfl⟩, rfl, rfl, rfl, rfl, .inl rfl⟩
  | mode b i v => cases b <;> exact ⟨rfl, h, rfl, rfl, ⟨rfl, rfl, rfl, rfl⟩, rfl, rfl, rfl, rfl, .inl rfl⟩
  | spr r v hd =>
    have hp : sprPrivileged r = false := by
      simp only [hm, sprDenied] at hd
      split at hd
      · cases hd
      · simpa using hd
    cases r with
    | sr =>
      rw [hm]
      obtain ⟨him, hpmod, hwdte, hpwrs, hhlts⟩ :=
        StatusReg.privileged_kept h (StatusReg.unpack s.cfg.srLayout (BitVec.ofNat 32 v))
      exact ⟨rfl, StatusReg.present_present _ _, rfl, rfl, ⟨rfl, rfl, rfl, rfl⟩, him, hpmod, hwdte, hpwrs,
        .inl hhlts⟩
    | pc | vsh | vm1 | vm2 | vm3 | uepc | uesr | uec | ued | uehp | uet0 | uet1 =>
      exact ⟨rfl, h, rfl, rfl, ⟨rfl, rfl, rfl, rfl⟩, rfl, rfl, rfl, rfl, .inl rfl⟩
    | _ => cases hp
  | store k addr n align v keeps ps hp =>
    rw [State.storeBytes_frame]
    exact .of_sameHart h (by constructor <;> rfl)
  | fence => exact .of_sameHart h (by constructor <;> rfl)

theorem runPrims_privilegedKept {d : Decoded} {s : State} {ps : List Prim} {f : List Trigger} {w : Work}
    (hm : s.mode = .user) (h : s.StatusFits) (hr : runPrims d s { s := s, fired := f } ps = .ok w) :
    s.PrivilegedKept w.s :=
  runPrims_induct (fun t => s.PrivilegedKept t)
    (fun _ _ hw ht => ht.trans (hw.privilegedKept hm ht.status)) hr (.refl h)

/-- An instruction that completes in user mode keeps the privileged state. -/
theorem State.PrivilegedKept.complete {s : State} {w : Work} (len : InstrLen) (h : s.PrivilegedKept w.s) :
    s.PrivilegedKept (s.complete len w) := by
  have hpc : w.s.PrivilegedKept { w.s with pc := w.target.getD (s.cfg.word (s.pc.toNat + len.bytes)) } :=
    ⟨rfl, h.status, rfl, rfl, ⟨rfl, rfl, rfl, rfl⟩, rfl, rfl, rfl, rfl, .inl rfl⟩
  exact (h.trans hpc).trans (.of_sameHart hpc.status (.retire _ _ _))

/-- What of the five instructions has an effect in user mode keeps the privileged state. -/
theorem State.PrivilegedKept.ran {s : State} {i : Instr} (hm : s.mode = .user) (h : s.StatusFits)
    (hf : coreFaults s i = false) : s.PrivilegedKept (State.retire s {} (coreEffect i s)) := by
  cases coreFaults_user hm hf
  have hu : s.PrivilegedKept (coreEffect .ueret s) :=
    have hr := State.PrivilegedKept.returnUser h
    hr.trans (.relaunchUser hr.status)
  exact hu.trans (.of_sameHart hu.status (.retire _ _ _))

theorem Advance.privilegedKept {s t : State} (ha : Advance s t) (h : s.StatusFits) (hm : s.mode = .user)
    (ht : t.mode = .user) : s.PrivilegedKept t := by
  cases ha with
  | took e he =>
    have hq : s.PrivilegedKept { s with queue := s.queue.erase e } :=
      .of_sameHart h (by constructor <;> rfl)
    exact hq.trans (.deliver hq.status ht)
  | raised n hn e he =>
    have hq : s.PrivilegedKept (s.drawn n) := .of_sameHart h (by constructor <;> rfl)
    exact hq.trans (.deliver hq.status ht)
  | triggered n hn ts t htk hr =>
    rcases State.takeTriggers_cases htk with ⟨-, rfl⟩ | ⟨a, rest, -, -, rfl⟩
    · exact .of_sameHart h (by constructor <;> rfl)
    · have hq : s.PrivilegedKept
          { s.drawn n with queue := (s.drawn n).queue ++ rest.map Trigger.event } :=
        .of_sameHart h (by constructor <;> rfl)
      exact hq.trans (.deliver hq.status ht)
  | ran i hf hr => exact .ran hm h hf
  | completed d len w ps f r hd hs hr => exact .complete len (runPrims_privilegedKept hm h hr)

/-- Settles O59: in user mode no primitive reaches a privileged register, UERET keeps the privileged fields,
and an event that does not promote runs the unprivileged sequence or halts the hart. -/
theorem userModeCannotChangePrivilegedState : Obligations.UserModeCannotChangePrivilegedState := by
  unfold Obligations.UserModeCannotChangePrivilegedState
  intro s t hs hm h ht
  have hk : s.PrivilegedKept t := by
    rcases step_cases h with ⟨-, rfl⟩ | ⟨-, b, u, hb, ha, rfl⟩
    · exact .refl hs
    · have hsb := State.PrivilegedKept.of_sameHart hs (State.boundary_sameHart hb)
      have hu : u.mode = .user := (State.mode_eq_of (by simp) (by simp)).symm.trans ht
      have hbu := ha.privilegedKept hsb.status (hsb.mode.trans hm) hu
      exact (hsb.trans hbu).trans (.of_sameHart hbu.status (.settleAll u))
  obtain ⟨hpid, htid, hhpid, htptr⟩ := hk.ids
  exact ⟨hk.m, hk.pfpa, hpid, htid, hhpid, htptr, hk.im, hk.pmod, hk.wdte, hk.pwrs, hk.hlts⟩

/-! ### Entering machine mode -/

/-- `t` is `s` after the privileged launching sequence, as far as PC and the machine event registers tell. -/
def State.LaunchedFrom (s t : State) : Prop :=
  t.pc = s.m.ehp ∧ t.m.epc = s.pc ∧ t.m.esr = s.sr ∧ t.m.ehp = s.m.ehp ∧ t.m.et0 = s.m.et0
    ∧ t.m.et1 = s.m.et1

/-- An event that leaves user mode for machine mode runs the privileged sequence. -/
theorem State.deliver_launchedFrom {s : State} {e : Event} (hm : s.mode = .user)
    (ht : (s.deliver e).mode = .machine) : s.LaunchedFrom (s.deliver e) := by
  rcases State.deliver_cases s e with ⟨hd, -⟩ | ⟨hd, -⟩ | ⟨hd, -⟩
  · rw [hd, State.mode_halt, hm] at ht
    cases ht
  · rw [hd]
    exact ⟨rfl, rfl, rfl, rfl, rfl, rfl⟩
  · rw [hd, State.mode_enterUser, hm] at ht
    cases ht

theorem PrimWrite.mode_user {d : Decoded} {s0 s s' : State} (hm : s0.mode = .user)
    (hw : PrimWrite d s0 s s') (h : s.mode = .user) : s'.mode = .user := by
  cases hw with
  | same => exact h
  | draw => exact h
  | bank b i v => cases b <;> exact h
  | mode b i v => cases b <;> exact h
  | spr r v hd =>
    cases r with
    | sr =>
      rw [hm]
      exact (StatusReg.mode_withUnprivileged _ _ _).trans h
    | _ => exact h
  | store k addr n align v keeps ps hp => rw [State.storeBytes_frame]; exact h
  | fence => exact h

/-- An instruction that completes in user mode leaves the hart there. -/
theorem State.mode_complete {s : State} {d : Decoded} {ps : List Prim} {f : List Trigger} {w : Work}
    (len : InstrLen) (hm : s.mode = .user) (hr : runPrims d s { s := s, fired := f } ps = .ok w) :
    (s.complete len w).mode = .user := by
  have hw : w.s.mode = .user :=
    runPrims_induct (fun t => t.mode = .user) (fun _ _ hw ht => hw.mode_user hm ht) hr hm
  exact (State.mode_eq_of (s := w.s) (by simp [State.complete]) (by simp [State.complete])).trans hw

theorem Advance.launchedFrom {s t : State} (ha : Advance s t) (hm : s.mode = .user)
    (ht : t.mode = .machine) : s.LaunchedFrom t := by
  cases ha with
  | took e he => exact State.deliver_launchedFrom (s := { s with queue := s.queue.erase e }) hm ht
  | raised n hn e he => exact State.deliver_launchedFrom (s := s.drawn n) hm ht
  | triggered n hn ts t htk hr =>
    rcases State.takeTriggers_cases htk with ⟨-, rfl⟩ | ⟨a, rest, -, -, rfl⟩
    · exact absurd (hm.symm.trans ht) nofun
    · exact State.deliver_launchedFrom (s := { s.drawn n with queue := _ }) hm ht
  | ran i hf hr =>
    cases coreFaults_user hm hf
    rw [State.mode_eq_of (State.retire_cfg _ _ _) (State.retire_sr _ _ _), coreEffect,
      State.mode_relaunchUser, State.mode_returnUser, hm] at ht
    cases ht
  | completed d len w ps f r hd hs hr => exact absurd ((State.mode_complete len hm hr).symm.trans ht) nofun

/-- Settles O60: nothing but the privileged sequence takes a hart from user to machine mode. -/
theorem machineModeIsEnteredOnlyByLaunch : Obligations.MachineModeIsEnteredOnlyByLaunch := by
  unfold Obligations.MachineModeIsEnteredOnlyByLaunch
  intro s t hm h ht
  rcases step_cases h with ⟨-, rfl⟩ | ⟨-, b, u, hb, ha, rfl⟩
  · exact absurd (hm.symm.trans ht) nofun
  · have hsb := State.boundary_sameHart hb
    have hu : u.mode = .machine := (State.mode_eq_of (by simp) (by simp)).symm.trans ht
    have hl := ha.launchedFrom ((State.mode_eq_of hsb.cfg hsb.sr).trans hm) hu
    simpa only [State.LaunchedFrom, hsb.m, hsb.pc, hsb.sr, State.settleAll_pc, State.settleAll_m] using hl

end Sys2Proof.Machine
end

section

namespace Sys2Proof.Machine

/-! ### The 32 bits of a status word -/

/-- Bit j of a status word under the default layout, field by field from bit 0 (10_state.md R79). -/
theorem StatusReg.pack_default_getLsbD (r : StatusReg) {j : Nat} (hj : j < 32) :
    (r.pack {}).getLsbD j
      = if j < 2 then r.rmd.getLsbD j
        else if j < 10 then r.tnd.getLsbD (j - 2)
        else if j < 11 then r.cmd.getLsbD (j - 10)
        else if j < 12 then r.gee.getLsbD (j - 11)
        else if j < 16 then r.hlpre.getLsbD (j - 12)
        else if j < 17 then r.perfce.getLsbD (j - 16)
        else if j < 19 then r.cntu.getLsbD (j - 17)
        else if j < 21 then r.im.getLsbD (j - 19)
        else if j < 22 then r.pmod.getLsbD (j - 21)
        else if j < 23 then r.wdte.getLsbD (j - 22)
        else if j < 27 then r.pwrs.getLsbD (j - 23)
        else if j < 30 then r.hlts.getLsbD (j - 27)
        else r.spare.getLsbD (j - 30) := by
  repeat
    rcases (Nat.lt_add_one_iff_lt_or_eq.1 hj).symm with rfl | hj
    · simp [StatusReg.pack]
  omega

/-- A field of a packed status word, by its bits. -/
theorem StatusReg.extract_pack {r : StatusReg} {lo n : Nat} {f : BitVec n}
    (h : ∀ i < n, (r.pack {}).getLsbD (lo + i) = f.getLsbD i) : (r.pack {}).extractLsb' lo n = f := by
  refine BitVec.eq_of_getLsbD_eq fun i hi => ?_
  rw [BitVec.getLsbD_extractLsb', h i hi]
  simp [hi]

theorem StatusReg.unpack_pack (r : StatusReg) : StatusReg.unpack {} (r.pack {}) = r := by
  obtain ⟨rmd, tnd, cmd, gee, hlpre, perfce, cntu, im, pmod, wdte, pwrs, hlts, spare⟩ := r
  simp only [StatusReg.unpack, StatusReg.mk.injEq]
  refine ⟨?_, ?_, ?_, ?_, ?_, ?_, ?_, ?_, ?_, ?_, ?_, ?_, ?_⟩
  case refine_13 =>
    refine BitVec.eq_of_getLsbD_eq fun i hi => ?_
    rw [BitVec.getLsbD_append, BitVec.getLsbD_extractLsb', BitVec.getLsbD_extractLsb',
      StatusReg.pack_default_getLsbD _ (by omega), StatusReg.pack_default_getLsbD _ (by omega)]
    rcases (by omega : i = 0 ∨ i = 1) with rfl | rfl <;> rfl
  all_goals
    refine StatusReg.extract_pack fun i hi => ?_
    rw [StatusReg.pack_default_getLsbD _ (by omega)]
    repeat
      rcases (Nat.lt_add_one_iff_lt_or_eq.1 hi).symm with rfl | hi
      · rfl
    omega

theorem StatusReg.pack_unpack (v : BitVec 32) : (StatusReg.unpack {} v).pack {} = v := by
  refine BitVec.eq_of_getLsbD_eq fun j hj => ?_
  rw [StatusReg.pack_default_getLsbD _ hj]
  simp only [StatusReg.unpack, BitVec.getLsbD_append, BitVec.getLsbD_extractLsb']
  repeat
    rcases (Nat.lt_add_one_iff_lt_or_eq.1 hj).symm with rfl | hj
    · rfl
  omega

/-- Settles O7: under the default layout every bit of the word is one bit of one field. -/
theorem statusWordRoundTrip : Obligations.StatusWordRoundTrip := by
  unfold Obligations.StatusWordRoundTrip
  exact ⟨StatusReg.unpack_pack, StatusReg.pack_unpack⟩

/-! ### Access to special purpose registers -/

theorem sprDenied_of_absent {cfg : Config} {r : Spr} (h : sprPresent cfg r = false) (mode : Mode) :
    sprDenied cfg mode r = some .inci := by
  simp [sprDenied, h]

theorem sprDenied_of_privileged {cfg : Config} {r : Spr} (h : sprPresent cfg r = true)
    (hp : sprPrivileged r = true) : sprDenied cfg .user r = some .illi := by
  simp [sprDenied, h, hp]

theorem sprDenied_of_permitted {cfg : Config} {mode : Mode} {r : Spr} (h : sprPresent cfg r = true)
    (hp : ¬(mode = .user ∧ sprPrivileged r = true)) : sprDenied cfg mode r = none := by
  cases mode <;> simp_all [sprDenied]

theorem State.readSpr_of_denied {s : State} {mode : Mode} {r : Spr} {e : EventName}
    (h : sprDenied s.cfg mode r = some e) : s.readSpr mode r = .error e := by
  simp [State.readSpr, h]

theorem State.writeSpr_of_denied {s : State} {mode : Mode} {r : Spr} {e : EventName}
    (h : sprDenied s.cfg mode r = some e) (v : Nat) : s.writeSpr mode r v = .error e := by
  simp [State.writeSpr, sprWriteDenied, h]

theorem State.readSpr_of_permitted {s : State} {mode : Mode} {r : Spr}
    (h : sprDenied s.cfg mode r = none) : s.readSpr mode r = .ok (s.sprValue r) := by
  simp [State.readSpr, h]

/-- A permitted write is made, unless it gives VSH an illegal shape (10_state.md R48). -/
theorem State.writeSpr_of_permitted {s : State} {mode : Mode} {r : Spr} (v : Nat)
    (h : sprDenied s.cfg mode r = none) :
    s.writeSpr mode r v = if r = .vsh ∧ BitVec.ofNat 8 v ∈ s.cfg.vshIllegal then .error .illi
      else .ok (s.setSpr mode r v) := by
  simp only [State.writeSpr, sprWriteDenied, h, List.contains_iff_mem]
  split <;> simp_all

theorem sprPrivileged_iff (r : Spr) :
    sprPrivileged r = true ↔ r ∈ [Spr.mepc, .mesr, .mec, .med, .mehp, .met0, .met1, .pfpa,
        .sgprbu, .vgprbu, .hlprbu, .perfcbu, .pid, .tid, .hpid, .tptr, .wdt] := by
  cases r <;> decide

theorem sprPresent_iff (cfg : Config) (r : Spr) :
    sprPresent cfg r = true ↔
      r ∈ [Spr.pc, .sr, .mepc, .mesr, .mec, .med, .mehp, .met0, .met1]
        ∨ (r = .vsh ∧ cfg.has .vc = true)
        ∨ (r ∈ [Spr.vm1, .vm2, .vm3] ∧ cfg.has .vf = true)
        ∨ (r ∈ [Spr.uepc, .uesr, .uec, .ued, .uehp, .uet0, .uet1, .pfpa, .pid, .tid, .hpid, .tptr, .wdt]
          ∧ cfg.has .user = true)
        ∨ (cfg.has .user = true ∧ cfg.has .ctxr = true
          ∧ (r = .sgprbu ∨ (r = .vgprbu ∧ cfg.mxvl ≠ 0) ∨ (r = .hlprbu ∧ cfg.has .hlpr = true)
            ∨ (r = .perfcbu ∧ cfg.has .perfc = true))) := by
  cases r <;> simp [sprPresent, and_assoc]

/-- Settles O8: SR is unprivileged and always there, and a user-mode write of it takes the unprivileged
fields alone. -/
theorem userWriteOfStatusKeepsPrivilegedFields : Obligations.UserWriteOfStatusKeepsPrivilegedFields := by
  unfold Obligations.UserWriteOfStatusKeepsPrivilegedFields
  intro s v hs new
  have hd : sprDenied s.cfg .user .sr = none := rfl
  obtain ⟨him, hpmod, hwdte, hpwrs, hhlts⟩ := StatusReg.privileged_kept hs new
  exact ⟨State.readSpr_of_permitted hd, s.setSpr .user .sr v, State.writeSpr_of_permitted v hd, him, hpmod,
    hwdte, hpwrs, hhlts, rfl, rfl, rfl, rfl, rfl, rfl, rfl⟩

/-- Settles O9: absence is asked before privilege, and the illegal shape last. -/
theorem specialRegisterPrivilege : Obligations.SpecialRegisterPrivilege := by
  unfold Obligations.SpecialRegisterPrivilege
  intro s mode r v
  refine ⟨fun ha => ?_, fun hp hm hr => ?_, fun hp hr => ?_, sprPrivileged_iff r, sprPresent_iff s.cfg r⟩
  · have hd := sprDenied_of_absent ha mode
    exact ⟨State.readSpr_of_denied hd, State.writeSpr_of_denied hd v⟩
  · subst hm
    have hd := sprDenied_of_privileged hp hr
    exact ⟨State.readSpr_of_denied hd, State.writeSpr_of_denied hd v⟩
  · have hd := sprDenied_of_permitted hp hr
    refine ⟨State.readSpr_of_permitted hd, ?_⟩
    rw [State.writeSpr_of_permitted v hd]
    split <;> rfl

/-! ### What a written special purpose register reads as -/

/-- A write of one special purpose register leaves every other one. -/
theorem State.sprValue_setSpr_ne (s : State) (mode : Mode) {r q : Spr} (v : Nat) (h : q ≠ r) :
    (s.setSpr mode r v).sprValue q = s.sprValue q := by
  cases r <;> cases q <;> first | rfl | exact absurd rfl h

theorem Config.vmask_toNat (cfg : Config) (n : Nat) : (cfg.vmask n).toNat = n % 2 ^ (cfg.mxvl / 8) := by
  have hle : cfg.mxvl / 8 ≤ 64 := by
    have := cfg.mxvl_le
    omega
  simp only [Config.vmask, BitVec.toNat_ofNat]
  exact Nat.mod_eq_of_lt (Nat.lt_of_lt_of_le (Nat.mod_lt _ (Nat.two_pow_pos _))
    (Nat.pow_le_pow_right (by decide) hle))

theorem bankSize_le (code : BitVec 2) : bankSize code ≤ 32 := by
  revert code
  decide

theorem Config.srfs_le (cfg : Config) : cfg.srfs ≤ 32 := bankSize_le _

theorem Config.vrfs_le (cfg : Config) : cfg.vrfs ≤ 32 := by
  unfold Config.vrfs
  split
  · decide
  · exact bankSize_le _

theorem Config.hrfs_le (cfg : Config) : cfg.hrfs ≤ 32 := by
  unfold Config.hrfs
  split
  · exact bankSize_le _
  · decide

theorem Config.crfs_le (cfg : Config) : cfg.crfs ≤ 32 := by
  unfold Config.crfs
  split
  · exact bankSize_le _
  · decide

/-- A usage register holds a number cut to as many bits as its bank has registers. -/
theorem usage_toNat (v : Nat) {n : Nat} (h : n ≤ 32) : (BitVec.ofNat 32 (v % 2 ^ n)).toNat = v % 2 ^ n := by
  rw [BitVec.toNat_ofNat]
  exact Nat.mod_eq_of_lt (Nat.lt_of_lt_of_le (Nat.mod_lt _ (Nat.two_pow_pos _))
    (Nat.pow_le_pow_right (by decide) h))

theorem State.sprValue_setSpr_word (s : State) (mode : Mode) {r : Spr} (v : Nat)
    (h : r ∈ [Spr.uepc, .ued, .uehp, .uet0, .uet1, .mepc, .med, .mehp, .met0, .met1, .pfpa, .tptr]) :
    (s.setSpr mode r v).sprValue r = v % 2 ^ s.cfg.wlen := by
  repeat
    rcases List.mem_cons.1 h with rfl | h
    · exact Config.word_toNat _ _
  cases h

theorem State.sprValue_setSpr_cause (s : State) (mode : Mode) {r : Spr} (v : Nat)
    (h : r ∈ [Spr.uec, .mec]) : (s.setSpr mode r v).sprValue r = v % 2 ^ 16 := by
  repeat
    rcases List.mem_cons.1 h with rfl | h
    · exact BitVec.toNat_ofNat _ _
  cases h

theorem State.sprValue_setSpr_number (s : State) (mode : Mode) {r : Spr} (v : Nat)
    (h : r ∈ [Spr.pid, .tid, .hpid, .wdt]) : (s.setSpr mode r v).sprValue r = v % 2 ^ 32 := by
  repeat
    rcases List.mem_cons.1 h with rfl | h
    · exact BitVec.toNat_ofNat _ _
  cases h

theorem State.sprValue_setSpr_mask (s : State) (mode : Mode) {r : Spr} (v : Nat)
    (h : r ∈ [Spr.vm1, .vm2, .vm3]) : (s.setSpr mode r v).sprValue r = v % 2 ^ (s.cfg.mxvl / 8) := by
  repeat
    rcases List.mem_cons.1 h with rfl | h
    · exact Config.vmask_toNat _ _
  cases h

/-- Settles O10: a permitted write is `setSpr`, which sets the one field of the register. -/
theorem specialRegisterWriteReadsBack : Obligations.SpecialRegisterWriteReadsBack := by
  unfold Obligations.SpecialRegisterWriteReadsBack
  intro s t mode r v h
  obtain ⟨-, rfl⟩ := State.writeSpr_ok h
  refine ⟨fun q => s.sprValue_setSpr_ne mode v, s.sprValue_setSpr_word mode v,
    s.sprValue_setSpr_cause mode v, s.sprValue_setSpr_number mode v, ?_, s.sprValue_setSpr_mask mode v,
    ?_, ?_, ?_, ?_, ?_, ?_, ?_, ?_, fun hl hr => ?_⟩
  · rintro rfl
    exact BitVec.toNat_ofNat _ _
  · rintro rfl
    exact usage_toNat v (Config.srfs_le s.cfg)
  · rintro rfl
    exact usage_toNat v (Config.vrfs_le s.cfg)
  · rintro rfl
    exact usage_toNat v (Config.hrfs_le s.cfg)
  · rintro rfl
    exact usage_toNat v (Config.crfs_le s.cfg)
  · rintro rfl
    rfl
  · rintro rfl rfl
    rfl
  · rintro rfl rfl
    rfl
  · rintro rfl rfl
    rfl
  · have hpack : ((StatusReg.unpack s.cfg.srLayout (BitVec.ofNat 32 v)).pack s.cfg.srLayout).toNat
        = v % 2 ^ 32 := by rw [hl, StatusReg.pack_unpack, BitVec.toNat_ofNat]
    rcases hr with rfl | ⟨rfl, rfl⟩ <;> exact hpack

/-! ### Writes of the register banks -/

theorem State.writeX_x_self {s : State} {i : Nat} (v : Nat) (hi : i < s.x.length) :
    (s.writeX i v).x[i]? = some (s.cfg.word v) := by
  rw [State.writeX_x, List.getElem?_set_self hi]

theorem State.writeV_vr_self {s : State} {i : Nat} (v : Nat) (hi : i < s.vr.length) :
    (s.writeV .unmasked i v).vr[i]? = some (s.cfg.vword v) := by
  rw [State.writeV_vr, List.getElem?_set_self hi]
  rfl

/-- A written helper register keeps what was not written of it: its mode, or its value. -/
theorem State.writeHelper_self {s : State} {i : Nat} (v : Nat) (hi : i < s.h.length) :
    ((s.writeHelperVal i v).h[i]?).map (·.val) = some (s.cfg.word v)
      ∧ ((s.writeHelperVal i v).h[i]?).map (·.mode) = (s.h[i]?).map (·.mode)
      ∧ ((s.writeHelperMode i v).h[i]?).map (·.mode) = some (BitVec.ofNat 8 v)
      ∧ ((s.writeHelperMode i v).h[i]?).map (·.val) = (s.h[i]?).map (·.val) := by
  have hold : s.h[i]? = some (s.h.getD i {}) := by
    rw [List.getD_eq_getElem?_getD, List.getElem?_eq_getElem hi, Option.getD_some]
  rw [State.writeHelperVal_h, State.writeHelperMode_h, List.getElem?_set_self hi,
    List.getElem?_set_self hi, hold]
  simp only [Option.map_some, and_self]

/-- A written counter keeps what was not written of it: its mode, or its value. -/
theorem State.writeCounter_self {s : State} {i : Nat} (v : Nat) (hi : i < s.c.length) :
    ((s.writeCounterVal i v).c[i]?).map (·.val) = some (s.cfg.counter v)
      ∧ ((s.writeCounterVal i v).c[i]?).map (·.mode) = (s.c[i]?).map (·.mode)
      ∧ ((s.writeCounterMode i v).c[i]?).map (·.mode) = some (BitVec.ofNat 8 v)
      ∧ ((s.writeCounterMode i v).c[i]?).map (·.val) = (s.c[i]?).map (·.val) := by
  have hold : s.c[i]? = some (s.c.getD i {}) := by
    rw [List.getD_eq_getElem?_getD, List.getElem?_eq_getElem hi, Option.getD_some]
  rw [State.writeCounterVal_c, State.writeCounterMode_c, List.getElem?_set_self hi,
    List.getElem?_set_self hi, hold]
  simp only [Option.map_some, and_self]

/-- Two values have a property when each has it. -/
theorem forall_mem_pair {α : Type} {P : α → Prop} {a b : α} (ha : P a) (hb : P b) : ∀ t ∈ [a, b], P t :=
  List.forall_mem_cons.2 ⟨ha, List.forall_mem_cons.2 ⟨hb, nofun⟩⟩

/-- Settles O11: each write sets one entry of one list and marks one bit of one usage register. -/
theorem bankWriteSetsUsage : Obligations.BankWriteSetsUsage := by
  unfold Obligations.BankWriteSetsUsage
  intro s i v j m
  have hne : ∀ {α : Type} (l : List α) (a : α), j ≠ i → (l.set i a)[j]? = l[j]? :=
    fun l a h => List.getElem?_set_ne h.symm
  refine ⟨⟨State.writeX_x_self v, hne s.x _⟩, ⟨State.writeV_vr_self v, hne s.vr _⟩,
    ⟨State.writeHelper_self v, fun hj => ⟨hne s.h _ hj, hne s.h _ hj⟩⟩,
    ⟨State.writeCounter_self v, fun hj => ⟨hne s.c _ hj, hne s.c _ hj⟩⟩,
    ⟨rfl, rfl, forall_mem_pair rfl rfl⟩, forall_mem_pair rfl rfl, fun hj => ?_, rfl, rfl,
    forall_mem_pair rfl rfl, forall_mem_pair rfl rfl⟩
  exact ⟨markUsed_bit s.cfg s.cfg.srfs s.usage.sgprb i hj, markUsed_bit s.cfg s.cfg.vrfs s.usage.vgprb i hj,
    markUsed_bit s.cfg s.cfg.hrfs s.usage.hlprb i hj, markUsed_bit s.cfg s.cfg.hrfs s.usage.hlprb i hj,
    markUsed_bit s.cfg s.cfg.crfs s.usage.perfcb i hj, markUsed_bit s.cfg s.cfg.crfs s.usage.perfcb i hj⟩

/-- Mask bit k covers bits 8k to 8k+7 of a vector register (10_state.md R29). -/
theorem maskBits_getLsbD (m : BitVec 64) (inverted : Bool) {j : Nat} (hj : j < 512) :
    (maskBits m inverted).getLsbD j = (m.getLsbD (j / 8) != inverted) := by
  rw [maskBits, BitVec.getLsbD_ofNat, testBit_bitsToNat, List.getD_eq_getElem?_getD, List.getElem?_map,
    List.getElem?_range hj]
  simp [hj]

theorem State.masked_getLsbD (s : State) (r : MaskReg) (inverted : Bool) (old new : VWord) {j : Nat}
    (hj : j < 512) :
    (s.masked (.masked r inverted) old new).getLsbD j
      = if (s.maskValue r).getLsbD (j / 8) = !inverted then new.getLsbD j else old.getLsbD j := by
  simp only [State.masked, BitVec.getLsbD_or, BitVec.getLsbD_and, BitVec.getLsbD_not,
    maskBits_getLsbD _ _ hj, hj, decide_true, Bool.true_and]
  cases (s.maskValue r).getLsbD (j / 8) <;> cases inverted <;> simp

/-- Settles O12: the mask picks each bit of the new register from the new or the old value. -/
theorem maskedVectorWriteKeepsOtherBytes : Obligations.MaskedVectorWriteKeepsOtherBytes := by
  unfold Obligations.MaskedVectorWriteKeepsOtherBytes
  intro s r inverted
  refine ⟨fun old new j hj => s.masked_getLsbD r inverted old new hj, fun i v old hold => ?_⟩
  have hi := (List.getElem?_eq_some_iff.1 hold).1
  refine ⟨_, List.getElem?_set_self hi, fun j hj => ?_⟩
  rw [State.masked_getLsbD _ _ _ _ _ hj, List.getD_eq_getElem?_getD, hold, Option.getD_some]

end Sys2Proof.Machine
end

section

namespace Sys2Proof.Machine

/-! ### Which sequence delivers an event -/

theorem State.deliver_of_promoting {s : State} {e : Event} (h : promoting (e.name.kind s.cfg) = true) :
    s.deliver e = s.launchMachine e.cause e.data := if_pos h

theorem State.deliver_of_machine {s : State} {e : Event} (h : s.mode = .machine) :
    s.deliver e = s.launchMachine e.cause e.data := by
  simp only [State.deliver, h, ite_self]

theorem State.deliver_of_user {s : State} {e : Event} (hp : promoting (e.name.kind s.cfg) = false)
    (h : s.mode = .user) : s.deliver e = s.launchUser e.cause e.data := by
  simp [State.deliver, h, hp]

/-- The default test of R241 asks the identifier of the level's cause register. -/
theorem State.criticalUnsaved_of_default {s : State} (h : s.cfg.criticalTest = .causeNonzero) (l : Mode) :
    s.criticalUnsaved l = (causeId (s.eventRegs l).ec != 0) := by
  simp only [State.criticalUnsaved, h]

/-- Settles O15: the type of the event and the mode choose the level, and that level's own cause register
decides between the halt and the sequence. -/
theorem doubleEventHaltsTheHart : Obligations.DoubleEventHaltsTheHart := by
  unfold Obligations.DoubleEventHaltsTheHart
  intro s e
  constructor
  · intro h
    have hd : s.deliver e = s.launchMachine e.cause e.data :=
      h.elim State.deliver_of_promoting State.deliver_of_machine
    rw [hd]
    refine ⟨rfl, fun ht hc => ?_, fun ht hc => ?_⟩
    · exact State.launchMachine_of_unsaved _ _
        ((s.criticalUnsaved_of_default ht .machine).trans (bne_iff_ne.2 hc))
    · have hs : s.criticalUnsaved .machine = false :=
        (s.criticalUnsaved_of_default ht .machine).trans (bne_eq_false_iff_eq.2 hc)
      exact State.launchMachine_of_saved _ _ hs ▸ State.enterMachine_trapped _ _ _
  · intro hp hm
    rw [State.deliver_of_user hp hm]
    refine ⟨rfl, fun ht hc => ?_, fun ht hc => ?_⟩
    · exact State.launchUser_of_unsaved _ _
        ((s.criticalUnsaved_of_default ht .user).trans (bne_iff_ne.2 hc))
    · have hs : s.criticalUnsaved .user = false :=
        (s.criticalUnsaved_of_default ht .user).trans (bne_eq_false_iff_eq.2 hc)
      exact State.launchUser_of_saved _ _ hs ▸ State.enterUser_trapped _ _ _

theorem promoting_iff (k : EventKind) :
    promoting k = true ↔ k ∈ [EventKind.fault, .ioInterrupt, .ipcInterrupt] := by
  cases k <;> decide

/-- Without USER the only mode is machine mode (10_state.md R87). -/
theorem State.mode_of_no_user {s : State} (h : s.cfg.has .user = false) : s.mode = .machine := by
  simp [State.mode, StatusReg.mode, h]

/-- Settles O16: what promotes runs the privileged sequence, which sets PMOD to 0; what does not runs the
sequence of the mode it finds. -/
theorem eventRouting : Obligations.EventRouting := by
  unfold Obligations.EventRouting
  intro s e
  refine ⟨fun hk hc => ?_, fun hk => ?_, rfl, fun hu => ⟨State.mode_of_no_user hu, ?_⟩⟩
  · rw [State.deliver_of_promoting ((promoting_iff _).2 hk), State.launchMachine_of_saved _ _ hc]
    exact State.mode_enterMachine _ _ _
  · rcases State.deliver_cases s e with ⟨hd, -⟩ | ⟨hd, -, hp⟩ | ⟨hd, -, hm, -⟩ <;> rw [hd]
    · exact State.mode_halt _ _
    · rw [hk] at hp
      rw [State.mode_enterMachine, hp.resolve_left nofun]
    · exact State.mode_enterUser _ _ _
  · refine State.mode_of_no_user ?_
    rw [State.deliver_cfg]
    exact hu

/-! ### What the five instructions leave unchanged -/

theorem State.SameElsewhere.trans {a b c : State} (h1 : a.SameElsewhere b) (h2 : b.SameElsewhere c) :
    a.SameElsewhere c := by
  constructor <;> simp [h1.cfg, h1.x, h1.vr, h1.h, h1.vsh, h1.vm, h1.pfpa, h1.usage, h1.ids, h1.wdt, h1.queue,
    h1.memory, h1.dirty, h1.racing, h1.inputs, h2.cfg, h2.x, h2.vr, h2.h, h2.vsh, h2.vm, h2.pfpa, h2.usage,
    h2.ids, h2.wdt, h2.queue, h2.memory, h2.dirty, h2.racing, h2.inputs]

theorem State.halt_sameElsewhere (s : State) (v : BitVec 3) : s.SameElsewhere (s.halt v) := by
  constructor <;> simp

theorem State.retire_sameElsewhere (s0 s : State) (k : Retired) : s.SameElsewhere (State.retire s0 k s) := by
  constructor <;> simp

theorem State.relaunchMachine_sameElsewhere (s : State) : s.SameElsewhere s.relaunchMachine := by
  rcases State.relaunchMachine_cases s with ⟨h, -⟩ | ⟨h, -⟩ <;> rw [h]
  · constructor <;> simp
  · exact State.enterMachine_sameElsewhere _ _ _

theorem State.relaunchUser_sameElsewhere (s : State) : s.SameElsewhere s.relaunchUser := by
  rcases State.relaunchUser_cases s with ⟨h, -⟩ | ⟨h, -⟩ <;> rw [h]
  · constructor <;> simp
  · exact State.enterUser_sameElsewhere _ _ _

theorem State.deliver_sameElsewhere (s : State) (e : Event) : s.SameElsewhere (s.deliver e) := by
  rcases State.deliver_cases s e with ⟨h, -⟩ | ⟨h, -⟩ | ⟨h, -⟩ <;> rw [h]
  · exact s.halt_sameElsewhere 2
  · exact State.enterMachine_sameElsewhere _ _ _
  · exact State.enterUser_sameElsewhere _ _ _

theorem coreEffect_sameElsewhere (i : Instr) (s : State) : s.SameElsewhere (coreEffect i s) := by
  cases i with
  | hlt => exact s.halt_sameElsewhere 1
  | eret =>
    have h : s.SameElsewhere s.returnMachine := by constructor <;> simp
    exact h.trans s.returnMachine.relaunchMachine_sameElsewhere
  | ueret =>
    have h : s.SameElsewhere s.returnUser := by constructor <;> simp
    exact h.trans s.returnUser.relaunchUser_sameElsewhere
  | uret =>
    have h : s.SameElsewhere s.demote := by constructor <;> simp
    exact h.trans s.demote.relaunchUser_sameElsewhere
  | syscall => constructor <;> simp [coreEffect]

/-- The counters and what the handlers keep in the event registers: pointers and temporaries. -/
def State.sameHandlers (s t : State) : Prop :=
  t.c = s.c ∧ t.m.ehp = s.m.ehp ∧ t.m.et0 = s.m.et0 ∧ t.m.et1 = s.m.et1
    ∧ t.u.ehp = s.u.ehp ∧ t.u.et0 = s.u.et0 ∧ t.u.et1 = s.u.et1

theorem State.sameHandlers.refl (s : State) : s.sameHandlers s := ⟨rfl, rfl, rfl, rfl, rfl, rfl, rfl⟩

theorem State.deliver_sameHandlers (s : State) (e : Event) : s.sameHandlers (s.deliver e) := by
  rcases State.deliver_cases s e with ⟨h, -⟩ | ⟨h, -⟩ | ⟨h, -⟩ <;> rw [h] <;> exact .refl s

theorem State.relaunchMachine_sameHandlers (s : State) : s.sameHandlers s.relaunchMachine := by
  rcases State.relaunchMachine_cases s with ⟨h, -⟩ | ⟨h, -⟩ <;> rw [h] <;> exact .refl s

theorem State.relaunchUser_sameHandlers (s : State) : s.sameHandlers s.relaunchUser := by
  rcases State.relaunchUser_cases s with ⟨h, -⟩ | ⟨h, -⟩ <;> rw [h] <;> exact .refl s

theorem coreEffect_sameHandlers (i : Instr) (s : State) : s.sameHandlers (coreEffect i s) := by
  cases i with
  | hlt => exact .refl s
  | eret => exact s.returnMachine.relaunchMachine_sameHandlers
  | ueret => exact s.returnUser.relaunchUser_sameHandlers
  | uret => exact s.demote.relaunchUser_sameHandlers
  | syscall => exact .refl s

/-- Of an instruction that is no load, store or branch, the counters in mode 1 take note. -/
theorem countsInstr_default (k : Counts) : countsInstr {} k = true ↔ k = .instructions := by
  cases k <;> simp [countsInstr]

/-- An instruction that leaves the counters alone is counted once. -/
theorem State.retire_countedOnce {s t : State} (hcfg : t.cfg = s.cfg) (hc : t.c = s.c) :
    s.CountedOnce (State.retire s {} t) := by
  intro i
  cases hi : s.c[i]? with
  | none =>
    have hlen : (State.retire s {} t).c.length = s.c.length :=
      (State.retire_length {} (by rw [hc])).trans (by rw [hc])
    rw [Option.map_none, List.getElem?_eq_none_iff, hlen]
    exact List.getElem?_eq_none_iff.1 hi
  | some r =>
    rw [State.retire_getElem? hi (hc ▸ hi), hcfg, Option.map_some]
    simp only [countsInstr_default, CounterReg.count]

theorem coreEffect_countedOnce (i : Instr) (s : State) :
    s.CountedOnce (State.retire s {} (coreEffect i s)) :=
  State.retire_countedOnce (coreEffect_keeps i s).1 (coreEffect_sameHandlers i s).1

theorem coreEffect_retired_sameElsewhere (i : Instr) (s : State) :
    s.SameElsewhere (State.retire s {} (coreEffect i s)) :=
  (coreEffect_sameElsewhere i s).trans (State.retire_sameElsewhere _ _ _)

/-- Counting once leaves the number of counters, and those that count something else. -/
theorem State.CountedOnce.others {s t : State} (h : s.CountedOnce t) {j : Nat} {r : CounterReg}
    (hj : s.c[j]? = some r) (hr : countsOf s.cfg r.mode ≠ .instructions) : t.c[j]? = some r := by
  rw [h j, hj, Option.map_some, if_neg fun hc => hr hc.2]

/-- Settles O26: an instruction delivers an event, or has its effect and is counted. -/
theorem coreInstructionFrame : Obligations.CoreInstructionFrame := by
  unfold Obligations.CoreInstructionFrame
  intro i s t h
  rw [exec_eq] at h
  split at h
  · cases h
    obtain ⟨hc, hrest⟩ := s.deliver_sameHandlers { name := coreFault i s }
    refine ⟨s.deliver_sameElsewhere _, by rw [hc], fun j r hj _ => by rw [hc, hj], hrest⟩
  · split at h <;> cases h
    obtain ⟨hc, hrest⟩ := coreEffect_sameHandlers i s
    refine ⟨coreEffect_retired_sameElsewhere i s,
      (State.retire_length {} (by rw [hc])).trans (by rw [hc]),
      fun j r hj hr => (coreEffect_countedOnce i s).others hj hr, ?_⟩
    rw [State.retire_m, State.retire_u]
    exact hrest

/-! ### The faults of the five instructions -/

theorem coreFault_promoting (i : Instr) (s : State) : promoting ((coreFault i s).kind s.cfg) = true := by
  cases i with
  | uret | syscall =>
    simp only [coreFault]
    split <;> rfl
  | _ => rfl

theorem exec_of_fault {i : Instr} {s : State} (h : coreFaults s i = true) :
    exec i s = .next (s.launchMachine (Event.cause { name := coreFault i s }) none) := by
  rw [exec_eq, if_pos h, State.deliver_of_promoting (coreFault_promoting i s)]

/-- A fault of one of the five instructions where the machine level's critical state is saved. -/
theorem exec_of_fault_saved {i : Instr} {s : State} (h : coreFaults s i = true)
    (hc : s.criticalUnsaved .machine = false) :
    ∃ t, exec i s = .next t ∧ s.TrappedMachine t (Event.cause { name := coreFault i s }) none
      ∧ t.mode = .machine := by
  refine ⟨_, exec_of_fault h, ?_⟩
  rw [State.launchMachine_of_saved _ _ hc]
  exact ⟨State.enterMachine_trapped _ _ _, State.mode_enterMachine _ _ _⟩

/-- The faults of the five instructions (40_event_return_and_system.md R181 to R186). -/
theorem coreFaults_iff (s : State) (i : Instr) :
    coreFaults s i = true ↔
      (s.mode = .user ∧ i ∈ [Instr.hlt, .eret, .uret])
        ∨ (s.cfg.has .user = false ∧ i ∈ [Instr.ueret, .uret, .syscall]) ∨ i = .syscall := by
  cases i <;> simp [coreFaults, or_comm]

/-- Settles O22: with USER the system call's one fault is SYSC, code 84. -/
theorem syscallTraps : Obligations.SyscallTraps := by
  unfold Obligations.SyscallTraps
  intro s hu hc
  have h := exec_of_fault_saved (i := .syscall) rfl hc
  rwa [show coreFault .syscall s = .sysc from if_pos hu] at h

/-- Settles O23: every fault of the five instructions promotes, so the machine level's state decides. -/
theorem syscallInUnsavedHandlerHalts : Obligations.SyscallInUnsavedHandlerHalts := by
  unfold Obligations.SyscallInUnsavedHandlerHalts
  intro i s
  refine ⟨coreFaults_iff s i, fun hf hc => ?_⟩
  rw [exec_of_fault hf, State.launchMachine_of_unsaved _ _ hc]
  rfl

/-- Settles O24: in user mode USER is implemented, so the fault of all three is ILLI. -/
theorem privilegedInstructionsTrapInUserMode : Obligations.PrivilegedInstructionsTrapInUserMode := by
  unfold Obligations.PrivilegedInstructionsTrapInUserMode
  intro i s hi hm hc
  have h := exec_of_fault_saved ((coreFaults_iff s i).2 (.inl ⟨hm, hi⟩)) hc
  have hn : coreFault i s = .illi := by
    have hu := (State.has_user_of_mode hm).1
    simp only [List.mem_cons, List.not_mem_nil, or_false] at hi
    rcases hi with rfl | rfl | rfl <;> simp [coreFault, hu]
  rwa [hn] at h

/-- Settles O25: absence of USER is asked before the mode. -/
theorem userInstructionsNeedUser : Obligations.UserInstructionsNeedUser := by
  unfold Obligations.UserInstructionsNeedUser
  intro i s hi hu hc
  obtain ⟨t, ht, htrap, -⟩ := exec_of_fault_saved ((coreFaults_iff s i).2 (.inr (.inl ⟨hu, hi⟩))) hc
  have hn : coreFault i s = .inci := by
    simp only [List.mem_cons, List.not_mem_nil, or_false] at hi
    rcases hi with rfl | rfl | rfl <;> simp [coreFault, hu]
  rw [hn] at htrap
  exact ⟨t, ht, htrap⟩

/-! ### The effects of the five instructions -/

theorem exec_of_refused {i : Instr} {s : State} (hf : coreFaults s i = false) (hr : coreRefused i s = true) :
    exec i s = .refused .transactional := by
  simp [exec_eq, hf, hr]

theorem exec_of_effect {i : Instr} {s : State} (hf : coreFaults s i = false) (hr : coreRefused i s = false) :
    exec i s = .next (State.retire s {} (coreEffect i s)) := by
  simp [exec_eq, hf, hr]

/-- A relaunch inside a transaction: the status just restored is that of one, and an identifier is there. -/
theorem relaunch_refused {tnd : BitVec 8} {ec : BitVec 16} (ht : tnd ≠ 0) (hc : causeId ec ≠ 0) :
    (tnd != 0 && causeId ec != 0) = true := by
  exact Bool.and_eq_true_iff.2 ⟨bne_iff_ne.2 ht, bne_iff_ne.2 hc⟩

theorem relaunch_allowed {tnd : BitVec 8} {ec : BitVec 16} (h : tnd = 0 ∨ causeId ec = 0) :
    (tnd != 0 && causeId ec != 0) = false := by
  rcases h with h | h <;> simp [h]

/-- Settles O29: the halt state is asked before anything else of a legal configuration. -/
theorem haltedHartStaysHalted : Obligations.HaltedHartStaysHalted := by
  unfold Obligations.HaltedHartStaysHalted
  intro s hp hh
  rcases hh with hh | hh <;> simp [step, State.cycle, hp, hh]

/-- Settles O18: HLT sets HLTS and is counted, and a step of the hart it halted is none. -/
theorem hltHaltsTheHart : Obligations.HltHaltsTheHart := by
  unfold Obligations.HltHaltsTheHart
  intro s hm
  have hf : coreFaults s .hlt = false := by simp [coreFaults, hm]
  refine ⟨_, exec_of_effect hf rfl, State.retire_sr _ _ _, State.retire_pc _ _ _, State.retire_m _ _ _,
    State.retire_u _ _ _, coreEffect_countedOnce .hlt s, coreEffect_retired_sameElsewhere .hlt s, fun hp => ?_⟩
  refine haltedHartStaysHalted _ ?_ (.inl ?_)
  · rw [State.retire_cfg]
    exact hp
  · rw [State.retire_sr]
    rfl

/-- Settles O19: the returning sequence, and with an identifier in MEC the privileged sequence from the
state it reaches. -/
theorem eretReturns : Obligations.EretReturns := by
  unfold Obligations.EretReturns
  intro s hm
  have hf : coreFaults s .eret = false := by simp [coreFaults, hm]
  refine ⟨fun ht hc => exec_of_refused hf (relaunch_refused ht hc), fun h =>
    ⟨_, exec_of_effect hf (relaunch_allowed h), ?_⟩⟩
  have hcount := coreEffect_countedOnce .eret s
  have hsame := coreEffect_retired_sameElsewhere .eret s
  simp only [coreEffect] at hcount hsame
  simp only [State.retire_sr, State.retire_pc, State.retire_m, State.retire_u, coreEffect]
  rcases s.returnMachine.relaunchMachine_cases with ⟨hr, hc⟩ | ⟨hr, hc⟩ <;>
    rw [hr] at hcount hsame ⊢
  · rw [if_pos (show causeId s.m.ec = 0 from hc)]
    exact ⟨⟨rfl, rfl, rfl, rfl⟩, rfl, rfl, rfl, rfl, rfl, rfl, hcount, hsame⟩
  · rw [if_neg (show causeId s.m.ec ≠ 0 from hc)]
    exact ⟨⟨rfl, rfl, rfl, rfl⟩, rfl, rfl, rfl, rfl, rfl, rfl, hcount, hsame⟩

/-- What UERET and URET leave: the state after the unprivileged returning sequence `r`, and with an
identifier in UEC the unprivileged sequence run again from there (60_exceptions.md R248). -/
theorem retired_relaunchUser {s r : State} {i : Instr} (hi : coreEffect i s = r.relaunchUser)
    (hc : r.cfg = s.cfg) (hu : r.u = { s.u with inHandler := false }) (hm : r.m = s.m) :
    let t := State.retire s {} (coreEffect i s)
    (if causeId s.u.ec = 0 then
        t.sr = r.sr ∧ t.pc = r.pc ∧ t.u.epc = s.u.epc ∧ t.u.esr = s.u.esr
      else t.sr = r.sr.quiet s.cfg ∧ t.pc = s.u.ehp ∧ t.u.epc = r.pc ∧ t.u.esr = r.sr)
    ∧ t.mode = r.mode
    ∧ t.u.ec = s.u.ec ∧ t.u.ed = s.u.ed ∧ t.u.ehp = s.u.ehp ∧ t.u.et0 = s.u.et0
    ∧ t.u.et1 = s.u.et1 ∧ t.m = s.m ∧ s.CountedOnce t ∧ s.SameElsewhere t := by
  have hcount := coreEffect_countedOnce i s
  have hsame := coreEffect_retired_sameElsewhere i s
  have hmode : (State.retire s {} (coreEffect i s)).mode = r.mode :=
    (State.mode_eq_of (State.retire_cfg _ _ _) (State.retire_sr _ _ _)).trans
      (hi ▸ State.mode_relaunchUser r)
  dsimp only
  rw [hmode]
  rw [hi] at hcount hsame ⊢
  simp only [State.retire_sr, State.retire_pc, State.retire_m, State.retire_u]
  have hec : r.u.ec = s.u.ec := by rw [hu]
  rcases r.relaunchUser_cases with ⟨hr, h0⟩ | ⟨hr, h0⟩ <;> rw [hr] at hcount hsame ⊢ <;> rw [hec] at h0
  · rw [if_pos h0, hu]
    exact ⟨⟨rfl, rfl, rfl, rfl⟩, trivial, rfl, rfl, rfl, rfl, rfl, hm, hcount, hsame⟩
  · rw [if_neg h0]
    simpa [EventRegs.saved, hu, hc, hm] using And.intro hcount hsame

/-- Settles O20: the unprivileged returning sequence leaves the mode. -/
theorem ueretReturns : Obligations.UeretReturns := by
  unfold Obligations.UeretReturns
  intro s hu
  have hf : coreFaults s .ueret = false := by simp [coreFaults, hu]
  refine ⟨fun ht hc => exec_of_refused hf (relaunch_refused ht hc), fun h =>
    ⟨_, exec_of_effect hf (relaunch_allowed h), ?_⟩⟩
  rw [← s.mode_returnUser]
  exact retired_relaunchUser (r := s.returnUser) rfl rfl rfl rfl

theorem State.mode_demote {s : State} (hu : s.cfg.has .user = true) : s.demote.mode = .user := by
  simp [State.mode, StatusReg.mode, hu]

/-- Settles O21: the demotion sets PMOD, and the unprivileged sequence leaves it. -/
theorem uretDemotes : Obligations.UretDemotes := by
  unfold Obligations.UretDemotes
  intro s hu hm
  have hf : coreFaults s .uret = false := by simp [coreFaults, hm, hu]
  refine ⟨fun ht hc => exec_of_refused hf (relaunch_refused ht hc), fun h =>
    ⟨_, exec_of_effect hf (relaunch_allowed h), ?_⟩⟩
  rw [← State.mode_demote hu]
  exact retired_relaunchUser (r := s.demote) rfl rfl rfl rfl

/-! ### What the spec refuses of a running hart -/

/-- The reserved modes of a helper register (U5): no custom mode of a legal configuration is one. -/
theorem watchOf_reserved_iff {cfg : Config} (hc : cfg.problem = none) (mode : BitVec 8) :
    watchOf cfg mode = .reserved ↔ 25 ≤ mode.toNat ∧ mode.toNat ≤ 127 := by
  unfold watchOf
  split
  case h_26 n h0 h1 h2 h3 h4 h5 h6 h7 h8 h9 h10 h11 h12 h13 h14 h15 h16 h17 h18 h19 h20 h21 h22 h23 h24 =>
    split
    · refine iff_of_true rfl ⟨?_, by omega⟩
      generalize mode.toNat = m at *
      rcases Nat.lt_or_ge m 25 with hlt | hge
      · repeat
          rcases (Nat.lt_add_one_iff_lt_or_eq.1 hlt).symm with rfl | hlt
          · contradiction
        omega
      · exact hge
    · refine iff_of_false ?_ (by omega)
      split
      · rename_i k hk
        have hl := helperHook_legal hc hk
        simp only [HelperHook.legal, Bool.and_eq_true, bne_iff_ne] at hl
        exact hl.1
      · exact nofun
  all_goals exact iff_of_false nofun (by omega)

theorem counterHook_counts {cfg : Config} (hc : cfg.problem = none) {k : CounterHook}
    (h : k ∈ cfg.counterModes) : k.counts ≠ .reserved := by
  have hm := Config.check_of_problem (b := decide (cfg.helperModes.map (·.slot)).Nodup
    && cfg.helperModes.all (·.legal cfg) && decide (cfg.counterModes.map (·.slot)).Nodup
    && cfg.counterModes.all (fun k => k.counts != .reserved)) (p := .customMode) hc (by simp [Config.checks])
  simp only [Bool.and_eq_true, List.all_eq_true, bne_iff_ne] at hm
  exact hm.2 k h

/-- The reserved modes of a counter (U3): no custom mode of a legal configuration is one. -/
theorem countsOf_reserved_iff {cfg : Config} (hc : cfg.problem = none) (mode : BitVec 8) :
    countsOf cfg mode = .reserved ↔ 16 ≤ mode.toNat ∧ mode.toNat ≤ 127 := by
  unfold countsOf
  split
  case h_7 n h0 h1 h2 h3 h4 h5 =>
    split
    · exact iff_of_false nofun (by omega)
    · split
      · exact iff_of_true rfl (by omega)
      · refine iff_of_false ?_ (by omega)
        split
        · rename_i k hk
          exact counterHook_counts hc (List.mem_of_find?_eq_some hk)
        · exact nofun
  all_goals exact iff_of_false nofun (by omega)

/-- A search through a list with its indices finds one that meets the test. -/
theorem getElem?_of_find_zipIdx {α : Type} {l : List α} {p : α × Nat → Bool} {i : Nat}
    (h : (l.zipIdx.find? p).map (·.2) = some i) : ∃ a, l[i]? = some a ∧ p (a, i) = true := by
  obtain ⟨⟨a, j⟩, hf, rfl⟩ := Option.map_eq_some_iff.1 h
  exact ⟨a, List.mk_mem_zipIdx_iff_getElem?.1 (List.mem_of_find?_eq_some hf), List.find?_some hf⟩

/-- A search through a list with its indices finds nothing where nothing meets the test. -/
theorem find_zipIdx_eq_none_iff {α : Type} {l : List α} {p : α × Nat → Bool} :
    (l.zipIdx.find? p).map (·.2) = none ↔ ∀ i a, l[i]? = some a → p (a, i) = false := by
  simp only [Option.map_eq_none_iff, List.find?_eq_none, Bool.not_eq_true]
  exact ⟨fun h i a ha => h _ (List.mk_mem_zipIdx_iff_getElem?.2 ha),
    fun h x hx => h x.2 x.1 (List.mk_mem_zipIdx_iff_getElem?.1 hx)⟩

theorem step_of_problem {s : State} {p : ConfigProblem} (h : s.cfg.problem = some p) :
    step s = .refused (.configuration p) := by
  simp only [step, State.cycle, h]

theorem step_of_haltState {s : State} (hp : s.cfg.problem = none) (h : 3 ≤ s.sr.hlts.toNat) :
    step s = .refused (.haltState s.sr.hlts) := by
  have h0 : s.sr.hlts ≠ 0 := fun h0 => by simp [h0] at h
  simp only [step, State.cycle, hp, if_neg h0, if_neg (Nat.not_lt.2 h)]

theorem step_of_unsupported {s : State} {r : Refusal} (hp : s.cfg.problem = none) (hh : s.sr.hlts = 0)
    (h : s.unsupported = some r) : step s = .refused r := by
  simp only [step, State.cycle, hp, if_pos hh, h]

/-- A helper register, by its index, that is enabled in a reserved mode (U5). -/
def State.BadHelper (s : State) (i : Nat) : Prop :=
  ∃ r, s.h[i]? = some r ∧ s.helperEnabled i = true ∧ 25 ≤ r.mode.toNat ∧ r.mode.toNat ≤ 127

/-- A counter, by its index, that is in a reserved mode of an enabled bank (U3). -/
def State.BadCounter (s : State) (i : Nat) : Prop :=
  ∃ r, s.c[i]? = some r ∧ s.counting = true ∧ 16 ≤ r.mode.toNat ∧ r.mode.toNat ≤ 127

theorem State.badHelper_of_reserved {s : State} (hp : s.cfg.problem = none) {i : Nat}
    (h : s.reservedHelper = some i) : s.BadHelper i := by
  obtain ⟨r, hr, ht⟩ := getElem?_of_find_zipIdx h
  simp only [Bool.and_eq_true, beq_iff_eq, watchOf_reserved_iff hp] at ht
  exact ⟨r, hr, ht⟩

theorem State.reservedHelper_eq_none {s : State} (hp : s.cfg.problem = none) :
    s.reservedHelper = none ↔ ∀ i, ¬s.BadHelper i := by
  rw [State.reservedHelper, find_zipIdx_eq_none_iff]
  simp only [State.BadHelper, ← Bool.not_eq_true, Bool.and_eq_true, beq_iff_eq, watchOf_reserved_iff hp,
    not_exists, not_and]

theorem State.badCounter_of_reserved {s : State} (hp : s.cfg.problem = none) {i : Nat}
    (h : s.reservedCounter = some i) : s.BadCounter i := by
  obtain ⟨r, hr, ht⟩ := getElem?_of_find_zipIdx h
  simp only [Bool.and_eq_true, beq_iff_eq, countsOf_reserved_iff hp] at ht
  exact ⟨r, hr, ht⟩

theorem State.reservedCounter_eq_none {s : State} (hp : s.cfg.problem = none) :
    s.reservedCounter = none ↔ ∀ i, ¬s.BadCounter i := by
  rw [State.reservedCounter, find_zipIdx_eq_none_iff]
  simp only [State.BadCounter, ← Bool.not_eq_true, Bool.and_eq_true, beq_iff_eq, countsOf_reserved_iff hp,
    not_exists, not_and]

theorem State.unsupported_of_transaction {s : State} (h : s.sr.tnd ≠ 0) :
    s.unsupported = some .transactional := if_pos h

/-- Outside transactions the queue is asked first, then the helper registers, then the counters. -/
theorem State.unsupported_of_unknown {s : State} {e : Event} (ht : s.sr.tnd = 0)
    (h : s.queue.find? (fun e => !e.name.defined s.cfg) = some e) :
    s.unsupported = some (.undefinedEvent e.name.code) := by
  simp [State.unsupported, ht, h]

theorem State.unsupported_of_helper {s : State} {i : Nat} (ht : s.sr.tnd = 0)
    (h : ∀ e ∈ s.queue, e.name.defined s.cfg = true) (hi : s.reservedHelper = some i) :
    s.unsupported = some (.helperMode i) := by
  have hf : s.queue.find? (fun e => !e.name.defined s.cfg) = none := by simpa using h
  simp [State.unsupported, ht, hf, hi]

theorem State.unsupported_of_counter {s : State} {i : Nat} (ht : s.sr.tnd = 0)
    (h : ∀ e ∈ s.queue, e.name.defined s.cfg = true) (hh : s.reservedHelper = none)
    (hi : s.reservedCounter = some i) : s.unsupported = some (.counterMode i) := by
  have hf : s.queue.find? (fun e => !e.name.defined s.cfg) = none := by simpa using h
  simp [State.unsupported, ht, hf, hh, hi]

/-- Settles O30: each refusal is one branch of `State.cycle` or `State.unsupported`. -/
theorem unsupportedStatesAreRefused : Obligations.UnsupportedStatesAreRefused := by
  unfold Obligations.UnsupportedStatesAreRefused
  intro s unknown badHelper badCounter
  refine ⟨fun p => step_of_problem, step_of_haltState, fun hp hh ht =>
    step_of_unsupported hp hh (State.unsupported_of_transaction ht), fun hp hh ht => ⟨?_, ?_, ?_⟩⟩
  · rintro ⟨e, he, hu⟩
    obtain ⟨e', he'⟩ := Option.isSome_iff_exists.1
      (List.find?_isSome.2 ⟨e, he, by simp [hu]⟩ : (s.queue.find? fun e => !e.name.defined s.cfg).isSome)
    exact ⟨e', ⟨List.mem_of_find?_eq_some he', by simpa using List.find?_some he'⟩,
      step_of_unsupported hp hh (State.unsupported_of_unknown ht he')⟩
  · rintro hk ⟨i, hi⟩
    have hq : ∀ e ∈ s.queue, e.name.defined s.cfg = true := fun e he => by simpa using fun hd => hk e ⟨he, hd⟩
    cases hr : s.reservedHelper with
    | none => exact absurd hi ((State.reservedHelper_eq_none hp).1 hr i)
    | some j =>
      exact ⟨j, State.badHelper_of_reserved hp hr,
        step_of_unsupported hp hh (State.unsupported_of_helper ht hq hr)⟩
  · rintro hk hh' ⟨i, hi⟩
    have hq : ∀ e ∈ s.queue, e.name.defined s.cfg = true := fun e he => by simpa using fun hd => hk e ⟨he, hd⟩
    have hnone := (State.reservedHelper_eq_none hp).2 hh'
    cases hr : s.reservedCounter with
    | none => exact absurd hi ((State.reservedCounter_eq_none hp).1 hr i)
    | some j =>
      exact ⟨j, State.badCounter_of_reserved hp hr,
        step_of_unsupported hp hh (State.unsupported_of_counter ht hq hnone hr)⟩

end Sys2Proof.Machine
end

section

namespace Sys2Proof.Machine

/-! ### Bytes of values -/

/-- Byte k of the memory order of a value is its byte of number `byteIndex` (20_memory.md R105). -/
theorem byteOf_toNat (e : Endian) (n k v : Nat) :
    (byteOf e n k v).toNat = v / 2 ^ (8 * byteIndex e n k) % 256 := by
  cases e <;> exact BitVec.toNat_ofNat _ _

/-- The low byte of a number and the rest of it. -/
theorem mod_two_pow_succ_byte (v n : Nat) :
    v % 2 ^ (8 * (n + 1)) = v % 256 + 256 * (v / 256 % 2 ^ (8 * n)) := by
  rw [show 2 ^ (8 * (n + 1)) = 256 * 2 ^ (8 * n) by rw [Nat.mul_add, Nat.pow_add, Nat.mul_comm],
    Nat.mod_mul]

theorem div_byte_div (v k : Nat) : v / 2 ^ (8 * (k + 1)) = v / 256 / 2 ^ (8 * k) := by
  rw [show 2 ^ (8 * (k + 1)) = 256 * 2 ^ (8 * k) by rw [Nat.mul_add, Nat.pow_add, Nat.mul_comm],
    Nat.div_div_eq_div_mul]

theorem byteOf_little_succ (n m k v : Nat) : byteOf .little n (k + 1) v = byteOf .little m k (v / 256) := by
  refine BitVec.eq_of_toNat_eq ?_
  rw [byteOf_toNat, byteOf_toNat, byteIndex, byteIndex, div_byte_div]

theorem byteOf_big_succ {n k : Nat} (h : k < n) (v : Nat) :
    byteOf .big (n + 1) k v = byteOf .big n k (v / 256) := by
  refine BitVec.eq_of_toNat_eq ?_
  rw [byteOf_toNat, byteOf_toNat, byteIndex, byteIndex, show n + 1 - 1 - k = n - 1 - k + 1 by omega,
    div_byte_div]

theorem valueOf_little_bytes (n m v : Nat) :
    valueOf .little ((List.range n).map fun k => byteOf .little m k v) = v % 2 ^ (8 * n) := by
  induction n generalizing v with
  | zero => simp [valueOf, Nat.mod_one]
  | succ n ih =>
    have hmap : (List.range n).map (fun k => byteOf .little m (k + 1) v)
        = (List.range n).map fun k => byteOf .little m k (v / 256) :=
      List.map_congr_left fun k _ => byteOf_little_succ m m k v
    have hcons : ∀ (b : Byte) (bs : List Byte),
        valueOf .little (b :: bs) = b.toNat + 256 * valueOf .little bs := fun _ _ => rfl
    rw [List.range_succ_eq_map, List.map_cons, List.map_map, hcons, Function.comp_def, hmap, ih,
      mod_two_pow_succ_byte, byteOf_toNat]
    simp [byteIndex]

theorem valueOf_big_bytes (n v : Nat) :
    valueOf .big ((List.range n).map fun k => byteOf .big n k v) = v % 2 ^ (8 * n) := by
  induction n generalizing v with
  | zero => simp [valueOf, Nat.mod_one]
  | succ n ih =>
    have hmap : (List.range n).map (fun k => byteOf .big (n + 1) k v)
        = (List.range n).map fun k => byteOf .big n k (v / 256) :=
      List.map_congr_left fun k hk => byteOf_big_succ (List.mem_range.1 hk) v
    have hsnoc : ∀ (bs : List Byte) (b : Byte),
        valueOf .big (bs ++ [b]) = 256 * valueOf .big bs + b.toNat := fun bs b => by simp [valueOf]
    rw [List.range_succ, List.map_append, List.map_singleton, hsnoc, hmap, ih, mod_two_pow_succ_byte,
      byteOf_toNat, Nat.add_comm]
    simp [byteIndex]

/-- The bytes of a value in memory order give it back, cut to their number. -/
theorem valueOf_bytes (e : Endian) (n v : Nat) :
    valueOf e ((List.range n).map fun k => byteOf e n k v) = v % 2 ^ (8 * n) := by
  cases e with
  | little => exact valueOf_little_bytes n n v
  | big => exact valueOf_big_bytes n v

/-! ### Bytes of instructions -/

/-- The two bytes of a parcel in memory order. -/
theorem parcelOf_bytes (e : Endian) (p : Parcel) :
    parcelOf e (byteOf e 2 0 p.toNat) (byteOf e 2 1 p.toNat) = p := by
  have h : valueOf e [byteOf e 2 0 p.toNat, byteOf e 2 1 p.toNat] = p.toNat % 2 ^ 16 :=
    valueOf_bytes e 2 p.toNat
  refine BitVec.eq_of_toNat_eq ?_
  rw [parcelOf, h, BitVec.toNat_ofNat, Nat.mod_mod, Nat.mod_eq_of_lt p.isLt]

theorem parcelsOfBytes_flatMap (e : Endian) (ps : List Parcel) :
    parcelsOfBytes e (ps.flatMap fun p => [byteOf e 2 0 p.toNat, byteOf e 2 1 p.toNat]) = ps := by
  induction ps with
  | nil => rfl
  | cons p ps ih => exact List.cons_eq_cons.2 ⟨parcelOf_bytes e p, ih⟩

theorem parcelsOfBytes_instrBytes (e : Endian) (len : InstrLen) (w : InstrBits) :
    parcelsOfBytes e (instrBytes e len w) = parcelsOf len w :=
  parcelsOfBytes_flatMap e _

theorem extractLsb'_sixteen_toNat (w : InstrBits) (j : Nat) :
    (w.extractLsb' (16 * j) 16).toNat = w.toNat / 2 ^ (16 * j) % 65536 := by
  rw [BitVec.extractLsb'_toNat, Nat.shiftRight_eq_div_pow]

/-- The parcels of a word inside its length give it back. -/
theorem wordOf_parcelsOf {len : InstrLen} {w : InstrBits} (h : w.toNat < 2 ^ (8 * len.bytes)) :
    wordOf (parcelsOf len w) = w := by
  have hv : ((parcelsOf len w).foldr (fun p acc => p.toNat + 65536 * acc) 0) = w.toNat := by
    cases len <;>
      simp only [parcelsOf, InstrLen.bytes, List.range_succ, List.range_zero, Nat.reduceDiv, List.nil_append,
        List.cons_append, List.map_cons, List.map_nil, List.foldr_cons, List.foldr_nil,
        extractLsb'_sixteen_toNat] at h ⊢ <;>
      omega
  rw [wordOf, hv]
  exact BitVec.eq_of_toNat_eq (by rw [BitVec.toNat_ofNat, Nat.mod_eq_of_lt w.isLt])

theorem getElem?_flatMap_pair {α β : Type} (f g : α → β) (l : List α) (j : Nat) :
    (l.flatMap fun a => [f a, g a])[2 * j]? = l[j]?.map f
      ∧ (l.flatMap fun a => [f a, g a])[2 * j + 1]? = l[j]?.map g := by
  induction l generalizing j with
  | nil => simp
  | cons a l ih =>
    cases j with
    | zero => simp
    | succ j => exact ih j

theorem parcelsOf_getElem? {len : InstrLen} {j : Nat} (h : 2 * j < len.bytes) (w : InstrBits) :
    (parcelsOf len w)[j]? = some (w.extractLsb' (16 * j) 16) := by
  have hj : j < len.bytes / 2 := by
    revert h
    cases len <;> simp only [InstrLen.bytes] <;> omega
  rw [parcelsOf, List.getElem?_map, List.getElem?_range hj, Option.map_some]

/-- The low byte of the parcel of a word at a column. -/
theorem ofNat_parcel_low (w : InstrBits) (a : Nat) :
    BitVec.ofNat 8 (w.extractLsb' a 16).toNat = w.extractLsb' a 8 := by
  refine BitVec.eq_of_toNat_eq ?_
  rw [BitVec.toNat_ofNat, BitVec.extractLsb'_toNat, BitVec.extractLsb'_toNat]
  exact Nat.mod_mod_of_dvd _ (by decide)

/-- The high byte of the parcel of a word at a column. -/
theorem ofNat_parcel_high (w : InstrBits) (a : Nat) :
    BitVec.ofNat 8 ((w.extractLsb' a 16).toNat / 2 ^ 8) = w.extractLsb' (a + 8) 8 := by
  refine BitVec.eq_of_toNat_eq ?_
  rw [BitVec.toNat_ofNat, BitVec.extractLsb'_toNat, BitVec.extractLsb'_toNat, Nat.shiftRight_add,
    Nat.shiftRight_eq_div_pow _ 8]
  omega

theorem byteOf_parcel (e : Endian) (w : InstrBits) (a : Nat) :
    byteOf e 2 0 (w.extractLsb' a 16).toNat = w.extractLsb' (a + if e = .little then 0 else 8) 8
      ∧ byteOf e 2 1 (w.extractLsb' a 16).toNat = w.extractLsb' (a + if e = .little then 8 else 0) 8 := by
  have hlow : byteOf .little 2 0 (w.extractLsb' a 16).toNat = w.extractLsb' a 8 := by
    rw [byteOf, Nat.mul_zero, Nat.pow_zero, Nat.div_one, ofNat_parcel_low]
  cases e with
  | little => exact ⟨hlow, ofNat_parcel_high w a⟩
  | big => exact ⟨ofNat_parcel_high w a, hlow⟩

/-- Settles O45: a value is its low byte and the rest, in either order of the bytes; a word is its parcels,
and each of them its two bytes. -/
theorem byteOrder : Obligations.ByteOrder := by
  unfold Obligations.ByteOrder
  refine ⟨fun n k v _ => ⟨byteOf_toNat .little n k v, byteOf_toNat .big n k v, fun e => valueOf_bytes e n v⟩,
    fun e len w hw => ⟨?_, ?_, ?_, fun j hj => ?_⟩⟩
  · cases len <;> rfl
  · rw [parcelsOfBytes_instrBytes, wordOf_parcelsOf hw]
  · rw [parcelsOfBytes_instrBytes]
    exact parcelsOf_getElem? (by cases len <;> decide) w
  · obtain ⟨h0, h1⟩ := getElem?_flatMap_pair (fun p : Parcel => byteOf e 2 0 p.toNat)
      (fun p : Parcel => byteOf e 2 1 p.toNat) (parcelsOf len w) j
    obtain ⟨hb0, hb1⟩ := byteOf_parcel e w (16 * j)
    rw [parcelsOf_getElem? hj] at h0 h1
    exact ⟨h0.trans (congrArg some hb0), h1.trans (congrArg some hb1)⟩

/-! ### The configuration segment -/

theorem valueOf_singleton (e : Endian) (b : Byte) : valueOf e [b] = b.toNat := by
  cases e <;> simp [valueOf]

/-- A read of one byte of the configuration segment. -/
theorem Config.read_one (cfg : Config) {o : Nat} (h : o + 1 ≤ 1024) :
    cfg.read o 1 = some (cfg.segmentByte o).toNat := by
  rw [Config.read, if_pos h]
  exact congrArg some (valueOf_singleton _ _)

/-- A code of at most eight bits that is one byte of the segment reads as itself. -/
theorem Config.read_code {cfg : Config} {o n : Nat} {v : BitVec n} (hb : cfg.segmentByte o = v.setWidth 8)
    (h : n ≤ 8) (ho : o + 1 ≤ 1024) : cfg.read o 1 = some v.toNat := by
  rw [Config.read_one cfg ho, hb, BitVec.toNat_setWidth]
  refine congrArg some ?_
  exact Nat.mod_eq_of_lt (Nat.lt_of_lt_of_le v.isLt (Nat.pow_le_pow_right (by decide) h))

/-- Offsets 171 to 255 of the configuration segment are reserved (20_memory.md R102). -/
theorem Config.segmentByte_reserved (cfg : Config) {o : Nat} (h1 : 171 ≤ o) (h2 : o ≤ 255) :
    cfg.segmentByte o = 0 := by
  have hlt : ∀ n, n ≤ 171 → ¬o < n := fun n hn => by omega
  have hne : ∀ n, n < 171 → o ≠ n := fun n hn => by omega
  simp only [Config.segmentByte, hlt, hne, if_false, show o < 256 by omega, if_true,
    Nat.reduceLeDiff, Nat.reduceLT]

/-- Settles O50: each code is one byte of the segment, and HID its first two. -/
theorem configurationSegment : Obligations.ConfigurationSegment := by
  unfold Obligations.ConfigurationSegment
  intro cfg
  refine ⟨Config.read_code rfl (by decide) (by decide),
    Config.read_code rfl (by decide) (by decide),
    Config.read_code rfl (by decide) (by decide),
    Config.read_code rfl (by decide) (by decide),
    Config.read_code rfl (by decide) (by decide),
    Config.read_code rfl (by decide) (by decide),
    Config.read_code rfl (by decide) (by decide),
    ?_, fun o h1 h2 => ?_,
    fun o n h => if_neg (by omega)⟩
  · rw [Config.read, if_pos (by decide)]
    refine congrArg some ?_
    exact (valueOf_bytes cfg.endian 2 _).trans (Nat.mod_eq_of_lt cfg.segment.hid.isLt)
  · rw [Config.read_one cfg (by omega), Config.segmentByte_reserved cfg h1 h2]
    rfl

end Sys2Proof.Machine
end

section

namespace Sys2Proof.Machine

/-! ### The physical addresses of an access -/

theorem State.physical_of_to {s : State} {addr p : Word} {kind : AccessKind}
    (h : s.translate addr kind = .to p) : s.physical addr kind = .ok p := by
  simp only [State.physical, h]

theorem State.physical_of_pageFault {s : State} {addr : Word} {kind : AccessKind}
    (h : s.translate addr kind = .pageFault) :
    s.physical addr kind = .error (.event { name := .pflt, data := some addr }) := by
  simp only [State.physical, h]

theorem State.physical_of_illegalAddress {s : State} {addr : Word} {kind : AccessKind}
    (h : s.translate addr kind = .illegalAddress) :
    s.physical addr kind = .error (.event { name := .illa, data := some addr }) := by
  simp only [State.physical, h]

/-- The first byte that does not translate decides (20_memory.md R118). -/
theorem State.physicals_of_error {s : State} {addr : Word} {kind : AccessKind} {k n j : Nat} {e : Stop}
    (hj : j < n) (hto : ∀ i, i < j → ∃ p, s.translate (s.addrAt addr (k + i)) kind = .to p)
    (he : s.physical (s.addrAt addr (k + j)) kind = .error e) : s.physicals addr kind k n = .error e := by
  induction n generalizing k j with
  | zero => omega
  | succ n ih =>
    cases j with
    | zero =>
      rw [Nat.add_zero] at he
      simp only [State.physicals, he]
    | succ j =>
      obtain ⟨p, hp⟩ := hto 0 (by omega)
      rw [Nat.add_zero] at hp
      have hrest : s.physicals addr kind (k + 1) n = .error e := by
        refine ih (Nat.lt_of_succ_lt_succ hj) (fun i hi => ?_) ?_
        · rw [Nat.add_right_comm, Nat.add_assoc]
          exact hto (i + 1) (Nat.succ_lt_succ hi)
        · rw [Nat.add_right_comm, Nat.add_assoc]
          exact he
      simp only [State.physicals, State.physical_of_to hp, hrest]

/-- An access all of whose bytes translate has its physical addresses. -/
theorem State.physicals_of_to {s : State} {addr : Word} {kind : AccessKind} {k n : Nat}
    (hto : ∀ i, i < n → ∃ p, s.translate (s.addrAt addr (k + i)) kind = .to p) :
    ∃ ps, s.physicals addr kind k n = .ok ps := by
  induction n generalizing k with
  | zero => exact ⟨[], rfl⟩
  | succ n ih =>
    obtain ⟨p, hp⟩ := hto 0 (Nat.succ_pos n)
    obtain ⟨ps, hps⟩ := ih (k := k + 1) fun i hi => by
      rw [Nat.add_right_comm, Nat.add_assoc]
      exact hto (i + 1) (Nat.succ_lt_succ hi)
    rw [Nat.add_zero] at hp
    exact ⟨p :: ps, by simp only [State.physicals, State.physical_of_to hp, hps]⟩

/-- Byte k of an access may be made there as far as the platform's map tells (20_memory.md R117). -/
def State.Accepts (s : State) (kind : AccessKind) (p : Word) : Prop :=
  s.regionAt p.toNat = .ram ∨ (s.regionAt p.toNat = .rom ∧ kind ≠ .write)

theorem State.regionStop_cons_of_accepts {s : State} {kind : AccessKind} {p : Word}
    (h : s.Accepts kind p) (ps : List Word) : s.regionStop kind (p :: ps) = s.regionStop kind ps := by
  rcases h with h | ⟨h, hk⟩
  · simp only [State.regionStop, h]
  · cases kind
    · simp only [State.regionStop, h]
    · exact absurd rfl hk
    · simp only [State.regionStop, h]

theorem State.regionStop_of_accepts {s : State} {kind : AccessKind} {ps : List Word}
    (h : ∀ p ∈ ps, s.Accepts kind p) : s.regionStop kind ps = none := by
  induction ps with
  | nil => rfl
  | cons p ps ih =>
    rw [State.regionStop_cons_of_accepts (h p List.mem_cons_self)]
    exact ih fun q hq => h q (List.mem_cons_of_mem _ hq)

/-- The first byte the platform's map stops decides. -/
theorem State.regionStop_of_first {s : State} {kind : AccessKind} {ps : List Word} {j : Nat} {p : Word}
    {e : Stop} (hp : ps[j]? = some p)
    (hto : ∀ (i : Nat) (q : Word), i < j → ps[i]? = some q → s.Accepts kind q)
    (he : ∀ qs, s.regionStop kind (p :: qs) = some e) : s.regionStop kind ps = some e := by
  induction ps generalizing j with
  | nil => simp at hp
  | cons q ps ih =>
    cases j with
    | zero =>
      obtain rfl : q = p := by simpa using hp
      exact he ps
    | succ j =>
      rw [State.regionStop_cons_of_accepts (hto 0 q (Nat.succ_pos j) rfl)]
      exact ih hp fun i r hi hr => hto (i + 1) r (Nat.succ_lt_succ hi) hr

/-! ### The checks of a data access -/

theorem State.checkData_of_misaligned {s : State} {kind : AccessKind} {addr : Word} {n align : Nat}
    (hn : 0 < n) (h : addr.toNat % align ≠ 0) :
    s.checkData kind addr n align
      = if s.cfg.has .dalign then .error (.event { name := .misd })
        else .error (.fault (.unalignedData addr)) := by
  rw [State.checkData, if_neg (Nat.pos_iff_ne_zero.1 hn), if_pos h]

theorem State.checkData_of_untranslated {s : State} {kind : AccessKind} {addr : Word} {n align : Nat}
    {e : Stop} (hn : 0 < n) (ha : addr.toNat % align = 0) (h : s.physicals addr kind 0 n = .error e) :
    s.checkData kind addr n align = .error e := by
  rw [State.checkData, if_neg (Nat.pos_iff_ne_zero.1 hn), if_neg (not_not_intro ha), h]

theorem State.checkData_of_stop {s : State} {kind : AccessKind} {addr : Word} {n align : Nat}
    {ps : List Word} {e : Stop} (hn : 0 < n) (ha : addr.toNat % align = 0)
    (h : s.physicals addr kind 0 n = .ok ps) (he : s.regionStop kind ps = some e) :
    s.checkData kind addr n align = .error e := by
  simp only [State.checkData, if_neg (Nat.pos_iff_ne_zero.1 hn), if_neg (not_not_intro ha), h, he]

theorem State.checkData_of_permitted {s : State} {kind : AccessKind} {addr : Word} {n align : Nat}
    {ps : List Word} (hn : 0 < n) (ha : addr.toNat % align = 0) (h : s.physicals addr kind 0 n = .ok ps)
    (he : s.regionStop kind ps = none) : s.checkData kind addr n align = .ok ps := by
  simp only [State.checkData, if_neg (Nat.pos_iff_ne_zero.1 hn), if_neg (not_not_intro ha), h, he]

theorem State.memRead_of_error {s0 s : State} {k : Nat} {addr : Word} {n align : Nat} {e : Stop}
    (h : s0.checkData .read addr n align = .error e) : s0.memRead s k addr n align = .error e := by
  simp only [State.memRead, h]

theorem State.memRead_of_ok {s0 s : State} {k : Nat} {addr : Word} {n align : Nat} {ps : List Word}
    (h : s0.checkData .read addr n align = .ok ps) :
    s0.memRead s k addr n align = .ok (valueOf s.cfg.endian (s.loadBytes k ps)) := by
  simp only [State.memRead, h]

theorem State.memWrite_of_error {s0 s : State} {k : Nat} {addr : Word} {n align v : Nat}
    {keeps : Nat → Bool} {e : Stop} (h : s0.checkData .write addr n align = .error e) :
    s0.memWrite s k addr n align v keeps = .error e := by
  simp only [State.memWrite, h]

theorem State.memWrite_of_ok {s0 : State} {addr : Word} {n align : Nat} {ps : List Word}
    (h : s0.checkData .write addr n align = .ok ps) (s : State) (k v : Nat) (keeps : Nat → Bool) :
    ∃ t, s0.memWrite s k addr n align v keeps = .ok t := by
  simp only [State.memWrite, h]
  exact ⟨_, rfl⟩

/-! ### The primitives that access memory -/

/-- The instruction with the helper registers noted that watch its aligned access (20_memory.md R109). -/
def Work.watched (w : Work) (s0 : State) (kind : AccessKind) (addr : Word) (n align : Nat) : Work :=
  { w with fired := w.fired ++ if addr.toNat % align = 0 then s0.accessTriggers kind addr n else [] }

theorem State.attempt_of_pos {s : State} {kind : AccessKind} {addr : Word} {n align : Nat} (hn : 0 < n) :
    s.attempt kind addr n align
      = if addr.toNat % align = 0 then s.accessTriggers kind addr n else [] := by
  have h0 : n ≠ 0 := Nat.pos_iff_ne_zero.1 hn
  by_cases h : addr.toNat % align = 0 <;> simp [State.attempt, h, h0]

section

variable {d : Decoded} {s0 : State} {w : Work} {size : AccessSize} {addr : Word} {n align : Nat}
  {ps : List Prim}

theorem Work.note_load (hs : s0.sizeOf d size = (n, align)) (hn : 0 < n) (ha : s0.cfg.word (w.top 0) = addr) :
    w.note d s0 (.load size) = w.watched s0 .read addr n align := by
  simp only [Work.note, Work.attempt, hs, ha, State.attempt_of_pos hn, Work.watched]

theorem Work.note_store (hs : s0.sizeOf d size = (n, align)) (hn : 0 < n)
    (ha : s0.cfg.word (w.top 0) = addr) :
    w.note d s0 (.store size) = w.watched s0 .write addr n align := by
  simp only [Work.note, Work.attempt, hs, ha, State.attempt_of_pos hn, Work.watched]

theorem Work.note_loadIf (hs : s0.sizeOf d size = (n, align)) (hn : 0 < n) (h0 : w.top 0 ≠ 0)
    (ha : s0.cfg.word (w.top 1) = addr) :
    w.note d s0 (.loadIf size) = w.watched s0 .read addr n align := by
  simp only [Work.note, Work.attempt, hs, ha, if_neg h0, State.attempt_of_pos hn, Work.watched]

theorem Work.note_storeIf (hs : s0.sizeOf d size = (n, align)) (hn : 0 < n) (h0 : w.top 0 ≠ 0)
    (ha : s0.cfg.word (w.top 1) = addr) :
    w.note d s0 (.storeIf size) = w.watched s0 .write addr n align := by
  simp only [Work.note, Work.attempt, hs, ha, if_neg h0, State.attempt_of_pos hn, Work.watched]

theorem runPrims_of_error {p : Prim} {e : Stop} {w' : Work} (hw : w.note d s0 p = w')
    (h : runPrim d s0 w' p = .error e) : runPrims d s0 w (p :: ps) = .error (e, w') := by
  subst hw
  simp only [runPrims, h]

theorem runPrims_of_ok {p : Prim} {w' w'' : Work} (hw : w.note d s0 p = w')
    (h : runPrim d s0 w' p = .ok w'') : runPrims d s0 w (p :: ps) = runPrims d s0 w'' ps := by
  subst hw
  simp only [runPrims, h]

theorem Work.load_of_error (hs : s0.sizeOf d size = (n, align)) {a : Nat} (ha : s0.cfg.word a = addr)
    {e : Stop} (h : s0.checkData .read addr n align = .error e) (taken : Nat) :
    w.load d s0 size taken a = .error e := by
  simp only [Work.load, hs, ha, State.memRead_of_error h]

theorem Work.load_of_ok (hs : s0.sizeOf d size = (n, align)) {a : Nat} (ha : s0.cfg.word a = addr)
    {qs : List Word} (h : s0.checkData .read addr n align = .ok qs) (taken : Nat) :
    w.load d s0 size taken a
      = .ok { w.push taken (valueOf w.s.cfg.endian (w.s.loadBytes w.touched qs)) with
          done := { w.done with load := true }, touched := w.touched + n } := by
  simp only [Work.load, hs, ha, State.memRead_of_ok h]

theorem Work.store_of_error (hs : s0.sizeOf d size = (n, align)) {a : Nat} (ha : s0.cfg.word a = addr)
    {e : Stop} (h : s0.checkData .write addr n align = .error e) (taken v : Nat) :
    w.store d s0 size taken a v = .error e := by
  simp only [Work.store, hs, ha, State.memWrite_of_error h]

theorem Work.store_of_ok (hs : s0.sizeOf d size = (n, align)) {a v : Nat} (ha : s0.cfg.word a = addr)
    {t : State} (h : s0.memWrite w.s w.touched addr n align v (w.s.storeKeeps d size) = .ok t)
    (taken : Nat) :
    w.store d s0 size taken a v
      = .ok { w.pop taken with
          s := t, done := { w.done with store := true }, touched := w.touched + n } := by
  simp only [Work.store, hs, ha, h]

/-- A conditional load whose condition holds is a load that takes three entries. -/
theorem runPrim_loadIf {w' : Work} (h0 : w'.top 0 ≠ 0) :
    runPrim d s0 w' (.loadIf size) = w'.load d s0 size 3 (w'.top 1) := if_neg h0

theorem runPrim_storeIf {w' : Work} (h0 : w'.top 0 ≠ 0) :
    runPrim d s0 w' (.storeIf size) = w'.store d s0 size 3 (w'.top 1) (w'.top 2) := if_neg h0

/-- A conditional access whose condition is 0 notes nothing. -/
theorem Work.note_of_zero (h0 : w.top 0 = 0) :
    w.note d s0 (.loadIf size) = w ∧ w.note d s0 (.storeIf size) = w := by
  simp only [Work.note, Work.attempt, h0, if_true, List.append_nil, and_self]

end

/-- Of an aligned access the first byte that does not translate decides. -/
theorem State.checkData_of_first_untranslated {s : State} {kind : AccessKind} {addr : Word} {n align j : Nat}
    {e : Stop} (ha : addr.toNat % align = 0) (hj : j < n)
    (hto : ∀ i, i < j → ∃ p, s.translate (s.addrAt addr i) kind = .to p)
    (he : s.physical (s.addrAt addr j) kind = .error e) : s.checkData kind addr n align = .error e :=
  State.checkData_of_untranslated (Nat.zero_lt_of_lt hj) ha
    (State.physicals_of_error (k := 0) hj (by simpa using hto) (by simpa using he))

/-- Of a translated access the first byte the platform's map stops decides. -/
theorem State.checkData_of_first_stop {s : State} {kind : AccessKind} {addr : Word} {n align j : Nat}
    {ps : List Word} {p : Word} (hn : 0 < n) (ha : addr.toNat % align = 0)
    (hps : s.physicals addr kind 0 n = .ok ps) (hp : ps[j]? = some p)
    (hto : ∀ (i : Nat) (q : Word), i < j → ps[i]? = some q → s.Accepts kind q) :
    (s.regionAt p.toNat = .device → s.checkData kind addr n align = .error (.refused (.device p)))
      ∧ (s.regionAt p.toNat = .hole → s.checkData kind addr n align = .error (.fault (.unmapped p)))
      ∧ (s.regionAt p.toNat = .rom → kind = .write →
        s.checkData kind addr n align = .error (.fault (.readOnly p))) := by
  have hfirst : ∀ e, (∀ qs, s.regionStop kind (p :: qs) = some e) →
      s.checkData kind addr n align = .error e := fun e he =>
    State.checkData_of_stop hn ha hps (State.regionStop_of_first hp hto he)
  refine ⟨fun h => hfirst _ fun qs => ?_, fun h => hfirst _ fun qs => ?_,
    fun h hk => hfirst _ fun qs => ?_⟩
  · simp only [State.regionStop, h]
  · simp only [State.regionStop, h]
  · simp only [State.regionStop, h, hk]

/-- Settles O48: alignment is asked before translation and translation before the platform's map, each of
the bytes in their order; every load and store goes through those checks, its helper registers noted. -/
theorem misalignedDataAccess : Obligations.MisalignedDataAccess := by
  unfold Obligations.MisalignedDataAccess
  intro s0 s k addr n align v keeps hn
  refine ⟨fun ha => ⟨fun hd => ?_, fun hd => ?_⟩, fun ha kind => ⟨fun j hj hto => ?_, fun ps hps => ⟨fun hr => ?_,
    fun j p hp hto => ?_⟩⟩, fun d w size ps hs => ?_⟩
  · have hc : ∀ kind, s0.checkData kind addr n align = .error (.event { name := .misd }) :=
      fun kind => (State.checkData_of_misaligned hn ha).trans (if_pos hd)
    exact ⟨State.memRead_of_error (hc .read), State.memWrite_of_error (hc .write)⟩
  · have hc : ∀ kind, s0.checkData kind addr n align = .error (.fault (.unalignedData addr)) :=
      fun kind => (State.checkData_of_misaligned hn ha).trans (if_neg (by simp [hd]))
    exact ⟨State.memRead_of_error (hc .read), State.memWrite_of_error (hc .write)⟩
  · exact ⟨fun h => State.checkData_of_first_untranslated ha hj hto (State.physical_of_pageFault h),
      fun h => State.checkData_of_first_untranslated ha hj hto (State.physical_of_illegalAddress h)⟩
  · exact State.checkData_of_permitted hn ha hps (State.regionStop_of_accepts hr)
  · exact State.checkData_of_first_stop hn ha hps hp hto
  · intro noted loaded stored plain given
    refine ⟨fun e he => ⟨fun ha => ?_, fun ⟨h0, ha⟩ => ?_⟩, fun e he => ⟨fun ha => ?_, fun ⟨h0, ha⟩ => ?_⟩,
      fun qs hq => ⟨fun ha => ?_, fun ⟨h0, ha⟩ => ?_⟩, fun qs hq => ⟨fun ha => ?_, fun ⟨h0, ha⟩ => ?_⟩,
      fun h0 => ?_⟩
    · exact runPrims_of_error (Work.note_load hs hn ha) (Work.load_of_error hs ha he 1)
    · exact runPrims_of_error (Work.note_loadIf hs hn h0 ha)
        ((runPrim_loadIf (w' := noted .read) h0).trans (Work.load_of_error hs ha he 3))
    · exact runPrims_of_error (Work.note_store hs hn ha) (Work.store_of_error hs ha he 2 _)
    · exact runPrims_of_error (Work.note_storeIf hs hn h0 ha)
        ((runPrim_storeIf (w' := noted .write) h0).trans (Work.store_of_error hs ha he 3 _))
    · exact runPrims_of_ok (Work.note_load hs hn ha) (Work.load_of_ok hs ha hq 1)
    · exact runPrims_of_ok (Work.note_loadIf hs hn h0 ha)
        ((runPrim_loadIf (w' := noted .read) h0).trans (Work.load_of_ok hs ha hq 3))
    · obtain ⟨t, ht⟩ := State.memWrite_of_ok hq w.s w.touched (w.top 1) (w.s.storeKeeps d size)
      exact ⟨t, ht, runPrims_of_ok (Work.note_store hs hn ha) (Work.store_of_ok (w := noted .write) hs ha ht 2)⟩
    · obtain ⟨t, ht⟩ := State.memWrite_of_ok hq w.s w.touched (w.top 2) (w.s.storeKeeps d size)
      exact ⟨t, ht, runPrims_of_ok (Work.note_storeIf hs hn h0 ha)
        ((runPrim_storeIf (w' := noted .write) h0).trans
        (Work.store_of_ok (w := noted .write) hs ha ht 3))⟩
    · obtain ⟨hl, hst⟩ := Work.note_of_zero (d := d) (s0 := s0) (size := size) h0
      exact ⟨runPrims_of_ok hl (if_pos h0), runPrims_of_ok hst (if_pos h0)⟩

/-! ### What a write to memory leaves there -/

theorem State.loadBytes_getElem? (s : State) (k : Nat) (ps : List Word) (j : Nat) :
    (s.loadBytes k ps)[j]? = (ps[j]?).map fun p => Memory.read (s.settle (k + j)).mem p.toNat := by
  induction ps generalizing k j with
  | nil => simp [State.loadBytes]
  | cons p ps ih =>
    cases j with
    | zero => simp [State.loadBytes]
    | succ j =>
      simp only [State.loadBytes, List.getElem?_cons_succ, ih]
      rw [Nat.add_right_comm, Nat.add_assoc]

/-- The addresses of an access, numbered, each with its byte of the value. -/
def numberedBytes (e : Endian) (ps : List Word) (n v : Nat) : List (Word × Nat × Byte) :=
  ps.zip ((List.range n).map fun k => (k, byteOf e n k v))

/-- What a mask makes of a numbered byte. -/
def keptByte (e : Endian) (n : Nat) (keeps : Nat → Bool) (q : Word × Nat × Byte) : Option (Word × Byte) :=
  if keeps (byteIndex e n q.2.1) then some (q.1, q.2.2) else none

theorem maskedBytes_eq (e : Endian) (ps : List Word) (n v : Nat) (keeps : Nat → Bool) :
    maskedBytes e ps n v keeps = (numberedBytes e ps n v).filterMap (keptByte e n keeps) := rfl

theorem numberedBytes_getElem? {e : Endian} {ps : List Word} {n v i : Nat} {q : Word × Nat × Byte} :
    (numberedBytes e ps n v)[i]? = some q
      ↔ ps[i]? = some q.1 ∧ i < n ∧ q.2 = (i, byteOf e n i v) := by
  rw [numberedBytes, List.getElem?_zip_eq_some, List.getElem?_map]
  refine and_congr_right fun _ => ⟨fun h => ?_, fun ⟨hi, hq⟩ => ?_⟩
  · obtain ⟨k, hk, hq⟩ := Option.map_eq_some_iff.1 h
    obtain ⟨hi, rfl⟩ := List.getElem?_eq_some_iff.1 hk
    rw [List.getElem_range] at hq
    exact ⟨by simpa using hi, hq.symm⟩
  · rw [List.getElem?_range hi, Option.map_some, hq]

theorem keptByte_eq_some {e : Endian} {n : Nat} {keeps : Nat → Bool} {q : Word × Nat × Byte}
    {r : Word × Byte} (h : keptByte e n keeps q = some r) :
    keeps (byteIndex e n q.2.1) = true ∧ r = (q.1, q.2.2) := by
  simp only [keptByte] at h
  split at h <;> cases h
  exact ⟨by assumption, rfl⟩

/-- Everything a masked write stores is a kept byte of the access. -/
theorem mem_maskedBytes_kept {e : Endian} {ps : List Word} {n v : Nat} {keeps : Nat → Bool} {r : Word × Byte}
    (h : r ∈ maskedBytes e ps n v keeps) :
    ∃ i, ps[i]? = some r.1 ∧ keeps (byteIndex e n i) = true := by
  obtain ⟨q, hq, hk⟩ := List.mem_filterMap.1 h
  obtain ⟨i, hi⟩ := List.getElem?_of_mem hq
  obtain ⟨hp, -, hb⟩ := numberedBytes_getElem?.1 hi
  obtain ⟨hkeep, rfl⟩ := keptByte_eq_some hk
  exact ⟨i, hp, by rwa [hb] at hkeep⟩

/-- A kept byte stands in what a masked write stores, and after it only kept bytes of higher number. -/
theorem maskedBytes_split {e : Endian} {ps : List Word} {n v j : Nat} {keeps : Nat → Bool} {p : Word}
    (hj : j < n) (hp : ps[j]? = some p) (hk : keeps (byteIndex e n j) = true) :
    ∃ l1 l2, maskedBytes e ps n v keeps = l1 ++ (p, byteOf e n j v) :: l2
      ∧ ∀ r ∈ l2, ∃ i, j < i ∧ ps[i]? = some r.1 ∧ keeps (byteIndex e n i) = true := by
  have hz : (numberedBytes e ps n v)[j]? = some (p, j, byteOf e n j v) :=
    numberedBytes_getElem?.2 ⟨hp, hj, rfl⟩
  obtain ⟨hlt, hget⟩ := List.getElem?_eq_some_iff.1 hz
  have hkept : keptByte e n keeps (p, j, byteOf e n j v) = some (p, byteOf e n j v) := if_pos hk
  refine ⟨((numberedBytes e ps n v).take j).filterMap (keptByte e n keeps),
    ((numberedBytes e ps n v).drop (j + 1)).filterMap (keptByte e n keeps), ?_, fun r hr => ?_⟩
  · rw [maskedBytes_eq, ← List.take_append_drop j (numberedBytes e ps n v), List.filterMap_append,
      List.take_append_drop, List.drop_eq_getElem_cons hlt, hget, List.filterMap_cons_some hkept]
  · obtain ⟨q, hq, hqr⟩ := List.mem_filterMap.1 hr
    obtain ⟨m, hm⟩ := List.getElem?_of_mem hq
    rw [List.getElem?_drop] at hm
    obtain ⟨hpm, -, hb⟩ := numberedBytes_getElem?.1 hm
    obtain ⟨hkeep, rfl⟩ := keptByte_eq_some hqr
    exact ⟨j + 1 + m, by omega, hpm, by rwa [hb] at hkeep⟩

/-- A stored byte reads back where no later one goes to its address. -/
theorem State.storeBytes_append_cons {s : State} {k : Nat} {l1 l2 : List (Word × Byte)} {q : Word × Byte}
    (hl : ∀ r ∈ l2, r.1.toNat ≠ q.1.toNat) (hr : ∀ r ∈ s.racing, r.addr ≠ q.1.toNat) :
    Memory.read (s.storeBytes k (l1 ++ q :: l2)).mem q.1.toNat = q.2 := by
  refine State.storeBytes_last (i := l1.length) (by simp) (fun m r hm hget => ?_) hr
  obtain ⟨i, rfl⟩ := Nat.exists_eq_add_of_lt hm
  rw [List.getElem?_append_right (by omega), show l1.length + i + 1 - l1.length = i + 1 by omega,
    List.getElem?_cons_succ] at hget
  exact hl r (List.mem_of_getElem? hget)

/-- The addresses of a permitted access, byte by byte. -/
theorem State.checkData_bytes {s : State} {kind : AccessKind} {addr : Word} {n align : Nat}
    {ps : List Word} (h : s.checkData kind addr n align = .ok ps) :
    ps.length = n ∧ ∀ j p, ps[j]? = some p → s.translate (s.addrAt addr j) kind = .to p := by
  simpa using State.physicals_ok (State.checkData_ok h).1

/-- The byte a write leaves where it keeps one, no later kept one goes there and no other agent writes. -/
theorem State.memWrite_byte {s : State} {k n v j : Nat} {keeps : Nat → Bool} {ps : List Word} {p : Word}
    (hl : ps.length = n) (hp : ps[j]? = some p) (hk : keeps (byteIndex s.cfg.endian n j) = true)
    (hlater : ∀ i q, j < i → ps[i]? = some q → keeps (byteIndex s.cfg.endian n i) = true →
      q.toNat ≠ p.toNat) (hr : ∀ r ∈ s.racing, r.addr ≠ p.toNat) :
    Memory.read (s.storeBytes k (maskedBytes s.cfg.endian ps n v keeps)).mem p.toNat
      = byteOf s.cfg.endian n j v := by
  have hj : j < n := hl ▸ (List.getElem?_eq_some_iff.1 hp).1
  obtain ⟨l1, l2, hsplit, h2⟩ := maskedBytes_split (v := v) hj hp hk
  rw [hsplit]
  refine State.storeBytes_append_cons (q := (p, byteOf s.cfg.endian n j v)) (fun r hr2 => ?_) hr
  obtain ⟨i, hi, hpi, hki⟩ := h2 r hr2
  exact hlater i r.1 hi hpi hki

/-- Settles O46: a write is `storeBytes` of its kept bytes, a read the bytes of memory one by one. -/
theorem memWriteFrame : Obligations.MemWriteFrame := by
  unfold Obligations.MemWriteFrame
  refine ⟨fun s0 s t k addr n align v keeps h => ?_, fun e n j v _ => byteOf_toNat e n j v,
    fun s0 s k addr n align ps h => ?_, State.loadBytes_getElem?⟩
  · obtain ⟨ps, hps, rfl⟩ := State.memWrite_ok h
    obtain ⟨hlen, hto⟩ := State.checkData_bytes hps
    refine ⟨ps, hps, hlen, hto, fun a ha hr => ?_, fun a ha => ?_, fun j p hp hk => ?_,
      fun j p hp hk hlater hr => State.memWrite_byte hlen hp hk hlater hr, State.storeBytes_frame _ _ _⟩
    · have hno : ∀ q ∈ maskedBytes s.cfg.endian ps n v keeps, q.1.toNat ≠ a := fun q hq => by
        obtain ⟨i, hi, hk⟩ := mem_maskedBytes_kept hq
        exact ha i q.1 hi hk
      refine ⟨State.storeBytes_read s k _ a hno hr, fun hd => ?_⟩
      rcases (State.mem_storeBytes_dirty s k _ a).2 hd with hd | ⟨q, hq, hqa⟩ | ⟨r, hra, hrr⟩
      · exact hd
      · exact absurd hqa (hno q hq)
      · exact absurd hrr (hr r hra)
    · exact (State.mem_storeBytes_dirty s k _ a).1 (.inl ha)
    · obtain ⟨l1, l2, hsplit, -⟩ :=
        maskedBytes_split (v := v) (hlen ▸ (List.getElem?_eq_some_iff.1 hp).1) hp hk
      exact (State.mem_storeBytes_dirty s k _ _).1 (.inr
        ⟨_, hsplit ▸ List.mem_append_right l1 List.mem_cons_self, rfl⟩)
  · obtain ⟨hlen, hto⟩ := State.checkData_bytes h
    exact ⟨hlen, hto, State.memRead_of_ok h⟩

/-! ### A read after a write -/

/-- Translation is the identity (20_memory.md R118). -/
abbrev Config.IdentityMap (cfg : Config) : Prop := cfg.has .user = false ∨ cfg.translation = .identity

theorem State.translate_identity {s : State} (h : Config.IdentityMap s.cfg) (addr : Word)
    (kind : AccessKind) : s.translate addr kind = .to addr := by
  rcases h with h | h <;> simp [State.translate, h]

theorem State.physicals_identity {s : State} (h : Config.IdentityMap s.cfg) (addr : Word)
    (kind : AccessKind) (k n : Nat) :
    s.physicals addr kind k n = .ok ((List.range n).map fun i => s.addrAt addr (k + i)) := by
  induction n generalizing k with
  | zero => rfl
  | succ n ih =>
    simp only [State.physicals, State.physical_of_to (State.translate_identity h _ _), ih,
      List.range_succ_eq_map, List.map_cons, List.map_map, Function.comp_def, Nat.add_zero]
    simp only [Nat.succ_eq_add_one, Nat.add_assoc, Nat.add_comm 1]

/-- Where a write may be made, so may a read. -/
theorem State.regionStop_read_of_write {s t : State} (hc : t.cfg = s.cfg) {ps : List Word}
    (h : s.regionStop .write ps = none) : t.regionStop .read ps = none := by
  have hreg : ∀ a, t.regionAt a = s.regionAt a := fun a => by rw [State.regionAt, State.regionAt, hc]
  induction ps with
  | nil => rfl
  | cons p ps ih =>
    cases hr : s.regionAt p.toNat with
    | ram =>
      simp only [State.regionStop, hreg, hr] at h ⊢
      exact ih h
    | rom | device | hole =>
      simp only [State.regionStop, hr] at h
      cases h

/-- Under identity translation a permitted write and a read of the same bytes have the same addresses. -/
theorem State.checkData_read_of_write {s t : State} (hid : Config.IdentityMap s.cfg) (hc : t.cfg = s.cfg)
    {addr : Word} {n align : Nat} {ps : List Word} (h : s.checkData .write addr n align = .ok ps) :
    ps = (List.range n).map (s.addrAt addr) ∧ t.checkData .read addr n align = .ok ps := by
  obtain ⟨hp, hr⟩ := State.checkData_ok h
  rw [State.physicals_identity hid] at hp
  have hps : ps = (List.range n).map (s.addrAt addr) := by
    rw [← Except.ok.inj hp]
    simp only [Nat.zero_add]
  refine ⟨hps, ?_⟩
  rcases Nat.eq_zero_or_pos n with rfl | hn
  · rw [hps]
    rfl
  · have ha : addr.toNat % align = 0 := by
      refine Classical.byContradiction fun hne => ?_
      rw [State.checkData_of_misaligned hn hne] at h
      split at h <;> cases h
    refine State.checkData_of_permitted hn ha ?_ (State.regionStop_read_of_write hc hr)
    rw [State.physicals_identity (hc ▸ hid), ← hp]
    simp only [State.addrAt, hc]

theorem Config.wlen_ge (cfg : Config) : 8 ≤ cfg.wlen := by
  have h : 0 < cfg.wbytes := Nat.two_pow_pos _
  show 8 ≤ 8 * cfg.wbytes
  omega

/-- The bytes of an access of at most 64 bytes have different addresses. -/
theorem State.addrAt_toNat_ne {s : State} {addr : Word} {i j : Nat} (hij : j < i) (hi : i < 64) :
    (s.addrAt addr i).toNat ≠ (s.addrAt addr j).toNat := by
  have hM : 256 ≤ 2 ^ s.cfg.wlen := Nat.pow_le_pow_right (n := 2) (by decide) (Config.wlen_ge s.cfg)
  rw [State.addrAt, State.addrAt, Config.word_toNat, Config.word_toNat]
  intro h
  have hdvd : 2 ^ s.cfg.wlen ∣ addr.toNat + i - (addr.toNat + j) :=
    Nat.dvd_of_mod_eq_zero (Nat.sub_mod_eq_zero_of_mod_eq h)
  have := Nat.le_of_dvd (by omega) hdvd
  omega

/-- Settles O47: at most 64 bytes have different addresses, so each byte the write left is the one the read
finds, and the bytes of a value give it back. -/
theorem memReadAfterMemWrite : Obligations.MemReadAfterMemWrite := by
  unfold Obligations.MemReadAfterMemWrite
  intro s t k j addr n align v hid hrace hn _ h
  obtain ⟨ps, hps, rfl⟩ := State.memWrite_ok h
  have hcfg : (s.storeBytes k (maskedBytes s.cfg.endian ps n v fun _ => true)).cfg = s.cfg := by
    rw [State.storeBytes_frame]
  have hnil : (s.storeBytes k (maskedBytes s.cfg.endian ps n v fun _ => true)).racing = [] :=
    List.eq_nil_iff_forall_not_mem.2 fun r hr => by simpa [hrace] using State.storeBytes_racing hr
  obtain ⟨hlist, hread⟩ := State.checkData_read_of_write hid hcfg hps
  have hget : ∀ i q, ps[i]? = some q → i < n ∧ q = s.addrAt addr i := fun i q hq => by
    rw [hlist, List.getElem?_map, Option.map_eq_some_iff] at hq
    obtain ⟨m, hm, rfl⟩ := hq
    obtain ⟨hi, rfl⟩ := List.getElem?_eq_some_iff.1 hm
    rw [List.getElem_range]
    exact ⟨by simpa using hi, rfl⟩
  have hlen : ps.length = n := by rw [hlist, List.length_map, List.length_range]
  have hbytes : (s.storeBytes k (maskedBytes s.cfg.endian ps n v fun _ => true)).loadBytes j ps
      = (List.range n).map fun i => byteOf s.cfg.endian n i v := by
    refine List.ext_getElem? fun i => ?_
    rw [State.loadBytes_getElem?, State.settle_of_nil _ hnil, List.getElem?_map]
    rcases Nat.lt_or_ge i n with hi | hi
    · have hp : ps[i]? = some (s.addrAt addr i) := by
        rw [hlist, List.getElem?_map, List.getElem?_range hi, Option.map_some]
      rw [hp, List.getElem?_range hi, Option.map_some, Option.map_some]
      refine congrArg some (State.memWrite_byte hlen hp rfl (fun m q hm hq _ => ?_) (by simp [hrace]))
      obtain ⟨hmn, rfl⟩ := hget m q hq
      exact State.addrAt_toNat_ne hm (by omega)
    · rw [List.getElem?_eq_none (by omega), List.getElem?_eq_none (by simpa using hi)]
      rfl
  rw [State.memRead_of_ok hread, hbytes, hcfg, valueOf_bytes]

end Sys2Proof.Machine
end

section

namespace Sys2Proof.Machine

/-! ### Fetching -/

theorem State.fetchBytes_of_untranslated {s : State} {k n : Nat} {e : Stop}
    (h : s.physicals s.pc .fetch k n = .error e) : s.fetchBytes k n = .error e := by
  simp only [State.fetchBytes, h]

theorem State.fetchBytes_of_stale {s : State} {k n : Nat} {ps : List Word} {p : Word}
    (h : s.physicals s.pc .fetch k n = .ok ps) (hr : s.regionStop .fetch ps = none)
    (hs : s.stale ps = some p) : s.fetchBytes k n = .error (.fault (.staleFetch p)) := by
  simp only [State.fetchBytes, h, hr, hs]

theorem State.fetchBytes_of_fresh {s : State} {k n : Nat} {ps : List Word}
    (h : s.physicals s.pc .fetch k n = .ok ps) (hr : s.regionStop .fetch ps = none)
    (hs : s.stale ps = none) :
    s.fetchBytes k n = .ok (ps.map fun p => Memory.read s.mem p.toNat) := by
  simp only [State.fetchBytes, h, hr, hs]

/-- A fetched list of bytes has none that was written since load. -/
theorem State.fetchBytes_ok {s : State} {k n : Nat} {bs : List Byte} (h : s.fetchBytes k n = .ok bs) :
    ∃ ps, s.physicals s.pc .fetch k n = .ok ps ∧ s.stale ps = none := by
  simp only [State.fetchBytes] at h
  split at h
  · cases h
  · rename_i ps hps
    split at h
    · cases h
    · split at h
      · cases h
      · exact ⟨ps, hps, by assumption⟩

theorem State.stale_eq_none {s : State} {ps : List Word} :
    s.stale ps = none ↔ ∀ p ∈ ps, p.toNat ∉ s.dirty := by
  simp [State.stale]

theorem State.stale_eq_some {s : State} {ps : List Word} {p : Word} (h : s.stale ps = some p) :
    p ∈ ps ∧ p.toNat ∈ s.dirty :=
  ⟨List.mem_of_find?_eq_some h, by simpa using List.find?_some h⟩

/-- An event that stops the fetch of the first parcel. -/
theorem State.fetch_of_head_error {s : State} {e : Stop} (ha : s.pc.toNat % s.cfg.ialign = 0)
    (h : s.fetchBytes 0 2 = .error e) : s.fetch = .error (e, 2) := by
  simp only [State.fetch, ha, ne_eq, not_true_eq_false, if_false, h]

/-- The length of the instruction whose first parcel these two bytes are. -/
def Config.lengthAt (cfg : Config) (b0 b1 : Byte) : InstrLen :=
  cfg.lengthOf.apply (parcelOf cfg.endian b0 b1)

theorem State.fetch_of_tail_error {s : State} {e : Stop} {b0 b1 : Byte}
    (ha : s.pc.toNat % s.cfg.ialign = 0) (h : s.fetchBytes 0 2 = .ok [b0, b1])
    (ht : s.fetchBytes 2 ((Config.lengthAt s.cfg b0 b1).bytes - 2) = .error e) :
    s.fetch = .error (e, (Config.lengthAt s.cfg b0 b1).bytes) := by
  simp only [Config.lengthAt] at ht ⊢
  simp [State.fetch, ha, h, ht]

theorem State.fetch_of_bytes {s : State} {b0 b1 : Byte} {tail : List Byte}
    (ha : s.pc.toNat % s.cfg.ialign = 0) (h : s.fetchBytes 0 2 = .ok [b0, b1])
    (ht : s.fetchBytes 2 ((Config.lengthAt s.cfg b0 b1).bytes - 2) = .ok tail) :
    s.fetch = .ok (Config.lengthAt s.cfg b0 b1,
      wordOf (parcelsOfBytes s.cfg.endian (b0 :: b1 :: tail))) := by
  simp only [Config.lengthAt] at ht ⊢
  simp [State.fetch, ha, h, ht]

/-! ### Steps without an event to take -/

theorem State.Runs.step_of_instr {s b : State} (hs : s.Runs) (hb : s.boundary = .ok b)
    (he : b.nextEvent = none) : step s = settled b.runInstr := by
  rw [hs.step_eq hb, State.atBoundary_of_none he]

/-- A fault delivered where the machine level's critical state is saved. -/
theorem State.deliver_trapped {s : State} {e : Event} (hp : promoting (e.name.kind s.cfg) = true)
    (hc : s.criticalUnsaved .machine = false) : s.TrappedMachine (s.deliver e) e.cause e.data := by
  rw [State.deliver_of_promoting hp, State.launchMachine_of_saved _ _ hc]
  exact State.enterMachine_trapped _ _ _

/-- A fault that stops the fetch comes before any helper register's event. -/
theorem State.runInstr_of_fetch_fault {s : State} {e : Event} {n : Nat} (hf : s.fetch = .error (.event e, n))
    (hk : e.name.kind s.cfg = .fault) : s.runInstr = .next (s.deliver e) := by
  have hpre : e.precedes s.cfg = true := by simp [Event.precedes, hk]
  simp only [State.runInstr, hf, State.stopped, hpre, if_true]

/-- A step whose fetch meets a fault is the privileged launching sequence. -/
theorem State.Runs.trapped_of_fetch {s b : State} {e : Event} {n : Nat} {cause : BitVec 16} (hs : s.Runs)
    (hb : s.boundary = .ok b) (he : b.nextEvent = none) (hf : b.fetch = .error (.event e, n))
    (hk : e.name.kind b.cfg = .fault) (hcause : e.cause = cause) (hc : b.criticalUnsaved .machine = false) :
    ∃ t, step s = .next t.settleAll ∧ b.TrappedMachine t cause e.data := by
  refine ⟨b.deliver e, ?_, hcause ▸ State.deliver_trapped (by rw [hk]; rfl) hc⟩
  rw [hs.step_of_instr hb he, State.runInstr_of_fetch_fault hf hk]
  rfl

/-- The cause does not depend on the event's data (60_exceptions.md R235). -/
theorem Event.cause_of_data (n : EventName) (data : Option Word) :
    Event.cause { name := n, data := data } = Event.cause { name := n } := rfl

/-- Settles O31: the alignment of PC is asked before the first byte. -/
theorem misalignedPcRaisesMisi : Obligations.MisalignedPcRaisesMisi := by
  unfold Obligations.MisalignedPcRaisesMisi
  intro s b hs hb he ha hc
  exact hs.trapped_of_fetch hb he (if_pos ha) rfl rfl hc

/-- The first byte of a fetch that does not translate stops it, in the first parcel or past it. -/
theorem State.fetch_of_untranslated {s : State} {k : Nat} {e : Stop} (ha : s.pc.toNat % s.cfg.ialign = 0)
    (hk : k < 2 ∨ ∃ b0 b1, s.fetchBytes 0 2 = .ok [b0, b1] ∧ k < (Config.lengthAt s.cfg b0 b1).bytes)
    (hto : ∀ j, j < k → ∃ p, s.translate (s.addrAt s.pc j) .fetch = .to p)
    (he : s.physical (s.addrAt s.pc k) .fetch = .error e) : ∃ n, s.fetch = .error (e, n) := by
  have hhead : k < 2 → ∃ n, s.fetch = .error (e, n) := fun hlt => by
    have hp := State.physicals_of_error (k := 0) hlt (by simpa using hto) (by simpa using he)
    exact ⟨_, State.fetch_of_head_error ha (State.fetchBytes_of_untranslated hp)⟩
  rcases Nat.lt_or_ge k 2 with hlt | hge
  · exact hhead hlt
  · obtain ⟨b0, b1, hb, hlen⟩ := hk.resolve_left (Nat.not_lt.2 hge)
    obtain ⟨j, rfl⟩ := Nat.exists_eq_add_of_le hge
    have hp := State.physicals_of_error (k := 2) (n := (Config.lengthAt s.cfg b0 b1).bytes - 2) (by omega)
      (fun i hi => hto (2 + i) (Nat.add_lt_add_left hi 2)) he
    exact ⟨_, State.fetch_of_tail_error ha hb (State.fetchBytes_of_untranslated hp)⟩

/-- Settles O32: translation is asked byte by byte, with the untranslated address as the event's data. -/
theorem fetchFaultsCarryTheAddress : Obligations.FetchFaultsCarryTheAddress := by
  unfold Obligations.FetchFaultsCarryTheAddress
  intro s b k hs hb he ha hc hk hto
  refine ⟨fun h => ?_, fun h => ?_⟩
  · obtain ⟨n, hf⟩ := State.fetch_of_untranslated ha hk hto (State.physical_of_pageFault h)
    exact hs.trapped_of_fetch hb he hf rfl ((Event.cause_of_data .pflt _).trans rfl) hc
  · obtain ⟨n, hf⟩ := State.fetch_of_untranslated ha hk hto (State.physical_of_illegalAddress h)
    exact hs.trapped_of_fetch hb he hf rfl ((Event.cause_of_data .illa _).trans rfl) hc

/-- A step whose word decodes to a fault is the privileged launching sequence. -/
theorem State.Runs.trapped_of_raise {s b : State} {n : EventName} (hs : s.Runs) (hb : s.boundary = .ok b)
    (he : b.nextEvent = none) (hr : b.runInstr = b.raise n) (hk : n.kind b.cfg = .fault)
    (hc : b.criticalUnsaved .machine = false) :
    ∃ t, step s = .next t.settleAll ∧ b.TrappedMachine t (Event.cause { name := n }) none := by
  refine ⟨b.deliver { name := n }, ?_, State.deliver_trapped (by rw [hk]; rfl) hc⟩
  rw [hs.step_of_instr hb he, hr]
  rfl

/-- Settles O33: the result of decoding is asked before the helper registers of the fetch. -/
theorem undecodableWordsTrap : Obligations.UndecodableWordsTrap := by
  unfold Obligations.UndecodableWordsTrap
  intro s b len w hs hb he hf hc
  refine ⟨fun hd => hs.trapped_of_raise (n := .illi) hb he ?_ rfl hc,
    fun hd => hs.trapped_of_raise (n := .inci) hb he ?_ rfl hc⟩ <;> simp only [State.runInstr, hf, hd]

/-! ### Placed instructions -/

/-- What stands where the hart fetches translates, is no device or hole and is as loaded. -/
theorem State.Holds.fetchBytes {s : State} {k : Nat} {bs : List Byte} (h : s.Holds k bs) :
    s.fetchBytes k bs.length = .ok bs := by
  have hp : ∃ ps, s.physicals s.pc .fetch k bs.length = .ok ps
      ∧ (∀ p ∈ ps, s.Accepts .fetch p ∧ p.toNat ∉ s.dirty)
      ∧ (ps.map fun p => Memory.read s.mem p.toNat) = bs := by
    induction bs generalizing k with
    | nil => exact ⟨[], rfl, nofun, rfl⟩
    | cons b bs ih =>
      obtain ⟨⟨p, hto, hread, hfresh, hreg⟩, hrest⟩ := h
      obtain ⟨ps, hps, hall, hmap⟩ := ih hrest
      have hacc : s.Accepts .fetch p := by
        simp only [List.mem_cons, List.not_mem_nil, or_false] at hreg
        exact hreg.imp_right fun hrom => ⟨hrom, nofun⟩
      refine ⟨p :: ps, ?_, List.forall_mem_cons.2 ⟨⟨hacc, hfresh⟩, hall⟩, ?_⟩
      · simp only [List.length_cons, State.physicals, State.physical_of_to hto, hps]
      · rw [List.map_cons, hread, hmap]
  obtain ⟨ps, hps, hall, hmap⟩ := hp
  rw [State.fetchBytes_of_fresh hps (State.regionStop_of_accepts fun p hm => (hall p hm).1)
    (State.stale_eq_none.2 fun p hm => (hall p hm).2), hmap]

theorem State.Holds.append {s : State} {k : Nat} {l1 l2 : List Byte} (h : s.Holds k (l1 ++ l2)) :
    s.Holds k l1 ∧ s.Holds (k + l1.length) l2 := by
  induction l1 generalizing k with
  | nil => exact ⟨trivial, h⟩
  | cons b l1 ih =>
    obtain ⟨hb, hrest⟩ := h
    obtain ⟨h1, h2⟩ := ih hrest
    refine ⟨⟨hb, h1⟩, ?_⟩
    rwa [List.length_cons, Nat.add_comm l1.length, ← Nat.add_assoc]

/-- The passing of time leaves what stands where the hart fetches. -/
theorem State.Holds.passTime {s : State} {k : Nat} {bs : List Byte} (h : s.Holds k bs) :
    s.passTime.Holds k bs := by
  induction bs generalizing k with
  | nil => trivial
  | cons b bs ih =>
    obtain ⟨hb, hrest⟩ := h
    refine ⟨?_, ih hrest⟩
    rw [State.passTime_frame]
    exact hb

/-- The bytes of an instruction that stand at PC are the instruction fetched. -/
theorem State.Holds.fetch {s : State} {len : InstrLen} {w : InstrBits}
    (h : s.Holds 0 (instrBytes s.cfg.endian len w)) (ha : s.pc.toNat % s.cfg.ialign = 0)
    (hw : w.toNat < 2 ^ (8 * len.bytes)) (hl : s.cfg.lengthOf.apply (w.extractLsb' 0 16) = len) :
    s.fetch = .ok (len, w) := by
  have hb : ∃ b0 b1 tail, instrBytes s.cfg.endian len w = b0 :: b1 :: tail ∧ tail.length = len.bytes - 2
      ∧ parcelOf s.cfg.endian b0 b1 = w.extractLsb' 0 16 := by
    cases len <;> exact ⟨_, _, _, rfl, rfl, parcelOf_bytes _ _⟩
  obtain ⟨b0, b1, tail, hbytes, htail, hparcel⟩ := hb
  have hlen : Config.lengthAt s.cfg b0 b1 = len := by rw [Config.lengthAt, hparcel, hl]
  rw [hbytes] at h
  obtain ⟨hhead, hrest⟩ := State.Holds.append (l1 := [b0, b1]) h
  have htf := hrest.fetchBytes
  rw [htail, ← hlen] at htf
  rw [State.fetch_of_bytes ha hhead.fetchBytes htf, hlen, ← hbytes, parcelsOfBytes_instrBytes,
    wordOf_parcelsOf hw]

/-- An assembled word has no bit past its format's length. -/
theorem assemble_lt (order : FieldOrder) (fmt : Format) (fl : Fields) :
    (assemble order fmt fl).toNat < 2 ^ (8 * fmt.length.bytes) := by
  refine Nat.lt_pow_two_of_testBit _ fun i hi => ?_
  rw [BitVec.testBit_toNat]
  rcases Nat.lt_or_ge i 48 with h48 | h48
  · have hnone : (fmt.columns order)[i]? = none := by
      rw [List.getElem?_eq_none_iff, fmt.columns_length order]
      exact hi
    rw [assemble_getLsbD _ _ _ _ h48, hnone]
  · exact BitVec.getLsbD_of_ge _ _ h48

theorem encode_lt {cfg : Config} {i : Instr} {len : InstrLen} {w : InstrBits}
    (h : encode cfg i = some (len, w)) : w.toNat < 2 ^ (8 * len.bytes) := by
  obtain ⟨r, -, hr⟩ := Option.map_eq_some_iff.1 h
  cases hr
  exact assemble_lt _ _ _

theorem State.nextEvent_passTime (s : State) : s.passTime.nextEvent = s.nextEvent := by
  rw [State.passTime_frame]
  rfl

theorem State.accessTriggers_passTime (s : State) (kind : AccessKind) (a : Word) (n : Nat) :
    s.passTime.accessTriggers kind a n = s.accessTriggers kind a n := by
  rw [State.passTime_frame]
  rfl

/-- Settles O28: with no input due the boundary is the passing of time, after which the bytes still stand at
PC, and they are those of the word the decoder takes back to the instruction. -/
theorem placedInstructionRuns : Obligations.PlacedInstructionRuns := by
  unfold Obligations.PlacedInstructionRuns
  intro s i bs hs hin hrace he ha hw hbytes hholds hfired
  obtain ⟨⟨len, w⟩, henc, rfl⟩ := Option.map_eq_some_iff.1 hbytes
  obtain ⟨d, hd, hsem, hlen⟩ := Instr.decode_wellFormed hw henc
  have hb : s.boundary = .ok s.passTime := by simp only [State.boundary, hin]
  have hcfg : s.passTime.cfg = s.cfg := State.passTime_cfg s
  have hpc : s.passTime.pc = s.pc := State.passTime_pc s
  have hf : s.passTime.fetch = .ok (len, w) := by
    refine State.Holds.fetch ?_ (by rw [hcfg, hpc, ha]) (encode_lt henc) (by rw [hcfg, hlen])
    rw [hcfg]
    exact hholds.passTime
  have hlb : (instrBytes s.cfg.endian len w).length = len.bytes := by cases len <;> rfl
  have hnone : s.passTime.accessTriggers .fetch s.passTime.pc len.bytes = [] := by
    rw [State.accessTriggers_passTime, hpc, ← hlb]
    exact hfired
  rw [hs.step_of_decode hb (s.nextEvent_passTime.trans he) hf (hcfg.symm ▸ hd), hnone,
    State.execute_core hsem, State.runCore_nil]
  exact settled_exec i ((State.passTime_racing s).trans hrace)

/-! ### Stale fetches -/

/-- Of bytes that all translate into RAM or ROM, one that was written since load makes the fetch stale. -/
theorem State.fetchBytes_stale {s : State} {k n : Nat}
    (hto : ∀ j, j < n → ∃ p, s.translate (s.addrAt s.pc (k + j)) .fetch = .to p
      ∧ s.regionAt p.toNat ∈ [RegionKind.ram, .rom])
    (hd : ∃ j p, j < n ∧ s.translate (s.addrAt s.pc (k + j)) .fetch = .to p ∧ p.toNat ∈ s.dirty) :
    ∃ j p, j < n ∧ s.translate (s.addrAt s.pc (k + j)) .fetch = .to p ∧ p.toNat ∈ s.dirty
      ∧ s.fetchBytes k n = .error (.fault (.staleFetch p)) := by
  obtain ⟨ps, hps⟩ := State.physicals_of_to fun i hi => (hto i hi).imp fun p hp => hp.1
  obtain ⟨hlen, hget⟩ := State.physicals_ok hps
  have hacc : ∀ p ∈ ps, s.Accepts .fetch p := fun p hp => by
    obtain ⟨j, hj⟩ := List.getElem?_of_mem hp
    obtain ⟨q, hq, hreg⟩ := hto j (hlen ▸ (List.getElem?_eq_some_iff.1 hj).1)
    have hpq := (hget j p hj).symm.trans hq
    cases hpq
    simp only [List.mem_cons, List.not_mem_nil, or_false] at hreg
    exact hreg.imp_right fun hrom => ⟨hrom, nofun⟩
  have hsome : ∃ p, s.stale ps = some p := by
    refine Classical.byContradiction fun hno => ?_
    have hnone := State.stale_eq_none.1 (Option.eq_none_iff_forall_not_mem.2 fun p hp => hno ⟨p, hp⟩)
    obtain ⟨j, p, hj, hp, hdirty⟩ := hd
    have hj' := List.getElem?_eq_getElem (hlen.symm ▸ hj : j < ps.length)
    have hpq := (hget j _ hj').symm.trans hp
    cases hpq
    exact hnone _ (List.getElem_mem _) hdirty
  obtain ⟨p, hp⟩ := hsome
  obtain ⟨hmem, hdirty⟩ := State.stale_eq_some hp
  obtain ⟨j, hj⟩ := List.getElem?_of_mem hmem
  exact ⟨j, p, hlen ▸ (List.getElem?_eq_some_iff.1 hj).1, hget j p hj, hdirty,
    State.fetchBytes_of_stale hps (State.regionStop_of_accepts hacc) hp⟩

/-- Bytes that were fetched are as loaded. -/
theorem State.fetchBytes_fresh {s : State} {k n : Nat} {bs : List Byte} (h : s.fetchBytes k n = .ok bs)
    {j : Nat} (hj : j < n) {p : Word} (hp : s.translate (s.addrAt s.pc (k + j)) .fetch = .to p) :
    p.toNat ∉ s.dirty := by
  obtain ⟨ps, hps, hfresh⟩ := State.fetchBytes_ok h
  obtain ⟨hlen, hget⟩ := State.physicals_ok hps
  have hj' := List.getElem?_eq_getElem (hlen.symm ▸ hj : j < ps.length)
  have hpq := (hget j _ hj').symm.trans hp
  cases hpq
  exact State.stale_eq_none.1 hfresh _ (List.getElem_mem _)

/-- A stale fetch stops the model: it fires no helper register and raises no event. -/
theorem State.Runs.stale {s b : State} {n : Nat} {p : Word} (hs : s.Runs) (hb : s.boundary = .ok b)
    (he : b.nextEvent = none) (hf : b.fetch = .error (.fault (.staleFetch p), n)) :
    step s = .fault (.staleFetch p) := by
  have hr : b.runInstr = .fault (.staleFetch p) := by
    simp only [State.runInstr, hf, State.firedAtFetch, State.stopped, State.afterFlags_nil, Option.getD_none]
  rw [hs.step_of_instr hb he, hr]
  rfl

/-- The platform's map stops nothing as stale. -/
theorem State.regionStop_ne_stale {s : State} {kind : AccessKind} {ps : List Word} {p : Word} :
    s.regionStop kind ps ≠ some (.fault (.staleFetch p)) := by
  intro h
  induction ps with
  | nil => cases h
  | cons q ps ih =>
    simp only [State.regionStop] at h
    split at h
    · exact ih h
    · split at h
      · cases h
      · exact ih h
      · exact ih h
    · cases h
    · cases h

/-- Settles O49: the first parcel is asked whole, and once it is fetched none of its bytes is noted, so a
noted byte of the instruction stands past it. -/
theorem storeToFetchNeedsAFence : Obligations.StoreToFetchNeedsAFence := by
  unfold Obligations.StoreToFetchNeedsAFence
  refine ⟨fun s a byte => (s.mem_storeByte_dirty a byte a).2 (.inl rfl),
    fun s b n hs hb he ha hn hto hd => ?_, fun s k n p hd h => ?_, fun d s0 w => ⟨fun h => if_pos h,
    fun h => ⟨fun hq => ?_, fun hq => ?_⟩⟩⟩
  · rcases hn with rfl | ⟨b0, b1, hfirst, rfl⟩
    · obtain ⟨j, p, hj, hp, hdirty, hstale⟩ :=
        State.fetchBytes_stale (s := b) (k := 0) (n := 2) (by simpa using hto) (by simpa using hd)
      rw [Nat.zero_add] at hp
      exact ⟨j, p, hj, hp, hdirty, hs.stale hb he (State.fetch_of_head_error ha hstale)⟩
    · obtain ⟨i, q, hi, hq, hqd⟩ := hd
      change i < (Config.lengthAt b.cfg b0 b1).bytes at hi
      have hge : 2 ≤ i := by
        refine Classical.byContradiction fun hlt => ?_
        exact State.fetchBytes_fresh hfirst (j := i) (by omega) (by simpa using hq) hqd
      obtain ⟨m, rfl⟩ := Nat.exists_eq_add_of_le hge
      obtain ⟨j, p, hj, hp, hdirty, hstale⟩ :=
        State.fetchBytes_stale (s := b) (k := 2) (n := (Config.lengthAt b.cfg b0 b1).bytes - 2)
          (fun j hj => hto (2 + j) (Nat.add_lt_of_lt_sub' hj)) ⟨m, q, by omega, hq, hqd⟩
      exact ⟨2 + j, p, Nat.add_lt_of_lt_sub' hj, hp, hdirty,
        hs.stale hb he (State.fetch_of_tail_error ha hfirst hstale)⟩
  · simp only [State.fetchBytes] at h
    split at h
    · rename_i e he
      cases h
      obtain ⟨ev, hev, -⟩ := State.physicals_error he
      cases hev
    · rename_i ps hps
      split at h
      · rename_i e he
        cases h
        exact State.regionStop_ne_stale he
      · split at h
        · rename_i q hq
          simpa [hd] using (State.stale_eq_some hq).2
        · cases h
  · exact (if_neg h).trans (if_pos hq)
  · exact (if_neg h).trans (if_neg (by simp [hq]))

end Sys2Proof.Machine
end

section

namespace Sys2Proof.Machine

/-! ### What a supplied instruction's run leads to -/

section

variable {s : State} {d : Decoded} {len : InstrLen} {fetched : List Trigger} {ps : List Prim}

theorem State.runSupplied_of_denied {n : EventName} (h : s.denied d [] ps = some n) :
    s.runSupplied d len fetched ps = s.raise n := by
  simp only [State.runSupplied, h]

theorem State.runSupplied_of_error {e : Stop} {w : Work} (h : s.denied d [] ps = none)
    (hr : runPrims d s { s := s, fired := fetched } ps = .error (e, w)) :
    s.runSupplied d len fetched ps = (s.drawn w.s.draws).stopped w.fired w.flags e := by
  simp only [State.runSupplied, h, hr]

theorem State.runSupplied_of_ok {w : Work} (h : s.denied d [] ps = none)
    (hr : runPrims d s { s := s, fired := fetched } ps = .ok w) :
    s.runSupplied d len fetched ps
      = ((s.drawn w.s.draws).afterFlags w.fired w.flags).getD (.next (s.complete len w)) := by
  simp only [State.runSupplied, h, hr]

end

theorem State.stopped_of_precedes {s : State} {e : Event} (h : e.precedes s.cfg = true)
    (fired : List Trigger) (flags : List Flag) : s.stopped fired flags (.event e) = .next (s.deliver e) :=
  if_pos h

/-- A stop that is no fault comes after what the helper registers and the flags lead to. -/
theorem State.stopped_of_afterFlags {s : State} {stop : Stop} {fired : List Trigger} {flags : List Flag}
    {o : Host.Outcome State Fault Refusal} (h : ∀ e, stop = .event e → e.precedes s.cfg = false)
    (ho : s.afterFlags fired flags = some o) : s.stopped fired flags stop = o := by
  cases stop with
  | event e => simp [State.stopped, h e rfl, ho]
  | fault f => simp [State.stopped, ho]
  | refused r => simp [State.stopped, ho]

/-- Where a helper register fires, the helper events are what the instruction leads to. -/
theorem State.afterFlags_of_triggers {s : State} {fired : List Trigger} {flags : List Flag}
    (h : fired ++ s.flagTriggers flags ≠ []) :
    s.afterFlags fired flags = some (s.takeTriggers (fired ++ s.flagTriggers flags)) := by
  cases hl : fired ++ s.flagTriggers flags with
  | nil => exact absurd hl h
  | cons t ts => simp only [State.afterFlags, hl]

/-- The helper registers a primitive notes fire for some access. -/
theorem Work.mem_attempt {w : Work} {d : Decoded} {s0 : State} {p : Prim} {t : Trigger}
    (h : t ∈ w.attempt d s0 p) : ∃ kind a n, t ∈ s0.accessTriggers kind a n :=
  (Work.mem_note (w := { w with fired := [] }) (p := p) h).resolve_left nofun

/-- What a run notes joins the end of what was noted before. -/
theorem runPrims_fired_append {d : Decoded} {s0 : State} {ps : List Prim} {w w' : Work}
    (h : runPrims d s0 w ps = .ok w' ∨ ∃ e, runPrims d s0 w ps = .error (e, w')) :
    ∃ more, w'.fired = w.fired ++ more ∧ ∀ t ∈ more, ∃ kind a n, t ∈ s0.accessTriggers kind a n := by
  induction ps generalizing w with
  | nil =>
    rcases h with h | ⟨e, h⟩ <;> cases h
    exact ⟨[], (List.append_nil _).symm, nofun⟩
  | cons p ps ih =>
    simp only [runPrims] at h
    cases hp : runPrim d s0 (w.note d s0 p) p with
    | error e =>
      simp only [hp, reduceCtorEq, Except.error.injEq, Prod.mk.injEq, false_or] at h
      obtain ⟨-, -, rfl⟩ := h
      exact ⟨w.attempt d s0 p, rfl, fun t => Work.mem_attempt⟩
    | ok w1 =>
      simp only [hp] at h
      obtain ⟨more, hf, hmore⟩ := ih h
      refine ⟨w.attempt d s0 p ++ more, ?_, fun t ht => ?_⟩
      · rw [hf, (runPrim_next hp).fired, ← List.append_assoc]
        rfl
      · exact (List.mem_append.1 ht).elim Work.mem_attempt (hmore t)

/-- At a fetch that helper registers watch, one of the five instructions takes its fault or their events. -/
theorem State.runCore_cons (s : State) (t : Trigger) (ts : List Trigger) (i : Instr) :
    s.runCore (t :: ts) i = if coreFaults s i = true then exec i s else s.takeTriggers (t :: ts) := rfl

/-- Settles O34: a fault of the instruction is asked first; else the helper registers of its fetch are among
those it noted, so `State.afterFlags` takes the events of all of them. -/
theorem executeTriggerLosesToFault : Obligations.ExecuteTriggerLosesToFault := by
  unfold Obligations.ExecuteTriggerLosesToFault
  intro s b len w d hs hb he hf hd hfired fired
  have hstep : step s = settled (b.execute d len fired) := hs.step_of_decode hb he hf hd
  refine ⟨fun i hi => ?_, fun ps hps => ?_⟩
  · obtain ⟨t, ts, hts⟩ := List.exists_cons_of_ne_nil hfired
    rw [hstep, State.execute_core hi, show fired = t :: ts from hts, State.runCore_cons]
  · rw [hstep, State.execute_prims hps]
    refine ⟨fun n hn => congrArg settled (State.runSupplied_of_denied hn), fun hn => ⟨fun e w' hr hp => ?_,
      fun w' hr => ?_⟩⟩
    · rw [State.runSupplied_of_error hn hr, State.stopped_of_precedes (s := b.drawn w'.s.draws) hp]
    · obtain ⟨more, hmore, hmem⟩ :=
        runPrims_fired_append (w' := w') (hr.imp_right fun ⟨stop, h, _⟩ => ⟨stop, h⟩)
      refine ⟨⟨more, hmore, hmem⟩, congrArg settled ?_⟩
      have hafter : (b.drawn w'.s.draws).afterFlags w'.fired w'.flags
          = some ((b.drawn w'.s.draws).takeTriggers (w'.fired ++ b.flagTriggers w'.flags)) :=
        State.afterFlags_of_triggers fun hnil => hfired
          (List.append_eq_nil_iff.1 (hmore.symm.trans (List.append_eq_nil_iff.1 hnil).1)).1
      rcases hr with hr | ⟨stop, hr, hstop⟩
      · rw [State.runSupplied_of_ok hn hr, hafter, Option.getD_some]
      · rw [State.runSupplied_of_error hn hr,
          State.stopped_of_afterFlags (s := b.drawn w'.s.draws) hstop hafter]

/-! ### Interrupts -/

/-- The best of some events comes no later than any of them. -/
theorem bestOf_le {cfg : Config} {l : List Event} {e' : Event} (h : e' ∈ l) :
    ∃ e, bestOf cfg l = some e ∧ asyncRank cfg e ≤ asyncRank cfg e' := by
  induction l with
  | nil => cases h
  | cons a l ih =>
    cases hb : bestOf cfg l with
    | none =>
      rcases List.mem_cons.1 h with rfl | hl
      · exact ⟨_, by simp only [bestOf, hb], Nat.le_refl _⟩
      · obtain ⟨e, he, -⟩ := ih hl
        rw [hb] at he
        cases he
    | some b =>
      have hcons : bestOf cfg (a :: l)
          = if asyncRank cfg b < asyncRank cfg a then some b else some a := by simp only [bestOf, hb]
      have hrest : e' = a ∨ asyncRank cfg b ≤ asyncRank cfg e' := by
        rcases List.mem_cons.1 h with h | hl
        · exact .inl h
        · obtain ⟨e, he, hle⟩ := ih hl
          rw [hb] at he
          cases he
          exact .inr hle
      rcases Nat.lt_or_ge (asyncRank cfg b) (asyncRank cfg a) with hlt | hge
      · refine ⟨b, hcons.trans (if_pos hlt), ?_⟩
        rcases hrest with rfl | hle
        · exact Nat.le_of_lt hlt
        · exact hle
      · refine ⟨a, hcons.trans (if_neg (Nat.not_lt.2 hge)), ?_⟩
        rcases hrest with rfl | hle
        · exact Nat.le_refl _
        · exact Nat.le_trans hge hle

/-- The interrupts IM does not mask (60_exceptions.md R249). -/
theorem State.unmasked_iff (s : State) (e : Event) :
    s.unmasked e = true ↔ (e.name.kind s.cfg = .ioInterrupt ∧ s.sr.im.getLsbD 0 = false)
      ∨ (e.name.kind s.cfg = .ipcInterrupt ∧ s.sr.im.getLsbD 1 = false) := by
  cases hk : e.name.kind s.cfg <;> simp [State.unmasked, hk]

theorem Event.queuedException_iff (cfg : Config) (e : Event) :
    e.queuedException cfg = true ↔ e.name.kind cfg = .exception ∨ e.name.kind cfg = .fault := by
  cases hk : e.name.kind cfg <;> simp [Event.queuedException, hk]

theorem State.nextEvent_of_unmasked {s : State} {e : Event}
    (h : bestOf s.cfg (s.queue.filter s.unmasked) = some e) : s.nextEvent = some e := by
  simp only [State.nextEvent, h]

/-- Settles O35: the best unmasked interrupt is asked before any queued exception. -/
theorem takenInterruptIsUnmaskedAndFirst : Obligations.TakenInterruptIsUnmaskedAndFirst := by
  unfold Obligations.TakenInterruptIsUnmaskedAndFirst
  refine ⟨fun s e' hmem hk => ?_, fun s e he => ?_, fun s b e hs hb he => ?_⟩
  · obtain ⟨e, hbest, hle⟩ :=
      bestOf_le (cfg := s.cfg) (List.mem_filter.2 ⟨hmem, (s.unmasked_iff e').2 hk⟩)
    exact ⟨e, State.nextEvent_of_unmasked hbest, (List.mem_filter.1 (bestOf_mem hbest)).2, hle⟩
  · obtain ⟨hmem, hcase⟩ := State.nextEvent_cases he
    rw [State.unmasked_iff, Event.queuedException_iff] at hcase
    have hio : e.name.kind s.cfg = .ioInterrupt → s.sr.im.getLsbD 0 = false := fun hk => by simpa [hk] using hcase
    have hipc : e.name.kind s.cfg = .ipcInterrupt → s.sr.im.getLsbD 1 = false := fun hk => by
      simpa [hk] using hcase
    refine ⟨hmem, hio, hipc, fun hm => ⟨fun hk => ?_, fun hk => ?_⟩⟩
    · exact absurd (hio hk) (by rw [hm]; decide)
    · exact absurd (hipc hk) (by rw [hm]; decide)
  · rw [hs.step_eq hb, State.atBoundary, he]
    rfl

theorem State.mem_post {s : State} {e : Event} (x : Event) (h : e ∈ s.queue) : e ∈ (s.post x).queue := by
  unfold State.post
  split
  · exact List.mem_append_left _ h
  · exact h

/-- Nothing that arrives takes an event out of the queue. -/
theorem Arrival.mem_queue {s t : State} (ha : Arrival s t) {e : Event} (h : e ∈ s.queue) : e ∈ t.queue := by
  cases ha with
  | none => exact h
  | posted x => exact State.mem_post x h
  | clock =>
    rcases s.clock_cases with ⟨-, hc⟩ | ⟨-, hc⟩ <;> rw [hc]
    · exact h
    · unfold State.tick
      split
      · split
        · exact State.mem_post _ h
        · exact h
      · exact h
  | stored n b => exact h
  | raced r => exact h

/-- Settles O36: arrivals take nothing out of the queue, and an event that is taken out of it is none of the
masked ones. -/
theorem maskedInterruptIsNotLost : Obligations.MaskedInterruptIsNotLost := by
  unfold Obligations.MaskedInterruptIsNotLost
  intro s t e hstep hmem hmask
  rcases step_cases hstep with ⟨-, rfl⟩ | ⟨-, b, u, hb, ha, rfl⟩
  · exact hmem
  · have hsame := State.boundary_sameHart hb
    have hbq : e ∈ b.queue :=
      State.boundary_induct (fun u => e ∈ u.queue) (fun u hu => by rwa [State.passTime_queue])
        (fun _ _ hu => hu) (fun _ _ _ hr => (State.receive_cases hr).mem_queue) hb hmem
    rw [State.settleAll_queue]
    rcases ha.queue with ⟨x, hx, hq⟩ | ⟨ts, -, -, hq⟩ <;> rw [hq]
    · have hne : e ≠ x := by
        rintro rfl
        have hcase := (State.nextEvent_cases hx).2
        rw [State.unmasked_iff, Event.queuedException_iff, hsame.cfg, hsame.sr] at hcase
        rcases hmask with ⟨hk, him⟩ | ⟨hk, him⟩ <;> rw [hk, him] at hcase <;> simp at hcase
      exact (List.mem_erase_of_ne hne).2 hbq
    · exact List.mem_append_left _ hbq

/-! ### Arrivals and the watchdog -/

theorem State.post_of_room {s : State} (h : s.queue.length < s.cfg.queueDepth) (e : Event) :
    s.post e = { s with queue := s.queue ++ [e] } := if_pos h

theorem State.post_of_full {s : State} (h : s.cfg.queueDepth ≤ s.queue.length) (e : Event) : s.post e = s :=
  if_neg (Nat.not_lt.2 h)

/-- Settles O37: a line of a module the hart has posts its event. -/
theorem arrivingInterrupts : Obligations.ArrivingInterrupts := by
  unfold Obligations.ArrivingInterrupts
  intro s k
  refine ⟨fun hm hq => ?_, fun hm hq => ?_, fun hq => ⟨?_, ?_⟩, fun hm => ?_, fun hm => ?_⟩
  · simp only [State.receive, hm, if_true, State.post_of_room hq]
  · simp only [State.receive, hm, if_true, State.post_of_room hq]
  · simp only [State.receive, State.post_of_full hq, ite_self]
  · simp only [State.receive, State.post_of_full hq, ite_self]
  · simp [State.receive, hm]
  · simp [State.receive, hm]

/-- Settles O38: the three conditions of a tick are one test, and the last count is another. -/
theorem watchdogTick : Obligations.WatchdogTick := by
  unfold Obligations.WatchdogTick
  intro s
  refine ⟨fun h => ?_, fun h => ?_, fun hu hw hd => ?_, fun hu hw hd => ?_, fun h => ?_⟩
  · simp only [State.receive, State.clock, if_pos h]
  · simp only [State.receive, State.clock, if_neg (Nat.not_lt.2 h)]
  · have h0 : s.wdt ≠ 0 := by rintro h0; simp [h0] at hd
    have h1 : s.wdt ≠ 1 := by rintro h1; simp [h1] at hd
    have hon : (s.cfg.has .user && s.sr.wdte == 1 && s.wdt != 0) = true :=
      Bool.and_eq_true_iff.2 ⟨by simp [hu, hw], bne_iff_ne.2 h0⟩
    rw [State.tick, if_pos hon, if_neg h1]
  · simp [State.tick, hu, hw, hd]
  · rcases h with h | h | h <;> simp [State.tick, h]

/-! ### Reset -/

theorem Config.resetPc_lt {cfg : Config} (h : cfg.problem = none) : cfg.resetPc.toNat < 2 ^ cfg.wlen := by
  have hm := Config.check_of_problem (b := decide (0 < cfg.ialign)
    && decide (cfg.resetPc.toNat < 2 ^ cfg.wlen) && decide (cfg.resetPc.toNat % cfg.ialign = 0))
    (p := .resetPc) h (by simp [Config.checks])
  simp only [Bool.and_eq_true, decide_eq_true_eq] at hm
  exact hm.1.2

/-- All copies of a value have its properties. -/
theorem forall_mem_replicate {α : Type} {P : α → Prop} {n : Nat} {a : α} (h : P a) :
    ∀ x ∈ List.replicate n a, P x := by
  intro x hx
  rwa [List.eq_of_mem_replicate hx]

/-- The value 0 fits every width. -/
theorem zero_fits (n w : Nat) : (0 : BitVec n).toNat < 2 ^ w :=
  lt_of_eq_of_lt BitVec.toNat_zero (Nat.two_pow_pos _)

theorem State.resetOf_banksFit (cfg : Config) : (State.resetOf cfg).BanksFit where
  xCount := List.length_replicate
  xWidth := forall_mem_replicate (zero_fits 64 cfg.wlen)
  vrCount := List.length_replicate
  vrWidth := forall_mem_replicate (zero_fits 512 cfg.mxvl)
  hCount := List.length_replicate
  hWidth := forall_mem_replicate (zero_fits 64 cfg.wlen)
  cCount := List.length_replicate
  cWidth := forall_mem_replicate (zero_fits 64 cfg.clen)

theorem State.resetOf_specialsFit {cfg : Config} (h : cfg.problem = none) :
    (State.resetOf cfg).SpecialsFit :=
  have word : (0 : Word).toNat < 2 ^ cfg.wlen := zero_fits 64 cfg.wlen
  have mask : (0 : BitVec 64).toNat < 2 ^ (cfg.mxvl / 8) := zero_fits 64 _
  ⟨Config.resetPc_lt h, ⟨word, word, word, word, word⟩, ⟨word, word, word, word, word⟩, word, word,
    ⟨mask, mask, mask⟩, ⟨zero_fits 32 _, zero_fits 32 _, zero_fits 32 _, zero_fits 32 _⟩⟩

theorem State.resetOf_statusFits (cfg : Config) : (State.resetOf cfg).StatusFits := by
  cases hio : cfg.has .ioint <;> cases hipc : cfg.has .ipcint <;>
    simp [State.StatusFits, State.resetOf, StatusReg.present, hio, hipc]

/-- Right after reset every helper register is in mode 0, so none is in a reserved one. -/
theorem State.resetOf_reservedHelper {cfg : Config} (h : cfg.problem = none) :
    (State.resetOf cfg).reservedHelper = none := by
  rw [State.reservedHelper_eq_none (s := State.resetOf cfg) h]
  rintro i ⟨r, hr, -, hlow, -⟩
  have hmem : r ∈ List.replicate cfg.hrfs ({} : HelperReg) := List.mem_of_getElem? hr
  rw [List.eq_of_mem_replicate hmem] at hlow
  exact absurd hlow (by decide)

theorem State.resetOf_reservedCounter {cfg : Config} (h : cfg.problem = none) :
    (State.resetOf cfg).reservedCounter = none := by
  rw [State.reservedCounter_eq_none (s := State.resetOf cfg) h]
  rintro i ⟨r, hr, -, hlow, -⟩
  have hmem : r ∈ List.replicate cfg.crfs ({} : CounterReg) := List.mem_of_getElem? hr
  rw [List.eq_of_mem_replicate hmem] at hlow
  exact absurd hlow (by decide)

theorem State.resetOf_runs {cfg : Config} (h : cfg.problem = none) : (State.resetOf cfg).Runs where
  config := h
  notHalted := rfl
  supported := by
    have ht : (State.resetOf cfg).sr.tnd = 0 := rfl
    have hq : (State.resetOf cfg).queue = [] := rfl
    simp [State.unsupported, ht, hq, State.resetOf_reservedHelper h, State.resetOf_reservedCounter h]

theorem State.resetOf_afterReset {cfg : Config} (h : cfg.problem = none) : (State.resetOf cfg).AfterReset where
  banks := State.resetOf_banksFit cfg
  special := State.resetOf_specialsFit h
  status := State.resetOf_statusFits cfg
  hModes := forall_mem_replicate rfl
  cModes := forall_mem_replicate rfl
  pc := rfl
  mode := rfl
  running := rfl
  masked := fun hm => if_pos hm
  quiet := ⟨rfl, rfl, rfl, rfl, rfl⟩
  causes :=
    have none : causeId 0 = 0 := by decide
    ⟨none, none⟩
  queue := rfl

/-- Settles O52: every register is 0 right after reset but PC and IM. -/
theorem resetMeetsTheInvariants : Obligations.ResetMeetsTheInvariants := by
  unfold Obligations.ResetMeetsTheInvariants
  intro cfg h
  exact ⟨State.resetOf_afterReset h, ⟨List.Pairwise.nil, nofun, List.Pairwise.nil, nofun⟩,
    ⟨Nat.zero_le _, nofun, nofun⟩, State.resetOf_runs h⟩

end Sys2Proof.Machine
end

section

namespace Sys2Proof.Machine

/-! ### The helper registers that fire -/

section

variable {s : State} {fires : Nat → HelperReg → Bool}

/-- A trigger is of a helper register that fires, with the event of its mode. -/
theorem State.mem_triggers {t : Trigger} :
    t ∈ s.h.zipIdx.filterMap (triggerIf s.cfg fires)
      ↔ ∃ r, s.h[t.index]? = some r ∧ fires t.index r = true ∧ helperEvent s.cfg r.mode = some t.name := by
  rw [List.mem_filterMap]
  constructor
  · rintro ⟨⟨r, i⟩, hm, ht⟩
    simp only [triggerIf] at ht
    split at ht
    · obtain ⟨n, hn, rfl⟩ := Option.map_eq_some_iff.1 ht
      exact ⟨r, List.mk_mem_zipIdx_iff_getElem?.1 hm, by assumption, hn⟩
    · cases ht
  · rintro ⟨r, hr, hf, hn⟩
    exact ⟨(r, t.index), List.mk_mem_zipIdx_iff_getElem?.2 hr, by simp [triggerIf, hf, hn]⟩

/-- A helper register that fires an event has its trigger. -/
theorem State.exists_trigger {i : Nat} {r : HelperReg} (hr : s.h[i]? = some r) :
    (∃ t ∈ s.h.zipIdx.filterMap (triggerIf s.cfg fires), t.index = i)
      ↔ fires i r = true ∧ (helperEvent s.cfg r.mode).isSome = true := by
  constructor
  · rintro ⟨t, ht, rfl⟩
    obtain ⟨r', hr', hf, hn⟩ := State.mem_triggers.1 ht
    obtain rfl : r = r' := Option.some.inj (hr.symm.trans hr')
    exact ⟨hf, by rw [hn]; rfl⟩
  · rintro ⟨hf, hsome⟩
    obtain ⟨n, hn⟩ := Option.isSome_iff_exists.1 hsome
    exact ⟨⟨i, n⟩, State.mem_triggers.2 ⟨r, hr, hf, hn⟩, rfl⟩

theorem State.trigger_name {i : Nat} {r : HelperReg} (hr : s.h[i]? = some r) {t : Trigger}
    (ht : t ∈ s.h.zipIdx.filterMap (triggerIf s.cfg fires)) (hi : t.index = i) :
    some t.name = helperEvent s.cfg r.mode := by
  subst hi
  obtain ⟨r', hr', -, hn⟩ := State.mem_triggers.1 ht
  obtain rfl : r = r' := Option.some.inj (hr.symm.trans hr')
  exact hn.symm

end

theorem State.helperEnabled_iff (s : State) (i : Nat) :
    s.helperEnabled i = true ↔ s.cfg.has .hlpr = true ∧ s.sr.hlpre.getLsbD (i / 8) = true := by
  rw [State.helperEnabled, Bool.and_eq_true]

/-! ### What the modes watch -/

theorem helperHook_of_lt {cfg : Config} {m : BitVec 8} (h : m.toNat < 128) : helperHook cfg m = none := by
  refine List.find?_eq_none.2 fun k _ hk => ?_
  have := eq_of_beq hk
  omega

theorem helperEvent_of_lt {cfg : Config} {m : BitVec 8} (h : m.toNat < 128) :
    helperEvent cfg m = watchEvent (watchOf cfg m) := by
  rw [helperEvent, helperHook_of_lt h]
  rfl

/-- Modes 1 to 5 watch an address: 1, 4 and 5 reads, 2, 4 and 5 writes, 3 and 5 fetches (10_state.md R31). -/
theorem watchOf_address {cfg : Config} {m : BitVec 8} (h1 : 1 ≤ m.toNat) (h5 : m.toNat ≤ 5) :
    watchOf cfg m = .address (decide (m.toNat ∈ [1, 4, 5])) (decide (m.toNat ∈ [2, 4, 5]))
      (decide (m.toNat ∈ [3, 5])) := by
  unfold watchOf
  generalize m.toNat = n at *
  rcases (by omega : n = 1 ∨ n = 2 ∨ n = 3 ∨ n = 4 ∨ n = 5) with rfl | rfl | rfl | rfl | rfl <;> rfl

/-- Modes 6 to 10 watch a range: 6, 9 and 10 reads, 7, 9 and 10 writes, 8 and 10 fetches
(10_state.md R31). -/
theorem watchOf_range {cfg : Config} {m : BitVec 8} (h1 : 6 ≤ m.toNat) (h5 : m.toNat ≤ 10) :
    watchOf cfg m = .range (decide (m.toNat ∈ [6, 9, 10])) (decide (m.toNat ∈ [7, 9, 10]))
      (decide (m.toNat ∈ [8, 10])) := by
  unfold watchOf
  generalize m.toNat = n at *
  rcases (by omega : n = 6 ∨ n = 7 ∨ n = 8 ∨ n = 9 ∨ n = 10) with rfl | rfl | rfl | rfl | rfl <;> rfl

theorem watchOf_reserved {cfg : Config} {m : BitVec 8} (h1 : 25 ≤ m.toNat) (h2 : m.toNat < 128) :
    watchOf cfg m = .reserved := by
  unfold watchOf
  split
  case h_26 => exact if_pos h2
  all_goals omega

/-- Modes from 128 on watch what the configuration says, by default nothing. -/
theorem watchOf_custom {cfg : Config} {m : BitVec 8} (h : 128 ≤ m.toNat) :
    watchOf cfg m = (helperHook cfg m).elim .nothing (·.watch) := by
  unfold watchOf
  split
  case h_26 =>
    rw [if_neg (Nat.not_lt.2 h)]
    cases helperHook cfg m <;> rfl
  all_goals omega

/-- The event of helper mode m is 113 + m for modes 1 to 5 and 108 + m for 6 to 24
(60_exceptions.md R228). -/
theorem helperEvent_code {cfg : Config} {m : BitVec 8} (h : m.toNat < 128) :
    (helperEvent cfg m).map (fun e => e.code.toNat)
      = if 1 ≤ m.toNat ∧ m.toNat ≤ 5 then some (113 + m.toNat)
        else if 6 ≤ m.toNat ∧ m.toNat ≤ 24 then some (108 + m.toNat) else none := by
  rw [helperEvent_of_lt h]
  rcases Nat.lt_or_ge m.toNat 25 with hlt | hge
  · unfold watchOf
    generalize m.toNat = n at *
    repeat
      rcases (Nat.lt_add_one_iff_lt_or_eq.1 hlt).symm with rfl | hlt
      · rfl
    omega
  · rw [watchOf_reserved hge h, if_neg (by omega), if_neg (by omega)]
    rfl

/-- Things with keys of their own are the same where their keys are. -/
theorem eq_of_nodup_map {α β : Type} {l : List α} {f : α → β} (hn : (l.map f).Nodup) {a b : α}
    (ha : a ∈ l) (hb : b ∈ l) (h : f a = f b) : a = b := by
  obtain ⟨i, hi, rfl⟩ := List.getElem_of_mem ha
  obtain ⟨j, hj, rfl⟩ := List.getElem_of_mem hb
  have hne := List.pairwise_iff_getElem.1 (List.pairwise_map.1 hn)
  rcases Nat.lt_trichotomy i j with hij | rfl | hij
  · exact absurd h (hne i j hi hj hij)
  · rfl
  · exact absurd h.symm (hne j i hj hi hij)

/-- The one of some things with a key of its own is what a search for the key finds. -/
theorem find?_of_nodup_map {α β : Type} {l : List α} {f : α → β} (hn : (l.map f).Nodup) {p : α → Bool} {a : α}
    (ha : a ∈ l) (hp : p a = true) (hf : ∀ b, p b = true → f b = f a) : l.find? p = some a := by
  obtain ⟨b, hb⟩ := Option.isSome_iff_exists.1 (List.find?_isSome.2 ⟨a, ha, hp⟩)
  rw [hb, eq_of_nodup_map hn (List.mem_of_find?_eq_some hb) ha (hf b (List.find?_some hb))]

/-- The custom modes of a legal configuration have numbers of their own. -/
theorem Config.slots_nodup {cfg : Config} (hc : cfg.problem = none) :
    (cfg.helperModes.map (·.slot)).Nodup ∧ (cfg.counterModes.map (·.slot)).Nodup
      ∧ (cfg.customEvents.map (·.slot)).Nodup := by
  have hm := Config.check_of_problem (b := decide (cfg.helperModes.map (·.slot)).Nodup
    && cfg.helperModes.all (·.legal cfg) && decide (cfg.counterModes.map (·.slot)).Nodup
    && cfg.counterModes.all (fun k => k.counts != .reserved)) (p := .customMode) hc (by simp [Config.checks])
  have he := Config.check_of_problem (b := decide (cfg.customEvents.map (·.slot)).Nodup)
    (p := .customEvent) hc (by simp [Config.checks])
  simp only [Bool.and_eq_true, decide_eq_true_eq] at hm he
  exact ⟨hm.1.1.1, hm.1.2, he⟩

theorem ofNat_custom_toNat {k : Nat} (h : k < 128) : (BitVec.ofNat 8 (128 + k)).toNat = 128 + k := by
  rw [BitVec.toNat_ofNat]
  omega

theorem helperHook_of_mem {cfg : Config} (hc : cfg.problem = none) {k : HelperHook} (hk : k ∈ cfg.helperModes) :
    helperHook cfg (BitVec.ofNat 8 (128 + k.slot.val)) = some k := by
  have ht := ofNat_custom_toNat (Nat.lt_succ_of_lt k.slot.isLt)
  refine find?_of_nodup_map (Config.slots_nodup hc).1 hk (by rw [ht]; exact beq_self_eq_true _) fun b hb => ?_
  rw [ht, beq_iff_eq] at hb
  exact Fin.ext (Nat.add_left_cancel hb)

theorem helperHook_eq_none {cfg : Config} {m : BitVec 8}
    (h : ∀ k ∈ cfg.helperModes, 128 + k.slot.val ≠ m.toNat) : helperHook cfg m = none :=
  List.find?_eq_none.2 fun k hk => by simpa using h k hk

/-! ### Address and range watches -/

theorem State.touches_iff (s : State) (a : Word) (n : Nat) (v : Word) :
    s.touches a n v = true ↔ ∃ k, k < n ∧ s.addrAt a k = v := by
  simp [State.touches]

/-- Without wrap-around the bytes of an access are an interval. -/
theorem State.touches_interval {s : State} {a : Word} {n : Nat} (h : a.toNat + n ≤ 2 ^ s.cfg.wlen) (v : Word) :
    (∃ k, k < n ∧ s.addrAt a k = v) ↔ a.toNat ≤ v.toNat ∧ v.toNat < a.toNat + n := by
  have hword : ∀ k, k < n → (s.addrAt a k).toNat = a.toNat + k := fun k hk => by
    rw [State.addrAt, Config.word_toNat, Nat.mod_eq_of_lt (by omega)]
  constructor
  · rintro ⟨k, hk, rfl⟩
    rw [hword k hk]
    omega
  · rintro ⟨h1, h2⟩
    refine ⟨v.toNat - a.toNat, by omega, BitVec.eq_of_toNat_eq ?_⟩
    rw [hword _ (by omega)]
    omega

/-- Settles O39: an address watch asks the kind of the access and the byte at its value. -/
theorem addressTriggers : Obligations.AddressTriggers := by
  unfold Obligations.AddressTriggers
  intro s a n i r hr h1 h5 enabled covers
  have hcode := helperEvent_code (cfg := s.cfg) (m := r.mode) (by omega)
  rw [if_pos ⟨h1, h5⟩] at hcode
  have hsome : (helperEvent s.cfg r.mode).isSome = true := by
    rw [← Option.isSome_map, hcode]
    rfl
  have hfire : ∀ kind, (∃ t ∈ s.accessTriggers kind a n, t.index = i) ↔ s.firesOn kind a n i r = true :=
    fun kind => by rw [State.accessTriggers, State.exists_trigger hr, and_iff_left hsome]
  refine ⟨fun h => State.touches_interval h r.val, (hfire .read).trans ?_, (hfire .write).trans ?_,
    (hfire .fetch).trans ?_, fun kind t ht hi => ?_⟩
  · rw [State.firesOn, watchOf_address h1 h5, Bool.and_eq_true, State.helperEnabled_iff, Bool.and_eq_true,
      State.touches_iff, watchesKind, decide_eq_true_eq, and_comm (a := _ ∈ _)]
  · rw [State.firesOn, watchOf_address h1 h5, Bool.and_eq_true, State.helperEnabled_iff, Bool.and_eq_true,
      State.touches_iff, watchesKind, decide_eq_true_eq, and_comm (a := _ ∈ _)]
  · rw [State.firesOn, watchOf_address h1 h5, Bool.and_eq_true, State.helperEnabled_iff, Bool.and_eq_true,
      watchesKind, decide_eq_true_eq, beq_iff_eq, and_comm (a := _ ∈ _)]
  · have hname := State.trigger_name hr ht hi
    rw [← hname] at hcode
    exact ⟨hname, Option.some.inj hcode⟩

theorem State.rangeEnd_eq_some {s : State} {i : Nat} {v : Word} :
    s.rangeEnd i = some v ↔ ∃ hi, s.h[i + 1]? = some hi ∧ hi.mode = 255 ∧ hi.val = v := by
  cases hh : s.h[i + 1]? with
  | none => simp [State.rangeEnd, hh]
  | some r => by_cases hm : r.mode = 255 <;> simp [State.rangeEnd, hh, hm]

/-- A range watch fires where its successor ends the range and the access is not wholly inside. -/
theorem State.firesOn_range {s : State} {kind : AccessKind} {a : Word} {n i : Nat} {r : HelperReg}
    {rd wr fe : Bool} (hn : 0 < n) (hw : watchOf s.cfg r.mode = .range rd wr fe) :
    s.firesOn kind a n i r = true ↔
      (s.cfg.has .hlpr = true ∧ s.sr.hlpre.getLsbD (i / 8) = true
        ∧ ∃ hi, s.h[i + 1]? = some hi ∧ hi.mode = 255
          ∧ ¬(r.val.toNat ≤ a.toNat ∧ a.toNat + n - 1 ≤ hi.val.toNat))
        ∧ watchesKind rd wr fe kind = true := by
  simp only [State.firesOn, hw, Bool.and_eq_true, State.helperEnabled_iff, and_assoc,
    and_comm (a := watchesKind rd wr fe kind = true)]
  refine and_congr_right fun _ => and_congr_right fun _ => and_congr_left fun _ => ?_
  cases he : s.rangeEnd i with
  | none =>
    refine iff_of_false nofun ?_
    rintro ⟨hi, hh, hm, -⟩
    cases he.symm.trans (State.rangeEnd_eq_some.2 ⟨hi, hh, hm, rfl⟩)
  | some v =>
    obtain ⟨hi, hh, hm, rfl⟩ := State.rangeEnd_eq_some.1 he
    have hle : a.toNat + n ≤ hi.val.toNat + 1 ↔ a.toNat + n - 1 ≤ hi.val.toNat := by omega
    simp only [Bool.not_eq_true', Bool.and_eq_false_iff, decide_eq_false_iff_not, hle, ← Classical.not_and_iff_not_or_not]
    constructor
    · exact fun h => ⟨hi, hh, hm, h⟩
    · rintro ⟨hi', hh', -, h⟩
      obtain rfl : hi = hi' := Option.some.inj (hh.symm.trans hh')
      exact h

/-- Settles O40: a range watch asks the kind of the access, the successor and the access's ends. -/
theorem rangeTriggers : Obligations.RangeTriggers := by
  unfold Obligations.RangeTriggers
  intro s a n i r hr h6 h10 hn fires
  have hcode := helperEvent_code (cfg := s.cfg) (m := r.mode) (by omega)
  rw [if_neg (by omega), if_pos ⟨h6, by omega⟩] at hcode
  have hsome : (helperEvent s.cfg r.mode).isSome = true := by
    rw [← Option.isSome_map, hcode]
    rfl
  have hfire : ∀ kind, (∃ t ∈ s.accessTriggers kind a n, t.index = i) ↔ fires
      ∧ watchesKind (decide (r.mode.toNat ∈ [6, 9, 10])) (decide (r.mode.toNat ∈ [7, 9, 10]))
        (decide (r.mode.toNat ∈ [8, 10])) kind = true := fun kind => by
    rw [State.accessTriggers, State.exists_trigger hr, and_iff_left hsome,
      State.firesOn_range hn (watchOf_range h6 h10)]
  refine ⟨(hfire .read).trans (and_congr_right fun _ => decide_eq_true_iff),
    (hfire .write).trans (and_congr_right fun _ => decide_eq_true_iff),
    (hfire .fetch).trans (and_congr_right fun _ => decide_eq_true_iff), fun kind t ht hi => ?_⟩
  have hname := State.trigger_name hr ht hi
  rw [← hname] at hcode
  exact ⟨hname, Option.some.inj hcode⟩

end Sys2Proof.Machine
end

section

namespace Sys2Proof.Machine

/-! ### Flag watches -/

/-- A helper register in a flag mode has an event: that of the flag, or a custom one. -/
theorem helperEvent_isSome_of_flag {cfg : Config} {m : BitVec 8} {f : Flag} (h : watchOf cfg m = .flag f) :
    (helperEvent cfg m).isSome = true := by
  unfold helperEvent
  split
  · rfl
  · rw [h]
    rfl

/-- The modes of the table that watch a flag are 11 to 24, and their event is 108 + m. -/
theorem flagT_code_of_watch {cfg : Config} {m : BitVec 8} {f : Flag} (h : watchOf cfg m = .flag f)
    (hm : m.toNat ≤ 24) :
    helperEvent cfg m = some (.flagT f) ∧ (EventName.flagT f).code.toNat = 108 + m.toNat := by
  have he : helperEvent cfg m = some (.flagT f) := by
    rw [helperEvent_of_lt (by omega), h]
    rfl
  have hge : 6 ≤ m.toNat := by
    refine Classical.byContradiction fun hlt => ?_
    rcases Nat.eq_zero_or_pos m.toNat with h0 | hpos
    · simp [watchOf, h0] at h
    · rw [watchOf_address hpos (by omega)] at h
      cases h
  have hcode := helperEvent_code (cfg := cfg) (m := m) (by omega)
  rw [he, if_neg (by omega), if_pos ⟨hge, hm⟩] at hcode
  exact ⟨he, Option.some.inj hcode⟩

theorem State.firesOnFlag_iff {s : State} {flags : List Flag} {i : Nat} {r : HelperReg} :
    s.firesOnFlag flags i r = true
      ↔ s.helperEnabled i = true ∧ r.val = s.pc ∧ ∃ f ∈ flags, watchOf s.cfg r.mode = .flag f := by
  simp only [State.firesOnFlag, Bool.and_eq_true, beq_iff_eq, and_assoc]
  refine and_congr_right fun _ => and_congr_right fun _ => ?_
  cases watchOf s.cfg r.mode <;> simp

theorem watchOf_of_mem {cfg : Config} (hc : cfg.problem = none) {k : HelperHook} (hk : k ∈ cfg.helperModes) :
    watchOf cfg (BitVec.ofNat 8 (128 + k.slot.val)) = k.watch := by
  rw [watchOf_custom (by rw [ofNat_custom_toNat (Nat.lt_succ_of_lt k.slot.isLt)]; omega),
    helperHook_of_mem hc hk]
  rfl

/-- Settles O41: a flag watch asks the address of the instruction and the flags it raised. -/
theorem flagTriggers : Obligations.FlagTriggers := by
  unfold Obligations.FlagTriggers
  refine ⟨fun cfg => ⟨rfl, fun hc k hk => watchOf_of_mem hc hk, fun m hm hk => ?_⟩,
    fun s flags i r f hr hw => ⟨?_, fun t ht hi => ?_⟩⟩
  · rw [watchOf_custom hm, helperHook_eq_none hk]
    rfl
  · rw [State.flagTriggers, State.exists_trigger hr, and_iff_left (helperEvent_isSome_of_flag hw),
      State.firesOnFlag_iff, State.helperEnabled_iff, and_assoc, hw]
    simp only [Watch.flag.injEq, exists_eq_right']
  · have hname := State.trigger_name hr ht hi
    refine ⟨hname, fun hm => ?_⟩
    obtain ⟨he, hcode⟩ := flagT_code_of_watch hw hm
    rw [Option.some.inj (hname.trans he)]
    exact ⟨rfl, hcode⟩

/-! ### Helper events in order -/

theorem mem_inIndexOrder_iff {n : Nat} {ts : List Trigger} (h : ∀ t ∈ ts, t.index < n) {t : Trigger} :
    t ∈ inIndexOrder n ts ↔ ts.find? (fun u => u.index == t.index) = some t := by
  rw [inIndexOrder, List.mem_filterMap]
  constructor
  · rintro ⟨i, -, hi⟩
    have hti : t.index = i := by simpa using List.find?_some hi
    rwa [hti]
  · exact fun hf => ⟨t.index, List.mem_range.2 (h t (List.mem_of_find?_eq_some hf)), hf⟩

/-- The triggers taken are in order of the registers' indices, one for a register. -/
theorem inIndexOrder_pairwise (n : Nat) (ts : List Trigger) :
    (inIndexOrder n ts).Pairwise (fun a b => a.index < b.index) := by
  refine List.pairwise_filterMap.2 (List.pairwise_lt_range.imp fun {i j} hij a ha b hb => ?_)
  have hai : a.index = i := by simpa using List.find?_some ha
  have hbj : b.index = j := by simpa using List.find?_some hb
  omega

/-- Two lists of triggers in order of their indices that have the same members are the same. -/
theorem eq_of_pairwise_index {l1 l2 : List Trigger} (h1 : l1.Pairwise (fun a b => a.index < b.index))
    (h2 : l2.Pairwise (fun a b => a.index < b.index)) (h : ∀ t, t ∈ l1 ↔ t ∈ l2) : l1 = l2 := by
  have hnodup : ∀ {l : List Trigger}, l.Pairwise (fun a b => a.index < b.index) → l.Nodup := fun hl =>
    hl.imp fun hab heq => Nat.ne_of_lt hab (congrArg Trigger.index heq)
  exact ((List.perm_ext_iff_of_nodup (hnodup h1) (hnodup h2)).2 h).eq_of_pairwise
    (fun a b _ _ hab hba => absurd hab (Nat.lt_asymm hba)) h1 h2

theorem State.takeTriggers_nil {s : State} {ts : List Trigger} (h : inIndexOrder s.h.length ts = []) :
    s.takeTriggers ts = .next s := by
  simp only [State.takeTriggers, h]

theorem State.takeTriggers_cons {s : State} {ts rest : List Trigger} {a : Trigger}
    (h : inIndexOrder s.h.length ts = a :: rest) :
    s.takeTriggers ts = if s.queue.length + rest.length ≤ s.cfg.queueDepth then
        .next (State.deliver { s with queue := s.queue ++ rest.map Trigger.event } a.event)
      else .refused .queueOverflow := by
  simp only [State.takeTriggers, h]

/-- The cause register's fields: the code in bits 8:0, the extra information above (60_exceptions.md R235). -/
theorem Event.cause_fields (e : Event) : causeId e.cause = e.name.code ∧ e.cause.extractLsb' 9 7 = e.extra := by
  refine ⟨BitVec.eq_of_getLsbD_eq fun i hi => ?_, BitVec.eq_of_getLsbD_eq fun i hi => ?_⟩
  · rw [causeId, Event.cause, BitVec.getLsbD_extractLsb', BitVec.getLsbD_append]
    simp only [hi, decide_true, Bool.true_and, Nat.zero_add, if_true]
  · rw [Event.cause, BitVec.getLsbD_extractLsb', BitVec.getLsbD_append]
    simp [hi]

/-- The event of a helper mode is an exception: those of the table are, and a legal configuration lists the
custom ones once and as such (60_exceptions.md R264). -/
theorem helperEvent_kind {cfg : Config} (hc : cfg.problem = none) {m : BitVec 8} {n : EventName}
    (h : helperEvent cfg m = some n) : n.kind cfg = .exception := by
  rcases helperEvent_cases hc h with ⟨slot, rfl, c, hmem, rfl, hk⟩ | hn
  · have hrow : customRow cfg c.slot = some c :=
      find?_of_nodup_map (Config.slots_nodup hc).2.2 hmem (beq_self_eq_true _) fun b hb => eq_of_beq hb
    rw [EventName.kind, hrow]
    exact hk
  · rcases hn with rfl | rfl | rfl | rfl | rfl | ⟨f, rfl⟩ <;> rfl

/-- Settles O42: what is taken is the list of first triggers in index order, whose head is delivered. -/
theorem helperEventOrderAndCause : Obligations.HelperEventOrderAndCause := by
  unfold Obligations.HelperEventOrderAndCause
  refine ⟨fun s ts l hts hl hmem => ⟨fun hnil => ?_, fun a rest har => ?_⟩,
    fun cfg m => helperEvent_code, Event.cause_fields, fun s t m hc hi hm => ?_⟩
  · subst hnil
    exact State.takeTriggers_nil (List.eq_nil_iff_forall_not_mem.2 fun t ht =>
      List.not_mem_nil (mem_inIndexOrder ht))
  · have horder : inIndexOrder s.h.length ts = a :: rest :=
      (eq_of_pairwise_index (inIndexOrder_pairwise _ _) hl fun t =>
        (mem_inIndexOrder_iff hts).trans (hmem t).symm).trans har
    rw [State.takeTriggers_cons horder]
    exact ⟨fun hq => if_pos hq, fun hq => if_neg (Nat.not_le.2 hq)⟩
  · have hk := helperEvent_kind hc hm
    have hextra : t.event.extra.toNat = t.index := by
      rw [Trigger.event, BitVec.toNat_ofNat]
      omega
    refine ⟨hk, ?_, fun hu => ?_, fun hmach => ?_⟩
    · rw [Event.cause_toNat, hextra]
      rfl
    · exact State.deliver_of_user (e := t.event) (by rw [Trigger.event, hk]; rfl) hu
    · exact State.deliver_of_machine hmach

/-! ### Arithmetic exceptions -/

/-- The EXC event of a flag, whatever the word length (60_exceptions.md R227). -/
def excName : Flag → EventName
  | .covr _ => .covre
  | .cund => .cunde
  | .ovfl _ => .ovfle
  | .unfl _ => .unfle
  | .div0 => .div0e

theorem excEvent_eq_some {cfg : Config} {f : Flag} {n : EventName} (h : excEvent cfg f = some n) :
    n = excName f ∧ f ∈ excFlags cfg := by
  have hk : ∀ k : Fin 4, k.val = cfg.wlenc.toNat → k = Fin.ofNat 4 cfg.wlenc.toNat := fun k hk =>
    Fin.ext (by rw [Fin.val_ofNat, ← hk, Nat.mod_eq_of_lt k.isLt])
  cases f with
  | cund | div0 =>
    cases h
    exact ⟨rfl, by simp [excFlags]⟩
  | covr k | ovfl k | unfl k =>
    simp only [excEvent] at h
    split at h
    · rename_i hv
      cases h
      exact ⟨rfl, by simp [excFlags, hk k hv]⟩
    · cases h

/-- The flags with an EXC event are in the order of their codes. -/
theorem excFlags_pairwise (cfg : Config) :
    (excFlags cfg).Pairwise (fun f g => (excName f).code.toNat < (excName g).code.toNat) := by
  have h : [EventName.covre, .cunde, .ovfle, .unfle, .div0e].Pairwise
      (fun a b => a.code.toNat < b.code.toNat) := by decide
  exact (List.pairwise_map (R := fun a b : EventName => a.code.toNat < b.code.toNat)).1
    (show ((excFlags cfg).map excName).Pairwise _ from h)

theorem excName_code (f : Flag) : 98 ≤ (excName f).code.toNat ∧ (excName f).code.toNat ≤ 102 := by
  have h : ∀ n ∈ [EventName.covre, .cunde, .ovfle, .unfle, .div0e],
      98 ≤ n.code.toNat ∧ n.code.toNat ≤ 102 := by decide
  exact h _ (by cases f <;> simp [excName])

theorem flagT_code (f : Flag) :
    119 ≤ (EventName.flagT f).code.toNat ∧ (EventName.flagT f).code.toNat ≤ 132 := by
  cases f with
  | cund | div0 => decide
  | covr k | ovfl k | unfl k =>
    revert k
    decide

/-- A helper register overrides the exception of a flag: it is active and holds the instruction's address in
a mode that watches it (60_exceptions.md R266). -/
def State.Overrides (s : State) (f : Flag) (i : Nat) (r : HelperReg) : Prop :=
  s.h[i]? = some r ∧ s.helperEnabled i = true ∧ r.val = s.pc ∧ watchOf s.cfg r.mode = .flag f

/-- A helper register that holds the instruction for a flag it raised fires its event. -/
theorem State.Overrides.trigger {s : State} {f : Flag} {i : Nat} {r : HelperReg} (h : s.Overrides f i r)
    {flags : List Flag} (hf : f ∈ flags) :
    ∃ t ∈ s.flagTriggers flags, t.index = i ∧ some t.name = helperEvent s.cfg r.mode := by
  obtain ⟨hr, hen, hv, hw⟩ := h
  obtain ⟨t, ht, hi⟩ := (State.exists_trigger hr).2
    ⟨State.firesOnFlag_iff.2 ⟨hen, hv, f, hf, hw⟩, helperEvent_isSome_of_flag hw⟩
  exact ⟨t, ht, hi, State.trigger_name hr ht hi⟩

theorem State.overridden_iff (s : State) (f : Flag) :
    s.overridden f = true ↔ ∃ i r, s.Overrides f i r := by
  rw [State.overridden, Bool.not_eq_true', List.isEmpty_eq_false_iff]
  constructor
  · intro hne
    obtain ⟨t, ht⟩ := List.exists_mem_of_ne_nil _ hne
    obtain ⟨r, hr, hfire, -⟩ := State.mem_triggers.1 ht
    obtain ⟨hen, hv, g, hg, hw⟩ := State.firesOnFlag_iff.1 hfire
    obtain rfl := List.mem_singleton.1 hg
    exact ⟨t.index, r, hr, hen, hv, hw⟩
  · rintro ⟨i, r, h⟩
    obtain ⟨t, ht, -⟩ := h.trigger (List.mem_singleton_self f)
    exact List.ne_nil_of_mem ht

/-- The flags generate an exception (60_exceptions.md R227, R266). -/
def State.Generates (s : State) (flags : List Flag) (n : EventName) : Prop :=
  (s.cfg.has .exc = true ∧ s.sr.gee = 1)
    ∧ ∃ f ∈ flags, excEvent s.cfg f = some n ∧ ¬∃ i r, s.Overrides f i r

theorem State.mem_excEvents {s : State} {flags : List Flag} {n : EventName} :
    n ∈ s.excEvents flags ↔ s.Generates flags n := by
  unfold State.excEvents State.Generates
  split
  · rename_i hon
    rw [Bool.and_eq_true, beq_iff_eq] at hon
    rw [and_iff_right hon, List.mem_filterMap]
    constructor
    · rintro ⟨f, -, hf⟩
      split at hf
      · rename_i hc
        rw [Bool.and_eq_true, List.contains_iff_mem, Bool.not_eq_true', ← Bool.not_eq_true,
          State.overridden_iff] at hc
        exact ⟨f, hc.1, hf, hc.2⟩
      · cases hf
    · rintro ⟨f, hmem, hf, hno⟩
      refine ⟨f, (excEvent_eq_some hf).2, (if_pos ?_).trans hf⟩
      rw [Bool.and_eq_true, List.contains_iff_mem, Bool.not_eq_true', ← Bool.not_eq_true,
        State.overridden_iff]
      exact ⟨hmem, hno⟩
  · rename_i hoff
    rw [Bool.and_eq_true, beq_iff_eq] at hoff
    exact iff_of_false List.not_mem_nil fun h => hoff h.1

theorem State.excEvents_pairwise (s : State) (flags : List Flag) :
    (s.excEvents flags).Pairwise (fun a b => a.code.toNat < b.code.toNat) := by
  unfold State.excEvents
  split
  · refine List.pairwise_filterMap.2 ((excFlags_pairwise s.cfg).imp fun {f g} hfg a ha b hb => ?_)
    split at ha
    · split at hb
      · rwa [(excEvent_eq_some ha).1, (excEvent_eq_some hb).1]
      · cases hb
    · cases ha
  · exact List.Pairwise.nil

theorem State.afterFlags_of_none {s : State} {fetched : List Trigger} {flags : List Flag}
    (h : fetched ++ s.flagTriggers flags = []) :
    s.afterFlags fetched flags = (s.excEvents flags).head?.map s.raise := by
  cases he : s.excEvents flags <;> simp only [State.afterFlags, h, he, List.head?_nil, List.head?_cons,
    Option.map_none, Option.map_some]

/-- Of several exceptions the one of the lowest code comes first. -/
theorem State.excEvents_head {s : State} {flags : List Flag} {n : EventName} (h : n ∈ s.excEvents flags)
    (hmin : ∀ m ∈ s.excEvents flags, n.code.toNat ≤ m.code.toNat) :
    (s.excEvents flags).head? = some n := by
  have hpw := s.excEvents_pairwise flags
  cases he : s.excEvents flags with
  | nil =>
    rw [he] at h
    cases h
  | cons m ms =>
    rw [he] at h hmin hpw
    rcases List.mem_cons.1 h with rfl | hms
    · rfl
    · have hlt := (List.pairwise_cons.1 hpw).1 n hms
      have hle := hmin m List.mem_cons_self
      omega

/-- Settles O43: helper events first, else the head of the exceptions, which are in the order of their
codes. -/
theorem arithmeticExceptions : Obligations.ArithmeticExceptions := by
  unfold Obligations.ArithmeticExceptions
  intro s flags fetched overridden generated
  have hgen : ∀ n, n ∈ s.excEvents flags ↔ generated n := fun n => State.mem_excEvents
  refine ⟨hgen, State.afterFlags_of_triggers, fun hnone => ⟨fun n hn hmin => ?_, fun hno => ?_⟩,
    fun f hf i r hr hen hv hw => ?_, fun f n hn => ?_, flagT_code⟩
  · rw [State.afterFlags_of_none hnone,
      State.excEvents_head ((hgen n).2 hn) fun m hm => hmin m ((hgen m).1 hm)]
    rfl
  · have hempty : s.excEvents flags = [] :=
      List.eq_nil_iff_forall_not_mem.2 fun n hn => hno n ((hgen n).1 hn)
    rw [State.afterFlags_of_none hnone, hempty]
    rfl
  · obtain ⟨t, ht, hi, hname⟩ := State.Overrides.trigger ⟨hr, hen, hv, hw⟩ hf
    exact ⟨⟨t, ht, hi, hname⟩, List.ne_nil_of_mem ht⟩
  · rw [(excEvent_eq_some hn).1]
    exact excName_code f

/-! ### Counting -/

/-- What counts an instruction (10_state.md R42). -/
theorem countsInstr_iff (k : Retired) (c : Counts) :
    countsInstr k c = true ↔ c = .instructions ∨ (c = .loads ∧ k.load = true)
      ∨ (c = .stores ∧ k.store = true) ∨ ∃ taken, c = .branches taken ∧ k.branch = some taken := by
  cases c <;> simp [countsInstr]

theorem Config.counter_toNat (cfg : Config) (n : Nat) : (cfg.counter n).toNat = n % 2 ^ cfg.clen := by
  have hle : 2 ^ cfg.clen ≤ 2 ^ 64 := Nat.pow_le_pow_right (by decide) (Config.clen_le cfg)
  rw [Config.counter, BitVec.toNat_ofNat]
  exact Nat.mod_eq_of_lt (Nat.lt_of_lt_of_le (Nat.mod_lt _ (Nat.two_pow_pos _)) hle)

theorem State.counting_iff (s : State) : s.counting = true ↔ s.cfg.has .perfc = true ∧ s.sr.perfce = 1 := by
  rw [State.counting, Bool.and_eq_true, beq_iff_eq]

/-- What arrives draws no free value. -/
theorem Arrival.draws {s t : State} (h : Arrival s t) : t.draws = s.draws := by
  have hpost : ∀ (u : State) (e : Event), (u.post e).draws = u.draws := fun u e => by
    unfold State.post
    split <;> rfl
  cases h with
  | none => rfl
  | posted e => exact hpost s e
  | clock =>
    rcases s.clock_cases with ⟨-, hc⟩ | ⟨-, hc⟩ <;> rw [hc]
    unfold State.tick
    split
    · split
      · exact hpost _ _
      · rfl
    · rfl
  | stored n b => rfl
  | raced r => rfl

theorem State.draws_le_passTime (s : State) : s.draws ≤ s.passTime.draws := by
  unfold State.passTime
  split
  · exact Nat.le_succ _
  · exact Nat.le_refl _

theorem State.boundary_draws_le {s b : State} (h : s.boundary = .ok b) : s.draws ≤ b.draws :=
  State.boundary_induct (fun u => s.draws ≤ u.draws) (fun u hu => Nat.le_trans hu u.draws_le_passTime)
    (fun _ _ hu => hu) (fun _ _ _ hr hu => (State.receive_cases hr).draws ▸ hu) h (Nat.le_refl _)

theorem State.deliver_draws (s : State) (e : Event) : (s.deliver e).draws = s.draws :=
  (s.deliver_sameElsewhere e).inputs.2.2

theorem Advance.draws_le {s t : State} (h : Advance s t) : s.draws ≤ t.draws := by
  cases h with
  | took e he => exact Nat.le_of_eq (State.deliver_draws { s with queue := s.queue.erase e } e).symm
  | raised n hn e he =>
    rw [State.deliver_draws]
    exact hn
  | triggered n hn ts t htk hr =>
    rcases State.takeTriggers_cases htk with ⟨-, rfl⟩ | ⟨a, rest, -, -, rfl⟩
    · exact hn
    · rw [State.deliver_draws]
      exact hn
  | ran i hf hr => exact Nat.le_of_eq (coreEffect_retired_sameElsewhere i s).inputs.2.2.symm
  | completed d len w ps f r hd hs hr =>
    rw [State.complete, State.retire_draws]
    exact runPrims_draws_le (w := { s := s, fired := f }) (.inl hr)

theorem counterHook_find {cfg : Config} (hc : cfg.problem = none) {k : CounterHook} (hk : k ∈ cfg.counterModes) :
    cfg.counterModes.find? (fun j => 128 + j.slot.val == 128 + k.slot.val) = some k :=
  find?_of_nodup_map (Config.slots_nodup hc).2.1 hk (beq_self_eq_true _) fun _ hb =>
    Fin.ext (Nat.add_left_cancel (eq_of_beq hb))

/-- Modes from 128 on count what the configuration says, by default time. -/
theorem countsOf_custom {cfg : Config} {m : BitVec 8} (h : 128 ≤ m.toNat) :
    countsOf cfg m
      = (cfg.counterModes.find? fun k => 128 + k.slot.val == m.toNat).elim .time (·.counts) := by
  unfold countsOf
  split
  case h_7 =>
    rw [if_neg (by omega), if_neg (by omega)]
    cases cfg.counterModes.find? fun k => 128 + k.slot.val == m.toNat <;> rfl
  all_goals omega

/-- Settles O44: retiring counts by the modes of the beginning, and a draw is only ever added. -/
theorem countersCountInstructions : Obligations.CountersCountInstructions := by
  unfold Obligations.CountersCountInstructions
  refine ⟨fun s0 s k => ⟨State.retire_frame s0 s k, fun i r0 r h0 h => ?_⟩, fun s0 s i r hr hp he ht => ?_,
    fun s t h => ?_, fun cfg => ⟨rfl, fun m h6 h15 => ?_, fun hc k hk => ?_, fun m hm hk => ?_⟩⟩
  · refine ⟨_, State.retire_getElem? h0 h, ?_⟩
    simp only [State.counting_iff, countsInstr_iff, and_assoc]
    split
    · exact ⟨rfl, Config.counter_toNat _ _⟩
    · exact ⟨rfl, rfl⟩
  · have hc : s0.counting = true := (State.counting_iff s0).2 ⟨hp, he⟩
    have hget : s0.c.getD i {} = r := by rw [List.getD_eq_getElem?_getD, hr, Option.getD_some]
    simp only [State.readBank, hc, hget, ht, beq_self_eq_true, Bool.and_self, if_true]
  · rcases step_cases h with ⟨-, rfl⟩ | ⟨-, b, u, hb, ha, rfl⟩
    · exact Nat.le_refl _
    · rw [State.settleAll_draws]
      exact Nat.le_trans (State.boundary_draws_le hb) ha.draws_le
  · unfold countsOf
    generalize m.toNat = n at *
    rcases (by omega : n = 6 ∨ n = 7 ∨ n = 8 ∨ n = 9 ∨ n = 10 ∨ n = 11 ∨ n = 12 ∨ n = 13 ∨ n = 14 ∨ n = 15)
      with rfl | rfl | rfl | rfl | rfl | rfl | rfl | rfl | rfl | rfl <;> rfl
  · have ht := ofNat_custom_toNat k.slot.isLt
    rw [countsOf_custom (by rw [ht]; omega), ht, counterHook_find hc hk]
    rfl
  · rw [countsOf_custom hm, List.find?_eq_none.2 fun k hk' => by simpa using hk k hk']
    rfl

end Sys2Proof.Machine
end

section

namespace Sys2Proof.Machine

/-! ### What the decode and privilege checks deny -/

theorem sprDenied_mem {cfg : Config} {mode : Mode} {r : Spr} {n : EventName}
    (h : sprDenied cfg mode r = some n) : n ∈ [EventName.inci, .illi] := by
  simp only [sprDenied] at h
  split at h
  · cases h
    decide
  · split at h
    · split at h <;> cases h
      decide
    · cases h

theorem sprWriteDenied_mem {cfg : Config} {mode : Mode} {r : Spr} {v : Nat} {n : EventName}
    (h : sprWriteDenied cfg mode r v = some n) : n ∈ [EventName.inci, .illi] := by
  simp only [sprWriteDenied] at h
  split at h
  · cases h
    exact sprDenied_mem ‹_›
  · split at h <;> cases h
    decide

/-- A write of a register that is absent or privileged is denied, whatever the value. -/
theorem sprWriteDenied_of_denied {cfg : Config} {mode : Mode} {r : Spr} (h : sprDenied cfg mode r ≠ none)
    (v : Nat) : sprWriteDenied cfg mode r v ≠ none := by
  obtain ⟨n, hn⟩ := Option.ne_none_iff_exists'.1 h
  simp [sprWriteDenied, hn]

theorem indexDenied_mem {cfg : Config} {b : Bank} {i : Option Nat} {n : EventName}
    (h : indexDenied cfg b i = some n) : n ∈ [EventName.inci, .illi] := by
  simp only [indexDenied] at h
  split at h
  · cases h
  · split at h <;> cases h
    decide

theorem numberDenied_mem {cfg : Config} {i : Option Nat} {go : Spr → Option EventName} {n : EventName}
    (hgo : ∀ r, go r = some n → n ∈ [EventName.inci, .illi]) (h : numberDenied cfg i go = some n) :
    n ∈ [EventName.inci, .illi] := by
  simp only [numberDenied] at h
  split at h
  · cases h
  · split at h
    · cases h
      decide
    · exact hgo _ h
    · exact indexDenied_mem h
    · exact indexDenied_mem h

/-- What the encoding denies of a primitive raises INCI or ILLI. -/
theorem primDenied_mem {cfg : Config} {mode : Mode} {st : List (Option Nat)} {p : Prim} {n : EventName}
    (h : primDenied cfg mode st p = some n) : n ∈ [EventName.inci, .illi] := by
  have hwrite : ∀ (v : Option Nat) (r : Spr), (match v with
      | none => sprDenied cfg mode r
      | some v => sprWriteDenied cfg mode r v) = some n → n ∈ [EventName.inci, .illi] := fun v r hv => by
    cases v with
    | none => exact sprDenied_mem hv
    | some v => exact sprWriteDenied_mem hv
  cases p with
  | readSpr r => exact sprDenied_mem h
  | writeSpr r => exact hwrite _ _ h
  | readSprAt => exact numberDenied_mem (fun _ => sprDenied_mem) h
  | writeSprAt => exact numberDenied_mem (hwrite _) h
  | readAt b | writeAt b | readModeAt b | writeModeAt b => exact indexDenied_mem h
  | _ => cases h

theorem State.denied_mem {s : State} {d : Decoded} {ps : List Prim} {st : List (Option Nat)} {n : EventName}
    (h : s.denied d st ps = some n) : n ∈ [EventName.inci, .illi] := by
  induction ps generalizing st with
  | nil => cases h
  | cons p ps ih =>
    simp only [State.denied] at h
    split at h
    · cases h
      exact primDenied_mem ‹_›
    · exact ih h

theorem State.denied_ne_none {s : State} {d : Decoded} {ps : List Prim} {p : Prim} (hp : p ∈ ps)
    (h : ∀ st, primDenied s.cfg s.mode st p ≠ none) (st : List (Option Nat)) : s.denied d st ps ≠ none := by
  induction ps generalizing st with
  | nil => cases hp
  | cons q ps ih =>
    simp only [State.denied]
    split
    · exact nofun
    · rename_i hq
      rcases List.mem_cons.1 hp with rfl | hp
      · exact absurd hq (h st)
      · exact ih hp _

/-- An access by name to a register that is absent or privileged is denied. -/
theorem State.denied_of_spr {s : State} {d : Decoded} {ps : List Prim} {r : Spr}
    (hr : Prim.readSpr r ∈ ps ∨ Prim.writeSpr r ∈ ps) (h : sprDenied s.cfg s.mode r ≠ none) :
    ∃ n ∈ [EventName.inci, .illi], s.denied d [] ps = some n := by
  have hne : s.denied d [] ps ≠ none := by
    rcases hr with hr | hr
    · exact State.denied_ne_none hr (fun _ => h) []
    · refine State.denied_ne_none hr (fun st => ?_) []
      simp only [primDenied]
      split
      · exact h
      · exact sprWriteDenied_of_denied h _
  obtain ⟨n, hn⟩ := Option.ne_none_iff_exists'.1 hne
  exact ⟨n, State.denied_mem hn, hn⟩

/-! ### Completing or being cancelled -/

/-- `t` is `s` with an event delivered, events of helper registers queued and free values drawn, and all
else undone. -/
def State.CancelledTo (s t : State) (P : Trigger → Prop) : Prop :=
  ∃ n e, ∃ ts : List Trigger, s.draws ≤ n
    ∧ t = State.deliver { s.drawn n with queue := s.queue ++ ts.map Trigger.event } e
    ∧ s.queue.length + ts.length ≤ max s.queue.length s.cfg.queueDepth ∧ ∀ u ∈ ts, P u

/-- An event that is delivered with nothing queued cancels. -/
theorem State.CancelledTo.deliver {s : State} {n : Nat} (hn : s.draws ≤ n) (e : Event) (P : Trigger → Prop) :
    s.CancelledTo ((s.drawn n).deliver e) P := by
  refine ⟨n, e, [], hn, ?_, Nat.le_max_left _ _, nofun⟩
  rw [List.map_nil, List.append_nil]
  rfl

/-- What the helper registers and the flags lead to cancels, where every trigger is of a register the hart
has. -/
theorem State.CancelledTo.afterFlags {s t : State} {n : Nat} {fired : List Trigger} {flags : List Flag}
    {o : Host.Outcome State Fault Refusal} {P : Trigger → Prop} (hn : s.draws ≤ n)
    (hi : ∀ u ∈ fired, u.index < s.h.length) (hP : ∀ u ∈ fired ++ s.flagTriggers flags, P u)
    (ho : (s.drawn n).afterFlags fired flags = some o) (h : o = .next t) : s.CancelledTo t P := by
  rcases List.eq_nil_or_concat (fired ++ s.flagTriggers flags) with hnil | ⟨init, last, hconcat⟩
  · rw [State.afterFlags_of_none (s := s.drawn n) hnil, Option.map_eq_some_iff] at ho
    obtain ⟨m, -, hm⟩ := ho
    cases hm.trans h
    exact .deliver hn _ P
  · have hne : fired ++ s.flagTriggers flags ≠ [] := by
      rw [hconcat]
      simp
    rw [State.afterFlags_of_triggers (s := s.drawn n) hne] at ho
    cases Option.some.inj ho
    have hindex : ∀ u ∈ fired ++ s.flagTriggers flags, u.index < s.h.length := fun u hu =>
      (List.mem_append.1 hu).elim (hi u) (State.triggers_index u)
    rcases State.takeTriggers_cases h with ⟨hnone, -⟩ | ⟨a, rest, horder, hq, rfl⟩
    · obtain ⟨u, hu⟩ := List.exists_mem_of_ne_nil _ hne
      obtain ⟨v, hv⟩ := Option.isSome_iff_exists.1
        (List.find?_isSome.2 ⟨u, hu, beq_self_eq_true u.index⟩ :
          ((fired ++ s.flagTriggers flags).find? fun v => v.index == u.index).isSome)
      have hvu : v.index = u.index := by simpa using List.find?_some hv
      have hmem := (mem_inIndexOrder_iff hindex (t := v)).2 (hvu ▸ hv)
      exact absurd (hnone ▸ hmem : v ∈ []) List.not_mem_nil
    · refine ⟨n, a.event, rest, hn, rfl, Nat.le_trans hq (Nat.le_max_right _ _), fun u hu => hP u ?_⟩
      exact mem_inIndexOrder (horder ▸ List.mem_cons_of_mem _ hu)

theorem State.stopped_event {s : State} {e : Event} (h : e.precedes s.cfg = false) (fired : List Trigger)
    (flags : List Flag) :
    s.stopped fired flags (.event e) = (s.afterFlags fired flags).getD (.next (s.deliver e)) :=
  if_neg (by simp [h])

/-- An instruction that stops is cancelled. -/
theorem State.CancelledTo.stopped {s t : State} {n : Nat} {fired : List Trigger} {flags : List Flag}
    {stop : Stop} {P : Trigger → Prop} (hn : s.draws ≤ n) (hi : ∀ u ∈ fired, u.index < s.h.length)
    (hP : ∀ u ∈ fired ++ s.flagTriggers flags, P u) (h : (s.drawn n).stopped fired flags stop = .next t) :
    s.CancelledTo t P := by
  have hafter : ∀ o, (o = .next t → s.CancelledTo t P) →
      ((s.drawn n).afterFlags fired flags).getD o = .next t → s.CancelledTo t P := fun o ho hg => by
    cases ha : (s.drawn n).afterFlags fired flags with
    | none => exact ho (by rwa [ha] at hg)
    | some o' => exact .afterFlags hn hi hP ha (by rwa [ha] at hg)
  cases stop with
  | event e =>
    have hd : (.next ((s.drawn n).deliver e) : Host.Outcome State Fault Refusal) = .next t →
        s.CancelledTo t P := fun h => by
      cases h
      exact .deliver hn e P
    cases hp : e.precedes s.cfg with
    | true =>
      rw [State.stopped_of_precedes (s := s.drawn n) hp] at h
      exact hd h
    | false =>
      rw [State.stopped_event (s := s.drawn n) hp] at h
      exact hafter _ hd h
  | fault f => exact hafter (.fault f) nofun h
  | refused r => exact hafter (.refused r) nofun h

/-- What of the state a cancelled instruction leaves: everything outside PC, SR, the event registers, the
queue and the free values drawn. -/
theorem State.CancelledTo.frame {s t : State} {P : Trigger → Prop} (h : s.CancelledTo t P) :
    (∃ (e : Event) (ts : List Trigger),
        t = State.deliver { s.drawn t.draws with queue := s.queue ++ ts.map Trigger.event } e
        ∧ s.queue.length + ts.length ≤ max s.queue.length s.cfg.queueDepth ∧ ∀ u ∈ ts, P u)
      ∧ t.cfg = s.cfg ∧ t.x = s.x ∧ t.vr = s.vr ∧ t.h = s.h ∧ t.c = s.c ∧ t.vsh = s.vsh
      ∧ t.vm1 = s.vm1 ∧ t.vm2 = s.vm2 ∧ t.vm3 = s.vm3 ∧ t.pfpa = s.pfpa ∧ t.usage = s.usage
      ∧ t.pid = s.pid ∧ t.tid = s.tid ∧ t.hpid = s.hpid ∧ t.tptr = s.tptr ∧ t.wdt = s.wdt
      ∧ t.dirty = s.dirty ∧ t.racing = s.racing ∧ t.inputs = s.inputs ∧ t.cycles = s.cycles
      ∧ s.draws ≤ t.draws ∧ ∀ a, Memory.read t.mem a = Memory.read s.mem a := by
  obtain ⟨n, e, ts, hn, rfl, hq, hts⟩ := h
  have same := State.deliver_sameElsewhere { s.drawn n with queue := s.queue ++ ts.map Trigger.event } e
  have counters := (State.deliver_sameHandlers
    { s.drawn n with queue := s.queue ++ ts.map Trigger.event } e).1
  obtain ⟨hvm1, hvm2, hvm3⟩ := same.vm
  obtain ⟨hpid, htid, hhpid, htptr⟩ := same.ids
  obtain ⟨hin, hcycles, hdraws⟩ := same.inputs
  exact ⟨⟨e, ts, by rw [hdraws]; rfl, hq, hts⟩, same.cfg, same.x, same.vr, same.h, counters, same.vsh, hvm1,
    hvm2, hvm3, same.pfpa, same.usage, hpid, htid, hhpid, htptr, same.wdt, same.dirty, same.racing, hin,
    hcycles, hdraws ▸ hn, same.memory⟩

/-- Whatever comes of a run, it takes back no draw, and the triggers it noted and those of its flags are of
registers the hart has: of the fetch, of an access or of a flag. -/
theorem runPrims_noted {s : State} {d : Decoded} {fetched : List Trigger} {ps : List Prim} {w : Work}
    (hf : ∀ u ∈ fetched, u.index < s.h.length)
    (hr : runPrims d s { s := s, fired := fetched } ps = .ok w
      ∨ ∃ e, runPrims d s { s := s, fired := fetched } ps = .error (e, w)) :
    s.draws ≤ w.s.draws ∧ (∀ u ∈ w.fired, u.index < s.h.length)
      ∧ ∀ u ∈ w.fired ++ s.flagTriggers w.flags, u ∈ fetched
        ∨ (∃ kind a n, u ∈ s.accessTriggers kind a n) ∨ ∃ flags, u ∈ s.flagTriggers flags := by
  have hfired := runPrims_fired hr
  refine ⟨runPrims_draws_le hr, fun u hu => ?_, fun u hu => ?_⟩
  · rcases hfired u hu with hu | ⟨kind, a, n, hu⟩
    · exact hf u hu
    · exact State.triggers_index u hu
  · rcases List.mem_append.1 hu with hu | hu
    · exact (hfired u hu).imp_right .inl
    · exact .inr (.inr ⟨_, hu⟩)

/-- Settles O51: a supplied instruction whose helper registers and flags lead to nothing completes; every
other outcome delivers an event to the state it began in, with what it drew. -/
theorem suppliedInstructionCompletesOrIsCancelled : Obligations.SuppliedInstructionCompletesOrIsCancelled := by
  unfold Obligations.SuppliedInstructionCompletesOrIsCancelled
  intro s d len fetched ps
  refine ⟨fun t hfetched h => ?_, fun r hr hd => ?_, fun n => State.runSupplied_of_denied,
    fun hd => ⟨fun w hr => State.runSupplied_of_ok hd hr, fun w => ⟨fun e hr => ⟨fun hp => ?_, fun hp => ?_⟩,
    fun f hr => State.runSupplied_of_error hd hr, fun r hr => State.runSupplied_of_error hd hr⟩⟩⟩
  · cases hd : s.denied d [] ps with
    | some n =>
      rw [State.runSupplied_of_denied hd] at h
      cases h
      exact .inr (State.CancelledTo.deliver (n := s.draws) (Nat.le_refl _) _ _).frame
    | none =>
      cases hr : runPrims d s { s := s, fired := fetched } ps with
      | error ew =>
        obtain ⟨stop, w⟩ := ew
        obtain ⟨hn, hi, hP⟩ := runPrims_noted hfetched (.inr ⟨stop, hr⟩)
        rw [State.runSupplied_of_error hd hr] at h
        exact .inr (State.CancelledTo.stopped hn hi hP h).frame
      | ok w =>
        obtain ⟨hn, hi, hP⟩ := runPrims_noted hfetched (.inl hr)
        rw [State.runSupplied_of_ok hd hr] at h
        cases ha : (s.drawn w.s.draws).afterFlags w.fired w.flags with
        | some o =>
          rw [ha] at h
          exact .inr (State.CancelledTo.afterFlags hn hi hP ha h).frame
        | none =>
          rw [ha] at h
          cases h
          have hnil : w.fired ++ s.flagTriggers w.flags = [] := by
            refine Classical.byContradiction fun hne => ?_
            rw [State.afterFlags_of_triggers (s := s.drawn w.s.draws) hne] at ha
            cases ha
          rw [State.afterFlags_of_none (s := s.drawn w.s.draws) hnil, Option.map_eq_none_iff,
            List.head?_eq_none_iff] at ha
          obtain ⟨hfired, hflags⟩ := List.append_eq_nil_iff.1 hnil
          exact .inl ⟨rfl, w, rfl, hfired, hflags, ha, rfl, State.retire_pc _ _ _⟩
  · obtain ⟨n, hmem, hn⟩ := State.denied_of_spr (d := d) hr hd
    exact ⟨n, hmem, State.runSupplied_of_denied hn⟩
  · rw [State.runSupplied_of_error hd hr, State.stopped_of_precedes (s := s.drawn w.s.draws) hp]
  · exact (State.runSupplied_of_error hd hr).trans (State.stopped_event (s := s.drawn w.s.draws) hp _ _)

end Sys2Proof.Machine
end
